-- ==== Sys2Proof/Word.lean ====
section
/-! DEFINITION. The two word sizes of the block: 32-bit register words and 8-bit buffer bytes
(00_scope.md R10), and the widening the rules call zext_32. -/

namespace Sys2Proof

/-- A register value, a bus value or a mask: an unsigned 32-bit word, bit 0 the least significant
(R10). -/
abbrev Word := BitVec 32

/-- A buffer byte: an unsigned 8-bit value (R10). -/
abbrev Byte := BitVec 8

/-- `zext_32(b)`: a byte widened to 32 bits with zeros (R10). -/
def zext32 (b : Byte) : Word := b.setWidth 32

end Sys2Proof
end

