-- ==== Sys2Proof/Config.lean ====
section
/-! DEFINITION. The implementation parameters of 00_scope.md R9 and 93_implementation_defined.md I14,
and the free values: what the spec leaves to the device or to the platform. A free value is an
opaque constant, so no proof can see which value it is. -/

namespace Sys2Proof

/-- How four buffer bytes pack into one 32-bit DATA word: the values of HOST_BYTE_ORDER
(20_memory.md R48, 44_data_transfer.md R115). -/
inductive ByteOrder where
  | big
  | little
deriving DecidableEq, Repr

namespace Config

/-- REF_HZ: the fixed reference clock, in Hz (R9). -/
def refHz : Nat := 200000000

/-- N_SLOTS: the number of chip-select slots (R9). -/
def nSlots : Nat := 2

/-- MAX_XFER: the largest byte length of one transfer descriptor (R9). -/
def maxXfer : Nat := 256

/-- POLL_LIMIT: the largest number of readiness polls of one wait (R9). -/
def pollLimit : Nat := 2000

/-- DIV_MIN: the smallest clock divide (R9). -/
def divMin : Nat := 2

/-- DIV_MAX: the largest clock divide (R9). -/
def divMax : Nat := 16

/-- REG_WIDTH: the width of every register and of every bus access, in bits (R9, R45). -/
def regWidth : Nat := 32

/-- N_REGS: the number of registers in the window (R9, R17). -/
def nRegs : Nat := 5

/-- SPEED_MAX = REF_HZ div DIV_MIN, the fastest speed the divider represents (R9, R103). -/
def speedMax : Nat := refHz / divMin

/-- SPEED_MIN = REF_HZ div DIV_MAX, the slowest speed the divider represents (R9, R103). -/
def speedMin : Nat := refHz / divMax

/-- HOST_BYTE_ORDER, with the value the spec gives it (R9, R48). Every operation that packs bytes
takes the order as an argument, so that a claim can be made for both values. -/
def hostByteOrder : ByteOrder := .big

/-- ATTACH_OK: whether the attach that creates the controller handle succeeds
(70_reset_and_hazards.md R151). `State.attach` is defined for both values. -/
def attachOk : Bool := true

/-- REG_BASE: the base address of the register window, which the spec leaves open (R9, R44).
DESIGN CHOICE, log entry 1: an opaque constant, so every claim holds for every base. -/
opaque regBase : Nat

/-- The value the device answers to its `n`-th register read when no answer is pending in
`State.answers` (20_memory.md R53: any 32-bit value). DESIGN CHOICE, log entry 2: a free value. -/
opaque freeRead : Nat → Word

/-- The byte lane of DATA that the `k`-th byte of a 2-byte or 3-byte move travels in, by the LEN code
(R22, R94). DESIGN CHOICE, log entry 21: a free value, because the spec names the lanes of LEN codes 0
and 3 only. -/
opaque freeLane : BitVec 2 → Nat → Fin 4

end Config

end Sys2Proof
end

