-- ==== Sys2Proof/Machine/Flags.lean ====
section
/-! DEFINITION. The fields of the registers (30_encoding.md R68 to R73), read out of a 32-bit word.
The block has one flag, RDY; the other fields steer the device. -/

namespace Sys2Proof.Machine

/-- CSB0, CS bit 31: the chip-select-0 bar (R20). -/
def csb0 (w : Word) : Bool := w.getLsbD 31

/-- CSB1, CS bit 30: the chip-select-1 bar (R21). -/
def csb1 (w : Word) : Bool := w.getLsbD 30

/-- LEN, CS bits 29:28: the length-mode code (R22, R72). -/
def lenField (w : Word) : BitVec 2 := w.extractLsb' 28 2

/-- RDY, CS bit 27: the ready flag (R23). -/
def rdy (w : Word) : Bool := w.getLsbD 27

/-- IOW, CS bits 26:25: the I/O width (R24, R73). -/
def iowField (w : Word) : BitVec 2 := w.extractLsb' 25 2

/-- DPS, CS bit 24: the data-path select (R25). -/
def dps (w : Word) : Bool := w.getLsbD 24

/-- CS bits 23:0, which the source does not describe (R26). -/
def csLow (w : Word) : BitVec 24 := w.extractLsb' 0 24

/-- DIV, CFG bits 31:29: the clock divider code (R18, R68). -/
def divField (w : Word) : BitVec 3 := w.extractLsb' 29 3

/-- CFG bits 28:0, which the source does not describe (R18). -/
def cfgLow (w : Word) : BitVec 29 := w.extractLsb' 0 29

/-- CMD, CFG2 bits 31:24: the command field (R19, R69). -/
def cmdField (w : Word) : BitVec 8 := w.extractLsb' 24 8

/-- SIZE, CFG2 bits 23:21: the size field (R19, R69). -/
def sizeField (w : Word) : BitVec 3 := w.extractLsb' 21 3

/-- RD_OPT, CFG2 bit 20: the read-option bit (R19, R69). -/
def rdOpt (w : Word) : Bool := w.getLsbD 20

/-- HOLD, CFG2 bit 10: the hold flag (R19, R69). -/
def holdFlag (w : Word) : Bool := w.getLsbD 10

/-- The number of bytes one DATA access moves under a CS word's LEN code: LEN + 1 (R22, R72). -/
def lenBytes (w : Word) : Nat := (lenField w).toNat + 1

/-- The clock divide a divider code stands for: 2c + 2 (R70). -/
def divideOf (code : BitVec 3) : Nat := 2 * code.toNat + 2

end Sys2Proof.Machine
end

