-- ==== Sys2Proof/Syntax.lean ====
section
/-! DEFINITION. The block's instructions (00_scope.md R3, 30_encoding.md R63): the ten register-bus
accesses, the nine operations of the core, and the nine control and data words the core writes;
one constructor per row of opcode_table.json. -/

namespace Sys2Proof

/-- A transfer descriptor (10_state.md R36): the bytes to send, if any; the destination buffer as
the host hands it over, if any; the byte length; the speed, 0 when not specified. -/
structure Descriptor where
  tx : Option (List Byte)
  rx : Option (List Byte)
  len : Nat
  speedHz : Nat
deriving DecidableEq, Repr

/-- A message (10_state.md R37): the target slot, the speed ceiling, and the descriptors in order. -/
structure Message where
  slot : Nat
  ceilingHz : Nat
  xfers : List Descriptor
deriving DecidableEq, Repr

/-- One instruction of the block. -/
inductive Instr where
  /-- RD_CFG, R87. -/
  | rdCfg
  /-- WR_CFG, R88. -/
  | wrCfg (w : Word)
  /-- RD_CFG2, R89. -/
  | rdCfg2
  /-- WR_CFG2, R90. -/
  | wrCfg2 (w : Word)
  /-- RD_CS, R91. -/
  | rdCs
  /-- WR_CS, R92. -/
  | wrCs (w : Word)
  /-- RD_DATA, R93. -/
  | rdData
  /-- WR_DATA, R94. -/
  | wrData (w : Word)
  /-- RD_DATA2, R95. -/
  | rdData2
  /-- WR_DATA2, R96. -/
  | wrData2 (w : Word)
  /-- WAIT_READY, R97. -/
  | waitReady
  /-- NEGOTIATE, R100. -/
  | negotiate (requestedHz : Nat)
  /-- SETUP, R102. -/
  | setup (requestedMaxHz : Nat)
  /-- DESELECT, R107. -/
  | deselect
  /-- SELECT, R108. -/
  | select (slot : Nat)
  /-- XFER_WRITE, R112: the bytes to send. -/
  | xferWrite (bytes : List Byte)
  /-- XFER_READ, R113: the byte count, and the host's destination buffer as it stands before. -/
  | xferRead (n : Nat) (out : List Byte)
  /-- TRANSFER, R121. -/
  | transfer (m : Message)
  /-- MAX_XFER_SIZE, R131. -/
  | maxXferSize
  /-- CS_DESEL_BOTH, the CS word 0xC0000000 (R74, R107). -/
  | csDeselBoth
  /-- CS_ASSERT_BOTH, the CS word 0x00000000 (R74, R107). -/
  | csAssertBoth
  /-- CS_SEL0, the CS word 0x40000000 (R74, R108). -/
  | csSel0
  /-- CS_SEL1, the CS word 0x81000000 (R74, R108). -/
  | csSel1
  /-- CS_LEN4, a CS word with LEN = 3 (R72, R75): bits 31:30 and bits 27:0. -/
  | csLen4 (hi : BitVec 2) (lo : BitVec 28)
  /-- CS_LEN1, a CS word with LEN = 0 (R72, R75): bits 31:30 and bits 27:0. -/
  | csLen1 (hi : BitVec 2) (lo : BitVec 28)
  /-- CFG_DIV, a CFG word (R68, R76): the divider code and bits 28:0. -/
  | cfgDiv (code : BitVec 3) (rest : BitVec 29)
  /-- DATA_BYTE, a DATA word of the 1-byte mode (R78). -/
  | dataByte (b : Byte)
  /-- DATA_WORD, a DATA word of the 4-byte mode (R77). -/
  | dataWord (b0 b1 b2 b3 : Byte)
deriving DecidableEq, Repr

end Sys2Proof
end

