-- ==== Sys2Proof/Machine/Operands.lean ====
section
/-! DEFINITION. The words the core builds and takes apart: the control words of 30_encoding.md
R74 to R79, the byte packing of 44_data_transfer.md R114 and R115, and the divider arithmetic of
42_clock_configurator.md R100 and 00_scope.md R11. -/

namespace Sys2Proof.Machine

/-- LEN_MASK, and the LEN4 pattern under it (R72, R79). -/
def lenMask : Word := 0x30000000#32

/-- The complement of DIV_MASK: CFG bits 28:0 (R68, R76). -/
def cfgKeepMask : Word := 0x1FFFFFFF#32

/-- CS_DESEL_BOTH: both chip-selects deasserted (R74). -/
def wordDeselBoth : Word := 0xC0000000#32

/-- CS_ASSERT_BOTH: both chip-selects asserted (R74). -/
def wordAssertBoth : Word := 0x00000000#32

/-- CS_SEL0: slot 0 selected (R74). -/
def wordSel0 : Word := 0x40000000#32

/-- CS_SEL1: slot 1 selected, data path on the second lane (R74). -/
def wordSel1 : Word := 0x81000000#32

/-- The select word of a slot (R108). -/
def selectWord (slot : Nat) : Word := if slot = 0 then wordSel0 else wordSel1

/-- A CS word with a LEN code between its bits 31:30 and 27:0 (R71). -/
def csWord (hi : BitVec 2) (len : BitVec 2) (lo : BitVec 28) : Word := hi ++ len ++ lo

/-- A CFG word from a divider code and bits 28:0 (R68). -/
def cfgFieldsWord (code : BitVec 3) (rest : BitVec 29) : Word := code ++ rest

/-- NEGOTIATE's CFG word: the code in bits 31:29, the other bits as read (R76). -/
def cfgWord (old : Word) (code : BitVec 3) : Word :=
  (old &&& cfgKeepMask) ||| (code.setWidth 32 <<< 29)

/-- W.cs: the value read from CS with LEN cleared (R75). -/
def len1Word (r : Word) : Word := r &&& ~~~lenMask

/-- The Phase A CS word: LEN4 over W.cs (R75). -/
def len4Word (cs : Word) : Word := cs ||| lenMask

/-- `pack32`: four consecutive buffer bytes as one DATA word (R77, R115). -/
def pack32 (order : ByteOrder) (b0 b1 b2 b3 : Byte) : Word :=
  match order with
  | .big => zext32 b0 <<< 24 ||| zext32 b1 <<< 16 ||| zext32 b2 <<< 8 ||| zext32 b3
  | .little => zext32 b3 <<< 24 ||| zext32 b2 <<< 16 ||| zext32 b1 <<< 8 ||| zext32 b0

/-- Byte lane `k` of a word, lane 0 the least significant. -/
def lane (w : Word) (k : Nat) : Byte := w.extractLsb' (8 * k) 8

/-- The bytes of `w` that one DATA access moves under the CS word `cs`, from the highest lane down: in
1-byte mode the byte in bits 31:24, in 4-byte mode all four (R22, R27, R93, R94); in the two modes
whose lanes the spec does not name, bytes of free lanes (log entry 21). -/
def movedBytes (cs w : Word) : List Byte :=
  if lenField cs = 0#2 then [lane w 3]
  else if lenField cs = 3#2 then [lane w 3, lane w 2, lane w 1, lane w 0]
  else (List.range (lenBytes cs)).map fun k => lane w (Config.freeLane (lenField cs) k)

/-- `unpack32`: the four buffer bytes of a DATA word, in buffer order (R77, R115). -/
def unpack32 (order : ByteOrder) (w : Word) : List Byte :=
  match order with
  | .big => [lane w 3, lane w 2, lane w 1, lane w 0]
  | .little => [lane w 0, lane w 1, lane w 2, lane w 3]

/-- The DATA word of a 1-byte write: the byte in bits 31:24, 0 below (R78, R114). -/
def byteWord (b : Byte) : Word := zext32 b <<< 24

/-- The byte of a 1-byte read: `(word >> 24) & 0xFF` (R78, R114). -/
def wordByte (w : Word) : Byte := ((w >>> 24) &&& 0xFF#32).setWidth 8

/-- `ceil_div(a, b)` for b > 0, by the formula of R11. -/
def ceilDiv (a b : Nat) : Nat := (a + b - 1) / b

/-- NEGOTIATE's clamp of the rate to DIV_MIN (R100). -/
def clampRate (rate : Nat) : Nat := if rate < Config.divMin then Config.divMin else rate

/-- The divider code of a clamped rate: `(rate - 2) div 2`, 3 bits (R70, R100). -/
def codeOf (rate : Nat) : BitVec 3 := BitVec.ofNat 3 ((rate - 2) / 2)

/-- The message speed (R123): the least speed a descriptor specifies, or the ceiling where none
specifies one. A speed of 0 is not specified. -/
def messageSpeed (m : Message) : Nat :=
  match (m.xfers.map Descriptor.speedHz).filter (· ≠ 0) with
  | [] => m.ceilingHz
  | f :: fs => fs.foldl min f

/-- Byte `i` of a byte sequence. -/
def byteAt (b : List Byte) (i : Nat) : Byte := b.getD i 0

/-- A destination buffer with the bytes `bs` written from index `i` on (R60). -/
def putBytes (out : List Byte) (i : Nat) : List Byte → List Byte
  | [] => out
  | b :: bs => putBytes (out.set i b) (i + 1) bs

end Sys2Proof.Machine
end

