-- ==== Sys2Proof/WellFormed.lean ====
section
/-! DEFINITION. The host duties on a call's arguments (10_state.md R39 duties 2 to 5) and the
out-of-type arguments of 30_encoding.md R80: which instruction terms are legal. A call that breaks
a duty is refused by the machine, with no bus access. -/

namespace Sys2Proof

/-- Why an instruction's arguments are outside their types. -/
inductive Illegal where
  /-- A slot other than 0 and 1 (R39 duty 2). -/
  | badSlot
  /-- A length above MAX_XFER (R39 duty 3). -/
  | tooLong
  /-- A descriptor that requests neither a read nor a write (R39 duty 4). -/
  | noBuffer
  /-- A byte sequence or a destination that has not exactly the stated length (R39 duty 5, R113). -/
  | bufferSize
deriving DecidableEq, Repr

/-- A buffer, where present, has exactly `n` bytes. -/
def bufferFits (n : Nat) (buf : Option (List Byte)) : Bool := buf.all (fun b => b.length == n)

/-- What is illegal about a slot number (R39 duty 2). -/
def illegalSlot (slot : Nat) : Option Illegal :=
  if slot < Config.nSlots then none else some .badSlot

/-- What is illegal about a transfer of `n` bytes with these buffers (R39 duties 3 and 5, R113). -/
def illegalLength (n : Nat) (tx rx : Option (List Byte)) : Option Illegal :=
  if Config.maxXfer < n then some .tooLong
  else if bufferFits n tx && bufferFits n rx then none
  else some .bufferSize

/-- What is illegal about a descriptor. One that requests both a read and a write is legal: it is
rejected at run time (R80, R124). -/
def Descriptor.illegal (t : Descriptor) : Option Illegal :=
  if t.tx.isNone && t.rx.isNone then some .noBuffer else illegalLength t.len t.tx t.rx

/-- The first thing illegal about a message, if any. -/
def Message.illegal (m : Message) : Option Illegal :=
  match illegalSlot m.slot with
  | some e => some e
  | none => m.xfers.findSome? Descriptor.illegal

/-- What is illegal about an instruction's arguments, if anything. -/
def Instr.illegal : Instr → Option Illegal
  | .rdCfg => none
  | .wrCfg _ => none
  | .rdCfg2 => none
  | .wrCfg2 _ => none
  | .rdCs => none
  | .wrCs _ => none
  | .rdData => none
  | .wrData _ => none
  | .rdData2 => none
  | .wrData2 _ => none
  | .waitReady => none
  | .negotiate _ => none
  | .setup _ => none
  | .deselect => none
  | .select slot => illegalSlot slot
  | .xferWrite bytes => illegalLength bytes.length (some bytes) none
  | .xferRead n out => illegalLength n none (some out)
  | .transfer m => m.illegal
  | .maxXferSize => none
  | .csDeselBoth => none
  | .csAssertBoth => none
  | .csSel0 => none
  | .csSel1 => none
  | .csLen4 _ _ => none
  | .csLen1 _ _ => none
  | .cfgDiv _ _ => none
  | .dataByte _ => none
  | .dataWord _ _ _ _ => none

/-- A legal instruction term. -/
def Instr.wf (i : Instr) : Bool := i.illegal.isNone

end Sys2Proof
end

