-- ==== Sys2Proof/Decode.lean ====
section
/-! DEFINITION. Decoding and encoding (30_encoding.md). The spec's codes live in separate spaces,
told apart by the format of an opcode-table row (R63): bus descriptors (R65), operation labels
(R67) and register words, the words by the register and the mode they are written in (R74 to R78,
R84). A request is a format, a 32-bit code, and the operands that travel beside the code as plain
naturals (R64, R66, R85). Log entries 3, 4 and 5. -/

namespace Sys2Proof

/-- Which code space a request's code belongs to (R63, R84). -/
inductive Format where
  /-- A 6-bit bus access descriptor (R64). -/
  | bus
  /-- A 4-bit operation label (R66). -/
  | op
  /-- One of the four whole CS words of the chip-select sequencer (R74). -/
  | csSelect
  /-- A CS word of the data engine, known by its LEN pattern (R72, R75). -/
  | csLength
  /-- A CFG word (R76). -/
  | cfg
  /-- A DATA word of the 4-byte mode (R77). -/
  | dataWord
  /-- A DATA word of the 1-byte mode (R78). -/
  | dataByte
deriving DecidableEq, Repr

/-- An encoded instruction: its code, and its operands beside it. -/
structure Request where
  format : Format
  code : Word
  operands : List Nat
deriving DecidableEq, Repr

/-- Why a request is no instruction. -/
inductive DecodeError where
  /-- A bus descriptor other than the ten of R65 (R80). -/
  | illegalDescriptor
  /-- An operation label 0x9 to 0xF (R80). -/
  | illegalLabel
  /-- A register word that matches no row of its format (R84). -/
  | illegalWord
  /-- Operands that are not the ones the code takes, or not of their types (R64, R66, R80). -/
  | badOperands
deriving DecidableEq, Repr

/-- What decoding answers: an instruction, or a rejection by name. -/
inductive Decoded where
  | ok (i : Instr)
  | reject (e : DecodeError)
deriving DecidableEq, Repr

/-- A decoding that answers an instruction where the operands were read, and rejects them where
they were not. -/
def Decoded.ofOperands : Option Instr → Decoded
  | some i => .ok i
  | none => .reject .badOperands

/-! ### Operands -/

/-- No operand. -/
def readNone (i : Instr) : List Nat → Option Instr
  | [] => some i
  | _ :: _ => none

/-- One 32-bit word (R64). -/
def readWord (f : Word → Instr) : List Nat → Option Instr
  | [n] => if n < 2 ^ 32 then some (f (BitVec.ofNat 32 n)) else none
  | _ => none

/-- One natural (R67). -/
def readNat (f : Nat → Instr) : List Nat → Option Instr
  | [n] => some (f n)
  | _ => none

/-- The next `k` bytes, and the operands after them. -/
def takeBytes : Nat → List Nat → Option (List Byte × List Nat)
  | 0, ns => some ([], ns)
  | _ + 1, [] => none
  | k + 1, n :: ns =>
    if n < 256 then
      match takeBytes k ns with
      | some (bs, rest) => some (BitVec.ofNat 8 n :: bs, rest)
      | none => none
    else none

/-- A byte sequence: its length, then its bytes. -/
def takeSeq : List Nat → Option (List Byte × List Nat)
  | [] => none
  | k :: ns => takeBytes k ns

/-- A buffer that may be absent: 0, or 1 and the byte sequence. -/
def takeBuffer : List Nat → Option (Option (List Byte) × List Nat)
  | [] => none
  | 0 :: ns => some (none, ns)
  | 1 :: ns =>
    match takeSeq ns with
    | some (bs, rest) => some (some bs, rest)
    | none => none
  | (_ + 2) :: _ => none

/-- A descriptor: its length, its speed, its two buffers. -/
def takeDescriptor : List Nat → Option (Descriptor × List Nat)
  | len :: speed :: ns =>
    match takeBuffer ns with
    | some (tx, ns1) =>
      match takeBuffer ns1 with
      | some (rx, rest) => some (⟨tx, rx, len, speed⟩, rest)
      | none => none
    | none => none
  | _ => none

/-- The next `k` descriptors. -/
def takeDescriptors : Nat → List Nat → Option (List Descriptor × List Nat)
  | 0, ns => some ([], ns)
  | k + 1, ns =>
    match takeDescriptor ns with
    | some (t, ns1) =>
      match takeDescriptors k ns1 with
      | some (ts, rest) => some (t :: ts, rest)
      | none => none
    | none => none

/-- XFER_WRITE's operand: one byte sequence, and nothing after it. -/
def readXferWrite (ns : List Nat) : Option Instr :=
  match takeSeq ns with
  | some (bs, []) => some (.xferWrite bs)
  | _ => none

/-- XFER_READ's operands: the count, the destination, and nothing after them. -/
def readXferRead : List Nat → Option Instr
  | [] => none
  | n :: ns =>
    match takeSeq ns with
    | some (out, []) => some (.xferRead n out)
    | _ => none

/-- TRANSFER's operands: the slot, the ceiling, the number of descriptors, the descriptors, and
nothing after them. -/
def readTransfer : List Nat → Option Instr
  | slot :: ceiling :: k :: ns =>
    match takeDescriptors k ns with
    | some (ts, []) => some (.transfer ⟨slot, ceiling, ts⟩)
    | _ => none
  | _ => none

/-! ### Decoding, format by format -/

/-- Decoding a bus descriptor: `d & 0x3F` against the ten legal values (R65, R84). -/
def decodeBus (d : Word) (ns : List Nat) : Decoded :=
  match (d &&& 0x3F#32).toNat with
  | 0x00 => .ofOperands (readNone .rdCfg ns)
  | 0x20 => .ofOperands (readWord .wrCfg ns)
  | 0x04 => .ofOperands (readNone .rdCfg2 ns)
  | 0x24 => .ofOperands (readWord .wrCfg2 ns)
  | 0x08 => .ofOperands (readNone .rdCs ns)
  | 0x28 => .ofOperands (readWord .wrCs ns)
  | 0x0C => .ofOperands (readNone .rdData ns)
  | 0x2C => .ofOperands (readWord .wrData ns)
  | 0x10 => .ofOperands (readNone .rdData2 ns)
  | 0x30 => .ofOperands (readWord .wrData2 ns)
  | _ => .reject .illegalDescriptor

/-- Decoding an operation label: `op & 0xF` against the nine labels (R67, R84). -/
def decodeOp (op : Word) (ns : List Nat) : Decoded :=
  match (op &&& 0xF#32).toNat with
  | 0x0 => .ofOperands (readNone .waitReady ns)
  | 0x1 => .ofOperands (readNat .negotiate ns)
  | 0x2 => .ofOperands (readNat .setup ns)
  | 0x3 => .ofOperands (readNone .deselect ns)
  | 0x4 => .ofOperands (readNat .select ns)
  | 0x5 => .ofOperands (readXferWrite ns)
  | 0x6 => .ofOperands (readXferRead ns)
  | 0x7 => .ofOperands (readTransfer ns)
  | 0x8 => .ofOperands (readNone .maxXferSize ns)
  | _ => .reject .illegalLabel

/-- Decoding a chip-select word: exact match against R74 (R84). -/
def decodeCsSelect (w : Word) (ns : List Nat) : Decoded :=
  match w.toNat with
  | 0xC0000000 => .ofOperands (readNone .csDeselBoth ns)
  | 0x00000000 => .ofOperands (readNone .csAssertBoth ns)
  | 0x40000000 => .ofOperands (readNone .csSel0 ns)
  | 0x81000000 => .ofOperands (readNone .csSel1 ns)
  | _ => .reject .illegalWord

/-- Decoding a data-engine CS word by its LEN pattern: 3 or 0 under mask 0x30000000 (R72, R84). -/
def decodeCsLength (w : Word) (ns : List Nat) : Decoded :=
  match (Machine.lenField w).toNat with
  | 3 => .ofOperands (readNone (.csLen4 (w.extractLsb' 30 2) (w.extractLsb' 0 28)) ns)
  | 0 => .ofOperands (readNone (.csLen1 (w.extractLsb' 30 2) (w.extractLsb' 0 28)) ns)
  | _ => .reject .illegalWord

/-- Decoding a CFG word: every word is one (R68, R70: no code is reserved). -/
def decodeCfg (w : Word) (ns : List Nat) : Decoded :=
  .ofOperands (readNone (.cfgDiv (Machine.divField w) (Machine.cfgLow w)) ns)

/-- Decoding a DATA word of the 4-byte mode, its bytes in the order of the opcode table's row,
which is HOST_BYTE_ORDER = big (R77). -/
def decodeDataWord (w : Word) (ns : List Nat) : Decoded :=
  .ofOperands (readNone
    (.dataWord (Machine.lane w 3) (Machine.lane w 2) (Machine.lane w 1) (Machine.lane w 0)) ns)

/-- Decoding a DATA word of the 1-byte mode: bits 23:0 are 0 (R78). -/
def decodeDataByte (w : Word) (ns : List Nat) : Decoded :=
  if w &&& 0x00FFFFFF#32 = 0#32 then .ofOperands (readNone (.dataByte (Machine.lane w 3)) ns)
  else .reject .illegalWord

/-- Decoding (R84): total, one instruction or a rejection by name. -/
def decode (r : Request) : Decoded :=
  match r.format with
  | .bus => decodeBus r.code r.operands
  | .op => decodeOp r.code r.operands
  | .csSelect => decodeCsSelect r.code r.operands
  | .csLength => decodeCsLength r.code r.operands
  | .cfg => decodeCfg r.code r.operands
  | .dataWord => decodeDataWord r.code r.operands
  | .dataByte => decodeDataByte r.code r.operands

/-! ### Encoding -/

/-- A byte sequence as operands. -/
def putSeq (bs : List Byte) : List Nat := bs.length :: bs.map BitVec.toNat

/-- A buffer that may be absent, as operands. -/
def putBuffer : Option (List Byte) → List Nat
  | none => [0]
  | some bs => 1 :: putSeq bs

/-- A descriptor as operands. -/
def putDescriptor (t : Descriptor) : List Nat :=
  t.len :: t.speedHz :: (putBuffer t.tx ++ putBuffer t.rx)

/-- A message as operands. -/
def putMessage (m : Message) : List Nat :=
  m.slot :: m.ceilingHz :: m.xfers.length :: m.xfers.flatMap putDescriptor

/-- The encoding of an instruction, from the tables of R65, R67, R74 and R75 to R78. -/
def encode : Instr → Request
  | .rdCfg => ⟨.bus, 0x00#32, []⟩
  | .wrCfg w => ⟨.bus, 0x20#32, [w.toNat]⟩
  | .rdCfg2 => ⟨.bus, 0x04#32, []⟩
  | .wrCfg2 w => ⟨.bus, 0x24#32, [w.toNat]⟩
  | .rdCs => ⟨.bus, 0x08#32, []⟩
  | .wrCs w => ⟨.bus, 0x28#32, [w.toNat]⟩
  | .rdData => ⟨.bus, 0x0C#32, []⟩
  | .wrData w => ⟨.bus, 0x2C#32, [w.toNat]⟩
  | .rdData2 => ⟨.bus, 0x10#32, []⟩
  | .wrData2 w => ⟨.bus, 0x30#32, [w.toNat]⟩
  | .waitReady => ⟨.op, 0x0#32, []⟩
  | .negotiate hz => ⟨.op, 0x1#32, [hz]⟩
  | .setup hz => ⟨.op, 0x2#32, [hz]⟩
  | .deselect => ⟨.op, 0x3#32, []⟩
  | .select slot => ⟨.op, 0x4#32, [slot]⟩
  | .xferWrite bytes => ⟨.op, 0x5#32, putSeq bytes⟩
  | .xferRead n out => ⟨.op, 0x6#32, n :: putSeq out⟩
  | .transfer m => ⟨.op, 0x7#32, putMessage m⟩
  | .maxXferSize => ⟨.op, 0x8#32, []⟩
  | .csDeselBoth => ⟨.csSelect, 0xC0000000#32, []⟩
  | .csAssertBoth => ⟨.csSelect, 0x00000000#32, []⟩
  | .csSel0 => ⟨.csSelect, 0x40000000#32, []⟩
  | .csSel1 => ⟨.csSelect, 0x81000000#32, []⟩
  | .csLen4 hi lo => ⟨.csLength, Machine.csWord hi 3#2 lo, []⟩
  | .csLen1 hi lo => ⟨.csLength, Machine.csWord hi 0#2 lo, []⟩
  | .cfgDiv code rest => ⟨.cfg, Machine.cfgFieldsWord code rest, []⟩
  | .dataByte b => ⟨.dataByte, Machine.byteWord b, []⟩
  | .dataWord b0 b1 b2 b3 => ⟨.dataWord, Machine.pack32 .big b0 b1 b2 b3, []⟩

/-! ### The opcode table's words -/

/-- The operands an all-zero request of this code carries: as many zeros as the code takes. -/
def zeroOperands (format : Format) (code : Word) : List Nat :=
  match format with
  | .bus => if code.getLsbD 5 then [0] else []
  | .op =>
    match (code &&& 0xF#32).toNat with
    | 1 => [0]
    | 2 => [0]
    | 4 => [0]
    | 5 => [0]
    | 6 => [0, 0]
    | 7 => [0, 0, 0]
    | _ => []
  | .csSelect => []
  | .csLength => []
  | .cfg => []
  | .dataWord => []
  | .dataByte => []

/-- The format a bare opcode-table word is taken in. The table numbers its three kinds of row in
spaces that overlap, so this is a choice where a word stands in more than one: log entry 5. -/
def tableFormat (nbits : Nat) (w : Word) : Format :=
  if nbits ≤ 4 then .op
  else if nbits ≤ 6 then .bus
  else if nbits ≤ 8 then (if w.toNat ≤ 8 then .op else .bus)
  else if w = 0xC0000000#32 ∨ w = 0x00000000#32 ∨ w = 0x40000000#32 ∨ w = 0x81000000#32 then
    .csSelect
  else if w = 0x30000000#32 then .csLength
  else if w &&& 0x00FFFFFF#32 = 0#32 then .dataByte
  else if Machine.lenField w = 0#2 ∨ Machine.lenField w = 3#2 then .csLength
  else .dataWord

/-- The request that an opcode-table word of `nbits` bits stands for, its operands zero. -/
def tableRequest (nbits w : Nat) : Request :=
  let code := BitVec.ofNat 32 w
  let format := tableFormat nbits code
  ⟨format, code, zeroOperands format code⟩

/-- The instruction the decoder reads from an opcode-table word. -/
def decodeTableWord (nbits w : Nat) : Option Instr :=
  match decode (tableRequest nbits w) with
  | .ok i => some i
  | .reject _ => none

end Sys2Proof
end

