-- ==== Sys2Proof/Machine/State.lean ====
section
/-! DEFINITION. The state of the block (10_state.md): the controller handle, the sequencer, the
working registers, the register window as the device latches it, the device's pending answers, the
bus trace, the host's buffers and reports, and the pending calls; the fault and refusal reasons; and
attach, which is the block's reset (70_reset_and_hazards.md R150). -/

namespace Sys2Proof.Machine

/-- The five registers of the window (10_state.md R17). -/
inductive Reg where
  | cfg
  | cfg2
  | cs
  | data
  | data2
deriving DecidableEq, Repr

/-- One bus access as the trace records it (00_scope.md R12): `rd off -> value`, `wr off <- v`. -/
inductive Event where
  | rd (r : Reg) (v : Word)
  | wr (r : Reg) (v : Word)
deriving DecidableEq, Repr

/-- The status kinds, with the error kinds of 60_exceptions.md R132 and R133. -/
inductive Status where
  | ok
  | timedOut
  | invalidSpeed
  | conflictingTransfer
  | resourceUnavailable
deriving DecidableEq, Repr

/-- The message states of the sequencer (10_state.md R32, 45_message.md). -/
inductive Phase where
  | idle
  | awaitReady
  | prepared
  | selected
  | transferring (k : Nat)
  | deselected
  | done
deriving DecidableEq, Repr

/-- The operations of the core (R67): the one in progress is sequencer state (R32). -/
inductive OpName where
  | waitReady
  | negotiate
  | setup
  | deselect
  | select
  | xferWrite
  | xferRead
  | transfer
  | maxXferSize
deriving DecidableEq, Repr

/-- An operation in progress and its position in its pseudocode (R32): the line it is at, numbered
within its rule's block (R97, R100, R102, R107, R108, R112, R113, R121, R131) from 1 below the header,
which is 0. -/
structure Frame where
  op : OpName
  line : Nat
deriving DecidableEq, Repr

/-- What the sequencer did: entered a message state, began an operation, came to a line of its
pseudocode, or ended it with a status. -/
inductive SeqPoint where
  | phase (p : Phase)
  | enter (o : OpName)
  | line (o : OpName) (n : Nat)
  | leave (o : OpName) (st : Status)
deriving DecidableEq, Repr

/-- A move of the sequencer, with the number of bus accesses issued before it. -/
structure Mark where
  count : Nat
  what : SeqPoint
deriving DecidableEq, Repr

/-- The chip-select lines and the data-path routing the device drives (10_state.md R34): whether
each slot's line is asserted, and whether the data registers go to the second lane. -/
structure Lines where
  slot0 : Bool
  slot1 : Bool
  secondLane : Bool
deriving DecidableEq, Repr

/-- One movement of bytes on the SPI bus by a DATA access (R27, R35, R93, R94): its direction, the
bytes of the DATA word it moves, from the highest lane down, the lines it goes over, and the word on
the register side. The order of the bytes on the wire is not in the spec (N4). -/
structure SpiMove where
  out : Bool
  bytes : List Byte
  lines : Lines
  word : Word
deriving DecidableEq, Repr

/-- What a call gives its invoker beside the status (10_state.md R41, 30_encoding.md R67). -/
inductive Answer where
  /-- Nothing. -/
  | none
  /-- The word a register read returned. -/
  | word (w : Word)
  /-- SETUP's adjusted speed. -/
  | hz (n : Nat)
  /-- MAX_XFER_SIZE's constant. -/
  | size (n : Nat)
  /-- XFER_READ's destination, and how many of its bytes the engine wrote, from index 0 on. -/
  | bytes (filled : Nat) (out : List Byte)
  /-- TRANSFER's actual byte count, and each descriptor's destination. -/
  | message (actual : Nat) (buffers : List (Option (List Byte)))
deriving DecidableEq, Repr

/-- One report to the invoker of a call (R127, R41). -/
structure Report where
  status : Status
  answer : Answer
deriving DecidableEq, Repr

/-- The controller handle (10_state.md R31). -/
structure Handle where
  base : Nat
  refHz : Nat
  lastSpeedHz : Nat
deriving DecidableEq, Repr

/-- The working registers W.* (10_state.md R29). Between operations each keeps the value the last
operation that wrote it left there: log entry 22. -/
structure Work where
  poll : Nat
  rate : Nat
  code : BitVec 3
  cfg : Word
  cs : Word
  i : Nat
  word : Word
  speed : Nat
  actual : Nat
  status : Status
deriving DecidableEq, Repr

/-- The register window on the device's side: the word last written to each register, which is what
the device latches (10_state.md R34, R35). What a read returns is not taken from here (R53), and a read
leaves it as it is: log entry 15. -/
structure Window where
  cfg : Word
  cfg2 : Word
  cs : Word
  data : Word
  data2 : Word
deriving DecidableEq, Repr

/-- Who makes a call: the host, or the core itself (R8, R38, R67). -/
inductive Invoker where
  | host
  | core
deriving DecidableEq, Repr

/-- A pending call: who makes it, and its encoded request (R38, R144). -/
structure Call where
  invoker : Invoker
  request : Request
deriving DecidableEq, Repr

/-- The state of the machine. -/
structure State where
  /-- The controller handle; none where attach failed or after detach (R31, R151). -/
  handle : Option Handle
  /-- The message state (R32). -/
  seq : Phase
  /-- The operations in progress, innermost first, each with its position in its pseudocode (R32);
  empty when none runs. -/
  ops : List Frame
  /-- The model's own record of the sequencer's moves, oldest first. -/
  seqLog : List Mark
  /-- The working registers (R29). -/
  w : Work
  /-- The register window as latched by the device (R17 to R27, R34, R35). -/
  window : Window
  /-- The model's own record of the bytes moved on the SPI bus, oldest first (R27, R51). -/
  spi : List SpiMove
  /-- The device's answers to the next register reads (R8, R53), an input of the machine. -/
  answers : List Word
  /-- How many register reads the device has answered: the model's own counter (R53). -/
  draws : Nat
  /-- The bus trace, oldest access first (R12). -/
  trace : List Event
  /-- The destination buffer of the read transfer in hand, owned by the host (R60). -/
  out : List Byte
  /-- How many bytes of it the engine has written (R118). -/
  filled : Nat
  /-- The destination buffers of the message in hand, one place per descriptor (R41). -/
  buffers : List (Option (List Byte))
  /-- The reports given so far, oldest first (R127). -/
  reports : List Report
  /-- The pending calls, oldest first, each with its invoker (R8, R38, R144): an input of the machine.
  A call by the core is an operation or access it invokes outside a message: log entry 11. -/
  calls : List Call
deriving DecidableEq, Repr

/-- Why the machine stops with a fault. The block has no fault: every error of 60_exceptions.md is a
status it reports (R138), so this type has no constructor and no step faults. -/
inductive Fault
deriving DecidableEq, Repr

/-- Why the machine gives no meaning to a call. -/
inductive Refusal where
  /-- An instruction without a meaning yet, raised by `exec`'s arm; no arm raises it. Safe. -/
  | notModelled (mnemonic : String)
  /-- A request that encodes no instruction (R80, D23), raised by `step`. Safe. -/
  | illegalEncoding (e : DecodeError)
  /-- A call by another than the one its instruction is open to: a host's call of an internal operation
  or of a register access, or the core's of an entry point (R8, R38, R67, R144), raised by `step`. Safe. -/
  | wrongInvoker
  /-- Arguments outside their types (R39, R80, D10, D11, D31), raised by every meaning that takes
  such an argument. Safe. -/
  | illegalArgument (e : Illegal)
  /-- A call without a controller handle (R137, R151), raised by every meaning. Safe. -/
  | noHandle
  /-- A call while another is in flight (R39 duty 1, R159), raised by every meaning. Safe. -/
  | callInFlight
deriving DecidableEq, Repr

/-- The state right after an attach with the given outcome (R150, R151). A failed attach leaves no
handle. What the spec leaves unspecified holds 0 here: log entry 6. -/
def State.attach (attachOk : Bool) : State where
  handle := if attachOk then some ⟨Config.regBase, Config.refHz, 0⟩ else none
  seq := .idle
  ops := []
  seqLog := []
  w := ⟨0, 0, 0#3, 0#32, 0#32, 0, 0#32, 0, 0, .ok⟩
  window := ⟨0#32, 0#32, 0#32, 0#32, 0#32⟩
  spi := []
  answers := []
  draws := 0
  trace := []
  out := []
  filled := 0
  buffers := []
  reports := []
  calls := []

/-- The state right after reset: an attach with the outcome ATTACH_OK (R42, R150). -/
def State.reset : State := State.attach Config.attachOk

end Sys2Proof.Machine
end

