-- ==== Sys2Proof/Machine/Ops.lean ====
section
/-! DEFINITION. The operations every instruction is made of: the register window and the bus
(00_scope.md R12, 20_memory.md), the sequencer's moves (10_state.md R32), raising an error and
propagating it (00_scope.md R13, 60_exceptions.md R138), the host's buffers (R60), reports (R127),
and the acceptance of a call (R39). -/

namespace Sys2Proof.Machine

/-! ### The register window -/

/-- The registers of the window, in the order of their offsets (R17). -/
def allRegs : List Reg := [.cfg, .cfg2, .cs, .data, .data2]

/-- The byte offset of a register (R17). -/
def Reg.offset : Reg → Nat
  | .cfg => 0x0
  | .cfg2 => 0x4
  | .cs => 0x8
  | .data => 0xC
  | .data2 => 0x10

/-- The word the device latched for a register. -/
def Window.get (win : Window) : Reg → Word
  | .cfg => win.cfg
  | .cfg2 => win.cfg2
  | .cs => win.cs
  | .data => win.data
  | .data2 => win.data2

/-- The window after a register took a word: all 32 bits at once (R46). -/
def Window.set (win : Window) (r : Reg) (v : Word) : Window :=
  match r with
  | .cfg => { win with cfg := v }
  | .cfg2 => { win with cfg2 := v }
  | .cs => { win with cs := v }
  | .data => { win with data := v }
  | .data2 => { win with data2 := v }

/-- The lines the device drives under a CS word (R20, R21, R25, R92): a slot's line is asserted iff
its bar bit is 0; DPS routes the data registers to the second lane. The spec does not say what the device
does with a DPS out of step with CSB1 (R109, 91_not_in_source.md N11); that each bit has its own effect
of R92 there too is the model's choice: log entry 23. -/
def linesOf (cs : Word) : Lines := ⟨!csb0 cs, !csb1 cs, dps cs⟩

/-- The chip-select lines and the data-path routing (R34). -/
def State.lines (s : State) : Lines := linesOf s.window.cs

/-- The clock divide the SPI clock runs at (R35, R88). -/
def State.divide (s : State) : Nat := divideOf (divField s.window.cfg)

/-! ### The device's answers -/

/-- The value the device answers to the `k`-th register read from here on, counted from 0: a pending
answer, or a free value (R53). Log entry 2. -/
def State.answerAt (s : State) (k : Nat) : Word :=
  (s.answers[k]?).getD (Config.freeRead (s.draws + k))

/-- The state after the device answered one register read. -/
def State.afterAnswer (s : State) : State :=
  { s with answers := s.answers.tail, draws := s.draws + 1 }

/-! ### Bus accesses -/

/-- The state with one more access in the trace (R12). -/
def State.record (s : State) (e : Event) : State := { s with trace := s.trace ++ [e] }

/-- The device's side of an access to `r` that carries `v`: a DATA access moves LEN + 1 bytes of `v`
over the lines as they stand (R27, R35, R51, R93, R94). That it moves them also where DPS and the bar bits
address no slot as R109 says, or both, is the model's choice: log entry 23. -/
def State.moveData (s : State) (r : Reg) (out : Bool) (v : Word) : State :=
  if r = .data then
    { s with spi := s.spi ++ [⟨out, movedBytes s.window.cs v, s.lines, v⟩] }
  else s

/-- `RegRead`: one 32-bit read access, which returns the device's answer (R12, R53). What a read leaves in
the device's latches the spec does not say: neither what a DATA read leaves in DATA (the bytes shifted in
or the word last written, R27) nor what a CS read clears (R51, N3). That every latch keeps the word last
written is the model's choice: log entry 15. -/
def regRead (r : Reg) (s : State) : Word × State :=
  (s.answerAt 0, (s.afterAnswer.record (.rd r (s.answerAt 0))).moveData r false (s.answerAt 0))

/-- `RegWrite`: one 32-bit write access (R12, R54). -/
def regWrite (r : Reg) (v : Word) (s : State) : State :=
  (({ s with window := s.window.set r v }).record (.wr r v)).moveData r true v

/-- The register an access of `width` bytes at `addr` reaches, with the window at `base`: only a
access of REG_WIDTH bits at one of the five offsets reaches one (R43, R45, R50). -/
def regAt (base addr width : Nat) : Option Reg :=
  if 8 * width ≠ Config.regWidth then none
  else allRegs.find? (fun r => addr == base + r.offset)

/-- `MemRead(addr, width)` through the handle's window (R12); none for an access that has no meaning
(R50). -/
def memRead (addr width : Nat) (s : State) : Option (Word × State) :=
  match s.handle with
  | some h => (regAt h.base addr width).map (fun r => regRead r s)
  | none => none

/-- `MemWrite(addr, width, v)` through the handle's window (R12); none for an access that has no
meaning (R50). -/
def memWrite (addr width : Nat) (v : Word) (s : State) : Option State :=
  match s.handle with
  | some h => (regAt h.base addr width).map (fun r => regWrite r v s)
  | none => none

/-! ### How an operation of the core ends -/

/-- How an operation ends: successfully, or with a raised error (R13); and the state it leaves. -/
inductive Res where
  | ok (s : State)
  | raise (e : Status) (s : State)
deriving DecidableEq, Repr

/-- The state an operation leaves. -/
def Res.state : Res → State
  | .ok s => s
  | .raise _ s => s

/-- The status an operation ends with. -/
def Res.status : Res → Status
  | .ok _ => .ok
  | .raise e _ => e

/-- What follows an operation: nothing where it raised, which is propagation (R13, R138). -/
def Res.andThen (r : Res) (f : State → Res) : Res :=
  match r with
  | .ok s => f s
  | .raise e s => .raise e s

/-- The same end, the state it leaves changed. -/
def Res.mapState (r : Res) (f : State → State) : Res :=
  match r with
  | .ok s => .ok (f s)
  | .raise e s => .raise e (f s)

/-- `raise E()`: the operation ends at once, with no further bus access and nothing restored (R13,
R138). -/
def raiseError (e : Status) (s : State) : Res := .raise e s

/-- `Delay(t)`: no state change and no bus access (R13, R97, D32). Log entry 7. -/
def delay (s : State) : State := s

/-! ### The sequencer -/

/-- The state with one more move in the sequencer's record. -/
def State.mark (s : State) (p : SeqPoint) : State :=
  { s with seqLog := s.seqLog ++ [⟨s.trace.length, p⟩] }

/-- `state <- p` (R32, R121). -/
def enterPhase (p : Phase) (s : State) : State := { s with seq := p }.mark (.phase p)

/-- An operation begins, at the header of its pseudocode. -/
def enterOp (o : OpName) (s : State) : State := { s with ops := ⟨o, 0⟩ :: s.ops }.mark (.enter o)

/-- The innermost operation, which is `o`, comes to line `n` of its pseudocode (R32). -/
def atLine (o : OpName) (n : Nat) (s : State) : State :=
  { s with ops := ⟨o, n⟩ :: s.ops.tail }.mark (.line o n)

/-- The innermost operation ends with a status. -/
def leaveOp (o : OpName) (st : Status) (s : State) : State :=
  { s with ops := s.ops.tail }.mark (.leave o st)

/-- `call Op`: the operation runs as the innermost one and ends, successfully or not (R13). The
working registers are not cleared at its start, where the spec treats each as unwritten (R29): log
entry 22. -/
def within (o : OpName) (body : State → Res) (s : State) : Res :=
  (body (enterOp o s)).mapState (leaveOp o (body (enterOp o s)).status)

/-- `return Ok`, at line `n` (R13). -/
def returnAt (o : OpName) (n : Nat) (s : State) : Res := .ok (atLine o n s)

/-- `raise E()`, at line `n` (R13). -/
def raiseAt (o : OpName) (n : Nat) (e : Status) (s : State) : Res := raiseError e (atLine o n s)

/-- A working register is written. -/
def State.setW (s : State) (w : Work) : State := { s with w := w }

/-! ### The handle -/

/-- `handle.last_speed_hz <- hz` (R31, R100). -/
def recordSpeed (hz : Nat) (s : State) : State :=
  { s with handle := s.handle.map (fun h => { h with lastSpeedHz := hz }) }

/-- Detach destroys the handle; no register access is specified for it (R31, R150). What it leaves in
the register window and on the chip-select lines is not in the source (91_not_in_source.md N18). That
every latch, every line and all other state stay as they were, so that a line still asserted stays
asserted, is the model's choice: log entry 14. -/
def detach (s : State) : State := { s with handle := none }

/-- The status of an attach (R133, R151). -/
def attachStatus (attachOk : Bool) : Status := if attachOk then .ok else .resourceUnavailable

/-- The status codes of R133. -/
def Status.code : Status → Nat
  | .ok => 0
  | .timedOut => 1
  | .invalidSpeed => 2
  | .conflictingTransfer => 3
  | .resourceUnavailable => 4

/-- The I/O-error class of R128: every status other than Ok. -/
def Status.isIoError (st : Status) : Bool := st != .ok

/-! ### Host buffers -/

/-- The host hands over a destination buffer for the duration of a call (R60). -/
def handBuffer (out : List Byte) (s : State) : State := { s with out := out, filled := 0 }

/-- The engine writes received bytes into the destination from index `i` on (R60, R118). -/
def storeBytes (i : Nat) (bs : List Byte) (s : State) : State :=
  { s with out := putBytes s.out i bs, filled := i + bs.length }

/-- The destination in hand goes back to descriptor `k`'s place in the message (R41, R118). -/
def returnBuffer (k : Nat) (s : State) : State :=
  { s with buffers := s.buffers.set k (some s.out) }

/-! ### Taking an error, and the return from it -/

/-- TRANSFER takes an error: W.status is its kind, and the message goes to Done (R121, R138). This is
the block's exception entry; nothing else is saved and nothing is restored. -/
def takeError (e : Status) (s : State) : State := s.setW { s.w with status := e }

/-- One report to the invoker (R127). -/
def report (st : Status) (a : Answer) (s : State) : State :=
  { s with reports := s.reports ++ [⟨st, a⟩] }

/-- Done: the report of (W.status, W.actual), and then Idle; success and failure both end here, and
there is no other return from an error (R127, R141). -/
def finishMessage (s : State) : State :=
  let s := enterPhase .done (atLine .transfer 23 s)
  let s := atLine .transfer 24 s
  let s := report s.w.status (.message s.w.actual s.buffers) s
  enterPhase .idle (atLine .transfer 25 s)

/-- The report of an operation that a caller outside the core invoked: its status, and its answer. -/
def reportRes (r : Res) (answer : State → Answer) : State :=
  report r.status (answer r.state) r.state

/-! ### Accepting a call -/

/-- A call that may have illegal arguments: refused without a handle (R151), while another call is in
flight (R39 duty 1, R159), or with illegal arguments (R39, R80), in each case with no bus access;
otherwise it runs and leaves `t`. -/
def acceptCall (illegal : Option Illegal) (s t : State) : Host.Outcome State Fault Refusal :=
  if s.handle = none then .refused .noHandle
  else if s.seq ≠ .idle ∨ s.ops ≠ [] then .refused .callInFlight
  else
    match illegal with
    | some e => .refused (.illegalArgument e)
    | none => .next t

/-! ### The pending calls -/

/-- Who may invoke an instruction: the three entry points are the host's; the internal operations and
the register accesses, those of the word rows among them, are the core's (R8, R38, R67, R144). -/
def invokerOf : Instr → Invoker
  | .setup _ | .transfer _ | .maxXferSize => .host
  | .waitReady | .negotiate _ | .deselect | .select _ | .xferWrite _ | .xferRead _ _ => .core
  | .rdCfg | .wrCfg _ | .rdCfg2 | .wrCfg2 _ | .rdCs | .wrCs _ | .rdData | .wrData _ | .rdData2
  | .wrData2 _ => .core
  | .csDeselBoth | .csAssertBoth | .csSel0 | .csSel1 | .csLen4 _ _ | .csLen1 _ _ | .cfgDiv _ _
  | .dataByte _ | .dataWord _ _ _ _ => .core

/-- An opcode-table word as a call of its own invoker, the operands zero; a word that decodes to nothing
is the host's. -/
def tableCall (nbits w : Nat) : Call :=
  let r := tableRequest nbits w
  match decode r with
  | .ok i => ⟨invokerOf i, r⟩
  | .reject _ => ⟨.host, r⟩

/-- What is pending: nothing, or the oldest call and the state without it (R8, R38). -/
inductive Fetched where
  | waiting
  | call (c : Call) (s : State)
deriving DecidableEq, Repr

/-- The oldest pending call is taken (R38, R40: one at a time). -/
def fetchCall (s : State) : Fetched :=
  match s.calls with
  | [] => .waiting
  | c :: rest => .call c { s with calls := rest }

end Sys2Proof.Machine
end

