-- ==== Sys2Proof/Machine/Poller.lean ====
section
/-! DEFINITION. The readiness poller: WAIT_READY (41_readiness_poller.md R97). -/

namespace Sys2Proof.Machine

/-- The poll loop at its first line, with `k` iterations left: one read of CS each, the test of bit 27,
the delay; TimedOut when none is left (R97). -/
def pollLoop : Nat → State → Res
  | 0, s => raiseAt .waitReady 6 .timedOut s
  | k + 1, s =>
    let s := s.setW { s.w with poll := s.w.poll + 1 }
    let v := regRead .cs (atLine .waitReady 2 s)
    let s := atLine .waitReady 3 v.2
    if rdy v.1 then returnAt .waitReady 4 s
    else pollLoop k (atLine .waitReady 1 (delay (atLine .waitReady 5 s)))

/-- The lines of WAIT_READY: at most POLL_LIMIT polls (R97). -/
def waitReadyBody (s : State) : Res :=
  let s := atLine .waitReady 1 s
  pollLoop Config.pollLimit (s.setW { s.w with poll := 0 })

/-- WAIT_READY (R97). -/
def waitReady (s : State) : Res := within .waitReady waitReadyBody s

/-- `call WAIT_READY()` at line `n` of operation `o` (R97). -/
def waitAt (o : OpName) (n : Nat) (s : State) : Res := waitReady (atLine o n s)

/-- WAIT_READY as a call (R97). -/
def execWaitReady (s : State) : Host.Outcome State Fault Refusal :=
  acceptCall Instr.waitReady.illegal s (reportRes (waitReady s) (fun _ => .none))

end Sys2Proof.Machine
end

