-- ==== Sys2Proof/Machine/ChipSelect.lean ====
section
/-! DEFINITION. The chip-select sequencer: DESELECT and SELECT (43_chip_select.md). -/

namespace Sys2Proof.Machine

/-- A whole CS word is written at line `n`, and the readiness wait that follows each such write is
called at line `m` (R107, R108). -/
def writeCsAndWait (o : OpName) (n m : Nat) (v : Word) (s : State) : Res :=
  waitAt o m (regWrite .cs v (atLine o n s))

/-- The lines of DESELECT: the three-step pulse (R107). -/
def deselectBody (s : State) : Res :=
  (writeCsAndWait .deselect 1 2 wordDeselBoth s).andThen fun s =>
  (writeCsAndWait .deselect 3 4 wordAssertBoth s).andThen fun s =>
  (writeCsAndWait .deselect 5 6 wordDeselBoth s).andThen fun s =>
  returnAt .deselect 7 s

/-- DESELECT (R107). -/
def deselect (s : State) : Res := within .deselect deselectBody s

/-- The line of SELECT that writes the slot's word (R108). -/
def selectLine (slot : Nat) : Nat := if slot = 0 then 3 else 5

/-- The lines of SELECT: the pulse first, then the slot's word (R108). -/
def selectBody (slot : Nat) (s : State) : Res :=
  (deselect (atLine .select 1 s)).andThen fun s =>
  (writeCsAndWait .select (selectLine slot) 6 (selectWord slot) (atLine .select 2 s)).andThen fun s =>
  returnAt .select 7 s

/-- SELECT (R108). -/
def select (slot : Nat) (s : State) : Res := within .select (selectBody slot) s

/-- DESELECT as a call (R107). -/
def execDeselect (s : State) : Host.Outcome State Fault Refusal :=
  acceptCall Instr.deselect.illegal s (reportRes (deselect s) (fun _ => .none))

/-- SELECT as a call (R108). -/
def execSelect (slot : Nat) (s : State) : Host.Outcome State Fault Refusal :=
  acceptCall (Instr.select slot).illegal s (reportRes (select slot s) (fun _ => .none))

end Sys2Proof.Machine
end

