-- ==== Sys2Proof/Machine/Clock.lean ====
section
/-! DEFINITION. The clock-divider configurator: NEGOTIATE and SETUP (42_clock_configurator.md). -/

namespace Sys2Proof.Machine

/-- NEGOTIATE's lines 6 and 7: a rate below DIV_MIN is raised to it (R100). -/
def clampLines (s : State) : State :=
  let s := atLine .negotiate 6 s
  if s.w.rate < Config.divMin then
    let s := atLine .negotiate 7 s
    s.setW { s.w with rate := Config.divMin }
  else s

/-- The lines of NEGOTIATE after its range test: clamp, code, read CFG, write CFG, record the speed
(R100). -/
def programDivider (hz : Nat) (s : State) : Res :=
  let s := atLine .negotiate 8 (clampLines s)
  let s := atLine .negotiate 9 (s.setW { s.w with code := codeOf s.w.rate })
  let v := regRead .cfg s
  let s := atLine .negotiate 10 (v.2.setW { v.2.w with cfg := v.1 })
  let s := atLine .negotiate 11 (regWrite .cfg (cfgWord s.w.cfg s.w.code) s)
  returnAt .negotiate 12 (recordSpeed hz s)

/-- The lines of NEGOTIATE (R100). -/
def negotiateBody (hz : Nat) (s : State) : Res :=
  let s := atLine .negotiate 1 s
  if hz = 0 then raiseAt .negotiate 2 .invalidSpeed s
  else
    let s := atLine .negotiate 3 s
    let s := atLine .negotiate 4 (s.setW { s.w with rate := ceilDiv Config.refHz hz })
    if Config.divMax < s.w.rate then raiseAt .negotiate 5 .invalidSpeed s
    else programDivider hz s

/-- NEGOTIATE (R100). -/
def negotiate (hz : Nat) (s : State) : Res := within .negotiate (negotiateBody hz) s

/-- NEGOTIATE as a call (R100). -/
def execNegotiate (hz : Nat) (s : State) : Host.Outcome State Fault Refusal :=
  acceptCall (Instr.negotiate hz).illegal s (reportRes (negotiate hz s) (fun _ => .none))

/-- SETUP's clamp to the ceiling REF_HZ div DIV_MIN (R102). -/
def setupClamp (hz : Nat) : Nat := if Config.speedMax < hz then Config.speedMax else hz

/-- The lines of SETUP up to its range test: the clamp (R102). -/
def setupLines (hz : Nat) (s : State) : State :=
  let s := atLine .setup 4 (atLine .setup 3 (atLine .setup 2 (atLine .setup 1 s)))
  let s := if Config.speedMax < hz then atLine .setup 5 s else s
  atLine .setup 6 s

/-- The lines of SETUP (R102). -/
def setupBody (hz : Nat) (s : State) : Res :=
  if setupClamp hz < Config.speedMin then raiseAt .setup 7 .invalidSpeed (setupLines hz s)
  else returnAt .setup 8 (setupLines hz s)

/-- SETUP (R102): no bus access and no state written. -/
def setup (hz : Nat) (s : State) : Res := within .setup (setupBody hz) s

/-- What SETUP gives back: the adjusted speed on Ok (R102). -/
def setupAnswer (hz : Nat) : Answer :=
  if setupClamp hz < Config.speedMin then .none else .hz (setupClamp hz)

/-- SETUP as a call (R102). -/
def execSetup (hz : Nat) (s : State) : Host.Outcome State Fault Refusal :=
  acceptCall (Instr.setup hz).illegal s
    (reportRes (setup hz s) (fun _ => setupAnswer hz))

end Sys2Proof.Machine
end

