-- ==== Sys2Proof/Machine/DataEngine.lean ====
section
/-! DEFINITION. The data-transfer engine: XFER_WRITE and XFER_READ (44_data_transfer.md). Both run
the same Phase A and Phase B; the byte order of the 4-byte path is an argument (R115). -/

namespace Sys2Proof.Machine

/-- Lines 1 to 4 of both operations, then the head of the Phase A loop: CS read once, W.cs, the wait,
the LEN4 write, W.i cleared (R112, R113). -/
def startTransfer (o : OpName) (s : State) : Res :=
  let v := regRead .cs (atLine o 1 s)
  let s := v.2.setW { v.2.w with cs := len1Word v.1 }
  (waitAt o 2 s).andThen fun s =>
  let s := atLine o 3 s
  let s := atLine o 4 (regWrite .cs (len4Word s.w.cs) s)
  .ok (atLine o 5 (s.setW { s.w with i := 0 }))

/-- Lines 10 and 11 of both operations, then the head of the Phase B loop: the wait and the LEN1 write
(R112, R113). -/
def startPhaseB (o : OpName) (s : State) : Res :=
  (waitAt o 10 s).andThen fun s =>
  let s := atLine o 11 s
  .ok (atLine o 12 (regWrite .cs s.w.cs s))

/-- Phase A of XFER_WRITE at its loop head, `k` words left (R112, R115). -/
def writeWords (order : ByteOrder) (b : List Byte) : Nat → State → Res
  | 0, s => .ok s
  | k + 1, s =>
    (waitAt .xferWrite 6 s).andThen fun s =>
    let s := atLine .xferWrite 7 s
    let i := s.w.i
    let word := pack32 order (byteAt b i) (byteAt b (i + 1)) (byteAt b (i + 2)) (byteAt b (i + 3))
    let s := atLine .xferWrite 8 (s.setW { s.w with word := word })
    let s := atLine .xferWrite 9 (regWrite .data s.w.word s)
    writeWords order b k (atLine .xferWrite 5 (s.setW { s.w with i := s.w.i + 4 }))

/-- Phase B of XFER_WRITE at its loop head, `k` bytes left (R112, R114). -/
def writeBytes (b : List Byte) : Nat → State → Res
  | 0, s => .ok s
  | k + 1, s =>
    (waitAt .xferWrite 13 s).andThen fun s =>
    let s := atLine .xferWrite 14 s
    let s := atLine .xferWrite 15 (regWrite .data (byteWord (byteAt b s.w.i)) s)
    writeBytes b k (atLine .xferWrite 12 (s.setW { s.w with i := s.w.i + 1 }))

/-- The lines of XFER_WRITE: n div 4 words, then n mod 4 bytes (R112, R116). -/
def xferWriteBody (order : ByteOrder) (b : List Byte) (s : State) : Res :=
  (startTransfer .xferWrite s).andThen fun s =>
  (writeWords order b (b.length / 4) s).andThen fun s =>
  (startPhaseB .xferWrite s).andThen fun s =>
  (writeBytes b (b.length % 4) s).andThen fun s =>
  returnAt .xferWrite 16 s

/-- XFER_WRITE (R112). -/
def xferWrite (order : ByteOrder) (b : List Byte) (s : State) : Res :=
  within .xferWrite (xferWriteBody order b) s

/-- Phase A of XFER_READ at its loop head, `k` words left (R113, R115). -/
def readWords (order : ByteOrder) : Nat → State → Res
  | 0, s => .ok s
  | k + 1, s =>
    (waitAt .xferRead 6 s).andThen fun s =>
    let v := regRead .data (atLine .xferRead 7 s)
    let s := atLine .xferRead 8 (v.2.setW { v.2.w with word := v.1 })
    let s := atLine .xferRead 9 (storeBytes s.w.i (unpack32 order s.w.word) s)
    readWords order k (atLine .xferRead 5 (s.setW { s.w with i := s.w.i + 4 }))

/-- Phase B of XFER_READ at its loop head, `k` bytes left (R113, R114). -/
def readBytes : Nat → State → Res
  | 0, s => .ok s
  | k + 1, s =>
    (waitAt .xferRead 13 s).andThen fun s =>
    let v := regRead .data (atLine .xferRead 14 s)
    let s := atLine .xferRead 15 (v.2.setW { v.2.w with word := v.1 })
    let s := atLine .xferRead 16 (storeBytes s.w.i [wordByte s.w.word] s)
    readBytes k (atLine .xferRead 12 (s.setW { s.w with i := s.w.i + 1 }))

/-- The lines of XFER_READ: n div 4 words, then n mod 4 bytes (R113, R116). -/
def xferReadBody (order : ByteOrder) (n : Nat) (out : List Byte) (s : State) : Res :=
  (startTransfer .xferRead (handBuffer out s)).andThen fun s =>
  (readWords order (n / 4) s).andThen fun s =>
  (startPhaseB .xferRead s).andThen fun s =>
  (readBytes (n % 4) s).andThen fun s =>
  returnAt .xferRead 17 s

/-- XFER_READ (R113). -/
def xferRead (order : ByteOrder) (n : Nat) (out : List Byte) (s : State) : Res :=
  within .xferRead (xferReadBody order n out) s

/-- XFER_WRITE as a call (R112). -/
def execXferWrite (b : List Byte) (s : State) : Host.Outcome State Fault Refusal :=
  acceptCall (Instr.xferWrite b).illegal s
    (reportRes (xferWrite Config.hostByteOrder b s) (fun _ => .none))

/-- XFER_READ as a call (R113). -/
def execXferRead (n : Nat) (out : List Byte) (s : State) : Host.Outcome State Fault Refusal :=
  acceptCall (Instr.xferRead n out).illegal s
    (reportRes (xferRead Config.hostByteOrder n out s) (fun t => .bytes t.filled t.out))

end Sys2Proof.Machine
end

