-- ==== Sys2Proof/Machine/Message.lean ====
section
/-! DEFINITION. The message orchestrator: TRANSFER and MAX_XFER_SIZE (45_message.md). -/

namespace Sys2Proof.Machine

/-- One descriptor's engine run, not counted yet, at line 15 of TRANSFER: a write where it has bytes to
send, else a read into its destination, which goes back to the host whatever the end (R121, R118). -/
def runEngine (order : ByteOrder) (k : Nat) (t : Descriptor) (s : State) : Res :=
  match t.tx with
  | some b => xferWrite order b (atLine .transfer 16 s)
  | none =>
    (xferRead order t.len (t.rx.getD []) (atLine .transfer 18 s)).mapState (returnBuffer k)

/-- `W.actual <- W.actual + t.len` (R125). -/
def countBytes (n : Nat) (s : State) : State := s.setW { s.w with actual := s.w.actual + n }

/-- The descriptors of a message in order, from index `k` on, at the head of TRANSFER's loop (R121,
R124, R125). -/
def runXfers (order : ByteOrder) : Nat → List Descriptor → State → Res
  | _, [], s => .ok s
  | k, t :: ts, s =>
    let s := enterPhase (.transferring k) (atLine .transfer 11 s)
    let s := atLine .transfer 13 (atLine .transfer 12 s)
    if t.tx.isSome && t.rx.isSome then raiseAt .transfer 14 .conflictingTransfer s
    else
      (runEngine order k t (atLine .transfer 15 s)).andThen fun s =>
      runXfers order (k + 1) ts (atLine .transfer 10 (countBytes t.len (atLine .transfer 19 s)))

/-- AwaitReady to Deselected: the lines of TRANSFER that can raise (R121). -/
def runMessage (order : ByteOrder) (m : Message) (s : State) : Res :=
  (waitAt .transfer 3 s).andThen fun s =>
  let s := enterPhase .prepared (atLine .transfer 4 s)
  let s := atLine .transfer 6 (atLine .transfer 5 s)
  let s := s.setW { s.w with speed := messageSpeed m }
  (negotiate s.w.speed (atLine .transfer 7 s)).andThen fun s =>
  let s := enterPhase .selected (atLine .transfer 8 s)
  (select m.slot (atLine .transfer 9 s)).andThen fun s =>
  (runXfers order 0 m.xfers (atLine .transfer 10 s)).andThen fun s =>
  let s := enterPhase .deselected (atLine .transfer 20 s)
  deselect (atLine .transfer 21 s)

/-- The start of TRANSFER: the destinations handed over, AwaitReady, W.status and W.actual cleared
(R60, R121). -/
def startMessage (m : Message) (s : State) : State :=
  let s := { enterOp .transfer s with buffers := m.xfers.map Descriptor.rx }
  let s := enterPhase .awaitReady (atLine .transfer 1 s)
  let s := atLine .transfer 2 s
  s.setW { s.w with status := .ok, actual := 0 }

/-- TRANSFER catches every error (R121, R138). -/
def catchError : Res → State
  | .ok s => s
  | .raise e s => takeError e s

/-- TRANSFER (R121): the message, and then Done, always reached, exactly once (R127). -/
def transferCall (order : ByteOrder) (m : Message) (s : State) : State :=
  let s := finishMessage (catchError (runMessage order m (startMessage m s)))
  leaveOp .transfer s.w.status s

/-- TRANSFER as a call (R121). -/
def execTransfer (m : Message) (s : State) : Host.Outcome State Fault Refusal :=
  acceptCall (Instr.transfer m).illegal s (transferCall Config.hostByteOrder m s)

/-- MAX_XFER_SIZE (R131): no bus access. -/
def maxXferSize (s : State) : Res := within .maxXferSize (fun s => returnAt .maxXferSize 1 s) s

/-- MAX_XFER_SIZE as a call (R131): the constant. -/
def execMaxXferSize (s : State) : Host.Outcome State Fault Refusal :=
  acceptCall Instr.maxXferSize.illegal s (reportRes (maxXferSize s) (fun _ => .size Config.maxXfer))

end Sys2Proof.Machine
end

