-- ==== Sys2Proof/Machine/RegisterAccess.lean ====
section
/-! DEFINITION. The register interface: the ten bus accesses (40_register_access.md R87 to R96). None
of them raises an error. -/

namespace Sys2Proof.Machine

/-- One read access, its value reported (R87). -/
def readCall (r : Reg) (s : State) : State :=
  report .ok (.word (regRead r s).1) (regRead r s).2

/-- One write access (R88). -/
def writeCall (r : Reg) (v : Word) (s : State) : State := report .ok .none (regWrite r v s)

/-- RD_CFG (R87). -/
def execRdCfg (s : State) : Host.Outcome State Fault Refusal :=
  acceptCall Instr.rdCfg.illegal s (readCall .cfg s)

/-- WR_CFG (R88). -/
def execWrCfg (v : Word) (s : State) : Host.Outcome State Fault Refusal :=
  acceptCall (Instr.wrCfg v).illegal s (writeCall .cfg v s)

/-- RD_CFG2 (R89). -/
def execRdCfg2 (s : State) : Host.Outcome State Fault Refusal :=
  acceptCall Instr.rdCfg2.illegal s (readCall .cfg2 s)

/-- WR_CFG2 (R90). -/
def execWrCfg2 (v : Word) (s : State) : Host.Outcome State Fault Refusal :=
  acceptCall (Instr.wrCfg2 v).illegal s (writeCall .cfg2 v s)

/-- RD_CS (R91). -/
def execRdCs (s : State) : Host.Outcome State Fault Refusal :=
  acceptCall Instr.rdCs.illegal s (readCall .cs s)

/-- WR_CS (R92). -/
def execWrCs (v : Word) (s : State) : Host.Outcome State Fault Refusal :=
  acceptCall (Instr.wrCs v).illegal s (writeCall .cs v s)

/-- RD_DATA (R93). -/
def execRdData (s : State) : Host.Outcome State Fault Refusal :=
  acceptCall Instr.rdData.illegal s (readCall .data s)

/-- WR_DATA (R94). -/
def execWrData (v : Word) (s : State) : Host.Outcome State Fault Refusal :=
  acceptCall (Instr.wrData v).illegal s (writeCall .data v s)

/-- RD_DATA2 (R95). Log entry 8. -/
def execRdData2 (s : State) : Host.Outcome State Fault Refusal :=
  acceptCall Instr.rdData2.illegal s (readCall .data2 s)

/-- WR_DATA2 (R96). Log entry 8. -/
def execWrData2 (v : Word) (s : State) : Host.Outcome State Fault Refusal :=
  acceptCall (Instr.wrData2 v).illegal s (writeCall .data2 v s)

end Sys2Proof.Machine
end

