-- ==== Sys2Proof/Machine/Words.lean ====
section
/-! DEFINITION. The register words of the opcode table as instructions (30_encoding.md R63, R74 to
R78): each is the one write the core makes of that word, to the register its row names. Log entry 9. -/

namespace Sys2Proof.Machine

/-- CS_DESEL_BOTH: the CS write of R107's first and third step. -/
def execCsDeselBoth (s : State) : Host.Outcome State Fault Refusal :=
  acceptCall Instr.csDeselBoth.illegal s (writeCall .cs wordDeselBoth s)

/-- CS_ASSERT_BOTH: the CS write of R107's second step. -/
def execCsAssertBoth (s : State) : Host.Outcome State Fault Refusal :=
  acceptCall Instr.csAssertBoth.illegal s (writeCall .cs wordAssertBoth s)

/-- CS_SEL0: the CS write that selects slot 0 (R108). -/
def execCsSel0 (s : State) : Host.Outcome State Fault Refusal :=
  acceptCall Instr.csSel0.illegal s (writeCall .cs wordSel0 s)

/-- CS_SEL1: the CS write that selects slot 1 (R108). -/
def execCsSel1 (s : State) : Host.Outcome State Fault Refusal :=
  acceptCall Instr.csSel1.illegal s (writeCall .cs wordSel1 s)

/-- CS_LEN4: the data engine's Phase A CS write (R75, R112). -/
def execCsLen4 (hi : BitVec 2) (lo : BitVec 28) (s : State) : Host.Outcome State Fault Refusal :=
  acceptCall (Instr.csLen4 hi lo).illegal s (writeCall .cs (csWord hi 3#2 lo) s)

/-- CS_LEN1: the data engine's Phase B CS write (R75, R113). -/
def execCsLen1 (hi : BitVec 2) (lo : BitVec 28) (s : State) : Host.Outcome State Fault Refusal :=
  acceptCall (Instr.csLen1 hi lo).illegal s (writeCall .cs (csWord hi 0#2 lo) s)

/-- CFG_DIV: NEGOTIATE's CFG write (R76, R100). -/
def execCfgDiv (code : BitVec 3) (rest : BitVec 29) (s : State) :
    Host.Outcome State Fault Refusal :=
  acceptCall (Instr.cfgDiv code rest).illegal s (writeCall .cfg (cfgFieldsWord code rest) s)

/-- DATA_BYTE: the data engine's Phase B DATA write (R78, R114). -/
def execDataByte (b : Byte) (s : State) : Host.Outcome State Fault Refusal :=
  acceptCall (Instr.dataByte b).illegal s (writeCall .data (byteWord b) s)

/-- DATA_WORD: the data engine's Phase A DATA write (R77, R115). -/
def execDataWord (b0 b1 b2 b3 : Byte) (s : State) : Host.Outcome State Fault Refusal :=
  acceptCall (Instr.dataWord b0 b1 b2 b3).illegal s
    (writeCall .data (pack32 Config.hostByteOrder b0 b1 b2 b3) s)

end Sys2Proof.Machine
end

