-- ==== Sys2Proof/Machine/Dispatch.lean ====
section
/-! DEFINITION. The meaning of every instruction: one arm per constructor of `Instr`. -/

namespace Sys2Proof.Machine

/-- The effect of one instruction. -/
def exec (i : Instr) (s : State) : Host.Outcome State Fault Refusal :=
  match i with
  -- bus accesses (40_register_access.md)
  | .rdCfg => Sys2Proof.Machine.execRdCfg s
  | .wrCfg v => Sys2Proof.Machine.execWrCfg v s
  | .rdCfg2 => Sys2Proof.Machine.execRdCfg2 s
  | .wrCfg2 v => Sys2Proof.Machine.execWrCfg2 v s
  | .rdCs => Sys2Proof.Machine.execRdCs s
  | .wrCs v => Sys2Proof.Machine.execWrCs v s
  | .rdData => Sys2Proof.Machine.execRdData s
  | .wrData v => Sys2Proof.Machine.execWrData v s
  | .rdData2 => Sys2Proof.Machine.execRdData2 s
  | .wrData2 v => Sys2Proof.Machine.execWrData2 v s
  -- operations (files 41 to 45)
  | .waitReady => Sys2Proof.Machine.execWaitReady s
  | .negotiate hz => Sys2Proof.Machine.execNegotiate hz s
  | .setup hz => Sys2Proof.Machine.execSetup hz s
  | .deselect => Sys2Proof.Machine.execDeselect s
  | .select slot => Sys2Proof.Machine.execSelect slot s
  | .xferWrite b => Sys2Proof.Machine.execXferWrite b s
  | .xferRead n out => Sys2Proof.Machine.execXferRead n out s
  | .transfer m => Sys2Proof.Machine.execTransfer m s
  | .maxXferSize => Sys2Proof.Machine.execMaxXferSize s
  -- register words (30_encoding.md R74 to R78)
  | .csDeselBoth => Sys2Proof.Machine.execCsDeselBoth s
  | .csAssertBoth => Sys2Proof.Machine.execCsAssertBoth s
  | .csSel0 => Sys2Proof.Machine.execCsSel0 s
  | .csSel1 => Sys2Proof.Machine.execCsSel1 s
  | .csLen4 hi lo => Sys2Proof.Machine.execCsLen4 hi lo s
  | .csLen1 hi lo => Sys2Proof.Machine.execCsLen1 hi lo s
  | .cfgDiv code rest => Sys2Proof.Machine.execCfgDiv code rest s
  | .dataByte b => Sys2Proof.Machine.execDataByte b s
  | .dataWord b0 b1 b2 b3 => Sys2Proof.Machine.execDataWord b0 b1 b2 b3 s

end Sys2Proof.Machine
end

