-- ==== Sys2Proof/Machine/Step.lean ====
section
/-! DEFINITION. One step: the oldest pending call is taken, decoded and, where its invoker may make it,
run as a whole; with no call pending the block waits (10_state.md R38, 60_exceptions.md R144,
70_reset_and_hazards.md R150). Log entries 10 and 11. -/

namespace Sys2Proof.Machine

/-- One step of the machine. -/
def step (s : State) : Host.Outcome State Fault Refusal :=
  match fetchCall s with
  | .waiting => .next s
  | .call c s1 =>
    match decode c.request with
    | .ok i => if c.invoker = invokerOf i then exec i s1 else .refused .wrongInvoker
    | .reject e => .refused (.illegalEncoding e)

/-- The state with an opcode-table word as the next call, made by the one its instruction is open to, its
operands zero. -/
def State.withFetchWord (s : State) (nbits w : Nat) : State :=
  { s with calls := tableCall nbits w :: s.calls }

end Sys2Proof.Machine
end

