-- ==== Sys2Proof/Safety.lean ====
section
/-! DEFINITION. What claims about the machine are stated in: when a call is accepted, what the device
answers, what an access of the trace is, which accesses are guarded by a readiness wait, and the
invariant that every step keeps. -/

namespace Sys2Proof.Machine

/-! ### Calls and outcomes -/

/-- The block can take a call: it has a handle, and nothing is in flight (R39 duty 1, R151). -/
def Accepting (s : State) : Prop := s.handle ≠ none ∧ s.seq = .idle ∧ s.ops = []

/-- The next step is neither refused nor a fault: the host has kept its duties (R39). -/
def SafeStep (s : State) : Prop := ∃ t, step s = .next t

/-! ### The device's answers -/

/-- The device answers not ready to each of the next `n` register reads. -/
def BusyFor (s : State) (n : Nat) : Prop := ∀ k < n, rdy (s.answerAt k) = false

/-- The record of the poll loop from its first line on, where `n` accesses went before and the polls
read `vs`: lines 2 and 3 for each, then line 4 and Ok, or line 5 and line 1 again; line 6 and TimedOut
after the last (R97). -/
def pollMarks : Nat → List Word → List Mark
  | n, [] => [⟨n, .line .waitReady 6⟩, ⟨n, .leave .waitReady .timedOut⟩]
  | n, v :: vs =>
    ⟨n, .line .waitReady 2⟩ :: ⟨n + 1, .line .waitReady 3⟩ ::
      if rdy v then [⟨n + 1, .line .waitReady 4⟩, ⟨n + 1, .leave .waitReady .ok⟩]
      else ⟨n + 1, .line .waitReady 5⟩ :: ⟨n + 1, .line .waitReady 1⟩ :: pollMarks (n + 1) vs

/-- The record of a readiness wait that read `vs` (R97). -/
def waitMarks (n : Nat) (vs : List Word) : List Mark :=
  ⟨n, .enter .waitReady⟩ :: ⟨n, .line .waitReady 1⟩ :: pollMarks n vs

/-- The state after a readiness wait that made `k` polls (R97): `k` CS reads, the poll counter, and
the sequencer's record of the operation; nothing else. -/
def State.polled (s : State) (k : Nat) : State :=
  { s with
    w := { s.w with poll := k }
    answers := s.answers.drop k
    draws := s.draws + k
    trace := s.trace ++ (List.range k).map (fun j => .rd .cs (s.answerAt j))
    seqLog := s.seqLog ++ waitMarks s.trace.length ((List.range k).map s.answerAt) }

/-! ### The trace -/

/-- The register an access names. -/
def Event.reg : Event → Reg
  | .rd r _ => r
  | .wr r _ => r

/-- The access is a read. -/
def Event.isRead : Event → Bool
  | .rd _ _ => true
  | .wr _ _ => false

/-- The access is a DATA access. -/
def Event.isData (e : Event) : Bool := e.reg == .data

/-- The access is a CS read that saw RDY = 1: the last read of a successful wait (R97). -/
def Event.sawReady : Event → Bool
  | .rd .cs v => rdy v
  | .rd _ _ => false
  | .wr _ _ => false

/-- The word last written to a register in a trace, if any. -/
def lastWrite (r : Reg) : List Event → Option Word
  | [] => none
  | .rd _ _ :: es => lastWrite r es
  | .wr r' v :: es =>
    match lastWrite r es with
    | some w => some w
    | none => if r' = r then some v else none

/-- The words written to a register in a trace, in order. -/
def writesTo (r : Reg) : List Event → List Word
  | [] => []
  | .rd _ _ :: es => writesTo r es
  | .wr r' v :: es => if r' = r then v :: writesTo r es else writesTo r es

/-- The words read from a register in a trace, in order. -/
def readsFrom (r : Reg) : List Event → List Word
  | [] => []
  | .wr _ _ :: es => readsFrom r es
  | .rd r' v :: es => if r' = r then v :: readsFrom r es else readsFrom r es

/-- The values the reads in a trace returned, in order: the device's answers they used. -/
def answersUsed : List Event → List Word
  | [] => []
  | .rd _ v :: es => v :: answersUsed es
  | .wr _ _ :: es => answersUsed es

/-- The accesses a run added to the trace. -/
def newEvents (s t : State) : List Event := t.trace.drop s.trace.length

/-- The byte movements the DATA accesses of a trace cause, if the device's CS latch is `cs` before it:
each moves LEN + 1 bytes of its word over the lines, by the CS word last written before it (R27, R34,
R35). -/
def movesOf : Word → List Event → List SpiMove
  | _, [] => []
  | cs, .rd r v :: es =>
    if r = .data then ⟨false, movedBytes cs v, linesOf cs, v⟩ :: movesOf cs es else movesOf cs es
  | cs, .wr r v :: es =>
    if r = .data then ⟨true, movedBytes cs v, linesOf cs, v⟩ :: movesOf cs es
    else if r = .cs then movesOf v es
    else movesOf cs es

/-- An access that affects transfer state: a CS write or a DATA access (R153). -/
def Event.needsWait : Event → Bool
  | .wr r _ => r == .cs || r == .data
  | .rd r _ => r == .data

/-- The access made after `n` others is the first word of a pulse: by the record `ms` DESELECT was at
its line 1 then (R107), the one place where a CS write has no wait before it (R153, R154). -/
def startsPulse (ms : List Mark) (n : Nat) (e : Event) : Bool :=
  e == .wr .cs wordDeselBoth && ms.contains ⟨n, .line .deselect 1⟩

/-- In the accesses `es`, made after `n` others of which the last did (`ready`) or did not see RDY = 1,
each access that needs a wait directly follows a CS read that saw RDY = 1, or is the first word of a
pulse by the record `ms` (R153, R154). -/
def guardedFrom (ms : List Mark) : Nat → Bool → List Event → Bool
  | _, _, [] => true
  | n, ready, e :: es =>
    (!e.needsWait || ready || startsPulse ms n e) && guardedFrom ms (n + 1) e.sawReady es

/-! ### Expected access sequences

What the rules make an operation do on the bus when every readiness wait succeeds on its first poll
(the device is ready whenever it is asked). -/

/-- One line of an expected sequence: a readiness wait that succeeds at once, a read, a write. -/
inductive Item where
  | wait
  | rd (r : Reg)
  | wr (r : Reg) (v : Word)
deriving DecidableEq, Repr

/-- The device's answers a sequence uses up. -/
def readCount : List Item → Nat
  | [] => 0
  | .wait :: is => readCount is + 1
  | .rd _ :: is => readCount is + 1
  | .wr _ _ :: is => readCount is

/-- The accesses of a sequence, from the `k`-th answer of the device on. -/
def eventsOf (s : State) : Nat → List Item → List Event
  | _, [] => []
  | k, .wait :: is => .rd .cs (s.answerAt k) :: eventsOf s (k + 1) is
  | k, .rd r :: is => .rd r (s.answerAt k) :: eventsOf s (k + 1) is
  | k, .wr r v :: is => .wr r v :: eventsOf s k is

/-- The device is ready at every wait of a sequence; its other answers may be anything. -/
def readyAt (s : State) : Nat → List Item → Bool
  | _, [] => true
  | k, .wait :: is => rdy (s.answerAt k) && readyAt s (k + 1) is
  | k, .rd _ :: is => readyAt s (k + 1) is
  | k, .wr _ _ :: is => readyAt s k is

/-- The deselect pulse (R107). -/
def pulseItems : List Item :=
  [.wr .cs 0xC0000000#32, .wait, .wr .cs 0x00000000#32, .wait, .wr .cs 0xC0000000#32, .wait]

/-- SELECT (R108). -/
def selectItems (slot : Nat) : List Item :=
  pulseItems ++ [.wr .cs (if slot = 0 then 0x40000000#32 else 0x81000000#32), .wait]

/-- NEGOTIATE with CFG reading `old` (R100). -/
def negotiateItems (hz : Nat) (old : Word) : List Item :=
  [.rd .cfg, .wr .cfg (cfgWord old (codeOf (clampRate (ceilDiv Config.refHz hz))))]

/-- The DATA words of Phase A, in order (R112, R115, R116). -/
def phaseAWords (order : ByteOrder) (b : List Byte) : List Word :=
  (List.range (b.length / 4)).map fun j =>
    pack32 order (byteAt b (4 * j)) (byteAt b (4 * j + 1)) (byteAt b (4 * j + 2))
      (byteAt b (4 * j + 3))

/-- The DATA words of Phase B, in order (R112, R114, R116). -/
def phaseBWords (b : List Byte) : List Word :=
  (List.range (b.length % 4)).map fun j => byteWord (byteAt b (4 * (b.length / 4) + j))

/-- XFER_WRITE with CS reading `r` at its start (R112). -/
def xferWriteItems (order : ByteOrder) (b : List Byte) (r : Word) : List Item :=
  [.rd .cs, .wait, .wr .cs (r ||| lenMask)] ++
  (phaseAWords order b).flatMap (fun v => [.wait, .wr .data v]) ++
  [.wait, .wr .cs (r &&& ~~~lenMask)] ++
  (phaseBWords b).flatMap (fun v => [.wait, .wr .data v])

/-- XFER_READ of `n` bytes with CS reading `r` at its start (R113). -/
def xferReadItems (n : Nat) (r : Word) : List Item :=
  [.rd .cs, .wait, .wr .cs (r ||| lenMask)] ++
  (List.range (n / 4)).flatMap (fun _ => [.wait, .rd .data]) ++
  [.wait, .wr .cs (r &&& ~~~lenMask)] ++
  (List.range (n % 4)).flatMap (fun _ => [.wait, .rd .data])

/-- The bytes the DATA words of a read of `n` bytes carry: whole words first, then one byte each
(R113 to R115). -/
def bytesOfWords (order : ByteOrder) (n : Nat) (words : List Word) : List Byte :=
  (words.take (n / 4)).flatMap (unpack32 order) ++ (words.drop (n / 4)).map wordByte

/-- The bytes a read of `n` bytes receives, if its first access uses the `k`-th answer. -/
def receivedBytes (order : ByteOrder) (s : State) (k n : Nat) : List Byte :=
  bytesOfWords order n (readsFrom .data (eventsOf s k (xferReadItems n (s.answerAt k))))

/-- The engine's run for a descriptor, with CS reading `r` at its start (R121). -/
def descriptorItems (order : ByteOrder) (t : Descriptor) (r : Word) : List Item :=
  match t.tx with
  | some b => xferWriteItems order b r
  | none => xferReadItems t.len r

/-- The engine's runs for the descriptors, from the `k`-th answer on. -/
def xfersItems (order : ByteOrder) (s : State) : Nat → List Descriptor → List Item
  | _, [] => []
  | k, t :: ts =>
    let is := descriptorItems order t (s.answerAt k)
    is ++ xfersItems order s (k + readCount is) ts

/-- What the descriptors' destinations hold after those runs (R41). -/
def buffersAfter (order : ByteOrder) (s : State) : Nat → List Descriptor → List (Option (List Byte))
  | _, [] => []
  | k, t :: ts =>
    t.rx.map (fun _ => receivedBytes order s k t.len) ::
      buffersAfter order s (k + readCount (descriptorItems order t (s.answerAt k))) ts

/-- The lines of TRANSFER before its first descriptor (R121): they use six answers. -/
def headItems (m : Message) (s : State) : List Item :=
  [.wait] ++ negotiateItems (messageSpeed m) (s.answerAt 1) ++ selectItems m.slot

/-- A message whose every step succeeds (R121). -/
def messageItems (order : ByteOrder) (m : Message) (s : State) : List Item :=
  headItems m s ++ xfersItems order s 6 m.xfers ++ pulseItems

/-- The phases a message enters, up to and with the one it ends in (R121). -/
def phaseOrder (n : Nat) : List Phase :=
  [.awaitReady, .prepared, .selected] ++ (List.range n).map Phase.transferring ++ [.deselected]

/-- The phases a run of the sequencer entered, in order. -/
def phasesOf : List Mark → List Phase
  | [] => []
  | ⟨_, .phase p⟩ :: ms => p :: phasesOf ms
  | ⟨_, .enter _⟩ :: ms => phasesOf ms
  | ⟨_, .line _ _⟩ :: ms => phasesOf ms
  | ⟨_, .leave _ _⟩ :: ms => phasesOf ms

/-- The moves of the sequencer that a run added to its record. -/
def newMarks (s t : State) : List Mark := t.seqLog.drop s.seqLog.length

/-- The phases a run of the sequencer entered, each with the number of accesses made before. -/
def entriesOf : List Mark → List (Nat × Phase)
  | [] => []
  | ⟨n, .phase p⟩ :: ms => (n, p) :: entriesOf ms
  | ⟨_, .enter _⟩ :: ms => entriesOf ms
  | ⟨_, .line _ _⟩ :: ms => entriesOf ms
  | ⟨_, .leave _ _⟩ :: ms => entriesOf ms

/-- Each phase entered with the accesses of the trace made in it, up to the entry of the next. -/
def stagesOf (tr : List Event) : List (Nat × Phase) → List (Phase × List Event)
  | [] => []
  | [(n, p)] => [(p, tr.drop n)]
  | (n, p) :: (n', p') :: es => (p, (tr.take n').drop n) :: stagesOf tr ((n', p') :: es)

/-- The accesses a run made in the message state `p`; none where it did not enter it. -/
def accessesIn (p : Phase) (s t : State) : List Event :=
  ((stagesOf t.trace (entriesOf (newMarks s t))).lookup p).getD []

/-- The bytes that descriptor `k`, of `n` bytes, received in a message's run (R113 to R115). -/
def bytesReceived (order : ByteOrder) (s t : State) (k n : Nat) : List Byte :=
  bytesOfWords order n (readsFrom .data (accessesIn (.transferring k) s t))

/-- What a message's run leaves in descriptor `k`'s destination: for a read, the bytes received, and
then what the host left there; else what the host left there (R41, R118). -/
def destination (order : ByteOrder) (s t : State) (k : Nat) (d : Descriptor) :
    Option (List Byte) :=
  match d.tx with
  | some _ => d.rx
  | none =>
    d.rx.map fun out =>
      bytesReceived order s t k d.len ++ out.drop (bytesReceived order s t k d.len).length

/-- The destinations of a message's descriptors after its run (R41, R118). -/
def destinations (order : ByteOrder) (m : Message) (s t : State) : List (Option (List Byte)) :=
  m.xfers.mapIdx (destination order s t)

/-- The lines of a slot's select word: the slot's own line asserted, the second lane for slot 1 (R34,
R109). -/
def slotLines (slot : Nat) : Lines := ⟨slot == 0, slot == 1, slot == 1⟩

/-- The lines after a pulse stopped with `n` of its words written (R107, R157). -/
def pulseLines (n : Nat) : Lines := if n = 2 then ⟨true, true, false⟩ else ⟨false, false, false⟩

/-- The bytes of the first `j` descriptors (R125). -/
def bytesOfFirst (j : Nat) (m : Message) : Nat := ((m.xfers.take j).map Descriptor.len).sum

/-! ### The sequencer's walk through the pseudocode

What R32 says of the record of moves: each operation runs from the header of its pseudocode, line by
line, with no jump but the loop back-edges and the aborts of R13. -/

/-- The lines that follow a line of an operation's pseudocode where it does not end the operation, loop
back-edges among them; 0 is the header (R97, R100, R102, R107, R108, R112, R113, R121, R131). -/
def nextLines : OpName → Nat → List Nat
  | .waitReady, n =>
    if n = 1 then [2, 6] else if n = 3 then [4, 5] else if n = 5 then [1] else [n + 1]
  | .negotiate, n =>
    if n = 1 then [2, 3] else if n = 4 then [5, 6] else if n = 6 then [7, 8] else [n + 1]
  | .setup, n => if n = 4 then [5, 6] else if n = 6 then [7, 8] else [n + 1]
  | .deselect, n => [n + 1]
  | .select, n => if n = 2 then [3, 5] else if n = 3 then [6] else [n + 1]
  | .xferWrite, n =>
    if n = 5 then [6, 10] else if n = 9 then [5] else if n = 12 then [13, 16]
    else if n = 15 then [12] else [n + 1]
  | .xferRead, n =>
    if n = 5 then [6, 10] else if n = 9 then [5] else if n = 12 then [13, 17]
    else if n = 16 then [12] else [n + 1]
  | .transfer, n =>
    if n = 10 then [11, 20] else if n = 13 then [14, 15] else if n = 15 then [16, 18]
    else if n = 16 then [19] else if n = 18 then [19] else if n = 19 then [10]
    else if n = 14 then [23] else if n = 21 then [23] else [n + 1]
  | .maxXferSize, n => [n + 1]

/-- The operation that a line of an operation's pseudocode calls. -/
def callAt : OpName → Nat → Option OpName
  | .waitReady, _ => none
  | .negotiate, _ => none
  | .setup, _ => none
  | .deselect, n => if n ∈ [2, 4, 6] then some .waitReady else none
  | .select, n => if n = 1 then some .deselect else if n = 6 then some .waitReady else none
  | .xferWrite, n => if n ∈ [2, 6, 10, 13] then some .waitReady else none
  | .xferRead, n => if n ∈ [2, 6, 10, 13] then some .waitReady else none
  | .transfer, n =>
    if n = 3 then some .waitReady else if n = 7 then some .negotiate
    else if n = 9 then some .select else if n = 16 then some .xferWrite
    else if n = 18 then some .xferRead else if n = 21 then some .deselect else none
  | .maxXferSize, _ => none

/-- The line an operation returns from. -/
def returnLine : OpName → Nat
  | .waitReady => 4
  | .negotiate => 12
  | .setup => 8
  | .deselect => 7
  | .select => 7
  | .xferWrite => 16
  | .xferRead => 17
  | .transfer => 25
  | .maxXferSize => 1

/-- The error that a line of an operation's pseudocode raises. -/
def errorAt : OpName → Nat → Option Status
  | .waitReady, n => if n = 6 then some .timedOut else none
  | .negotiate, n => if n ∈ [2, 5] then some .invalidSpeed else none
  | .setup, n => if n = 7 then some .invalidSpeed else none
  | .deselect, _ => none
  | .select, _ => none
  | .xferWrite, _ => none
  | .xferRead, _ => none
  | .transfer, _ => none
  | .maxXferSize, _ => none

/-- The lines that can follow a line of an operation's pseudocode: none where it returns or raises
(R13). -/
def linesAfter (o : OpName) (n : Nat) : List Nat :=
  if n = returnLine o ∨ (errorAt o n).isSome then [] else nextLines o n

/-- The line of TRANSFER that enters a message state (R121). -/
def phaseLine : Phase → Nat
  | .awaitReady => 1
  | .prepared => 4
  | .selected => 8
  | .transferring _ => 11
  | .deselected => 20
  | .done => 23
  | .idle => 25

/-- The line calls an operation or enters a message state. -/
def hasMove (o : OpName) (n : Nat) : Bool :=
  (callAt o n).isSome || (o == .transfer && n ∈ [1, 4, 8, 11, 20, 23, 25])

/-- How far the record has been followed: the operations in progress with their positions; whether the
line in hand has made its call or entered its message state; and the error, if any, that the last
operation to end raised and that is still to be propagated or caught (R13). -/
structure Walk where
  ops : List Frame
  moved : Bool
  raised : Option Status
deriving DecidableEq, Repr

/-- One move of the sequencer as the pseudocode allows it; none for any other (R13, R32). An operation
begins where none is in progress or where the line of the innermost calls it. With no error raised
it goes on by its lines, past a call or the entry of a message state only when that was made, and
ends at its return or by raising; with an error raised it ends with that error at once, but TRANSFER
goes to Done. -/
def Walk.move (w : Walk) : SeqPoint → Option Walk
  | .enter o =>
    if w.raised = none ∧ w.moved = false ∧
        (∀ f ∈ w.ops.head?, callAt f.op f.line = some o) then
      some { w with ops := ⟨o, 0⟩ :: w.ops }
    else none
  | .line o n =>
    match w.ops with
    | [] => none
    | f :: fs =>
      if f.op = o ∧
          ((w.raised = none ∧ n ∈ linesAfter o f.line ∧ w.moved = hasMove o f.line) ∨
          (w.raised ≠ none ∧ o = .transfer ∧ n = 23)) then
        some ⟨⟨o, n⟩ :: fs, false, none⟩
      else none
  | .phase p =>
    if w.raised = none ∧ w.moved = false ∧ w.ops.head? = some ⟨.transfer, phaseLine p⟩ then
      some { w with moved := true }
    else none
  | .leave o st =>
    match w.ops with
    | [] => none
    | f :: fs =>
      if f.op = o ∧
          ((w.raised = none ∧ f.line = returnLine o ∧ w.moved = hasMove o f.line ∧
            (st = .ok ∨ o = .transfer)) ∨
          (w.raised = none ∧ errorAt o f.line = some st) ∨
          (w.raised = some st ∧ o ≠ .transfer)) then
        some ⟨fs, true, if st = .ok ∨ o = .transfer then none else some st⟩
      else none

/-- The moves of a record, one after the other. -/
def Walk.follow (w : Walk) : List Mark → Option Walk
  | [] => some w
  | m :: ms => (w.move m.what).bind fun w => w.follow ms

/-! ### The operations of the core -/

/-- The read access of a register (R65). -/
def readOf : Reg → Instr
  | .cfg => .rdCfg
  | .cfg2 => .rdCfg2
  | .cs => .rdCs
  | .data => .rdData
  | .data2 => .rdData2

/-- The write access of a register (R65). -/
def writeOf (v : Word) : Reg → Instr
  | .cfg => .wrCfg v
  | .cfg2 => .wrCfg2 v
  | .cs => .wrCs v
  | .data => .wrData v
  | .data2 => .wrData2 v

/-- The bits of a request's code that decoding looks at (R84). -/
def codeMask : Format → Word
  | .bus => 0x3F#32
  | .op => 0xF#32
  | .csSelect | .csLength | .cfg | .dataWord | .dataByte => 0xFFFFFFFF#32

/-- The state after a call that wrote `v` to register `r` and reported Ok (R54, R88, R94). -/
def State.wrote (s : State) (r : Reg) (v : Word) : State :=
  { s with
    window := s.window.set r v
    trace := s.trace ++ [.wr r v]
    spi := s.spi ++ movesOf s.window.cs [.wr r v]
    reports := s.reports ++ [⟨.ok, .none⟩] }

/-- The state after a call that read register `r` and reported the value (R53, R87, R93). -/
def State.didRead (s : State) (r : Reg) : State :=
  { s with
    answers := s.answers.drop 1
    draws := s.draws + 1
    trace := s.trace ++ [.rd r (s.answerAt 0)]
    spi := s.spi ++ movesOf s.window.cs [.rd r (s.answerAt 0)]
    reports := s.reports ++ [⟨.ok, .word (s.answerAt 0)⟩] }

/-- The operation of the core that an instruction is (R67); none for a single register access. -/
def operationOf : Instr → Option OpName
  | .rdCfg | .wrCfg _ | .rdCfg2 | .wrCfg2 _ | .rdCs | .wrCs _ | .rdData | .wrData _ | .rdData2
  | .wrData2 _ => none
  | .waitReady => some .waitReady
  | .negotiate _ => some .negotiate
  | .setup _ => some .setup
  | .deselect => some .deselect
  | .select _ => some .select
  | .xferWrite _ => some .xferWrite
  | .xferRead _ _ => some .xferRead
  | .transfer _ => some .transfer
  | .maxXferSize => some .maxXferSize
  | .csDeselBoth | .csAssertBoth | .csSel0 | .csSel1 | .csLen4 _ _ | .csLen1 _ _ | .cfgDiv _ _
  | .dataByte _ | .dataWord _ _ _ _ => none

/-- The instruction is an operation of the core (R67), not a single register access. -/
def isOperation (i : Instr) : Bool := (operationOf i).isSome

/-! ### The invariant -/

/-- What holds between any two steps: the handle's constants are the block's (R31); nothing is in
flight (R32); the working counters are in their ranges (R29); the device's latch of a register is
the word last written to it (R35); each read had one answer (R53); each DATA access moved bytes once
(R51); the destination in hand holds what the engine wrote (R118); and no report is
ResourceUnavailable, which belongs to attach (R137). -/
structure Inv (s : State) : Prop where
  handle : ∀ h, s.handle = some h → h.base = Config.regBase ∧ h.refHz = Config.refHz
  idle : s.seq = .idle ∧ s.ops = []
  poll : s.w.poll ≤ Config.pollLimit
  index : s.w.i ≤ Config.maxXfer
  latch : ∀ r v, lastWrite r s.trace = some v → s.window.get r = v
  draws : s.draws = s.trace.countP Event.isRead
  moves : s.spi.length = s.trace.countP Event.isData
  filled : s.filled ≤ s.out.length
  status : s.w.status ≠ .resourceUnavailable
  reports : ∀ r ∈ s.reports, r.status ≠ .resourceUnavailable

end Sys2Proof.Machine
end

