-- ==== Sys2Proof/Certificates/Slice0/Obligations.lean ====
section
/-! DEFINITION. The statements for the provers. Each docstring names the rules a statement rests on,
and the model's own choices it rests on, by their log entries. -/

open Sys2Proof Sys2Proof.Machine

/-! ### Attach, and what a call needs -/

/-- What attach leaves (R42, R150): the handle with its constants, the sequencer Idle, no register
access. The value 0 of `last_speed_hz` is decision D17. -/
def Obligations.AttachCreatesTheHandle : Prop :=
  State.reset.handle = some ⟨Config.regBase, 200000000, 0⟩ ∧ State.reset.seq = .idle ∧
  State.reset.ops = [] ∧ State.reset.trace = [] ∧ State.reset.draws = 0 ∧
  State.reset.reports = [] ∧ State.reset.calls = []

/-- ResourceUnavailable is attach's outcome alone (R137): a failed attach leaves no handle, without a
handle no call is accepted, and no call that runs reports that status. -/
def Obligations.ResourceUnavailableIsAttachsAlone : Prop :=
  attachStatus false = .resourceUnavailable ∧ (State.attach false).handle = none ∧
  (∀ (i : Instr) (s : State), s.handle = none → exec i s = .refused .noHandle) ∧
  ∀ (i : Instr) (s t : State), exec i s = .next t →
    ∃ rep, t.reports = s.reports ++ [rep] ∧ rep.status ≠ .resourceUnavailable

/-- A call while another is in flight is refused (R39 duty 1, R159). -/
def Obligations.CallInFlightRefused : Prop :=
  ∀ (i : Instr) (s : State), s.handle ≠ none → s.seq ≠ .idle ∨ s.ops ≠ [] →
    exec i s = .refused .callInFlight

/-- Arguments outside their types are refused, and which they are (R39 duties 2 to 5, R80; decisions
D10, D11, D31). That a destination of the wrong size is one, in any descriptor, and that one bad
descriptor refuses the whole message, is log entry 18, the model's choice. -/
def Obligations.IllegalArgumentsRefused : Prop :=
  (∀ (i : Instr) (s : State) (e : Illegal), Accepting s → i.illegal = some e →
    exec i s = .refused (.illegalArgument e)) ∧
  (∀ slot, 2 ≤ slot → (Instr.select slot).illegal = some .badSlot) ∧
  (∀ b, 256 < b.length → (Instr.xferWrite b).illegal = some .tooLong) ∧
  (∀ n out, 256 < n → (Instr.xferRead n out).illegal = some .tooLong) ∧
  (∀ n out, n ≤ 256 → out.length ≠ n → (Instr.xferRead n out).illegal = some .bufferSize) ∧
  (∀ m : Message, 2 ≤ m.slot → (Instr.transfer m).illegal = some .badSlot) ∧
  (∀ (m : Message) (t : Descriptor), t ∈ m.xfers →
    256 < t.len ∨ (t.tx = none ∧ t.rx = none) ∨ (∃ b, t.tx = some b ∧ b.length ≠ t.len) ∨
      (∃ b, t.rx = some b ∧ b.length ≠ t.len) →
    (Instr.transfer m).wf = false)

/-- Every legal instruction completes: whatever the device answers, a legal call that is accepted
ends in a next state with one report, the block Idle again and the handle's constants kept (R98,
R127, R163; D24: every access completes). That the CFG2 and DATA2 accesses run is log entry 8, the word
rows log entry 9, that the core's own invocations are pending calls too log entry 11, and one report
for each call log entry 20: the model's choices. -/
def Obligations.LegalCallsComplete : Prop :=
  ∀ (i : Instr) (s : State), i.wf = true → Accepting s →
    ∃ t rep, exec i s = .next t ∧ t.reports = s.reports ++ [rep] ∧ Accepting t ∧
      t.calls = s.calls ∧
      t.handle.map (fun h => (h.base, h.refHz)) = s.handle.map (fun h => (h.base, h.refHz))

/-! ### Encoding -/

/-- All ten descriptors of R65, all nine labels of R67, the four words of R74, and one word each of R75
(LEN4 and LEN1), R76, R77 and R78 decode to their instructions, and the illegal codes of
95_test_vectors.md section 2, descriptors 0x14, 0x01 and 0x3C and labels 0x9 and 0xF, are rejected.
That operands are a list of naturals beside the code, and the shape of the list (a byte sequence is its
length and then its bytes), is log entry 4, the model's choice. -/
def Obligations.SpecWordsDecode : Prop :=
  ([0x00#32, 0x04#32, 0x08#32, 0x0C#32, 0x10#32].map (fun d => decode ⟨.bus, d, []⟩) =
    [.ok .rdCfg, .ok .rdCfg2, .ok .rdCs, .ok .rdData, .ok .rdData2]) ∧
  ([0x20#32, 0x24#32, 0x28#32, 0x2C#32, 0x30#32].map (fun d => decode ⟨.bus, d, [0xAB000000]⟩) =
    [.ok (.wrCfg 0xAB000000#32), .ok (.wrCfg2 0xAB000000#32), .ok (.wrCs 0xAB000000#32),
      .ok (.wrData 0xAB000000#32), .ok (.wrData2 0xAB000000#32)]) ∧
  ([0x14#32, 0x01#32, 0x3C#32].map (fun d => decode ⟨.bus, d, []⟩) =
    [.reject .illegalDescriptor, .reject .illegalDescriptor, .reject .illegalDescriptor]) ∧
  decode ⟨.op, 0x0#32, []⟩ = .ok .waitReady ∧
  decode ⟨.op, 0x1#32, [25000000]⟩ = .ok (.negotiate 25000000) ∧
  decode ⟨.op, 0x2#32, [150000000]⟩ = .ok (.setup 150000000) ∧
  decode ⟨.op, 0x3#32, []⟩ = .ok .deselect ∧
  decode ⟨.op, 0x4#32, [1]⟩ = .ok (.select 1) ∧
  decode ⟨.op, 0x5#32, [2, 0xDE, 0xAD]⟩ = .ok (.xferWrite [0xDE#8, 0xAD#8]) ∧
  decode ⟨.op, 0x6#32, [2, 2, 0xDE, 0xAD]⟩ = .ok (.xferRead 2 [0xDE#8, 0xAD#8]) ∧
  decode ⟨.op, 0x7#32, [0, 25000000, 1, 1, 0, 1, 1, 0x9F, 0]⟩ =
    .ok (.transfer ⟨0, 25000000, [⟨some [0x9F#8], none, 1, 0⟩]⟩) ∧
  decode ⟨.op, 0x8#32, []⟩ = .ok .maxXferSize ∧
  decode ⟨.op, 0x9#32, []⟩ = .reject .illegalLabel ∧
  decode ⟨.op, 0xF#32, []⟩ = .reject .illegalLabel ∧
  ([0xC0000000#32, 0x00000000#32, 0x40000000#32, 0x81000000#32].map
      (fun v => decode ⟨.csSelect, v, []⟩) =
    [.ok .csDeselBoth, .ok .csAssertBoth, .ok .csSel0, .ok .csSel1]) ∧
  decode ⟨.csLength, 0xB9000000#32, []⟩ = .ok (.csLen4 0b10#2 0x9000000#28) ∧
  decode ⟨.csLength, 0x89000000#32, []⟩ = .ok (.csLen1 0b10#2 0x9000000#28) ∧
  decode ⟨.cfg, 0x7FFFFFFF#32, []⟩ = .ok (.cfgDiv 3#3 0x1FFFFFFF#29) ∧
  decode ⟨.dataWord, 0xDEADBEEF#32, []⟩ = .ok (.dataWord 0xDE#8 0xAD#8 0xBE#8 0xEF#8) ∧
  decode ⟨.dataByte, 0xAB000000#32, []⟩ = .ok (.dataByte 0xAB#8)

/-- Decoding inverts encoding, for every instruction and every operand (R64 to R67, R74 to R78). The
shape of the operand list is log entry 4. -/
def Obligations.DecodeInvertsEncode : Prop := ∀ i : Instr, decode (encode i) = .ok i

/-- A request that decodes is the encoding of what it decodes to, but for the code bits that decoding
masks away: each legal value has one meaning (R84). -/
def Obligations.EncodeInvertsDecode : Prop :=
  ∀ (r : Request) (i : Instr), decode r = .ok i →
    encode i = { r with code := r.code &&& codeMask r.format }

/-- Codes that encode no instruction are rejected by name, whatever the operands: a bus descriptor outside
R65, a label 0x9 to 0xF (R80, R84), and a CS word with LEN 1 or 2 where an engine's word is asked for
(R72). That each format is a code space of its own, so that a word outside R74 is rejected in the
chip-select sequencer's format, though it may be a word of the engine's, and a word with bits 23:0 not 0
in the 1-byte DATA format (R78), is log entry 3, the model's choice. -/
def Obligations.IllegalCodesRejected : Prop :=
  ∀ (c : Word) (ns : List Nat),
    ((c &&& 0x3F#32).toNat ∉ [0x00, 0x20, 0x04, 0x24, 0x08, 0x28, 0x0C, 0x2C, 0x10, 0x30] →
      decode ⟨.bus, c, ns⟩ = .reject .illegalDescriptor) ∧
    (9 ≤ (c &&& 0xF#32).toNat → decode ⟨.op, c, ns⟩ = .reject .illegalLabel) ∧
    (c.toNat ∉ [0xC0000000, 0x00000000, 0x40000000, 0x81000000] →
      decode ⟨.csSelect, c, ns⟩ = .reject .illegalWord) ∧
    (c.extractLsb' 28 2 = 1#2 ∨ c.extractLsb' 28 2 = 2#2 →
      decode ⟨.csLength, c, ns⟩ = .reject .illegalWord) ∧
    (c.extractLsb' 0 24 ≠ 0#24 → decode ⟨.dataByte, c, ns⟩ = .reject .illegalWord)

/-! ### The step -/

/-- A step runs the decoded call: it takes the oldest pending call, and where its invoker is the one the
instruction is open to, the effect is `exec`'s (R38, R144). The queue of pending calls, its order, and
one whole call for each step are log entries 10 and 11, the model's choices. -/
def Obligations.StepRunsTheDecodedCall : Prop :=
  ∀ (s : State) (c : Call) (rest : List Call) (i : Instr),
    s.calls = c :: rest → decode c.request = .ok i → c.invoker = invokerOf i →
    step s = exec i { s with calls := rest }

/-- With no call pending the block waits (R150), and a request that encodes no instruction is refused
by its reason (R80). The entry points SETUP, TRANSFER and MAX_XFER_SIZE are open to the host, and every
other operation and every register access to the core; a call by another than that one is refused
(R8, R38, R67, R144). That the model refuses it by a name of its own, and that a call names its
invoker, is log entry 11, the model's choice. -/
def Obligations.StepWaitsOrRefuses : Prop :=
  (∀ s : State, s.calls = [] → step s = .next s) ∧
  (∀ (s : State) (c : Call) (rest : List Call) (e : DecodeError),
    s.calls = c :: rest → decode c.request = .reject e → step s = .refused (.illegalEncoding e)) ∧
  (∀ (s : State) (c : Call) (rest : List Call) (i : Instr),
    s.calls = c :: rest → decode c.request = .ok i →
    (c.invoker = .host → (∀ hz, i ≠ .setup hz) → (∀ m, i ≠ .transfer m) → i ≠ .maxXferSize →
      step s = .refused .wrongInvoker) ∧
    (c.invoker = .core → (∃ hz, i = .setup hz) ∨ (∃ m, i = .transfer m) ∨ i = .maxXferSize →
      step s = .refused .wrongInvoker)) ∧
  ∀ i : Instr, invokerOf i = .host ↔
    (∃ hz, i = .setup hz) ∨ (∃ m, i = .transfer m) ∨ i = .maxXferSize

/-- Every step keeps the invariant, from every state that has it (R29, R31, R32, R35, R51, R53, R118,
R137). That a latch keeps the whole word last written, also across a read, is log entry 15, the model's
choice. -/
def Obligations.StepKeepsTheInvariant : Prop :=
  ∀ s t : State, Inv s → step s = .next t → Inv t

/-- The invariant holds after reset (R42, R150). Its clauses on W.poll, W.i and W.status hold by the
values the working registers have at reset, which the spec does not give: log entry 6, the model's
choice, as is that its own records are empty then. -/
def Obligations.ResetMeetsTheInvariant : Prop := Inv State.reset

/-- A host that keeps its duties is never refused: from an accepting state with only legal calls
pending, each by the invoker its instruction is open to, any number of steps completes, in an accepting
state (R38, R39, R127, R144, R163). That legal calls take in DATA2 accesses is log entry 8, and the
core's own invocations of its operations and accesses log entry 11: the model's choices. -/
def Obligations.LegalRunsNeverStop : Prop :=
  ∀ (n : Nat) (s : State), Accepting s →
    (∀ c ∈ s.calls, ∃ i, decode c.request = .ok i ∧ c.invoker = invokerOf i ∧ i.wf = true) →
    ∃ t : State, Sys2Proof.core.run n s = .next t ∧ Accepting t

/-! ### The bus -/

/-- Every register read returns the device's next answer, whatever it is: the trace only grows, the
reads it gained returned the device's answers in order, and none was skipped or used twice (R52, R53,
R55). -/
def Obligations.ReadsUseTheAnswersInOrder : Prop :=
  ∀ (i : Instr) (s t : State), exec i s = .next t →
    ∃ es, t.trace = s.trace ++ es ∧
      answersUsed es = (List.range (answersUsed es).length).map s.answerAt ∧
      t.answers = s.answers.drop (answersUsed es).length ∧
      t.draws = s.draws + (answersUsed es).length

/-- Every DATA access moves LEN + 1 bytes over the lines, both by the CS word last written before it,
and nothing else moves bytes; in 1-byte mode it is the byte in bits 31:24, in 4-byte mode all four
bytes (R22, R27, R35, R51, R93, R94). That a write takes effect at once is log entry 12, that DATA2
accesses move none log entry 8, the lanes of the other two modes log entry 21, and that bytes move also
under chip-select bits that address no one slot (R109, N11) log entry 23: the model's choices. -/
def Obligations.DataAccessesMoveBytes : Prop :=
  (∀ (i : Instr) (s t : State), exec i s = .next t →
    t.spi = s.spi ++ movesOf s.window.cs (newEvents s t)) ∧
  ∀ cs w : Word, (movedBytes cs w).length = (cs.extractLsb' 28 2).toNat + 1 ∧
    (cs.extractLsb' 28 2 = 0#2 → movedBytes cs w = [w.extractLsb' 24 8]) ∧
    (cs.extractLsb' 28 2 = 3#2 → movedBytes cs w =
      [w.extractLsb' 24 8, w.extractLsb' 16 8, w.extractLsb' 8 8, w.extractLsb' 0 8])

/-- RD_CFG, RD_CFG2, RD_CS, RD_DATA and RD_DATA2 complete: one read access, its value, which is any
word the device answers, reported; a DATA read moves bytes; nothing else changes (R53, R87, R89, R91,
R93, R95). That RD_DATA2 runs, and moves nothing, is log entry 8, and that a read changes no latch of
the device, DATA's and CS's among them, log entry 15: the model's choices. -/
def Obligations.RegisterReadsReturnTheAnswer : Prop :=
  (∀ (r : Reg) (s : State), Accepting s → exec (readOf r) s = .next (s.didRead r)) ∧
  ∀ (v : Word) (s : State), ({ s with answers := v :: s.answers } : State).answerAt 0 = v

/-- WR_CFG, WR_CFG2, WR_CS, WR_DATA and WR_DATA2 complete: one write access, which the device latches;
a DATA write moves bytes; nothing else changes (R54, R88, R90, R92, R94, R96). That WR_DATA2 runs, and
moves nothing, is log entry 8, and that a write is latched at once log entry 12: the model's
choices. -/
def Obligations.RegisterWritesReachTheDevice : Prop :=
  (∀ (r : Reg) (v : Word) (s : State), Accepting s → exec (writeOf v r) s = .next (s.wrote r v)) ∧
  ∀ (r r' : Reg) (v : Word) (s : State),
    (s.wrote r v).window.get r = v ∧ (r' ≠ r → (s.wrote r v).window.get r' = s.window.get r')

/-- What the device does with the fields it is written (R88, R90, R92): the divide, the two
chip-select lines and the lane, the length mode, the I/O width, and the four fields of CFG2 (R18 to
R22, R24, R25). That they hold right after the write, before any wait, is log entry 12 (R35 leaves the
delay open), and that each chip-select bit has its own effect also where DPS is out of step with CSB1
(R109, N11) log entry 23: the model's choices. -/
def Obligations.WrittenFieldsTakeEffect : Prop :=
  ∀ (v : Word) (s t : State),
    (exec (.wrCfg v) s = .next t → t.divide = 2 * (v.extractLsb' 29 3).toNat + 2) ∧
    (exec (.wrCs v) s = .next t →
      (t.lines.slot0 = true ↔ v.getLsbD 31 = false) ∧
      (t.lines.slot1 = true ↔ v.getLsbD 30 = false) ∧
      (t.lines.secondLane = true ↔ v.getLsbD 24 = true) ∧
      lenBytes t.window.cs = (v.extractLsb' 28 2).toNat + 1 ∧
      iowField t.window.cs = v.extractLsb' 25 2) ∧
    (exec (.wrCfg2 v) s = .next t →
      cmdField t.window.cfg2 = v.extractLsb' 24 8 ∧ sizeField t.window.cfg2 = v.extractLsb' 21 3 ∧
      rdOpt t.window.cfg2 = v.getLsbD 20 ∧ holdFlag t.window.cfg2 = v.getLsbD 10)

/-- No operation of the core accesses CFG2 or DATA2, and only NEGOTIATE, on its own or in TRANSFER,
accesses CFG: TRANSFER's CFG accesses all lie in Prepared, where it makes none or the two of NEGOTIATE
for the message's speed and nothing else (R17, R19, R27, R100, R121). -/
def Obligations.OperationsLeaveOtherRegistersAlone : Prop :=
  ∀ (i : Instr) (s t : State), isOperation i = true → exec i s = .next t →
    ∀ e ∈ newEvents s t, e.reg ≠ .cfg2 ∧ e.reg ≠ .data2 ∧
      (e.reg = .cfg → (∃ hz, i = .negotiate hz) ∨
        ∃ m, i = .transfer m ∧ e ∈ accessesIn .prepared s t ∧
          (∀ p ≠ Phase.prepared, e ∉ accessesIn p s t) ∧
          ∃ v, accessesIn .prepared s t = [.rd .cfg v,
            .wr .cfg (cfgWord v (codeOf (clampRate (ceilDiv Config.refHz (messageSpeed m)))))])

/-- Only a 32-bit access at one of the five offsets from the base reaches a register, and it is that
register's RegRead or RegWrite; the register accesses that `exec` runs are these MemRead and MemWrite at
base + offset (R12, R43, R45, R50, R65). -/
def Obligations.OnlyTheFiveOffsetsReachARegister : Prop :=
  ∀ (s : State) (h : Handle), s.handle = some h → ∀ (addr width : Nat) (v : Word),
    (∀ r : Reg, addr = h.base + r.offset → width = 4 →
      memRead addr width s = some (regRead r s) ∧
      memWrite addr width v s = some (regWrite r v s)) ∧
    ((∀ r : Reg, addr ≠ h.base + r.offset) ∨ width ≠ 4 →
      memRead addr width s = none ∧ memWrite addr width v s = none) ∧
    (Accepting s → ∀ r : Reg,
      (∃ w u, memRead (h.base + r.offset) 4 s = some (w, u) ∧
        exec (readOf r) s = .next { u with reports := s.reports ++ [⟨.ok, .word w⟩] }) ∧
      ∃ u, memWrite (h.base + r.offset) 4 v s = some u ∧
        exec (writeOf v r) s = .next { u with reports := s.reports ++ [⟨.ok, .none⟩] })

/-- The register words of the opcode table complete as the write each stands for (R74 to R78, R107,
R108, R112 to R115). That a word row is run as that write is log entry 9. -/
def Obligations.WordRowsWriteTheirWords : Prop :=
  ∀ s : State, Accepting s →
    exec .csDeselBoth s = .next (s.wrote .cs 0xC0000000#32) ∧
    exec .csAssertBoth s = .next (s.wrote .cs 0x00000000#32) ∧
    exec .csSel0 s = .next (s.wrote .cs 0x40000000#32) ∧
    exec .csSel1 s = .next (s.wrote .cs 0x81000000#32) ∧
    (∀ hi lo, ∃ v : Word, exec (.csLen4 hi lo) s = .next (s.wrote .cs v) ∧
      v.extractLsb' 30 2 = hi ∧ v.extractLsb' 28 2 = 3#2 ∧ v.extractLsb' 0 28 = lo) ∧
    (∀ hi lo, ∃ v : Word, exec (.csLen1 hi lo) s = .next (s.wrote .cs v) ∧
      v.extractLsb' 30 2 = hi ∧ v.extractLsb' 28 2 = 0#2 ∧ v.extractLsb' 0 28 = lo) ∧
    (∀ code rest, ∃ v : Word, exec (.cfgDiv code rest) s = .next (s.wrote .cfg v) ∧
      v.extractLsb' 29 3 = code ∧ v.extractLsb' 0 29 = rest) ∧
    (∀ b, ∃ v : Word, exec (.dataByte b) s = .next (s.wrote .data v) ∧
      v.extractLsb' 24 8 = b ∧ v.extractLsb' 0 24 = 0#24) ∧
    (∀ b0 b1 b2 b3, ∃ v : Word, exec (.dataWord b0 b1 b2 b3) s = .next (s.wrote .data v) ∧
      v.extractLsb' 24 8 = b0 ∧ v.extractLsb' 16 8 = b1 ∧ v.extractLsb' 8 8 = b2 ∧
      v.extractLsb' 0 8 = b3)

/-! ### The readiness poller -/

/-- WAIT_READY completes with Ok at the first poll that sees RDY = 1: exactly that many CS reads, and
nothing else changes (R97 corner cases 1, 2, 4, 5; D6). The record of the sequencer in `polled` is log
entry 10, and that a CS read changes no latch log entry 15: the model's choices. -/
def Obligations.WaitReadyEndsAtTheFirstReadyPoll : Prop :=
  ∀ (s : State) (k : Nat), Accepting s → k < 2000 → BusyFor s k → rdy (s.answerAt k) = true →
    exec .waitReady s =
      .next { s.polled (k + 1) with reports := s.reports ++ [⟨.ok, .none⟩] }

/-- WAIT_READY completes with TimedOut after exactly 2000 CS reads that all saw RDY = 0 (R97 corner
case 3; D6). The record of the sequencer in `polled` is log entry 10, and that a CS read changes no
latch log entry 15: the model's choices. -/
def Obligations.WaitReadyTimesOutAfter2000Polls : Prop :=
  ∀ s : State, Accepting s → BusyFor s 2000 →
    exec .waitReady s =
      .next { s.polled 2000 with reports := s.reports ++ [⟨.timedOut, .none⟩] }

/-- WAIT_READY always ends, after at least one and at most 2000 reads, all of them of CS (R97, R98). -/
def Obligations.WaitReadyIsBounded : Prop :=
  ∀ s : State, Accepting s → ∃ t, exec .waitReady s = .next t ∧
    1 ≤ (newEvents s t).length ∧ (newEvents s t).length ≤ 2000 ∧
    (∀ e ∈ newEvents s t, ∃ v, e = .rd .cs v) ∧
    (t.reports = s.reports ++ [⟨.ok, .none⟩] ∨ t.reports = s.reports ++ [⟨.timedOut, .none⟩])

/-! ### The clock configurator -/

/-- NEGOTIATE completes for every speed from 12500000 Hz on: one CFG read and one CFG write, the code
from the least rate that is fast enough, bits 28:0 written back as read, the speed recorded, nothing
else changed (R11, R70, R76, R100; D18, D27). -/
def Obligations.NegotiateProgramsTheDivider : Prop :=
  ∀ (hz : Nat) (s : State), Accepting s → 12500000 ≤ hz →
    ∃ (q : Nat) (v : Word), (200000000 ≤ q * hz ∧ ∀ p, 200000000 ≤ p * hz → q ≤ p) ∧
      v.extractLsb' 29 3 = BitVec.ofNat 3 ((max q 2 - 2) / 2) ∧ (max q 2 - 2) / 2 < 8 ∧
      v.extractLsb' 0 29 = (s.answerAt 0).extractLsb' 0 29 ∧
      ∃ t, exec (.negotiate hz) s = .next t ∧
        { t with seqLog := s.seqLog } =
          { s with
            handle := s.handle.map (fun h => { h with lastSpeedHz := hz })
            w := { s.w with
              rate := max q 2, code := BitVec.ofNat 3 ((max q 2 - 2) / 2), cfg := s.answerAt 0 }
            window := { s.window with cfg := v }
            answers := s.answers.drop 1
            draws := s.draws + 1
            trace := s.trace ++ [.rd .cfg (s.answerAt 0), .wr .cfg v]
            reports := s.reports ++ [⟨.ok, .none⟩] }

/-- NEGOTIATE completes with InvalidSpeed for every speed below 12500000 Hz, 0 among them, with no
bus access and the handle as it was (R100, R135; D5). -/
def Obligations.NegotiateRejectsSlowSpeeds : Prop :=
  ∀ (hz : Nat) (s : State), Accepting s → hz < 12500000 →
    ∃ t, exec (.negotiate hz) s = .next t ∧
      { t with seqLog := s.seqLog, w := { t.w with rate := s.w.rate } } =
        { s with reports := s.reports ++ [⟨.invalidSpeed, .none⟩] }

/-- The table of divider codes by requested speed (R70, R104). -/
def Obligations.DividerCodeTable : Prop :=
  ∀ hz : Nat,
    (66666667 ≤ hz → codeOf (clampRate (ceilDiv Config.refHz hz)) = 0#3) ∧
    (40000000 ≤ hz → hz ≤ 66666666 → codeOf (clampRate (ceilDiv Config.refHz hz)) = 1#3) ∧
    (28571429 ≤ hz → hz ≤ 39999999 → codeOf (clampRate (ceilDiv Config.refHz hz)) = 2#3) ∧
    (22222223 ≤ hz → hz ≤ 28571428 → codeOf (clampRate (ceilDiv Config.refHz hz)) = 3#3) ∧
    (18181819 ≤ hz → hz ≤ 22222222 → codeOf (clampRate (ceilDiv Config.refHz hz)) = 4#3) ∧
    (15384616 ≤ hz → hz ≤ 18181818 → codeOf (clampRate (ceilDiv Config.refHz hz)) = 5#3) ∧
    (13333334 ≤ hz → hz ≤ 15384615 → codeOf (clampRate (ceilDiv Config.refHz hz)) = 6#3) ∧
    (12500000 ≤ hz → hz ≤ 13333333 → codeOf (clampRate (ceilDiv Config.refHz hz)) = 7#3)

/-- The divide NEGOTIATE leaves is the clamped rate rounded down to an even number, so the SPI clock
is never below REF_HZ / rate; for 40000000 Hz it is 50000000 Hz (R101). That the device divides so right
after the CFG write, before any wait, is log entry 12, the model's choice. -/
def Obligations.EffectiveClockIsAtLeastTheRate : Prop :=
  (∀ (hz : Nat) (s t : State), 12500000 ≤ hz → exec (.negotiate hz) s = .next t →
    t.divide % 2 = 0 ∧ t.divide ≤ t.w.rate ∧ t.w.rate ≤ t.divide + 1 ∧
    200000000 / t.w.rate ≤ 200000000 / t.divide) ∧
  ∀ s t : State, exec (.negotiate 40000000) s = .next t → 200000000 / t.divide = 50000000

/-- The speed range of the divider, and that both ends divide exactly (R103). -/
def Obligations.SpeedRangeDividesExactly : Prop :=
  Config.speedMax = 100000000 ∧ Config.speedMax * 2 = Config.refHz ∧
  Config.speedMin = 12500000 ∧ Config.speedMin * 16 = Config.refHz

/-- SETUP completes: clamped to 100000000 Hz, InvalidSpeed below 12500000 Hz, and nothing but the
report and the record of the sequencer changes (R102, R106; D9). -/
def Obligations.SetupValidatesTheMaximum : Prop :=
  ∀ (hz : Nat) (s : State), Accepting s → ∃ t, exec (.setup hz) s = .next t ∧
    { t with seqLog := s.seqLog, reports := s.reports } = s ∧
    (hz < 12500000 → t.reports = s.reports ++ [⟨.invalidSpeed, .none⟩]) ∧
    (12500000 ≤ hz → hz ≤ 100000000 → t.reports = s.reports ++ [⟨.ok, .hz hz⟩]) ∧
    (100000000 < hz → t.reports = s.reports ++ [⟨.ok, .hz 100000000⟩])

/-! ### The chip-select sequencer -/

/-- DESELECT completes with Ok on a device that is ready at each wait: the six accesses of the pulse,
both lines deasserted, nothing else changed (R107, R111; D4). That the CS reads leave every latch as it
was is log entry 15, the model's choice. -/
def Obligations.DeselectPulseWhenReady : Prop :=
  ∀ s : State, Accepting s → readyAt s 0 pulseItems = true →
    ∃ t, exec .deselect s = .next t ∧
      { t with seqLog := s.seqLog } =
        { s with
          w := { s.w with poll := 1 }
          window := { s.window with cs := 0xC0000000#32 }
          answers := s.answers.drop 3
          draws := s.draws + 3
          trace := s.trace ++ eventsOf s 0 pulseItems
          reports := s.reports ++ [⟨.ok, .none⟩] } ∧
      t.lines = ⟨false, false, false⟩

/-- SELECT completes with Ok on a device that is ready at each wait: the pulse, the slot's word, the
slot's line alone asserted, the second lane for slot 1 alone, nothing else changed (R108, R109, R111,
R156; D4). That the CS reads leave every latch as it was is log entry 15, the model's choice. -/
def Obligations.SelectWhenReady : Prop :=
  ∀ (slot : Nat) (s : State), slot < 2 → Accepting s → readyAt s 0 (selectItems slot) = true →
    ∃ t, exec (.select slot) s = .next t ∧
      { t with seqLog := s.seqLog } =
        { s with
          w := { s.w with poll := 1 }
          window := { s.window with cs := if slot = 0 then 0x40000000#32 else 0x81000000#32 }
          answers := s.answers.drop 4
          draws := s.draws + 4
          trace := s.trace ++ eventsOf s 0 (selectItems slot)
          reports := s.reports ++ [⟨.ok, .none⟩] } ∧
      t.lines = ⟨slot == 0, slot == 1, slot == 1⟩

/-- DESELECT on any device: the words of the pulse in order, all three on Ok; a timeout after the
first or third leaves both lines deasserted, after the second both asserted (R107, R134, R157). -/
def Obligations.DeselectStopsWithinThePulse : Prop :=
  ∀ s : State, Accepting s → ∃ t, exec .deselect s = .next t ∧
    ((t.reports = s.reports ++ [⟨.ok, .none⟩] ∧
        writesTo .cs (newEvents s t) = [0xC0000000#32, 0x00000000#32, 0xC0000000#32] ∧
        t.lines = ⟨false, false, false⟩) ∨
      (t.reports = s.reports ++ [⟨.timedOut, .none⟩] ∧
        ((writesTo .cs (newEvents s t) = [0xC0000000#32] ∧ t.lines = ⟨false, false, false⟩) ∨
          (writesTo .cs (newEvents s t) = [0xC0000000#32, 0x00000000#32] ∧
            t.lines = ⟨true, true, false⟩) ∨
          (writesTo .cs (newEvents s t) = [0xC0000000#32, 0x00000000#32, 0xC0000000#32] ∧
            t.lines = ⟨false, false, false⟩))))

/-- SELECT on any device: the pulse's words and then the slot's, in order, as far as the waits
succeed; all four on Ok, and on Ok the slot's line alone is asserted. A timeout after the first or
third word leaves both lines deasserted, after the second both asserted, after the select word the
slot's line alone asserted (R108, R111, R134, R157). -/
def Obligations.SelectStopsWithinItsWords : Prop :=
  ∀ (slot : Nat) (s : State), slot < 2 → Accepting s → ∃ t, exec (.select slot) s = .next t ∧
    writesTo .cs (newEvents s t) <+:
      [0xC0000000#32, 0x00000000#32, 0xC0000000#32,
        if slot = 0 then 0x40000000#32 else 0x81000000#32] ∧
    ((t.reports = s.reports ++ [⟨.ok, .none⟩] ∧ (writesTo .cs (newEvents s t)).length = 4 ∧
        t.lines = ⟨slot == 0, slot == 1, slot == 1⟩) ∨
      (t.reports = s.reports ++ [⟨.timedOut, .none⟩] ∧
        (((writesTo .cs (newEvents s t)).length = 1 ∧ t.lines = ⟨false, false, false⟩) ∨
          ((writesTo .cs (newEvents s t)).length = 2 ∧ t.lines = ⟨true, true, false⟩) ∨
          ((writesTo .cs (newEvents s t)).length = 3 ∧ t.lines = ⟨false, false, false⟩) ∨
          ((writesTo .cs (newEvents s t)).length = 4 ∧
            t.lines = ⟨slot == 0, slot == 1, slot == 1⟩))))

/-- The pulse makes at most 6003 accesses, and at least 6 on Ok; SELECT at most 8004, and at least 8
on Ok (R107 corner case 4, R108 corner case 4, R130). -/
def Obligations.ChipSelectAccessBounds : Prop :=
  ∀ s t : State,
    (exec .deselect s = .next t → (newEvents s t).length ≤ 6003 ∧
      (t.reports = s.reports ++ [⟨.ok, .none⟩] → 6 ≤ (newEvents s t).length)) ∧
    ∀ slot, exec (.select slot) s = .next t → (newEvents s t).length ≤ 8004 ∧
      (t.reports = s.reports ++ [⟨.ok, .none⟩] → 8 ≤ (newEvents s t).length)

/-! ### The data-transfer engine -/

/-- XFER_WRITE completes with Ok on a device that is ready at each wait: exactly the accesses of R112
in order, `5 + 2 * (n div 4 + n mod 4)` of them, CS left in LEN1 with its other bits as read
(R75, R112, R114 to R116; D2, D3). -/
def Obligations.XferWriteWhenReady : Prop :=
  ∀ (b : List Byte) (s : State), b.length ≤ 256 → Accepting s →
    readyAt s 0 (xferWriteItems .big b (s.answerAt 0)) = true →
    ∃ t, exec (.xferWrite b) s = .next t ∧ t.reports = s.reports ++ [⟨.ok, .none⟩] ∧
      t.trace = s.trace ++ eventsOf s 0 (xferWriteItems .big b (s.answerAt 0)) ∧
      (newEvents s t).length = 5 + 2 * (b.length / 4 + b.length % 4) ∧
      t.window.cs = s.answerAt 0 &&& ~~~0x30000000#32 ∧ t.w.i = b.length

/-- XFER_READ completes with Ok on a device that is ready at each wait: exactly the accesses of R113
in order, and every byte of the destination is what the DATA words carried
(R75, R113 to R116, R118; D2, D3). -/
def Obligations.XferReadWhenReady : Prop :=
  ∀ (n : Nat) (out : List Byte) (s : State), n ≤ 256 → out.length = n → Accepting s →
    readyAt s 0 (xferReadItems n (s.answerAt 0)) = true →
    ∃ t, exec (.xferRead n out) s = .next t ∧
      t.reports = s.reports ++ [⟨.ok, .bytes n (receivedBytes .big s 0 n)⟩] ∧
      t.trace = s.trace ++ eventsOf s 0 (xferReadItems n (s.answerAt 0)) ∧
      (newEvents s t).length = 5 + 2 * (n / 4 + n % 4) ∧
      t.window.cs = s.answerAt 0 &&& ~~~0x30000000#32 ∧ t.w.i = n

/-- What a read leaves in its destination, on any device: the bytes of the DATA words it received,
from index 0 on, then what the host left there; all of it received on Ok (R60, R114, R115, R117,
R118; D2). -/
def Obligations.XferReadFillsAPrefix : Prop :=
  ∀ (n : Nat) (out : List Byte) (s : State), n ≤ 256 → out.length = n → Accepting s →
    ∃ t st, exec (.xferRead n out) s = .next t ∧
      t.reports = s.reports ++ [⟨st, .bytes t.filled t.out⟩] ∧
      (st = .ok ∨ st = .timedOut) ∧ t.filled ≤ n ∧ (st = .ok → t.filled = n) ∧
      t.out = bytesOfWords .big n (readsFrom .data (newEvents s t)) ++ out.drop t.filled ∧
      (bytesOfWords .big n (readsFrom .data (newEvents s t))).length = t.filled

/-- What a write sends, on any device: a prefix of its DATA words, whole words first and then single
bytes, all of them on Ok (R112, R114 to R117; D2). -/
def Obligations.XferWriteSendsAPrefix : Prop :=
  ∀ (b : List Byte) (s : State), b.length ≤ 256 → Accepting s →
    ∃ t st, exec (.xferWrite b) s = .next t ∧ t.reports = s.reports ++ [⟨st, .none⟩] ∧
      (st = .ok ∨ st = .timedOut) ∧
      writesTo .data (newEvents s t) <+: phaseAWords .big b ++ phaseBWords b ∧
      (st = .ok → writesTo .data (newEvents s t) = phaseAWords .big b ++ phaseBWords b)

/-- The engine writes CS at most twice, LEN4 and then LEN1, both over the value it read at its start,
and each exactly once on Ok (R75, R117, R119). -/
def Obligations.EngineSwitchesLengthOnceEach : Prop :=
  ∀ (i : Instr) (s t : State), ((∃ b, i = .xferWrite b) ∨ ∃ n out, i = .xferRead n out) →
    exec i s = .next t →
    writesTo .cs (newEvents s t) <+:
      [s.answerAt 0 ||| 0x30000000#32, s.answerAt 0 &&& ~~~0x30000000#32] ∧
    ((∃ a, t.reports = s.reports ++ [⟨.ok, a⟩]) → (writesTo .cs (newEvents s t)).length = 2)

/-- The 4-byte path and the 1-byte path give back the bytes they were given, for both byte orders,
and the 1-byte path uses bits 31:24 alone (R77, R78, R114, R115; D19). -/
def Obligations.BytePackingIsExact : Prop :=
  (∀ (order : ByteOrder) (b0 b1 b2 b3 : Byte),
    unpack32 order (pack32 order b0 b1 b2 b3) = [b0, b1, b2, b3]) ∧
  (∀ b0 b1 b2 b3 : Byte,
    (pack32 .big b0 b1 b2 b3).extractLsb' 24 8 = b0 ∧
    (pack32 .little b0 b1 b2 b3).extractLsb' 24 8 = b3) ∧
  (∀ b : Byte, (byteWord b).extractLsb' 24 8 = b ∧ (byteWord b).extractLsb' 0 24 = 0#24) ∧
  ∀ w : Word, wordByte w = w.extractLsb' 24 8

/-- Loopback (95_test_vectors.md W5, R114, R115): a read of N bytes that receives the DATA words a
write of N bytes sent gives the same bytes back, for both byte orders and every N up to 256. -/
def Obligations.LoopbackReproducesTheBytes : Prop :=
  ∀ (order : ByteOrder) (b out : List Byte) (s t u v : State), b.length ≤ 256 →
    out.length = b.length → xferWrite order b s = .ok t →
    xferRead order b.length out u = .ok v →
    readsFrom .data (newEvents u v) = writesTo .data (newEvents s t) → v.out = b

/-! ### The message orchestrator -/

/-- The message speed: the least speed a descriptor specifies, and the ceiling only where none
specifies one (R123; D7). -/
def Obligations.MessageSpeedIsTheLeastSpecified : Prop :=
  ∀ m : Message,
    ((∀ t ∈ m.xfers, t.speedHz = 0) → messageSpeed m = m.ceilingHz) ∧
    ((∃ t ∈ m.xfers, t.speedHz ≠ 0) →
      (∃ t ∈ m.xfers, t.speedHz ≠ 0 ∧ t.speedHz = messageSpeed m) ∧
      ∀ t ∈ m.xfers, t.speedHz ≠ 0 → messageSpeed m ≤ t.speedHz)

/-- TRANSFER completes with Ok on a device that is ready at each wait, for every legal message whose
speed is in range and none of whose descriptors asks for both directions: exactly the accesses of
R121 in order, every byte counted, every destination filled, both lines deasserted
(R121, R123, R125, R126, R129; D2 to D4, D7). -/
def Obligations.TransferSucceedsWhenReady : Prop :=
  ∀ (m : Message) (s : State), (Instr.transfer m).wf = true → Accepting s →
    12500000 ≤ messageSpeed m → (∀ t ∈ m.xfers, t.tx = none ∨ t.rx = none) →
    readyAt s 0 (messageItems .big m s) = true →
    ∃ t, exec (.transfer m) s = .next t ∧
      t.reports = s.reports ++
        [⟨.ok, .message (m.xfers.map Descriptor.len).sum (buffersAfter .big s 6 m.xfers)⟩] ∧
      t.trace = s.trace ++ eventsOf s 0 (messageItems .big m s) ∧
      t.lines = ⟨false, false, false⟩ ∧
      t.handle = s.handle.map (fun h => { h with lastSpeedHz := messageSpeed m }) ∧
      phasesOf (newMarks s t) = phaseOrder m.xfers.length ++ [.done, .idle]

/-- The first thing a message does is one readiness wait; where it fails the message touches nothing
but CS, goes straight to Done and reports, with every destination as the host left it; no other
register is touched before it succeeds (R41, R97, R122; D6). That the CS reads leave every latch as it
was is log entry 15, the model's choice. -/
def Obligations.TransferAwaitsReadyFirst : Prop :=
  ∀ (m : Message) (s : State), (Instr.transfer m).wf = true → Accepting s →
    (BusyFor s 2000 → ∃ t, exec (.transfer m) s = .next t ∧
      newEvents s t = (List.range 2000).map (fun j => .rd .cs (s.answerAt j)) ∧
      t.reports = s.reports ++ [⟨.timedOut, .message 0 (m.xfers.map Descriptor.rx)⟩] ∧
      t.window = s.window ∧ t.handle = s.handle ∧
      phasesOf (newMarks s t) = [.awaitReady, .done, .idle]) ∧
    (∀ k < 2000, BusyFor s k → rdy (s.answerAt k) = true →
      ∃ t rest, exec (.transfer m) s = .next t ∧
        newEvents s t = (List.range (k + 1)).map (fun j => .rd .cs (s.answerAt j)) ++ rest)

/-- A message whose speed is out of range has issued exactly the accesses of its AwaitReady wait: no
CFG access, no chip-select touched, the handle as it was, InvalidSpeed and no byte reported (R123,
R135, R140; D5, D18). That the CS reads leave every latch as it was is log entry 15, the model's
choice. -/
def Obligations.TransferRejectsSlowSpeeds : Prop :=
  ∀ (m : Message) (s : State) (k : Nat), (Instr.transfer m).wf = true → Accepting s →
    messageSpeed m < 12500000 → k < 2000 → BusyFor s k → rdy (s.answerAt k) = true →
    ∃ t, exec (.transfer m) s = .next t ∧
      newEvents s t = (List.range (k + 1)).map (fun j => .rd .cs (s.answerAt j)) ∧
      t.reports = s.reports ++ [⟨.invalidSpeed, .message 0 (m.xfers.map Descriptor.rx)⟩] ∧
      t.window = s.window ∧ t.handle = s.handle ∧
      phasesOf (newMarks s t) = [.awaitReady, .prepared, .done, .idle]

/-- ConflictingTransfer arises in TRANSFER alone, exactly at the turn of a descriptor with both
buffers: no access is made for it, the descriptors before it are counted, none after it is started,
and there is no deselect (R124, R125, R126, R136). That those before it ran, and what they moved, is
`ActualCountsCompletedDescriptors`. -/
def Obligations.ConflictingDescriptorEndsTheMessage : Prop :=
  (∀ (i : Instr) (s t : State) (a : Answer), exec i s = .next t →
    t.reports = s.reports ++ [⟨.conflictingTransfer, a⟩] → ∃ m, i = .transfer m) ∧
  (∀ (m : Message) (s t : State) (a : Answer), exec (.transfer m) s = .next t →
    t.reports = s.reports ++ [⟨.conflictingTransfer, a⟩] →
    ∃ (j : Nat) (d : Descriptor), m.xfers[j]? = some d ∧ d.tx ≠ none ∧ d.rx ≠ none ∧
      Phase.transferring j ∈ phasesOf (newMarks s t)) ∧
  ∀ (m : Message) (s t : State) (j : Nat) (d : Descriptor), exec (.transfer m) s = .next t →
    m.xfers[j]? = some d → d.tx ≠ none → d.rx ≠ none →
    Phase.transferring j ∈ phasesOf (newMarks s t) →
    t.reports = s.reports ++
      [⟨.conflictingTransfer, .message (bytesOfFirst j m) t.buffers⟩] ∧
    ⟨t.trace.length, .phase (.transferring j)⟩ ∈ newMarks s t ∧
    (∀ j' > j, Phase.transferring j' ∉ phasesOf (newMarks s t)) ∧
    Phase.deselected ∉ phasesOf (newMarks s t)

/-- The actual byte count is the bytes of the descriptors that completed, and of no other: of all
those whose Transferring state was entered where the final deselect was reached, and of all but the
last of them where it was not. What goes back with it, on success and on failure: each read's
destination holds the bytes of the DATA words read in its own Transferring state, all of its bytes
where it completed, then what the host left there; every other destination is as the host left it. And
what each write sent: in its own Transferring state a first part of its DATA words, all of them where it
completed, and none where that state was not entered (R41, R112, R118, R125, R126; D2,
D12). -/
def Obligations.ActualCountsCompletedDescriptors : Prop :=
  ∀ (m : Message) (s t : State), exec (.transfer m) s = .next t →
    ∃ (st : Status) (j : Nat),
      t.reports = s.reports ++
        [⟨st, .message (bytesOfFirst j m) (destinations .big m s t)⟩] ∧
      (Phase.deselected ∈ phasesOf (newMarks s t) → j = m.xfers.length) ∧
      (Phase.deselected ∉ phasesOf (newMarks s t) →
        ∀ k, Phase.transferring k ∈ phasesOf (newMarks s t) ↔ k ≤ j ∧
          Phase.transferring j ∈ phasesOf (newMarks s t)) ∧
      (Phase.transferring 0 ∉ phasesOf (newMarks s t) → j = 0) ∧
      (∀ (k : Nat) (d : Descriptor), k < j → m.xfers[k]? = some d → d.tx = none →
        (bytesReceived .big s t k d.len).length = d.len) ∧
      ∀ (k : Nat) (d : Descriptor), m.xfers[k]? = some d →
        (bytesReceived .big s t k d.len).length ≤ d.len ∧
        (Phase.transferring k ∉ phasesOf (newMarks s t) → bytesReceived .big s t k d.len = []) ∧
        ∀ b, d.tx = some b → d.rx = none →
          writesTo .data (accessesIn (.transferring k) s t) <+: phaseAWords .big b ++ phaseBWords b ∧
          (k < j → writesTo .data (accessesIn (.transferring k) s t) =
            phaseAWords .big b ++ phaseBWords b) ∧
          (Phase.transferring k ∉ phasesOf (newMarks s t) →
            writesTo .data (accessesIn (.transferring k) s t) = [])

/-- Done is reached exactly once per message, success or failure, with exactly one report, which
carries W.status and W.actual; then the sequencer is Idle and the handle is ready for the next call
(R127). -/
def Obligations.DoneIsReachedExactlyOnce : Prop :=
  ∀ (m : Message) (s : State), (Instr.transfer m).wf = true → Accepting s →
    ∃ t, exec (.transfer m) s = .next t ∧
      t.reports = s.reports ++ [⟨t.w.status, .message t.w.actual t.buffers⟩] ∧
      (phasesOf (newMarks s t)).count .done = 1 ∧ Accepting t

/-- The message states are entered in the order of R121, up to the one the message ends in, then Done
and Idle; and each status can end a message only where R140 puts its check (R32, R121, R126, R140). -/
def Obligations.MessageStatesFollowTheOrder : Prop :=
  ∀ (m : Message) (s t : State), exec (.transfer m) s = .next t →
    ∃ (p : List Phase) (st : Status) (a : Answer),
      phasesOf (newMarks s t) = p ++ [.done, .idle] ∧ p ≠ [] ∧
      p <+: phaseOrder m.xfers.length ∧ t.reports = s.reports ++ [⟨st, a⟩] ∧
      (st = .ok → p = phaseOrder m.xfers.length) ∧
      (st = .invalidSpeed ↔ p = [.awaitReady, .prepared]) ∧
      (st = .conflictingTransfer → ∃ k, p.getLast? = some (.transferring k)) ∧
      (p = [.awaitReady] ∨ p = [.awaitReady, .prepared, .selected] → st = .timedOut)

/-- Every legal TRANSFER that is accepted ends, and within a bounded number of bus accesses, whatever
the device answers (R130, R163). -/
def Obligations.TransferAccessBound : Prop :=
  ∀ (m : Message) (s : State), (Instr.transfer m).wf = true → Accepting s →
    ∃ t, exec (.transfer m) s = .next t ∧ (newEvents s t).length ≤ 2000 + 2 + 4 * 2001 +
      (m.xfers.map fun d => 1 + (2 + d.len / 4 + d.len % 4) * 2001).sum + 3 * 2001

/-- MAX_XFER_SIZE completes with 256, no bus access and no other change but the record of the
sequencer; its label is 0x8 (R131). That a message with a longer descriptor does not run, as a whole,
is decision D11 and log entry 18, the model's choice. -/
def Obligations.MaxXferSizeIs256 : Prop :=
  (∀ s : State, Accepting s → ∃ t, exec .maxXferSize s = .next t ∧
    { t with seqLog := s.seqLog } = { s with reports := s.reports ++ [⟨.ok, .size 256⟩] }) ∧
  encode .maxXferSize = ⟨.op, 0x8#32, []⟩ ∧
  ∀ (m : Message) (s t : State), (∃ d ∈ m.xfers, 256 < d.len) → exec (.transfer m) s ≠ .next t

/-! ### Rules of the whole machine -/

/-- Every CS write and every DATA access that an operation makes directly follows a CS read that saw
RDY = 1, except the first word of a pulse, which is the write at line 1 of DESELECT and no other
(R99, R107, R153, R154; D3). -/
def Obligations.AccessesAreGuardedByWaits : Prop :=
  ∀ (i : Instr) (s t : State), isOperation i = true → exec i s = .next t →
    guardedFrom (newMarks s t) s.trace.length false (newEvents s t) = true

/-- The working registers carry nothing from one call into the next: with any other contents at the
start, a call makes the same accesses, gives the same report and leaves the same state but for the
working registers themselves (R28, R29). That a register holds a value between calls at all is log
entry 22, the model's choice. -/
def Obligations.WorkingRegistersCarryNothingIn : Prop :=
  ∀ (i : Instr) (s t : State) (w : Work), exec i s = .next t →
    ∃ t', exec i { s with w := w } = .next t' ∧ { t' with w := t.w } = t

/-- TimedOut is the only error of the operations below TRANSFER that touch the bus and are no speed
test; and wherever TimedOut is reported, of TRANSFER too, it comes with a wait of 2000 CS reads that all
saw RDY = 0, the last accesses made (R97, R134, R138). -/
def Obligations.TimedOutComesFromAFailedWait : Prop :=
  (∀ (i : Instr) (s t : State),
    (i = .waitReady ∨ i = .deselect ∨ (∃ slot, i = .select slot) ∨ (∃ b, i = .xferWrite b) ∨
      ∃ n out, i = .xferRead n out) → exec i s = .next t →
    ∃ st a, t.reports = s.reports ++ [⟨st, a⟩] ∧ (st = .ok ∨ st = .timedOut)) ∧
  ∀ (i : Instr) (s t : State) (a : Answer), exec i s = .next t →
    t.reports = s.reports ++ [⟨.timedOut, a⟩] →
    ∃ (before : List Event) (vs : List Word),
      newEvents s t = before ++ vs.map (.rd .cs) ∧ vs.length = 2000 ∧ ∀ v ∈ vs, rdy v = false

/-- The sequencer advances as the pseudocode says: the record of a call is a walk that begins each
operation at its header where the line in hand calls it, goes from line to line with no jump but the
loop back-edges and the aborts of R13, enters each message state at its line of TRANSFER, and ends
each operation at its return or with the error it raised or propagates, which a call below TRANSFER
reports. The walk is that of the operation called: its record begins with the beginning of that
operation and ends with its end, with the status reported; and a single register access, which is no
operation, has none (R13, R32, R67). The numbering of the lines is log entry 10, the model's choice. -/
def Obligations.SequencerFollowsThePseudocode : Prop :=
  ∀ (i : Instr) (s t : State), exec i s = .next t →
    t.seqLog = s.seqLog ++ newMarks s t ∧
    ∃ w : Walk, Walk.follow ⟨[], false, none⟩ (newMarks s t) = some w ∧ w.ops = [] ∧
      (∀ e, w.raised = some e → ∃ a, t.reports = s.reports ++ [⟨e, a⟩]) ∧
      match operationOf i with
      | none => newMarks s t = []
      | some o => ∃ ms st a,
          newMarks s t = ⟨s.trace.length, .enter o⟩ :: ms ++ [⟨t.trace.length, .leave o st⟩] ∧
          t.reports = s.reports ++ [⟨st, a⟩]

/-! ### Frames -/

/-- What WAIT_READY, DESELECT and SELECT leave unchanged: all but CS's latch, W.poll, the trace, the
device's answers used, the record of the sequencer and the report; WAIT_READY leaves CS's latch too
(R97, R107, R108). That the CS reads leave every latch as it was is log entry 15, the model's choice. -/
def Obligations.FrameOfPollingOperations : Prop :=
  ∀ (i : Instr) (s t : State), i = .waitReady ∨ i = .deselect ∨ (∃ slot, i = .select slot) →
    exec i s = .next t →
    t.handle = s.handle ∧ t.seq = s.seq ∧ t.ops = s.ops ∧ t.w = { s.w with poll := t.w.poll } ∧
    t.window = { s.window with cs := t.window.cs } ∧ t.spi = s.spi ∧ t.out = s.out ∧
    t.filled = s.filled ∧ t.buffers = s.buffers ∧ t.calls = s.calls ∧
    (i = .waitReady → t.window = s.window)

/-- What XFER_WRITE and XFER_READ leave unchanged: the handle, CFG, CFG2 and DATA2, the other working
registers, the message's destinations; XFER_WRITE also leaves the destination in hand, XFER_READ the
DATA latch (R112, R113). What a DATA read leaves in DATA is not in the spec (R27): that it is the word
last written is log entry 15, the model's choice. -/
def Obligations.FrameOfDataOperations : Prop :=
  ∀ (i : Instr) (s t : State), ((∃ b, i = .xferWrite b) ∨ ∃ n out, i = .xferRead n out) →
    exec i s = .next t →
    t.handle = s.handle ∧ t.seq = s.seq ∧ t.ops = s.ops ∧ t.buffers = s.buffers ∧
    t.calls = s.calls ∧
    t.w = { s.w with poll := t.w.poll, cs := t.w.cs, i := t.w.i, word := t.w.word } ∧
    t.window = { s.window with cs := t.window.cs, data := t.window.data } ∧
    ((∃ b, i = .xferWrite b) → t.out = s.out ∧ t.filled = s.filled) ∧
    ∀ n out, i = .xferRead n out →
      t.window.data = s.window.data ∧ t.out.length = n ∧ t.out.drop t.filled = out.drop t.filled

/-- What TRANSFER leaves unchanged: the handle but for its last speed, which is the message's where it
changes, CFG2 and DATA2, the pending calls, and the sequencer, which is Idle again (R31, R121). And
what it leaves on the chip-select lines, by the state it ended in: before Selected, CS and the lines as
they were (that a CS read changes neither is log entry 15, the model's choice); in Selected or in
Deselected, what the last word written there says; in a Transferring state, by a timeout or a
ConflictingTransfer, the slot's line asserted, provided each engine run read back the slot's bits from
CS, which the engine writes back as read, and LEN at LEN4 or LEN1 (R126, R157). -/
def Obligations.FrameOfTransfer : Prop :=
  ∀ (m : Message) (s t : State), exec (.transfer m) s = .next t →
    (t.handle = s.handle ∨
      t.handle = s.handle.map (fun h => { h with lastSpeedHz := messageSpeed m })) ∧
    t.seq = s.seq ∧ t.ops = s.ops ∧ t.calls = s.calls ∧
    t.window.cfg2 = s.window.cfg2 ∧ t.window.data2 = s.window.data2 ∧
    t.buffers.length = m.xfers.length ∧
    (Phase.selected ∉ phasesOf (newMarks s t) →
      t.window.cs = s.window.cs ∧ t.lines = s.lines) ∧
    (Phase.selected ∈ phasesOf (newMarks s t) → Phase.transferring 0 ∉ phasesOf (newMarks s t) →
      Phase.deselected ∉ phasesOf (newMarks s t) →
      ∃ n, n = (writesTo .cs (accessesIn .selected s t)).length ∧ 1 ≤ n ∧ n ≤ 4 ∧
        t.lines = if n = 4 then slotLines m.slot else pulseLines n) ∧
    (Phase.transferring 0 ∈ phasesOf (newMarks s t) →
      Phase.deselected ∉ phasesOf (newMarks s t) →
      (lenField t.window.cs = 3#2 ∨ lenField t.window.cs = 0#2) ∧
      ((∀ k v, (accessesIn (.transferring k) s t).head? = some (.rd .cs v) →
          linesOf v = slotLines m.slot) → t.lines = slotLines m.slot)) ∧
    (Phase.deselected ∈ phasesOf (newMarks s t) →
      ∃ n, n = (writesTo .cs (accessesIn .deselected s t)).length ∧ 1 ≤ n ∧ n ≤ 3 ∧
        t.lines = pulseLines n)
end

