-- ==== Sys2Proof/Laws/State.lean ====
section
/-! SUPPORT. One lemma per field per update of State, true by rfl: what each of the shared updates of
Machine/Ops.lean does to each field. No later proof unfolds a record update. -/

namespace Sys2Proof.Machine

variable (s : State)

/-! ### setW -/

@[simp] theorem setW_handle (w : Work) : (s.setW w).handle = s.handle := rfl
@[simp] theorem setW_seq (w : Work) : (s.setW w).seq = s.seq := rfl
@[simp] theorem setW_ops (w : Work) : (s.setW w).ops = s.ops := rfl
@[simp] theorem setW_seqLog (w : Work) : (s.setW w).seqLog = s.seqLog := rfl
@[simp] theorem setW_w (w : Work) : (s.setW w).w = w := rfl
@[simp] theorem setW_window (w : Work) : (s.setW w).window = s.window := rfl
@[simp] theorem setW_spi (w : Work) : (s.setW w).spi = s.spi := rfl
@[simp] theorem setW_answers (w : Work) : (s.setW w).answers = s.answers := rfl
@[simp] theorem setW_draws (w : Work) : (s.setW w).draws = s.draws := rfl
@[simp] theorem setW_trace (w : Work) : (s.setW w).trace = s.trace := rfl
@[simp] theorem setW_out (w : Work) : (s.setW w).out = s.out := rfl
@[simp] theorem setW_filled (w : Work) : (s.setW w).filled = s.filled := rfl
@[simp] theorem setW_buffers (w : Work) : (s.setW w).buffers = s.buffers := rfl
@[simp] theorem setW_reports (w : Work) : (s.setW w).reports = s.reports := rfl
@[simp] theorem setW_calls (w : Work) : (s.setW w).calls = s.calls := rfl

/-! ### record -/

@[simp] theorem record_handle (e : Event) : (s.record e).handle = s.handle := rfl
@[simp] theorem record_seq (e : Event) : (s.record e).seq = s.seq := rfl
@[simp] theorem record_ops (e : Event) : (s.record e).ops = s.ops := rfl
@[simp] theorem record_seqLog (e : Event) : (s.record e).seqLog = s.seqLog := rfl
@[simp] theorem record_w (e : Event) : (s.record e).w = s.w := rfl
@[simp] theorem record_window (e : Event) : (s.record e).window = s.window := rfl
@[simp] theorem record_spi (e : Event) : (s.record e).spi = s.spi := rfl
@[simp] theorem record_answers (e : Event) : (s.record e).answers = s.answers := rfl
@[simp] theorem record_draws (e : Event) : (s.record e).draws = s.draws := rfl
@[simp] theorem record_trace (e : Event) : (s.record e).trace = s.trace ++ [e] := rfl
@[simp] theorem record_out (e : Event) : (s.record e).out = s.out := rfl
@[simp] theorem record_filled (e : Event) : (s.record e).filled = s.filled := rfl
@[simp] theorem record_buffers (e : Event) : (s.record e).buffers = s.buffers := rfl
@[simp] theorem record_reports (e : Event) : (s.record e).reports = s.reports := rfl
@[simp] theorem record_calls (e : Event) : (s.record e).calls = s.calls := rfl

/-! ### afterAnswer -/

@[simp] theorem afterAnswer_handle : s.afterAnswer.handle = s.handle := rfl
@[simp] theorem afterAnswer_seq : s.afterAnswer.seq = s.seq := rfl
@[simp] theorem afterAnswer_ops : s.afterAnswer.ops = s.ops := rfl
@[simp] theorem afterAnswer_seqLog : s.afterAnswer.seqLog = s.seqLog := rfl
@[simp] theorem afterAnswer_w : s.afterAnswer.w = s.w := rfl
@[simp] theorem afterAnswer_window : s.afterAnswer.window = s.window := rfl
@[simp] theorem afterAnswer_spi : s.afterAnswer.spi = s.spi := rfl
@[simp] theorem afterAnswer_answers : s.afterAnswer.answers = s.answers.tail := rfl
@[simp] theorem afterAnswer_draws : s.afterAnswer.draws = s.draws + 1 := rfl
@[simp] theorem afterAnswer_trace : s.afterAnswer.trace = s.trace := rfl
@[simp] theorem afterAnswer_out : s.afterAnswer.out = s.out := rfl
@[simp] theorem afterAnswer_filled : s.afterAnswer.filled = s.filled := rfl
@[simp] theorem afterAnswer_buffers : s.afterAnswer.buffers = s.buffers := rfl
@[simp] theorem afterAnswer_reports : s.afterAnswer.reports = s.reports := rfl
@[simp] theorem afterAnswer_calls : s.afterAnswer.calls = s.calls := rfl

/-! ### mark -/

@[simp] theorem mark_handle (p : SeqPoint) : (s.mark p).handle = s.handle := rfl
@[simp] theorem mark_seq (p : SeqPoint) : (s.mark p).seq = s.seq := rfl
@[simp] theorem mark_ops (p : SeqPoint) : (s.mark p).ops = s.ops := rfl
@[simp] theorem mark_seqLog (p : SeqPoint) :
    (s.mark p).seqLog = s.seqLog ++ [⟨s.trace.length, p⟩] := rfl
@[simp] theorem mark_w (p : SeqPoint) : (s.mark p).w = s.w := rfl
@[simp] theorem mark_window (p : SeqPoint) : (s.mark p).window = s.window := rfl
@[simp] theorem mark_spi (p : SeqPoint) : (s.mark p).spi = s.spi := rfl
@[simp] theorem mark_answers (p : SeqPoint) : (s.mark p).answers = s.answers := rfl
@[simp] theorem mark_draws (p : SeqPoint) : (s.mark p).draws = s.draws := rfl
@[simp] theorem mark_trace (p : SeqPoint) : (s.mark p).trace = s.trace := rfl
@[simp] theorem mark_out (p : SeqPoint) : (s.mark p).out = s.out := rfl
@[simp] theorem mark_filled (p : SeqPoint) : (s.mark p).filled = s.filled := rfl
@[simp] theorem mark_buffers (p : SeqPoint) : (s.mark p).buffers = s.buffers := rfl
@[simp] theorem mark_reports (p : SeqPoint) : (s.mark p).reports = s.reports := rfl
@[simp] theorem mark_calls (p : SeqPoint) : (s.mark p).calls = s.calls := rfl

/-! ### enterPhase -/

@[simp] theorem enterPhase_handle (p : Phase) : (enterPhase p s).handle = s.handle := rfl
@[simp] theorem enterPhase_seq (p : Phase) : (enterPhase p s).seq = p := rfl
@[simp] theorem enterPhase_ops (p : Phase) : (enterPhase p s).ops = s.ops := rfl
@[simp] theorem enterPhase_seqLog (p : Phase) :
    (enterPhase p s).seqLog = s.seqLog ++ [⟨s.trace.length, .phase p⟩] := rfl
@[simp] theorem enterPhase_w (p : Phase) : (enterPhase p s).w = s.w := rfl
@[simp] theorem enterPhase_window (p : Phase) : (enterPhase p s).window = s.window := rfl
@[simp] theorem enterPhase_spi (p : Phase) : (enterPhase p s).spi = s.spi := rfl
@[simp] theorem enterPhase_answers (p : Phase) : (enterPhase p s).answers = s.answers := rfl
@[simp] theorem enterPhase_draws (p : Phase) : (enterPhase p s).draws = s.draws := rfl
@[simp] theorem enterPhase_trace (p : Phase) : (enterPhase p s).trace = s.trace := rfl
@[simp] theorem enterPhase_out (p : Phase) : (enterPhase p s).out = s.out := rfl
@[simp] theorem enterPhase_filled (p : Phase) : (enterPhase p s).filled = s.filled := rfl
@[simp] theorem enterPhase_buffers (p : Phase) : (enterPhase p s).buffers = s.buffers := rfl
@[simp] theorem enterPhase_reports (p : Phase) : (enterPhase p s).reports = s.reports := rfl
@[simp] theorem enterPhase_calls (p : Phase) : (enterPhase p s).calls = s.calls := rfl

/-! ### enterOp -/

@[simp] theorem enterOp_handle (o : OpName) : (enterOp o s).handle = s.handle := rfl
@[simp] theorem enterOp_seq (o : OpName) : (enterOp o s).seq = s.seq := rfl
@[simp] theorem enterOp_ops (o : OpName) : (enterOp o s).ops = ⟨o, 0⟩ :: s.ops := rfl
@[simp] theorem enterOp_seqLog (o : OpName) :
    (enterOp o s).seqLog = s.seqLog ++ [⟨s.trace.length, .enter o⟩] := rfl
@[simp] theorem enterOp_w (o : OpName) : (enterOp o s).w = s.w := rfl
@[simp] theorem enterOp_window (o : OpName) : (enterOp o s).window = s.window := rfl
@[simp] theorem enterOp_spi (o : OpName) : (enterOp o s).spi = s.spi := rfl
@[simp] theorem enterOp_answers (o : OpName) : (enterOp o s).answers = s.answers := rfl
@[simp] theorem enterOp_draws (o : OpName) : (enterOp o s).draws = s.draws := rfl
@[simp] theorem enterOp_trace (o : OpName) : (enterOp o s).trace = s.trace := rfl
@[simp] theorem enterOp_out (o : OpName) : (enterOp o s).out = s.out := rfl
@[simp] theorem enterOp_filled (o : OpName) : (enterOp o s).filled = s.filled := rfl
@[simp] theorem enterOp_buffers (o : OpName) : (enterOp o s).buffers = s.buffers := rfl
@[simp] theorem enterOp_reports (o : OpName) : (enterOp o s).reports = s.reports := rfl
@[simp] theorem enterOp_calls (o : OpName) : (enterOp o s).calls = s.calls := rfl

/-! ### atLine -/

@[simp] theorem atLine_handle (o : OpName) (n : Nat) : (atLine o n s).handle = s.handle := rfl
@[simp] theorem atLine_seq (o : OpName) (n : Nat) : (atLine o n s).seq = s.seq := rfl
@[simp] theorem atLine_ops (o : OpName) (n : Nat) : (atLine o n s).ops = ⟨o, n⟩ :: s.ops.tail := rfl
@[simp] theorem atLine_seqLog (o : OpName) (n : Nat) :
    (atLine o n s).seqLog = s.seqLog ++ [⟨s.trace.length, .line o n⟩] := rfl
@[simp] theorem atLine_w (o : OpName) (n : Nat) : (atLine o n s).w = s.w := rfl
@[simp] theorem atLine_window (o : OpName) (n : Nat) : (atLine o n s).window = s.window := rfl
@[simp] theorem atLine_spi (o : OpName) (n : Nat) : (atLine o n s).spi = s.spi := rfl
@[simp] theorem atLine_answers (o : OpName) (n : Nat) : (atLine o n s).answers = s.answers := rfl
@[simp] theorem atLine_draws (o : OpName) (n : Nat) : (atLine o n s).draws = s.draws := rfl
@[simp] theorem atLine_trace (o : OpName) (n : Nat) : (atLine o n s).trace = s.trace := rfl
@[simp] theorem atLine_out (o : OpName) (n : Nat) : (atLine o n s).out = s.out := rfl
@[simp] theorem atLine_filled (o : OpName) (n : Nat) : (atLine o n s).filled = s.filled := rfl
@[simp] theorem atLine_buffers (o : OpName) (n : Nat) : (atLine o n s).buffers = s.buffers := rfl
@[simp] theorem atLine_reports (o : OpName) (n : Nat) : (atLine o n s).reports = s.reports := rfl
@[simp] theorem atLine_calls (o : OpName) (n : Nat) : (atLine o n s).calls = s.calls := rfl

/-! ### leaveOp -/

@[simp] theorem leaveOp_handle (o : OpName) (st : Status) :
    (leaveOp o st s).handle = s.handle := rfl
@[simp] theorem leaveOp_seq (o : OpName) (st : Status) : (leaveOp o st s).seq = s.seq := rfl
@[simp] theorem leaveOp_ops (o : OpName) (st : Status) : (leaveOp o st s).ops = s.ops.tail := rfl
@[simp] theorem leaveOp_seqLog (o : OpName) (st : Status) :
    (leaveOp o st s).seqLog = s.seqLog ++ [⟨s.trace.length, .leave o st⟩] := rfl
@[simp] theorem leaveOp_w (o : OpName) (st : Status) : (leaveOp o st s).w = s.w := rfl
@[simp] theorem leaveOp_window (o : OpName) (st : Status) :
    (leaveOp o st s).window = s.window := rfl
@[simp] theorem leaveOp_spi (o : OpName) (st : Status) : (leaveOp o st s).spi = s.spi := rfl
@[simp] theorem leaveOp_answers (o : OpName) (st : Status) :
    (leaveOp o st s).answers = s.answers := rfl
@[simp] theorem leaveOp_draws (o : OpName) (st : Status) : (leaveOp o st s).draws = s.draws := rfl
@[simp] theorem leaveOp_trace (o : OpName) (st : Status) : (leaveOp o st s).trace = s.trace := rfl
@[simp] theorem leaveOp_out (o : OpName) (st : Status) : (leaveOp o st s).out = s.out := rfl
@[simp] theorem leaveOp_filled (o : OpName) (st : Status) :
    (leaveOp o st s).filled = s.filled := rfl
@[simp] theorem leaveOp_buffers (o : OpName) (st : Status) :
    (leaveOp o st s).buffers = s.buffers := rfl
@[simp] theorem leaveOp_reports (o : OpName) (st : Status) :
    (leaveOp o st s).reports = s.reports := rfl
@[simp] theorem leaveOp_calls (o : OpName) (st : Status) : (leaveOp o st s).calls = s.calls := rfl

/-! ### recordSpeed -/

@[simp] theorem recordSpeed_handle (hz : Nat) :
    (recordSpeed hz s).handle = s.handle.map (fun h => { h with lastSpeedHz := hz }) := rfl
@[simp] theorem recordSpeed_seq (hz : Nat) : (recordSpeed hz s).seq = s.seq := rfl
@[simp] theorem recordSpeed_ops (hz : Nat) : (recordSpeed hz s).ops = s.ops := rfl
@[simp] theorem recordSpeed_seqLog (hz : Nat) : (recordSpeed hz s).seqLog = s.seqLog := rfl
@[simp] theorem recordSpeed_w (hz : Nat) : (recordSpeed hz s).w = s.w := rfl
@[simp] theorem recordSpeed_window (hz : Nat) : (recordSpeed hz s).window = s.window := rfl
@[simp] theorem recordSpeed_spi (hz : Nat) : (recordSpeed hz s).spi = s.spi := rfl
@[simp] theorem recordSpeed_answers (hz : Nat) : (recordSpeed hz s).answers = s.answers := rfl
@[simp] theorem recordSpeed_draws (hz : Nat) : (recordSpeed hz s).draws = s.draws := rfl
@[simp] theorem recordSpeed_trace (hz : Nat) : (recordSpeed hz s).trace = s.trace := rfl
@[simp] theorem recordSpeed_out (hz : Nat) : (recordSpeed hz s).out = s.out := rfl
@[simp] theorem recordSpeed_filled (hz : Nat) : (recordSpeed hz s).filled = s.filled := rfl
@[simp] theorem recordSpeed_buffers (hz : Nat) : (recordSpeed hz s).buffers = s.buffers := rfl
@[simp] theorem recordSpeed_reports (hz : Nat) : (recordSpeed hz s).reports = s.reports := rfl
@[simp] theorem recordSpeed_calls (hz : Nat) : (recordSpeed hz s).calls = s.calls := rfl

/-! ### handBuffer -/

@[simp] theorem handBuffer_handle (b : List Byte) : (handBuffer b s).handle = s.handle := rfl
@[simp] theorem handBuffer_seq (b : List Byte) : (handBuffer b s).seq = s.seq := rfl
@[simp] theorem handBuffer_ops (b : List Byte) : (handBuffer b s).ops = s.ops := rfl
@[simp] theorem handBuffer_seqLog (b : List Byte) : (handBuffer b s).seqLog = s.seqLog := rfl
@[simp] theorem handBuffer_w (b : List Byte) : (handBuffer b s).w = s.w := rfl
@[simp] theorem handBuffer_window (b : List Byte) : (handBuffer b s).window = s.window := rfl
@[simp] theorem handBuffer_spi (b : List Byte) : (handBuffer b s).spi = s.spi := rfl
@[simp] theorem handBuffer_answers (b : List Byte) : (handBuffer b s).answers = s.answers := rfl
@[simp] theorem handBuffer_draws (b : List Byte) : (handBuffer b s).draws = s.draws := rfl
@[simp] theorem handBuffer_trace (b : List Byte) : (handBuffer b s).trace = s.trace := rfl
@[simp] theorem handBuffer_out (b : List Byte) : (handBuffer b s).out = b := rfl
@[simp] theorem handBuffer_filled (b : List Byte) : (handBuffer b s).filled = 0 := rfl
@[simp] theorem handBuffer_buffers (b : List Byte) : (handBuffer b s).buffers = s.buffers := rfl
@[simp] theorem handBuffer_reports (b : List Byte) : (handBuffer b s).reports = s.reports := rfl
@[simp] theorem handBuffer_calls (b : List Byte) : (handBuffer b s).calls = s.calls := rfl

/-! ### storeBytes -/

@[simp] theorem storeBytes_handle (i : Nat) (bs : List Byte) :
    (storeBytes i bs s).handle = s.handle := rfl
@[simp] theorem storeBytes_seq (i : Nat) (bs : List Byte) : (storeBytes i bs s).seq = s.seq := rfl
@[simp] theorem storeBytes_ops (i : Nat) (bs : List Byte) : (storeBytes i bs s).ops = s.ops := rfl
@[simp] theorem storeBytes_seqLog (i : Nat) (bs : List Byte) :
    (storeBytes i bs s).seqLog = s.seqLog := rfl
@[simp] theorem storeBytes_w (i : Nat) (bs : List Byte) : (storeBytes i bs s).w = s.w := rfl
@[simp] theorem storeBytes_window (i : Nat) (bs : List Byte) :
    (storeBytes i bs s).window = s.window := rfl
@[simp] theorem storeBytes_spi (i : Nat) (bs : List Byte) : (storeBytes i bs s).spi = s.spi := rfl
@[simp] theorem storeBytes_answers (i : Nat) (bs : List Byte) :
    (storeBytes i bs s).answers = s.answers := rfl
@[simp] theorem storeBytes_draws (i : Nat) (bs : List Byte) :
    (storeBytes i bs s).draws = s.draws := rfl
@[simp] theorem storeBytes_trace (i : Nat) (bs : List Byte) :
    (storeBytes i bs s).trace = s.trace := rfl
@[simp] theorem storeBytes_out (i : Nat) (bs : List Byte) :
    (storeBytes i bs s).out = putBytes s.out i bs := rfl
@[simp] theorem storeBytes_filled (i : Nat) (bs : List Byte) :
    (storeBytes i bs s).filled = i + bs.length := rfl
@[simp] theorem storeBytes_buffers (i : Nat) (bs : List Byte) :
    (storeBytes i bs s).buffers = s.buffers := rfl
@[simp] theorem storeBytes_reports (i : Nat) (bs : List Byte) :
    (storeBytes i bs s).reports = s.reports := rfl
@[simp] theorem storeBytes_calls (i : Nat) (bs : List Byte) :
    (storeBytes i bs s).calls = s.calls := rfl

/-! ### returnBuffer -/

@[simp] theorem returnBuffer_handle (k : Nat) : (returnBuffer k s).handle = s.handle := rfl
@[simp] theorem returnBuffer_seq (k : Nat) : (returnBuffer k s).seq = s.seq := rfl
@[simp] theorem returnBuffer_ops (k : Nat) : (returnBuffer k s).ops = s.ops := rfl
@[simp] theorem returnBuffer_seqLog (k : Nat) : (returnBuffer k s).seqLog = s.seqLog := rfl
@[simp] theorem returnBuffer_w (k : Nat) : (returnBuffer k s).w = s.w := rfl
@[simp] theorem returnBuffer_window (k : Nat) : (returnBuffer k s).window = s.window := rfl
@[simp] theorem returnBuffer_spi (k : Nat) : (returnBuffer k s).spi = s.spi := rfl
@[simp] theorem returnBuffer_answers (k : Nat) : (returnBuffer k s).answers = s.answers := rfl
@[simp] theorem returnBuffer_draws (k : Nat) : (returnBuffer k s).draws = s.draws := rfl
@[simp] theorem returnBuffer_trace (k : Nat) : (returnBuffer k s).trace = s.trace := rfl
@[simp] theorem returnBuffer_out (k : Nat) : (returnBuffer k s).out = s.out := rfl
@[simp] theorem returnBuffer_filled (k : Nat) : (returnBuffer k s).filled = s.filled := rfl
@[simp] theorem returnBuffer_buffers (k : Nat) :
    (returnBuffer k s).buffers = s.buffers.set k (some s.out) := rfl
@[simp] theorem returnBuffer_reports (k : Nat) : (returnBuffer k s).reports = s.reports := rfl
@[simp] theorem returnBuffer_calls (k : Nat) : (returnBuffer k s).calls = s.calls := rfl

/-! ### report -/

@[simp] theorem report_handle (st : Status) (a : Answer) : (report st a s).handle = s.handle := rfl
@[simp] theorem report_seq (st : Status) (a : Answer) : (report st a s).seq = s.seq := rfl
@[simp] theorem report_ops (st : Status) (a : Answer) : (report st a s).ops = s.ops := rfl
@[simp] theorem report_seqLog (st : Status) (a : Answer) : (report st a s).seqLog = s.seqLog := rfl
@[simp] theorem report_w (st : Status) (a : Answer) : (report st a s).w = s.w := rfl
@[simp] theorem report_window (st : Status) (a : Answer) : (report st a s).window = s.window := rfl
@[simp] theorem report_spi (st : Status) (a : Answer) : (report st a s).spi = s.spi := rfl
@[simp] theorem report_answers (st : Status) (a : Answer) :
    (report st a s).answers = s.answers := rfl
@[simp] theorem report_draws (st : Status) (a : Answer) : (report st a s).draws = s.draws := rfl
@[simp] theorem report_trace (st : Status) (a : Answer) : (report st a s).trace = s.trace := rfl
@[simp] theorem report_out (st : Status) (a : Answer) : (report st a s).out = s.out := rfl
@[simp] theorem report_filled (st : Status) (a : Answer) : (report st a s).filled = s.filled := rfl
@[simp] theorem report_buffers (st : Status) (a : Answer) :
    (report st a s).buffers = s.buffers := rfl
@[simp] theorem report_reports (st : Status) (a : Answer) :
    (report st a s).reports = s.reports ++ [⟨st, a⟩] := rfl
@[simp] theorem report_calls (st : Status) (a : Answer) : (report st a s).calls = s.calls := rfl

/-! ### takeError -/

@[simp] theorem takeError_handle (e : Status) : (takeError e s).handle = s.handle := rfl
@[simp] theorem takeError_seq (e : Status) : (takeError e s).seq = s.seq := rfl
@[simp] theorem takeError_ops (e : Status) : (takeError e s).ops = s.ops := rfl
@[simp] theorem takeError_seqLog (e : Status) : (takeError e s).seqLog = s.seqLog := rfl
@[simp] theorem takeError_w (e : Status) : (takeError e s).w = { s.w with status := e } := rfl
@[simp] theorem takeError_window (e : Status) : (takeError e s).window = s.window := rfl
@[simp] theorem takeError_spi (e : Status) : (takeError e s).spi = s.spi := rfl
@[simp] theorem takeError_answers (e : Status) : (takeError e s).answers = s.answers := rfl
@[simp] theorem takeError_draws (e : Status) : (takeError e s).draws = s.draws := rfl
@[simp] theorem takeError_trace (e : Status) : (takeError e s).trace = s.trace := rfl
@[simp] theorem takeError_out (e : Status) : (takeError e s).out = s.out := rfl
@[simp] theorem takeError_filled (e : Status) : (takeError e s).filled = s.filled := rfl
@[simp] theorem takeError_buffers (e : Status) : (takeError e s).buffers = s.buffers := rfl
@[simp] theorem takeError_reports (e : Status) : (takeError e s).reports = s.reports := rfl
@[simp] theorem takeError_calls (e : Status) : (takeError e s).calls = s.calls := rfl

/-! ### delay, and the ends of an operation -/

@[simp] theorem delay_eq : delay s = s := rfl
@[simp] theorem raiseError_eq (e : Status) : raiseError e s = .raise e s := rfl
@[simp] theorem raiseAt_eq (o : OpName) (n : Nat) (e : Status) :
    raiseAt o n e s = .raise e (atLine o n s) := rfl
@[simp] theorem returnAt_eq (o : OpName) (n : Nat) : returnAt o n s = .ok (atLine o n s) := rfl
@[simp] theorem Res.state_ok : (Res.ok s).state = s := rfl
@[simp] theorem Res.state_raise (e : Status) : (Res.raise e s).state = s := rfl
@[simp] theorem Res.status_ok : (Res.ok s).status = .ok := rfl
@[simp] theorem Res.status_raise (e : Status) : (Res.raise e s).status = e := rfl
@[simp] theorem Res.andThen_ok (f : State → Res) : (Res.ok s).andThen f = f s := rfl
@[simp] theorem Res.andThen_raise (e : Status) (f : State → Res) :
    (Res.raise e s).andThen f = .raise e s := rfl
@[simp] theorem Res.mapState_ok (f : State → State) : (Res.ok s).mapState f = .ok (f s) := rfl
@[simp] theorem Res.mapState_raise (e : Status) (f : State → State) :
    (Res.raise e s).mapState f = .raise e (f s) := rfl
@[simp] theorem Res.state_mapState (r : Res) (f : State → State) :
    (r.mapState f).state = f r.state := by cases r <;> rfl
@[simp] theorem Res.status_mapState (r : Res) (f : State → State) :
    (r.mapState f).status = r.status := by cases r <;> rfl

/-! ### The register window -/

@[simp] theorem Window.get_set_same (win : Window) (r : Reg) (v : Word) :
    (win.set r v).get r = v := by cases r <;> rfl
theorem Window.get_set_other (win : Window) (r r' : Reg) (v : Word) (h : r' ≠ r) :
    (win.set r v).get r' = win.get r' := by cases r <;> cases r' <;> first | rfl | exact absurd rfl h
theorem Window.get_set (win : Window) (r r' : Reg) (v : Word) :
    (win.set r v).get r' = if r = r' then v else win.get r' := by
  cases r <;> cases r' <;> rfl
theorem Window.ext_get {a b : Window} (h : ∀ r, a.get r = b.get r) : a = b := by
  cases a; cases b
  have h1 := h .cfg; have h2 := h .cfg2; have h3 := h .cs; have h4 := h .data; have h5 := h .data2
  simp only [Window.get] at h1 h2 h3 h4 h5
  subst h1 h2 h3 h4 h5; rfl

/-! ### moveData -/

@[simp] theorem moveData_spi (r : Reg) (out : Bool) (v : Word) :
    (s.moveData r out v).spi =
      if r = .data then s.spi ++ [⟨out, movedBytes s.window.cs v, s.lines, v⟩] else s.spi := by
  unfold State.moveData; split <;> rfl
@[simp] theorem moveData_handle (r : Reg) (out : Bool) (v : Word) :
    (s.moveData r out v).handle = s.handle := by unfold State.moveData; split <;> rfl
@[simp] theorem moveData_seq (r : Reg) (out : Bool) (v : Word) :
    (s.moveData r out v).seq = s.seq := by unfold State.moveData; split <;> rfl
@[simp] theorem moveData_ops (r : Reg) (out : Bool) (v : Word) :
    (s.moveData r out v).ops = s.ops := by unfold State.moveData; split <;> rfl
@[simp] theorem moveData_seqLog (r : Reg) (out : Bool) (v : Word) :
    (s.moveData r out v).seqLog = s.seqLog := by unfold State.moveData; split <;> rfl
@[simp] theorem moveData_w (r : Reg) (out : Bool) (v : Word) :
    (s.moveData r out v).w = s.w := by unfold State.moveData; split <;> rfl
@[simp] theorem moveData_window (r : Reg) (out : Bool) (v : Word) :
    (s.moveData r out v).window = s.window := by unfold State.moveData; split <;> rfl
@[simp] theorem moveData_answers (r : Reg) (out : Bool) (v : Word) :
    (s.moveData r out v).answers = s.answers := by unfold State.moveData; split <;> rfl
@[simp] theorem moveData_draws (r : Reg) (out : Bool) (v : Word) :
    (s.moveData r out v).draws = s.draws := by unfold State.moveData; split <;> rfl
@[simp] theorem moveData_trace (r : Reg) (out : Bool) (v : Word) :
    (s.moveData r out v).trace = s.trace := by unfold State.moveData; split <;> rfl
@[simp] theorem moveData_out (r : Reg) (out : Bool) (v : Word) :
    (s.moveData r out v).out = s.out := by unfold State.moveData; split <;> rfl
@[simp] theorem moveData_filled (r : Reg) (out : Bool) (v : Word) :
    (s.moveData r out v).filled = s.filled := by unfold State.moveData; split <;> rfl
@[simp] theorem moveData_buffers (r : Reg) (out : Bool) (v : Word) :
    (s.moveData r out v).buffers = s.buffers := by unfold State.moveData; split <;> rfl
@[simp] theorem moveData_reports (r : Reg) (out : Bool) (v : Word) :
    (s.moveData r out v).reports = s.reports := by unfold State.moveData; split <;> rfl
@[simp] theorem moveData_calls (r : Reg) (out : Bool) (v : Word) :
    (s.moveData r out v).calls = s.calls := by unfold State.moveData; split <;> rfl

/-! ### RegRead and RegWrite -/

@[simp] theorem regRead_fst (r : Reg) : (regRead r s).1 = s.answerAt 0 := rfl
@[simp] theorem regRead_handle (r : Reg) :
    (regRead r s).2.handle = s.handle := by simp [regRead]
@[simp] theorem regRead_seq (r : Reg) :
    (regRead r s).2.seq = s.seq := by simp [regRead]
@[simp] theorem regRead_ops (r : Reg) :
    (regRead r s).2.ops = s.ops := by simp [regRead]
@[simp] theorem regRead_seqLog (r : Reg) :
    (regRead r s).2.seqLog = s.seqLog := by simp [regRead]
@[simp] theorem regRead_w (r : Reg) :
    (regRead r s).2.w = s.w := by simp [regRead]
@[simp] theorem regRead_window (r : Reg) :
    (regRead r s).2.window = s.window := by simp [regRead]
@[simp] theorem regRead_spi (r : Reg) :
    (regRead r s).2.spi = if r = .data then s.spi ++ [⟨false, movedBytes s.window.cs (s.answerAt 0), s.lines, s.answerAt 0⟩] else s.spi := by
  simp [regRead, State.lines]
@[simp] theorem regRead_answers (r : Reg) :
    (regRead r s).2.answers = s.answers.tail := by simp [regRead]
@[simp] theorem regRead_draws (r : Reg) :
    (regRead r s).2.draws = s.draws + 1 := by simp [regRead]
@[simp] theorem regRead_trace (r : Reg) :
    (regRead r s).2.trace = s.trace ++ [.rd r (s.answerAt 0)] := by simp [regRead]
@[simp] theorem regRead_out (r : Reg) :
    (regRead r s).2.out = s.out := by simp [regRead]
@[simp] theorem regRead_filled (r : Reg) :
    (regRead r s).2.filled = s.filled := by simp [regRead]
@[simp] theorem regRead_buffers (r : Reg) :
    (regRead r s).2.buffers = s.buffers := by simp [regRead]
@[simp] theorem regRead_reports (r : Reg) :
    (regRead r s).2.reports = s.reports := by simp [regRead]
@[simp] theorem regRead_calls (r : Reg) :
    (regRead r s).2.calls = s.calls := by simp [regRead]
@[simp] theorem regWrite_handle (r : Reg) (v : Word) :
    (regWrite r v s).handle = s.handle := by simp [regWrite]
@[simp] theorem regWrite_seq (r : Reg) (v : Word) :
    (regWrite r v s).seq = s.seq := by simp [regWrite]
@[simp] theorem regWrite_ops (r : Reg) (v : Word) :
    (regWrite r v s).ops = s.ops := by simp [regWrite]
@[simp] theorem regWrite_seqLog (r : Reg) (v : Word) :
    (regWrite r v s).seqLog = s.seqLog := by simp [regWrite]
@[simp] theorem regWrite_w (r : Reg) (v : Word) :
    (regWrite r v s).w = s.w := by simp [regWrite]
@[simp] theorem regWrite_window (r : Reg) (v : Word) :
    (regWrite r v s).window = s.window.set r v := by simp [regWrite]
@[simp] theorem regWrite_spi (r : Reg) (v : Word) :
    (regWrite r v s).spi = if r = .data then s.spi ++ [⟨true, movedBytes s.window.cs v, s.lines, v⟩] else s.spi := by
  cases r <;> simp [regWrite, State.lines, Window.set]
@[simp] theorem regWrite_answers (r : Reg) (v : Word) :
    (regWrite r v s).answers = s.answers := by simp [regWrite]
@[simp] theorem regWrite_draws (r : Reg) (v : Word) :
    (regWrite r v s).draws = s.draws := by simp [regWrite]
@[simp] theorem regWrite_trace (r : Reg) (v : Word) :
    (regWrite r v s).trace = s.trace ++ [.wr r v] := by simp [regWrite]
@[simp] theorem regWrite_out (r : Reg) (v : Word) :
    (regWrite r v s).out = s.out := by simp [regWrite]
@[simp] theorem regWrite_filled (r : Reg) (v : Word) :
    (regWrite r v s).filled = s.filled := by simp [regWrite]
@[simp] theorem regWrite_buffers (r : Reg) (v : Word) :
    (regWrite r v s).buffers = s.buffers := by simp [regWrite]
@[simp] theorem regWrite_reports (r : Reg) (v : Word) :
    (regWrite r v s).reports = s.reports := by simp [regWrite]
@[simp] theorem regWrite_calls (r : Reg) (v : Word) :
    (regWrite r v s).calls = s.calls := by simp [regWrite]

/-! ### The device's answers -/

@[simp] theorem answerAt_congr_setW (w : Work) (k : Nat) :
    (s.setW w).answerAt k = s.answerAt k := rfl
@[simp] theorem answerAt_atLine (o : OpName) (n k : Nat) :
    (atLine o n s).answerAt k = s.answerAt k := rfl

theorem answerAt_congr {s t : State} (ha : t.answers = s.answers) (hd : t.draws = s.draws)
    (k : Nat) : t.answerAt k = s.answerAt k := by unfold State.answerAt; rw [ha, hd]

/-- After `n` reads, the device's `k`-th answer is the `(n + k)`-th from the start. -/
theorem answerAt_drop {s t : State} {n : Nat} (ha : t.answers = s.answers.drop n)
    (hd : t.draws = s.draws + n) (k : Nat) : t.answerAt k = s.answerAt (n + k) := by
  unfold State.answerAt; rw [ha, hd, List.getElem?_drop, Nat.add_assoc]

end Sys2Proof.Machine
end

