-- ==== Sys2Proof/Laws/Poll.lean ====
section
/-! SUPPORT. Everything a readiness wait can do, said once (R97, R98): every other operation that waits
cites `waitReady_cases`. -/

namespace Sys2Proof.Machine

/-- An operation's end, as `within` leaves it. -/
def Res.left (o : OpName) (r : Res) : Res := r.mapState (leaveOp o r.status)

theorem within_eq (o : OpName) (body : State → Res) (s : State) :
    within o body s = (body (enterOp o s)).left o := rfl

/-- The state after WAIT_READY made `k` polls from the head of its loop on, and ended. -/
def State.loopPolled (s : State) (k : Nat) : State :=
  { s with
    w := { s.w with poll := s.w.poll + k }
    ops := s.ops.tail
    answers := s.answers.drop k
    draws := s.draws + k
    trace := s.trace ++ (List.range k).map (fun j => .rd .cs (s.answerAt j))
    seqLog := s.seqLog ++ pollMarks s.trace.length ((List.range k).map s.answerAt) }

/-- The state after one poll that saw the device busy, at the head of the loop again. -/
def onePoll (s : State) : State :=
  atLine .waitReady 1 (atLine .waitReady 5 (atLine .waitReady 3
    (regRead .cs (atLine .waitReady 2 (s.setW { s.w with poll := s.w.poll + 1 }))).2))

theorem onePoll_answerAt (s : State) (j : Nat) : (onePoll s).answerAt j = s.answerAt (1 + j) :=
  answerAt_drop (n := 1) (by simp [onePoll, List.drop_one]) (by simp [onePoll]) j

theorem range_succ_map {α : Type} (f : Nat → α) (k : Nat) :
    (List.range (k + 1)).map f = f 0 :: (List.range k).map fun j => f (1 + j) := by
  rw [List.range_succ_eq_map]; simp [Function.comp_def, Nat.add_comm]

/-- One poll that saw the device busy and then `k` more are `k + 1` polls. -/
theorem onePoll_loopPolled {s : State} (h : rdy (s.answerAt 0) = false) (k : Nat) :
    (onePoll s).loopPolled k = s.loopPolled (k + 1) := by
  have hm : (List.range k).map (onePoll s).answerAt =
      (List.range k).map fun j => s.answerAt (1 + j) := by simp [onePoll_answerAt]
  simp only [State.loopPolled, onePoll_answerAt, range_succ_map, pollMarks, h, hm, State.mk.injEq]
  simp [onePoll, Nat.add_assoc, Nat.add_comm 1]

theorem pollLoop_ready {s : State} (n : Nat) (h : rdy (s.answerAt 0) = true) :
    (pollLoop (n + 1) s).left .waitReady = .ok (s.loopPolled 1) := by
  have hr : (List.range 1).map s.answerAt = [s.answerAt 0] := rfl
  have hm : pollMarks s.trace.length [s.answerAt 0] = [⟨s.trace.length, .line .waitReady 2⟩,
      ⟨s.trace.length + 1, .line .waitReady 3⟩, ⟨s.trace.length + 1, .line .waitReady 4⟩,
      ⟨s.trace.length + 1, .leave .waitReady .ok⟩] := by simp [pollMarks, h]
  have ha : (atLine .waitReady 2 (s.setW { s.w with poll := s.w.poll + 1 })).answerAt 0 =
      s.answerAt 0 := rfl
  simp only [pollLoop, regRead_fst, ha, h, if_true, Res.left, returnAt_eq, Res.mapState_ok,
    State.loopPolled, hr, hm, Res.ok.injEq]
  simp only [leaveOp, atLine, State.mark, State.mk.injEq]
  simp [State.answerAt, State.setW, List.drop_one]

theorem pollLoop_busy {s : State} (n : Nat) (h : rdy (s.answerAt 0) = false) :
    pollLoop (n + 1) s = pollLoop n (onePoll s) := by
  have ha : (atLine .waitReady 2 (s.setW { s.w with poll := s.w.poll + 1 })).answerAt 0 =
      s.answerAt 0 := rfl
  simp only [pollLoop, regRead_fst, ha, h]; rfl

/-- What the poll loop does, for any device. -/
theorem pollLoop_cases (n : Nat) (s : State) :
    (∃ k < n, BusyFor s k ∧ rdy (s.answerAt k) = true ∧
      (pollLoop n s).left .waitReady = .ok (s.loopPolled (k + 1))) ∨
    (BusyFor s n ∧ (pollLoop n s).left .waitReady = .raise .timedOut (s.loopPolled n)) := by
  induction n generalizing s with
  | zero =>
    refine .inr ⟨fun k hk => absurd hk (Nat.not_lt_zero k), ?_⟩
    simp [pollLoop, Res.left, State.loopPolled, pollMarks, atLine, leaveOp, State.mark]
  | succ n ih =>
    by_cases h0 : rdy (s.answerAt 0) = true
    · exact .inl ⟨0, Nat.succ_pos n, fun k hk => absurd hk (Nat.not_lt_zero k), h0,
        pollLoop_ready n h0⟩
    · have h0 : rdy (s.answerAt 0) = false := by simpa using h0
      have hb : ∀ m, BusyFor (onePoll s) m → BusyFor s (m + 1) := by
        intro m hm j hj
        cases j with
        | zero => exact h0
        | succ j => have := hm j (by omega); rwa [onePoll_answerAt, Nat.add_comm] at this
      rw [pollLoop_busy n h0]
      rcases ih (onePoll s) with ⟨k, hk, hbk, hr, he⟩ | ⟨hbn, he⟩
      · exact .inl ⟨k + 1, by omega, hb k hbk, by rwa [onePoll_answerAt, Nat.add_comm] at hr, by
          rw [he, onePoll_loopPolled h0]⟩
      · exact .inr ⟨hb n hbn, by rw [he, onePoll_loopPolled h0]⟩

/-- The state in which WAIT_READY's loop starts. -/
def pollStart (s : State) : State :=
  (atLine .waitReady 1 (enterOp .waitReady s)).setW
    { (atLine .waitReady 1 (enterOp .waitReady s)).w with poll := 0 }

theorem loopPolled_polled (s : State) (k : Nat) : (pollStart s).loopPolled k = s.polled k := by
  have ha : (pollStart s).answerAt = s.answerAt := rfl
  simp only [State.loopPolled, State.polled, ha, State.mk.injEq]
  simp [pollStart, waitMarks]

/-- What a readiness wait does, for any device: it polls until the device is first seen ready, or
POLL_LIMIT times, and leaves `polled`. -/
theorem waitReady_cases (s : State) :
    (∃ k < Config.pollLimit, BusyFor s k ∧ rdy (s.answerAt k) = true ∧
      waitReady s = .ok (s.polled (k + 1))) ∨
    (BusyFor s Config.pollLimit ∧ waitReady s = .raise .timedOut (s.polled Config.pollLimit)) := by
  have hw : waitReady s = (pollLoop Config.pollLimit (pollStart s)).left .waitReady := rfl
  rcases pollLoop_cases Config.pollLimit (pollStart s) with ⟨k, hk, hb, hr, he⟩ | ⟨hb, he⟩
  · exact .inl ⟨k, hk, hb, hr, by rw [hw, he, loopPolled_polled]⟩
  · exact .inr ⟨hb, by rw [hw, he, loopPolled_polled]⟩

/-- A wait whose first poll sees the device ready. -/
theorem waitReady_ready {s : State} (h : rdy (s.answerAt 0) = true) :
    waitReady s = .ok (s.polled 1) := by
  rcases waitReady_cases s with ⟨k, -, hb, -, he⟩ | ⟨hb, -⟩
  · cases k with
    | zero => exact he
    | succ k => have := hb 0 (Nat.succ_pos k); simp [h] at this
  · have := hb 0 (by decide); simp [h] at this

/-- A wait on a device that is busy at every poll. -/
theorem waitReady_busy {s : State} (h : BusyFor s Config.pollLimit) :
    waitReady s = .raise .timedOut (s.polled Config.pollLimit) := by
  rcases waitReady_cases s with ⟨k, hk, -, hr, -⟩ | ⟨-, he⟩
  · have := h k hk; simp [hr] at this
  · exact he

/-- A wait on a device first ready at poll `k + 1`. -/
theorem waitReady_first {s : State} {k : Nat} (hk : k < Config.pollLimit) (hb : BusyFor s k)
    (hr : rdy (s.answerAt k) = true) : waitReady s = .ok (s.polled (k + 1)) := by
  rcases waitReady_cases s with ⟨j, -, hbj, hrj, he⟩ | ⟨hbn, -⟩
  · have : j = k := by
      rcases Nat.lt_trichotomy j k with h | h | h
      · have := hb j h; simp [hrj] at this
      · exact h
      · have := hbj k h; simp [hr] at this
    exact this ▸ he
  · have := hbn k hk; simp [hr] at this

end Sys2Proof.Machine
end

