-- ==== Sys2Proof/Laws/Ran.lean ====
section
/-! SUPPORT. What any run of the core's operations can do, said once: `Ran s t es` holds when `t` comes
from `s` by the bus accesses `es`, and each shared operation has its lemma. Later proofs compose
these and do not unfold the operations. -/

namespace Sys2Proof.Machine

/-! ### Lists of accesses -/

@[simp] theorem answersUsed_append (a b : List Event) :
    answersUsed (a ++ b) = answersUsed a ++ answersUsed b := by
  induction a with
  | nil => rfl
  | cons e es ih => cases e <;> simp [answersUsed, ih]

@[simp] theorem writesTo_append (r : Reg) (a b : List Event) :
    writesTo r (a ++ b) = writesTo r a ++ writesTo r b := by
  induction a with
  | nil => rfl
  | cons e es ih => cases e <;> simp only [List.cons_append, writesTo, ih]; split <;> simp

@[simp] theorem readsFrom_append (r : Reg) (a b : List Event) :
    readsFrom r (a ++ b) = readsFrom r a ++ readsFrom r b := by
  induction a with
  | nil => rfl
  | cons e es ih => cases e <;> simp only [List.cons_append, readsFrom, ih]; split <;> simp

/-- The CS latch after the accesses `es`. -/
def csAfter (cs : Word) (es : List Event) : Word := (writesTo .cs es).getLast?.getD cs

theorem csAfter_append (cs : Word) (a b : List Event) :
    csAfter cs (a ++ b) = csAfter (csAfter cs a) b := by
  unfold csAfter; rw [writesTo_append, List.getLast?_append]
  cases (writesTo .cs b).getLast? <;> simp

theorem csAfter_wr (cs v : Word) (es : List Event) :
    csAfter cs (.wr .cs v :: es) = csAfter v es := by
  have := csAfter_append cs [.wr .cs v] es
  simpa [csAfter, writesTo] using this

theorem movesOf_append (cs : Word) (a b : List Event) :
    movesOf cs (a ++ b) = movesOf cs a ++ movesOf (csAfter cs a) b := by
  induction a generalizing cs with
  | nil => rfl
  | cons e es ih =>
    cases e with
    | rd r v =>
      have h : csAfter cs (.rd r v :: es) = csAfter cs es := rfl
      simp only [List.cons_append, movesOf, ih, h]; split <;> simp
    | wr r v =>
      by_cases hd : r = .data
      · subst hd
        have h : csAfter cs (.wr .data v :: es) = csAfter cs es := rfl
        simp [movesOf, ih, h]
      · by_cases hc : r = .cs
        · subst hc; simp [movesOf, ih, csAfter_wr]
        · have h : csAfter cs (.wr r v :: es) = csAfter cs es := by
            simp [csAfter, writesTo, hc]
          simp [movesOf, ih, h, hd, hc]

theorem lastWrite_append (r : Reg) (a b : List Event) :
    lastWrite r (a ++ b) = (lastWrite r b).or (lastWrite r a) := by
  induction a with
  | nil => simp [lastWrite]
  | cons e es ih =>
    cases e with
    | rd r' v => simpa [lastWrite] using ih
    | wr r' v =>
      simp only [List.cons_append, lastWrite, ih]
      cases lastWrite r b <;> simp

/-- The last access's sight of the ready flag, or `b` before any. -/
def lastReady (b : Bool) (es : List Event) : Bool := (es.getLast?.map Event.sawReady).getD b

theorem guardedFrom_append (ms : List Mark) (n : Nat) (b : Bool) (x y : List Event) :
    guardedFrom ms n b (x ++ y) =
      (guardedFrom ms n b x && guardedFrom ms (n + x.length) (lastReady b x) y) := by
  induction x generalizing n b with
  | nil => rfl
  | cons e es ih =>
    have h : lastReady b (e :: es) = lastReady e.sawReady es := by
      cases es with
      | nil => rfl
      | cons f fs =>
        obtain ⟨x, hx⟩ : ∃ x, (f :: fs).getLast? = some x :=
          ⟨_, List.getLast?_eq_some_getLast (by simp)⟩
        simp [lastReady, List.getLast?_cons_cons, hx]
    have hn : n + (es.length + 1) = n + 1 + es.length := by omega
    simp [guardedFrom, ih, h, Bool.and_assoc, hn]

/-- A record that grows lets no less begin a pulse. -/
theorem guardedFrom_mono {ms ms' : List Mark} (h : ∀ m ∈ ms, m ∈ ms') {n : Nat} {b : Bool}
    {es : List Event} (g : guardedFrom ms n b es = true) : guardedFrom ms' n b es = true := by
  induction es generalizing n b with
  | nil => rfl
  | cons e es ih =>
    simp only [guardedFrom, startsPulse, Bool.and_eq_true, Bool.or_eq_true, List.contains_iff_mem]
      at g ⊢
    exact ⟨g.1.imp_right fun x => ⟨x.1, h _ x.2⟩, ih g.2⟩

theorem countP_isRead (es : List Event) : es.countP Event.isRead = (answersUsed es).length := by
  induction es with
  | nil => rfl
  | cons e es ih => cases e <;> simp [List.countP_cons, answersUsed, Event.isRead, ih]

theorem length_movesOf (cs : Word) (es : List Event) :
    (movesOf cs es).length = es.countP Event.isData := by
  induction es generalizing cs with
  | nil => rfl
  | cons e es ih =>
    cases e with
    | rd r v => cases r <;> simp [movesOf, Event.isData, Event.reg, ih]
    | wr r v => cases r <;> simp [movesOf, Event.isData, Event.reg, ih]

/-! ### The relation -/

/-- `t` comes from `s` by the bus accesses `es`: the trace grew by them, each read took the device's
next answer, the device latched the writes and moved the bytes, the sequencer's record only grew,
and the handle's constants, the reports and the pending calls stayed. -/
structure Ran (s t : State) (es : List Event) : Prop where
  trace : t.trace = s.trace ++ es
  used : answersUsed es = (List.range (answersUsed es).length).map s.answerAt
  answers : t.answers = s.answers.drop (answersUsed es).length
  draws : t.draws = s.draws + (answersUsed es).length
  latch : ∀ r, t.window.get r = (lastWrite r es).getD (s.window.get r)
  spi : t.spi = s.spi ++ movesOf s.window.cs es
  log : ∃ ms, t.seqLog = s.seqLog ++ ms
  handle : t.handle.map (fun h => (h.base, h.refHz)) = s.handle.map (fun h => (h.base, h.refHz))
  reports : t.reports = s.reports
  calls : t.calls = s.calls

theorem lastWrite_cs (es : List Event) (cs : Word) :
    (lastWrite .cs es).getD cs = csAfter cs es := by
  induction es generalizing cs with
  | nil => rfl
  | cons e es ih =>
    cases e with
    | rd r v => exact ih cs
    | wr r v =>
      by_cases hc : r = .cs
      · subst hc; rw [csAfter_wr, ← ih v]; simp only [lastWrite]
        cases lastWrite .cs es <;> simp
      · have h : csAfter cs (.wr r v :: es) = csAfter cs es := by simp [csAfter, writesTo, hc]
        rw [h, ← ih cs]; simp only [lastWrite]
        cases lastWrite .cs es <;> simp [hc]

theorem Ran.answerAt {s t : State} {es : List Event} (h : Ran s t es) (k : Nat) :
    t.answerAt k = s.answerAt ((answersUsed es).length + k) := answerAt_drop h.answers h.draws k

theorem Ran.cs {s t : State} {es : List Event} (h : Ran s t es) :
    t.window.cs = csAfter s.window.cs es := by
  have := h.latch .cs; simp only [Window.get] at this; rw [this, lastWrite_cs]

theorem Ran.refl (s : State) : Ran s s [] where
  trace := by simp
  used := by simp [answersUsed]
  answers := by simp [answersUsed]
  draws := by simp [answersUsed]
  latch := by simp [lastWrite]
  spi := by simp [movesOf]
  log := ⟨[], by simp⟩
  handle := rfl
  reports := rfl
  calls := rfl

theorem Ran.trans {s t u : State} {a b : List Event} (h : Ran s t a) (g : Ran t u b) :
    Ran s u (a ++ b) where
  trace := by rw [g.trace, h.trace, List.append_assoc]
  used := by
    have hg : answersUsed b = (List.range (answersUsed b).length).map
        (fun k => s.answerAt ((answersUsed a).length + k)) := by
      rw [g.used]; simp [h.answerAt]
    rw [answersUsed_append, List.length_append, List.range_add, List.map_append, ← h.used,
      List.map_map, List.append_cancel_left_eq]
    exact hg
  answers := by rw [g.answers, h.answers, answersUsed_append, List.drop_drop, List.length_append]
  draws := by rw [g.draws, h.draws, answersUsed_append, List.length_append, Nat.add_assoc]
  latch := by
    intro r; rw [g.latch, h.latch, lastWrite_append]
    cases lastWrite r b <;> simp
  spi := by rw [g.spi, h.spi, h.cs, List.append_assoc, ← movesOf_append]
  log := by
    obtain ⟨x, hx⟩ := h.log; obtain ⟨y, hy⟩ := g.log
    exact ⟨x ++ y, by rw [hy, hx, List.append_assoc]⟩
  handle := by rw [g.handle, h.handle]
  reports := by rw [g.reports, h.reports]
  calls := by rw [g.calls, h.calls]

/-- A run and then a change that makes no access. -/
theorem Ran.then_same {s t u : State} {a : List Event} (h : Ran s t a) (g : Ran t u []) :
    Ran s u a := List.append_nil a ▸ h.trans g

/-- A change that touches none of the fields `Ran` speaks of, but may extend the sequencer's record. -/
theorem Ran.of_same {s t : State} (h1 : t.trace = s.trace) (h2 : t.answers = s.answers)
    (h3 : t.draws = s.draws) (h4 : t.window = s.window) (h5 : t.spi = s.spi)
    (h6 : ∃ ms, t.seqLog = s.seqLog ++ ms)
    (h7 : t.handle.map (fun h => (h.base, h.refHz)) = s.handle.map (fun h => (h.base, h.refHz)))
    (h8 : t.reports = s.reports) (h9 : t.calls = s.calls) : Ran s t [] where
  trace := by simp [h1]
  used := by simp [answersUsed]
  answers := by simp [answersUsed, h2]
  draws := by simp [answersUsed, h3]
  latch := by simp [lastWrite, h4]
  spi := by simp [movesOf, h5]
  log := h6
  handle := h7
  reports := h8
  calls := h9

theorem Ran.newEvents {s t : State} {es : List Event} (h : Ran s t es) : newEvents s t = es := by
  simp [Machine.newEvents, h.trace]

/-! ### The shared operations -/

theorem ran_setW (s : State) (w : Work) : Ran s (s.setW w) [] :=
  .of_same rfl rfl rfl rfl rfl ⟨[], by simp⟩ rfl rfl rfl

theorem ran_enterPhase (p : Phase) (s : State) : Ran s (enterPhase p s) [] :=
  .of_same rfl rfl rfl rfl rfl ⟨_, rfl⟩ rfl rfl rfl

theorem ran_enterOp (o : OpName) (s : State) : Ran s (enterOp o s) [] :=
  .of_same rfl rfl rfl rfl rfl ⟨_, rfl⟩ rfl rfl rfl

theorem ran_leaveOp (o : OpName) (st : Status) (s : State) : Ran s (leaveOp o st s) [] :=
  .of_same rfl rfl rfl rfl rfl ⟨_, rfl⟩ rfl rfl rfl

theorem ran_atLine (o : OpName) (n : Nat) (s : State) : Ran s (atLine o n s) [] :=
  .of_same rfl rfl rfl rfl rfl ⟨_, rfl⟩ rfl rfl rfl

/-- A run, and then the position moves. -/
theorem Ran.line {s t : State} {es : List Event} (h : Ran s t es) (o : OpName) (n : Nat) :
    Ran s (atLine o n t) es := h.then_same (ran_atLine o n t)

/-- A run after the position moved. -/
theorem Ran.after_line {s t : State} {es : List Event} {o : OpName} {n : Nat}
    (h : Ran (atLine o n s) t es) : Ran s t es := (ran_atLine o n s).trans h

theorem ran_handBuffer (b : List Byte) (s : State) : Ran s (handBuffer b s) [] :=
  .of_same rfl rfl rfl rfl rfl ⟨[], by simp⟩ rfl rfl rfl

theorem ran_storeBytes (i : Nat) (bs : List Byte) (s : State) : Ran s (storeBytes i bs s) [] :=
  .of_same rfl rfl rfl rfl rfl ⟨[], by simp⟩ rfl rfl rfl

theorem ran_returnBuffer (k : Nat) (s : State) : Ran s (returnBuffer k s) [] :=
  .of_same rfl rfl rfl rfl rfl ⟨[], by simp⟩ rfl rfl rfl

theorem ran_takeError (e : Status) (s : State) : Ran s (takeError e s) [] :=
  .of_same rfl rfl rfl rfl rfl ⟨[], by simp⟩ rfl rfl rfl

theorem ran_recordSpeed (hz : Nat) (s : State) : Ran s (recordSpeed hz s) [] :=
  .of_same rfl rfl rfl rfl rfl ⟨[], by simp⟩ (by simp [Function.comp_def]) rfl rfl

/-- A register read (R53). -/
theorem ran_regRead (r : Reg) (s : State) :
    Ran s (regRead r s).2 [.rd r (s.answerAt 0)] where
  trace := by simp
  used := by simp [answersUsed]
  answers := by simp [answersUsed, List.drop_one]
  draws := by simp [answersUsed]
  latch := by simp [lastWrite]
  spi := by simp [movesOf, State.lines]; split <;> simp
  log := ⟨[], by simp⟩
  handle := by simp
  reports := by simp
  calls := by simp

/-- A register write (R54). -/
theorem ran_regWrite (r : Reg) (v : Word) (s : State) :
    Ran s (regWrite r v s) [.wr r v] where
  trace := by simp
  used := by simp [answersUsed]
  answers := by simp [answersUsed]
  draws := by simp [answersUsed]
  latch := by
    intro r'; rw [regWrite_window, Window.get_set]
    by_cases h : r = r' <;> simp [lastWrite, h]
  spi := by cases r <;> simp [movesOf, State.lines]
  log := ⟨[], by simp⟩
  handle := by simp
  reports := by simp
  calls := by simp

/-- The reads of `k` polls. -/
def polls (s : State) (k : Nat) : List Event :=
  (List.range k).map (fun j => .rd .cs (s.answerAt j))

theorem answersUsed_map_rd (r : Reg) (vs : List Word) :
    answersUsed (vs.map (Event.rd r)) = vs := by
  induction vs with
  | nil => rfl
  | cons v vs ih => simp [answersUsed, ih]

theorem polls_eq (s : State) (k : Nat) :
    polls s k = ((List.range k).map s.answerAt).map (Event.rd .cs) := by
  simp [polls, Function.comp_def]

theorem answersUsed_polls (s : State) (k : Nat) :
    answersUsed (polls s k) = (List.range k).map s.answerAt := by
  rw [polls_eq, answersUsed_map_rd]

theorem lastWrite_map_rd (r r' : Reg) (vs : List Word) :
    lastWrite r (vs.map (Event.rd r')) = none := by
  induction vs with
  | nil => rfl
  | cons v vs ih => simpa [lastWrite] using ih

theorem movesOf_map_rd_cs (cs : Word) (vs : List Word) :
    movesOf cs (vs.map (Event.rd .cs)) = [] := by
  induction vs with
  | nil => rfl
  | cons v vs ih => simpa [movesOf] using ih

/-- A readiness wait of `k` polls (R97). -/
theorem ran_polled (s : State) (k : Nat) : Ran s (s.polled k) (polls s k) where
  trace := rfl
  used := by rw [answersUsed_polls]; simp
  answers := by rw [answersUsed_polls]; simp [State.polled]
  draws := by rw [answersUsed_polls]; simp [State.polled]
  latch := by intro r; rw [polls_eq, lastWrite_map_rd]; rfl
  spi := by rw [polls_eq, movesOf_map_rd_cs]; simp [State.polled]
  log := ⟨_, rfl⟩
  handle := rfl
  reports := rfl
  calls := rfl

/-- An operation that ran as the innermost one. -/
theorem ran_within {o : OpName} {body : State → Res} {s : State} {es : List Event}
    (h : Ran (enterOp o s) (body (enterOp o s)).state es) :
    Ran s (within o body s).state es := by
  have := ((ran_enterOp o s).trans h).trans (ran_leaveOp o (body (enterOp o s)).status _)
  simpa [within] using this

end Sys2Proof.Machine
end

