-- ==== Sys2Proof/Laws/OpRan.lean ====
section
/-! SUPPORT. What each operation below TRANSFER can do, said once, for any device: the accesses it
makes, that each is guarded by its wait, the registers it reaches, the ways it can end, and what it
leaves alone. -/

namespace Sys2Proof.Machine

/-- The accesses `es` made last were a failed wait: POLL_LIMIT CS reads that saw RDY = 0 (R138). -/
def FailedWait (es : List Event) : Prop := ∃ (before : List Event) (vs : List Word),
  es = before ++ vs.map (.rd .cs) ∧ vs.length = Config.pollLimit ∧ ∀ v ∈ vs, rdy v = false

theorem FailedWait.prepend {es : List Event} (h : FailedWait es) (a : List Event) :
    FailedWait (a ++ es) := by
  obtain ⟨b, vs, rfl, h⟩ := h; exact ⟨a ++ b, vs, (List.append_assoc ..).symm, h⟩

/-! ### The record of the sequencer -/

@[simp] theorem entriesOf_append (a b : List Mark) :
    entriesOf (a ++ b) = entriesOf a ++ entriesOf b := by
  induction a with
  | nil => rfl
  | cons m ms ih => obtain ⟨c, p | o | o | o⟩ := m <;> simp [entriesOf, ih]

theorem phasesOf_eq (ms : List Mark) : phasesOf ms = (entriesOf ms).map Prod.snd := by
  induction ms with
  | nil => rfl
  | cons m ms ih => obtain ⟨c, p | o | o | o⟩ := m <;> simp [phasesOf, entriesOf, ih]

@[simp] theorem phasesOf_append (a b : List Mark) :
    phasesOf (a ++ b) = phasesOf a ++ phasesOf b := by simp [phasesOf_eq]

theorem entriesOf_pollMarks (vs : List Word) : ∀ n, entriesOf (pollMarks n vs) = [] := by
  induction vs with
  | nil => exact fun _ => rfl
  | cons v vs ih => intro n; simp only [pollMarks, entriesOf]; split <;> simp [entriesOf, ih]

theorem entriesOf_waitMarks (n : Nat) (vs : List Word) : entriesOf (waitMarks n vs) = [] := by
  simp [waitMarks, entriesOf, entriesOf_pollMarks]

/-- The record from `s` to `t`, between which the accesses `es` were made: no message state was
entered, and each access is guarded, whatever came before (R153). -/
def Recorded (s t : State) (es : List Event) : Prop := ∃ ms, t.seqLog = s.seqLog ++ ms ∧
  entriesOf ms = [] ∧ ∀ b, guardedFrom ms s.trace.length b es = true

theorem Recorded.trans {s t u : State} {a b : List Event} (h : Recorded s t a)
    (g : Recorded t u b) (ht : t.trace = s.trace ++ a) : Recorded s u (a ++ b) := by
  obtain ⟨x, hx, ex, gx⟩ := h
  obtain ⟨y, hy, ey, gy⟩ := g
  refine ⟨x ++ y, by rw [hy, hx, List.append_assoc], by rw [entriesOf_append, ex, ey]; rfl,
    fun c => ?_⟩
  rw [guardedFrom_append, Bool.and_eq_true]
  refine ⟨guardedFrom_mono (fun _ => List.mem_append_left _) (gx c),
    guardedFrom_mono (fun _ => List.mem_append_right _) ?_⟩
  have := gy (lastReady c a)
  rwa [ht, List.length_append] at this

theorem guardedFrom_free {es : List Event} (h : ∀ e ∈ es, e.needsWait = false) (ms : List Mark) :
    ∀ n b, guardedFrom ms n b es = true := by
  induction es with
  | nil => exact fun _ _ => rfl
  | cons e es ih =>
    intro n b
    simp [guardedFrom, h e (List.mem_cons_self ..),
      ih (fun x hx => h x (List.mem_cons_of_mem _ hx))]

/-- Accesses that need no wait. -/
theorem recorded_free {s t : State} {es : List Event} {ms : List Mark}
    (hl : t.seqLog = s.seqLog ++ ms) (he : entriesOf ms = []) (h : ∀ e ∈ es, e.needsWait = false) :
    Recorded s t es := ⟨ms, hl, he, guardedFrom_free h ms _⟩

/-- No access, and nothing recorded. -/
theorem recorded_same {s t : State} (h : t.seqLog = s.seqLog) : Recorded s t [] :=
  recorded_free (ms := []) (by simp [h]) rfl (by simp)

/-! ### The relation -/

/-- The operation ended in `r` from `s`, having made the accesses `es`: to registers of `R` only, each
guarded by its wait whatever came before, with a status of `E`; the operations it was called in are
still in progress, the message's destinations and the message's working registers are as they were,
no message state was entered, and a timeout came from a failed wait. -/
structure OpRan (R : List Reg) (E : List Status) (s : State) (r : Res) (es : List Event) : Prop where
  ran : Ran s r.state es
  recorded : Recorded s r.state es
  regs : ∀ e ∈ es, e.reg ∈ R
  status : r.status ∈ E
  seq : r.state.seq = s.seq
  ops : r.state.ops.tail = s.ops.tail
  buffers : r.state.buffers = s.buffers
  message : r.state.w.speed = s.w.speed ∧ r.state.w.actual = s.w.actual ∧
    r.state.w.status = s.w.status
  failed : r.status = .timedOut → FailedWait es

theorem Res.andThen_assoc (r : Res) (f g : State → Res) :
    (r.andThen f).andThen g = r.andThen fun s => (f s).andThen g := by cases r <;> rfl

/-! What `return Ok` leaves as it was. -/

variable (r : Res) (o : OpName) (n : Nat)

@[simp] theorem Res.status_return : (r.andThen fun t => .ok (atLine o n t)).status = r.status := by
  cases r <;> rfl
@[simp] theorem Res.w_return : (r.andThen fun t => .ok (atLine o n t)).state.w = r.state.w := by
  cases r <;> rfl
@[simp] theorem Res.out_return : (r.andThen fun t => .ok (atLine o n t)).state.out = r.state.out := by
  cases r <;> rfl
@[simp] theorem Res.filled_return :
    (r.andThen fun t => .ok (atLine o n t)).state.filled = r.state.filled := by cases r <;> rfl

theorem Res.andThen_assoc_ok (r : Res) (f : State → State) (g : State → Res) :
    (r.andThen (fun s => .ok (f s))).andThen g = r.andThen (fun s => g (f s)) := by cases r <;> rfl

/-- An operation that made no access and changed nothing `OpRan` speaks of. -/
theorem OpRan.ok_self {R : List Reg} {E : List Status} (hE : .ok ∈ E) (s : State) :
    OpRan R E s (.ok s) [] where
  ran := .refl s
  recorded := recorded_same rfl
  regs := by simp
  status := hE
  seq := rfl
  ops := rfl
  buffers := rfl
  message := ⟨rfl, rfl, rfl⟩
  failed := by simp

/-- Sequencing, where the first part succeeded. -/
theorem OpRan.trans {R : List Reg} {E : List Status} {s t : State} {r : Res} {a b : List Event}
    (h : OpRan R E s (.ok t) a) (g : OpRan R E t r b) : OpRan R E s r (a ++ b) where
  ran := h.ran.trans g.ran
  recorded := h.recorded.trans g.recorded h.ran.trace
  regs := fun e he => (List.mem_append.mp he).elim (h.regs e) (g.regs e)
  status := g.status
  seq := g.seq.trans h.seq
  ops := g.ops.trans h.ops
  buffers := g.buffers.trans h.buffers
  message := ⟨g.message.1.trans h.message.1, g.message.2.1.trans h.message.2.1,
    g.message.2.2.trans h.message.2.2⟩
  failed := fun hf => (g.failed hf).prepend a

/-- Sequencing: the second part runs only where the first succeeded. -/
theorem OpRan.andThen {R : List Reg} {E : List Status} {s : State} {r : Res} {a : List Event}
    {g : State → Res} (h : OpRan R E s r a)
    (hg : ∀ t, r = .ok t → ∃ b, OpRan R E t (g t) b) :
    ∃ es, OpRan R E s (r.andThen g) es := by
  cases r with
  | raise e t => exact ⟨a, h⟩
  | ok t => obtain ⟨b, hb⟩ := hg t rfl; exact ⟨a ++ b, h.trans hb⟩

/-- The position moves. -/
theorem opRan_line {R : List Reg} {E : List Status} (hE : .ok ∈ E) (o : OpName) (n : Nat)
    (s : State) : OpRan R E s (.ok (atLine o n s)) [] where
  ran := ran_atLine o n s
  recorded := recorded_free (atLine_seqLog s o n) rfl (by simp)
  regs := by simp
  status := hE
  seq := rfl
  ops := rfl
  buffers := rfl
  message := ⟨rfl, rfl, rfl⟩
  failed := by simp

/-- A part of an operation that began after the position moved. -/
theorem OpRan.after_line {R : List Reg} {E : List Status} (hE : .ok ∈ E) {o : OpName} {n : Nat}
    {s : State} {r : Res} {es : List Event} (h : OpRan R E (atLine o n s) r es) :
    OpRan R E s r es := (opRan_line hE o n s).trans h

/-- A part of an operation that succeeded, and then the position moved. -/
theorem OpRan.line {R : List Reg} {E : List Status} {s t : State} {es : List Event}
    (h : OpRan R E s (.ok t) es) (o : OpName) (n : Nat) : OpRan R E s (.ok (atLine o n t)) es :=
  List.append_nil es ▸ h.trans (opRan_line h.status o n t)

/-- `return Ok`. -/
theorem OpRan.return {R : List Reg} {E : List Status} {s : State} {r : Res} {es : List Event}
    (h : OpRan R E s r es) (o : OpName) (n : Nat) :
    OpRan R E s (r.andThen fun t => returnAt o n t) es := by
  cases r with
  | raise e t => exact h
  | ok t => exact h.line o n

/-- An operation called as the innermost one. -/
theorem OpRan.within {R : List Reg} {E : List Status} {o : OpName} {body : State → Res} {s : State}
    {es : List Event} (h : OpRan R E (enterOp o s) (body (enterOp o s)) es) :
    OpRan R E s (within o body s) es where
  ran := ran_within h.ran
  recorded := by
    have h1 : Recorded s (enterOp o s) [] := recorded_free (enterOp_seqLog s o) rfl (by simp)
    have h2 : Recorded (body (enterOp o s)).state (Machine.within o body s).state [] :=
      recorded_free (ms := [⟨(body (enterOp o s)).state.trace.length,
        .leave o (body (enterOp o s)).status⟩]) (by simp [Machine.within]) rfl (by simp)
    have := (h1.trans h.recorded (by simp)).trans h2 h.ran.trace
    rwa [List.append_nil] at this
  regs := h.regs
  status := by simpa [Machine.within] using h.status
  seq := by simpa [Machine.within] using h.seq
  ops := by simp [Machine.within, h.ops]
  buffers := by simpa [Machine.within] using h.buffers
  message := by simpa [Machine.within] using h.message
  failed := fun hf => h.failed (by simpa [Machine.within] using hf)

/-- An operation leaves the operations in progress, with their positions, as they were at its call. -/
theorem OpRan.within_ops {R : List Reg} {E : List Status} {o : OpName} {body : State → Res}
    {s : State} {es : List Event} (h : OpRan R E (enterOp o s) (body (enterOp o s)) es) :
    (Machine.within o body s).state.ops = s.ops := by simp [Machine.within, h.ops]

theorem mem_polls {s : State} {k : Nat} {e : Event} (h : e ∈ polls s k) : ∃ v, e = .rd .cs v := by
  obtain ⟨j, -, rfl⟩ := List.mem_map.mp h; exact ⟨_, rfl⟩

theorem lastReady_polls (s : State) (k : Nat) (b : Bool) (h : rdy (s.answerAt k) = true) :
    lastReady b (polls s (k + 1)) = true := by
  simp [lastReady, polls, List.range_succ, Event.sawReady, h]

theorem recorded_polled (s : State) (k : Nat) : Recorded s (s.polled k) (polls s k) :=
  recorded_free rfl (entriesOf_waitMarks _ _) fun e he => by obtain ⟨v, rfl⟩ := mem_polls he; rfl

theorem failedWait_polls {s : State} (h : BusyFor s Config.pollLimit) :
    FailedWait (polls s Config.pollLimit) := by
  refine ⟨[], (List.range Config.pollLimit).map s.answerAt,
    by rw [List.nil_append, polls_eq], by rw [List.length_map, List.length_range], fun v hv => ?_⟩
  obtain ⟨j, hj, rfl⟩ := List.mem_map.mp hv
  exact h j (List.mem_range.mp hj)

/-- A wait of `k` polls, as an operation's end. -/
theorem opRan_polled {R : List Reg} {E : List Status} (hR : .cs ∈ R) (s : State) (k : Nat) (r : Res)
    (hr : r.state = s.polled k) (hE : r.status ∈ E)
    (hf : r.status = .timedOut → FailedWait (polls s k)) : OpRan R E s r (polls s k) where
  ran := hr ▸ ran_polled s k
  recorded := hr ▸ recorded_polled s k
  regs := fun e he => by obtain ⟨v, rfl⟩ := mem_polls he; exact hR
  status := hE
  seq := by rw [hr]; rfl
  ops := by rw [hr]; rfl
  buffers := by rw [hr]; rfl
  message := by rw [hr]; exact ⟨rfl, rfl, rfl⟩
  failed := hf

/-- An operation whose last access, where it succeeded, saw the device ready. -/
def EndsReady (r : Res) (es : List Event) : Prop := ∀ t, r = .ok t → ∀ b, lastReady b es = true

/-- WAIT_READY: it leaves the operations in progress as they were, and ends ready (R97, R134). -/
theorem waitReady_opRan {R : List Reg} {E : List Status} (hR : .cs ∈ R) (hok : .ok ∈ E)
    (hto : .timedOut ∈ E) (s : State) : ∃ es, OpRan R E s (waitReady s) es ∧
      EndsReady (waitReady s) es ∧ (waitReady s).state.ops = s.ops := by
  rcases waitReady_cases s with ⟨k, -, -, hr, he⟩ | ⟨hb, he⟩
  · exact ⟨_, opRan_polled hR s (k + 1) _ (by rw [he]; rfl) (by rw [he]; exact hok)
      (by rw [he]; simp), fun _ _ b => lastReady_polls s k b hr, by rw [he]; rfl⟩
  · exact ⟨_, opRan_polled hR s _ _ (by rw [he]; rfl) (by rw [he]; exact hto)
      (fun _ => failedWait_polls hb), (fun t h => by rw [he] at h; cases h), by rw [he]; rfl⟩

/-- WAIT_READY called at a line. -/
theorem waitAt_opRan {R : List Reg} {E : List Status} (hR : .cs ∈ R) (hok : .ok ∈ E)
    (hto : .timedOut ∈ E) (o : OpName) (n : Nat) (s : State) :
    ∃ es, OpRan R E s (waitAt o n s) es ∧ EndsReady (waitAt o n s) es := by
  obtain ⟨es, h, g, -⟩ := waitReady_opRan hR hok hto (atLine o n s)
  exact ⟨es, h.after_line hok, g⟩

/-- A wait and then, where it succeeded, one access: the unit the chip-select sequencer's later words
and the data engine are made of (R153). -/
theorem waitThen_opRan {R : List Reg} {E : List Status} (hR : .cs ∈ R) (hok : .ok ∈ E)
    (hto : .timedOut ∈ E) (o : OpName) (n : Nat) (s : State) (f : State → State) (e : State → Event)
    (hran : ∀ t, Ran t (f t) [e t]) (hreg : ∀ t, (e t).reg ∈ R) (hseq : ∀ t, (f t).seq = t.seq)
    (hops : ∀ t, (f t).ops.tail = t.ops.tail) (hbuf : ∀ t, (f t).buffers = t.buffers)
    (hmsg : ∀ t, (f t).w.speed = t.w.speed ∧ (f t).w.actual = t.w.actual ∧
      (f t).w.status = t.w.status)
    (hlog : ∀ t, ∃ ms, (f t).seqLog = t.seqLog ++ ms ∧ entriesOf ms = []) :
    ∃ es, OpRan R E s ((waitAt o n s).andThen fun t => .ok (f t)) es := by
  suffices h : ∀ s, ∃ es, OpRan R E s ((waitReady s).andThen fun t => .ok (f t)) es by
    obtain ⟨es, h⟩ := h (atLine o n s)
    exact ⟨es, h.after_line hok⟩
  intro s
  rcases waitReady_cases s with ⟨k, -, -, hrdy, he⟩ | ⟨hb, he⟩
  · rw [he, Res.andThen_ok]
    refine ⟨polls s (k + 1) ++ [e (s.polled (k + 1))], ?_⟩
    exact {
      ran := (ran_polled s (k + 1)).trans (hran _)
      recorded := by
        obtain ⟨x, hx, ex, -⟩ := recorded_polled s (k + 1)
        obtain ⟨y, hy, ey⟩ := hlog (s.polled (k + 1))
        refine ⟨x ++ y, by rw [Res.state_ok, hy, hx, List.append_assoc],
          by rw [entriesOf_append, ex, ey]; rfl, fun b => ?_⟩
        rw [guardedFrom_append, lastReady_polls s k b hrdy, guardedFrom_free fun e he => by
          obtain ⟨v, rfl⟩ := mem_polls he; rfl]
        simp [guardedFrom]
      regs := fun x hx => by
        rcases List.mem_append.mp hx with h | h
        · obtain ⟨v, rfl⟩ := mem_polls h; exact hR
        · rw [List.mem_singleton.mp h]; exact hreg _
      status := hok
      seq := hseq _
      ops := hops _
      buffers := hbuf _
      message := hmsg _
      failed := by simp }
  · rw [he, Res.andThen_raise]
    exact ⟨_, opRan_polled hR s _ _ rfl hto fun _ => failedWait_polls hb⟩

theorem lastReady_append (b : Bool) (x y : List Event) :
    lastReady b (x ++ y) = lastReady (lastReady b x) y := by
  unfold lastReady; rw [List.getLast?_append]; cases y.getLast? <;> simp

/-- Sequencing with a second part that ends ready. -/
theorem OpRan.andThen_endsReady {R : List Reg} {E : List Status} {s : State} {r : Res}
    {a : List Event} {g : State → Res} (h : OpRan R E s r a)
    (hg : ∀ t, r = .ok t → ∃ b, OpRan R E t (g t) b ∧ EndsReady (g t) b) :
    ∃ es, OpRan R E s (r.andThen g) es ∧ EndsReady (r.andThen g) es := by
  cases r with
  | raise e t => exact ⟨a, h, fun _ h => by cases h⟩
  | ok t =>
    obtain ⟨b, hb, hb'⟩ := hg t rfl
    exact ⟨a ++ b, h.trans hb, fun u hu x => by rw [lastReady_append]; exact hb' u hu _⟩

theorem EndsReady.return {r : Res} {es : List Event} (h : EndsReady r es) (o : OpName) (n : Nat) :
    EndsReady (r.andThen fun t => returnAt o n t) es := by
  cases r with
  | raise e t => exact fun _ h => by cases h
  | ok t => exact fun _ _ => h t rfl

/-! ### The chip-select sequencer -/

/-- The registers the poller, the sequencer and the engine reach, and the ways they can end. -/
abbrev ioRegs : List Reg := [.cs, .data]
abbrev ioEnds : List Status := [.ok, .timedOut]

/-- The pulse's first write stands without a wait before it (R154); every later word has one. -/
theorem writeDesel_opRan (s : State) :
    OpRan ioRegs ioEnds s (.ok (regWrite .cs wordDeselBoth (atLine .deselect 1 s)))
      [.wr .cs wordDeselBoth] where
  ran := (ran_regWrite _ _ _).after_line
  recorded := ⟨[⟨s.trace.length, .line .deselect 1⟩], by simp, rfl, fun b => by
    simp [guardedFrom, startsPulse]⟩
  regs := by simp [Event.reg]
  status := by simp
  seq := by simp
  ops := by simp
  buffers := by simp
  message := by simp
  failed := by simp

/-- A wait, and then a CS word written at line `m`. -/
theorem waitThenWrite_opRan (o : OpName) (n m : Nat) (v : Word) (s : State) :
    ∃ es, OpRan ioRegs ioEnds s
      ((waitAt o n s).andThen fun t => .ok (regWrite .cs v (atLine o m t))) es :=
  waitThen_opRan (by simp) (by simp) (by simp) o n s _ (fun _ => .wr .cs v)
    (fun t => (ran_regWrite .cs v _).after_line) (fun _ => by simp [Event.reg]) (by simp) (by simp)
    (by simp) (by simp) (fun t => ⟨_, by simp; rfl, rfl⟩)

theorem deselectBody_eq (s : State) : deselectBody s =
    ((Res.ok (regWrite .cs wordDeselBoth (atLine .deselect 1 s))).andThen fun s =>
      ((waitAt .deselect 2 s).andThen fun t =>
        .ok (regWrite .cs wordAssertBoth (atLine .deselect 3 t))).andThen fun s =>
      ((waitAt .deselect 4 s).andThen fun t =>
        .ok (regWrite .cs wordDeselBoth (atLine .deselect 5 t))).andThen fun s =>
      (waitAt .deselect 6 s).andThen fun t => returnAt .deselect 7 t) := by
  simp only [Res.andThen_ok, Res.andThen_assoc_ok]; rfl

/-- WAIT_READY, called at a line that ends an operation of the chip-select sequencer. -/
theorem wait_return (o : OpName) (n m : Nat) (s : State) :
    ∃ es, OpRan ioRegs ioEnds s ((waitAt o n s).andThen fun t => returnAt o m t) es ∧
      EndsReady ((waitAt o n s).andThen fun t => returnAt o m t) es := by
  obtain ⟨es, h, g⟩ := waitAt_opRan (R := ioRegs) (E := ioEnds) (by simp) (by simp) (by simp) o n s
  exact ⟨es, h.return o m, g.return o m⟩

theorem deselectBody_opRan (s : State) : ∃ es, OpRan ioRegs ioEnds s (deselectBody s) es ∧
    EndsReady (deselectBody s) es := by
  rw [deselectBody_eq]
  refine (writeDesel_opRan s).andThen_endsReady fun t _ => ?_
  obtain ⟨_, h⟩ := waitThenWrite_opRan .deselect 2 3 wordAssertBoth t
  refine h.andThen_endsReady fun t _ => ?_
  obtain ⟨_, h⟩ := waitThenWrite_opRan .deselect 4 5 wordDeselBoth t
  exact h.andThen_endsReady fun t _ => wait_return .deselect 6 7 t

theorem EndsReady.within {o : OpName} {body : State → Res} {s : State} {es : List Event}
    (h : EndsReady (body (enterOp o s)) es) : EndsReady (within o body s) es := by
  intro t ht
  unfold Machine.within at ht
  cases hb : body (enterOp o s) with
  | ok u => exact h u hb
  | raise e u => rw [hb] at ht; cases ht

/-- DESELECT (R107). -/
theorem deselect_opRan (s : State) : ∃ es, OpRan ioRegs ioEnds s (deselect s) es ∧
    EndsReady (deselect s) es ∧ (deselect s).state.ops = s.ops := by
  obtain ⟨es, h, g⟩ := deselectBody_opRan (enterOp .deselect s)
  exact ⟨es, h.within, g.within, h.within_ops⟩

/-- The slot's word written right after an operation that ends ready, and the wait after it. -/
theorem OpRan.thenSelectWord {s : State} {r : Res} {a : List Event} (h : OpRan ioRegs ioEnds s r a)
    (hr : EndsReady r a) (n : Nat) (v : Word) :
    ∃ es, OpRan ioRegs ioEnds s (r.andThen fun s =>
        (writeCsAndWait .select n 6 v (atLine .select 2 s)).andThen fun s =>
        returnAt .select 7 s) es ∧
      EndsReady (r.andThen fun s =>
        (writeCsAndWait .select n 6 v (atLine .select 2 s)).andThen fun s =>
        returnAt .select 7 s) es := by
  cases r with
  | raise e t => exact ⟨a, h, fun _ h => by cases h⟩
  | ok t =>
    obtain ⟨b, hb, hb'⟩ := wait_return .select 6 7
      (regWrite .cs v (atLine .select n (atLine .select 2 t)))
    have hw : OpRan ioRegs ioEnds s
        (.ok (regWrite .cs v (atLine .select n (atLine .select 2 t)))) (a ++ [.wr .cs v]) := {
      ran := h.ran.trans (ran_regWrite _ _ _).after_line.after_line
      recorded := by
        obtain ⟨x, hx, ex, gx⟩ := h.recorded
        have hx : t.seqLog = s.seqLog ++ x := hx
        refine ⟨x ++ [⟨t.trace.length, .line .select 2⟩, ⟨t.trace.length, .line .select n⟩], by
          simp [hx], by rw [entriesOf_append, ex]; rfl, fun c => ?_⟩
        rw [guardedFrom_append, hr t rfl,
          guardedFrom_mono (fun _ => List.mem_append_left _) (gx c)]
        simp [guardedFrom]
      regs := fun e he => (List.mem_append.mp he).elim (h.regs e) (by simp +contextual [Event.reg])
      status := by simp
      seq := by simpa using h.seq
      ops := by simpa using h.ops
      buffers := by simpa using h.buffers
      message := by simpa using h.message
      failed := by simp }
    exact ⟨_, hw.trans hb, fun u hu x => by rw [lastReady_append]; exact hb' u hu _⟩

/-- SELECT (R108). -/
theorem select_opRan (slot : Nat) (s : State) : ∃ es, OpRan ioRegs ioEnds s (select slot s) es ∧
    EndsReady (select slot s) es ∧ (select slot s).state.ops = s.ops := by
  obtain ⟨_, h, g, -⟩ := deselect_opRan (atLine .select 1 (enterOp .select s))
  obtain ⟨es, h', g'⟩ := (h.after_line (by simp)).thenSelectWord g (selectLine slot)
    (selectWord slot)
  exact ⟨es, OpRan.within (body := selectBody slot) h', EndsReady.within (body := selectBody slot) g',
    OpRan.within_ops (body := selectBody slot) h'⟩

/-! ### The data engine -/

/-- The state after CS was read and W.cs written (R75). -/
def tookCs (o : OpName) (s : State) : State :=
  (regRead .cs (atLine o 1 s)).2.setW
    { (regRead .cs (atLine o 1 s)).2.w with cs := len1Word (s.answerAt 0) }

/-- The lines after the first wait, up to the head of Phase A: the LEN4 write (R112, R113). -/
def putLen4 (o : OpName) (s : State) : State :=
  let s := atLine o 3 s
  let s := atLine o 4 (regWrite .cs (len4Word s.w.cs) s)
  atLine o 5 (s.setW { s.w with i := 0 })

/-- The lines after the wait of Phase B, up to its head: the LEN1 write (R112, R113). -/
def putLen1 (o : OpName) (s : State) : State :=
  let s := atLine o 11 s
  atLine o 12 (regWrite .cs s.w.cs s)

theorem startTransfer_eq (o : OpName) (s : State) :
    startTransfer o s = (waitAt o 2 (tookCs o s)).andThen fun t => .ok (putLen4 o t) := rfl

theorem startPhaseB_eq (o : OpName) (s : State) :
    startPhaseB o s = (waitAt o 10 s).andThen fun t => .ok (putLen1 o t) := rfl

theorem ran_tookCs (o : OpName) (s : State) : Ran s (tookCs o s) [.rd .cs (s.answerAt 0)] :=
  (ran_regRead .cs _).after_line.then_same (ran_setW _ _)

theorem ran_putLen4 (o : OpName) (s : State) :
    Ran s (putLen4 o s) [.wr .cs (len4Word s.w.cs)] :=
  (((ran_regWrite .cs _ _).after_line.line o 4).then_same (ran_setW _ _)).line o 5

theorem ran_putLen1 (o : OpName) (s : State) : Ran s (putLen1 o s) [.wr .cs s.w.cs] :=
  (ran_regWrite .cs _ _).after_line.line o 12

theorem tookCs_opRan (o : OpName) (s : State) :
    OpRan ioRegs ioEnds s (.ok (tookCs o s)) [.rd .cs (s.answerAt 0)] where
  ran := ran_tookCs o s
  recorded := recorded_free (ms := [⟨s.trace.length, .line o 1⟩]) (by simp [tookCs]) rfl (by
    simp [Event.needsWait])
  regs := by simp [Event.reg]
  status := by simp
  seq := by simp [tookCs]
  ops := by simp [tookCs]
  buffers := by simp [tookCs]
  message := by simp [tookCs]
  failed := by simp

theorem putLen4_opRan (o : OpName) (s : State) :
    ∃ es, OpRan ioRegs ioEnds s ((waitAt o 2 s).andThen fun t => .ok (putLen4 o t)) es :=
  waitThen_opRan (by simp) (by simp) (by simp) o 2 s _ _ (ran_putLen4 o)
    (fun _ => by simp [Event.reg]) (by simp [putLen4]) (by simp [putLen4]) (by simp [putLen4])
    (by simp [putLen4]) (fun t => ⟨_, by simp [putLen4]; rfl, rfl⟩)

theorem startTransfer_opRan (o : OpName) (s : State) :
    ∃ es, OpRan ioRegs ioEnds s (startTransfer o s) es := by
  obtain ⟨es, h⟩ := putLen4_opRan o (tookCs o s)
  exact ⟨_, (tookCs_opRan o s).trans h⟩

theorem startPhaseB_opRan (o : OpName) (s : State) :
    ∃ es, OpRan ioRegs ioEnds s (startPhaseB o s) es :=
  waitThen_opRan (by simp) (by simp) (by simp) o 10 s _ _ (ran_putLen1 o)
    (fun _ => by simp [Event.reg]) (fun _ => rfl) (fun _ => rfl) (fun _ => rfl)
    (fun _ => ⟨rfl, rfl, rfl⟩) (fun t => ⟨_, by simp; rfl, rfl⟩)

/-- One word of a write: the lines after the wait, back to the head of Phase A (R112). -/
def putWord (order : ByteOrder) (b : List Byte) (s : State) : State :=
  let s := atLine .xferWrite 7 s
  let word := pack32 order (byteAt b s.w.i) (byteAt b (s.w.i + 1)) (byteAt b (s.w.i + 2))
    (byteAt b (s.w.i + 3))
  let s := atLine .xferWrite 8 (s.setW { s.w with word := word })
  let s := atLine .xferWrite 9 (regWrite .data s.w.word s)
  atLine .xferWrite 5 (s.setW { s.w with i := s.w.i + 4 })

/-- One byte of a write: the lines after the wait, back to the head of Phase B (R112). -/
def putByte (b : List Byte) (s : State) : State :=
  let s := atLine .xferWrite 14 s
  let s := atLine .xferWrite 15 (regWrite .data (byteWord (byteAt b s.w.i)) s)
  atLine .xferWrite 12 (s.setW { s.w with i := s.w.i + 1 })

/-- One DATA word of a read: the lines after the wait from line `n` on, back to the head `m` of its phase
(R113). -/
def getData (n m : Nat) (bytes : Word → List Byte) (s : State) : State :=
  let v := regRead .data (atLine .xferRead n s)
  let s := atLine .xferRead (n + 1) (v.2.setW { v.2.w with word := v.1 })
  let s := atLine .xferRead (n + 2) (storeBytes s.w.i (bytes s.w.word) s)
  atLine .xferRead m (s.setW { s.w with i := s.w.i + (bytes s.w.word).length })

theorem writeWords_succ (order : ByteOrder) (b : List Byte) (k : Nat) (s : State) :
    writeWords order b (k + 1) s =
      ((waitAt .xferWrite 6 s).andThen fun t => .ok (putWord order b t)).andThen
        (writeWords order b k) := by
  rw [Res.andThen_assoc_ok]; rfl

theorem writeBytes_succ (b : List Byte) (k : Nat) (s : State) :
    writeBytes b (k + 1) s =
      ((waitAt .xferWrite 13 s).andThen fun t => .ok (putByte b t)).andThen (writeBytes b k) := by
  rw [Res.andThen_assoc_ok]; rfl

theorem length_unpack32 (order : ByteOrder) (w : Word) : (unpack32 order w).length = 4 := by
  cases order <;> rfl

theorem readWords_succ (order : ByteOrder) (k : Nat) (s : State) :
    readWords order (k + 1) s =
      ((waitAt .xferRead 6 s).andThen fun t => .ok (getData 7 5 (unpack32 order) t)).andThen
        (readWords order k) := by
  rw [Res.andThen_assoc_ok]; cases order <;> rfl

theorem readBytes_succ (k : Nat) (s : State) :
    readBytes (k + 1) s =
      ((waitAt .xferRead 13 s).andThen fun t =>
        .ok (getData 14 12 (fun w => [wordByte w]) t)).andThen (readBytes k) := by
  rw [Res.andThen_assoc_ok]; rfl

theorem ran_putWord (order : ByteOrder) (b : List Byte) (t : State) : Ran t (putWord order b t)
    [.wr .data (pack32 order (byteAt b t.w.i) (byteAt b (t.w.i + 1)) (byteAt b (t.w.i + 2))
      (byteAt b (t.w.i + 3)))] :=
  ((((((ran_atLine .xferWrite 7 t).trans (ran_setW _ _)).line .xferWrite 8).trans
    (ran_regWrite .data _ _)).line .xferWrite 9).then_same (ran_setW _ _)).line .xferWrite 5

theorem ran_putByte (b : List Byte) (t : State) :
    Ran t (putByte b t) [.wr .data (byteWord (byteAt b t.w.i))] :=
  (((ran_regWrite .data _ _).after_line.line .xferWrite 15).then_same (ran_setW _ _)).line
    .xferWrite 12

theorem ran_getData (n m : Nat) (bytes : Word → List Byte) (t : State) :
    Ran t (getData n m bytes t) [.rd .data (t.answerAt 0)] :=
  ((((((ran_regRead .data _).after_line.then_same (ran_setW _ _)).line .xferRead (n + 1)).then_same
    (ran_storeBytes _ _ _)).line .xferRead (n + 2)).then_same (ran_setW _ _)).line .xferRead m

theorem putWord_opRan (order : ByteOrder) (b : List Byte) (s : State) : ∃ es,
    OpRan ioRegs ioEnds s ((waitAt .xferWrite 6 s).andThen fun t => .ok (putWord order b t)) es :=
  waitThen_opRan (by simp) (by simp) (by simp) _ _ s _ _ (ran_putWord order b)
    (fun _ => by simp [Event.reg]) (by simp [putWord]) (by simp [putWord]) (by simp [putWord])
    (by simp [putWord]) (fun t => ⟨_, by simp [putWord]; rfl, rfl⟩)

theorem putByte_opRan (b : List Byte) (s : State) : ∃ es,
    OpRan ioRegs ioEnds s ((waitAt .xferWrite 13 s).andThen fun t => .ok (putByte b t)) es :=
  waitThen_opRan (by simp) (by simp) (by simp) _ _ s _ _ (ran_putByte b)
    (fun _ => by simp [Event.reg]) (by simp [putByte]) (by simp [putByte]) (by simp [putByte])
    (by simp [putByte]) (fun t => ⟨_, by simp [putByte]; rfl, rfl⟩)

theorem getData_opRan (o : OpName) (l n m : Nat) (bytes : Word → List Byte) (s : State) : ∃ es,
    OpRan ioRegs ioEnds s ((waitAt o l s).andThen fun t => .ok (getData n m bytes t)) es :=
  waitThen_opRan (by simp) (by simp) (by simp) _ _ s _ _ (ran_getData n m bytes)
    (fun _ => by simp [Event.reg]) (by simp [getData]) (by simp [getData]) (by simp [getData])
    (by simp [getData]) (fun t => ⟨_, by simp [getData]; rfl, rfl⟩)

/-- A loop of waits and accesses. -/
theorem loop_opRan (o : OpName) (n : Nat) (f : State → State) (loop : Nat → State → Res)
    (hf : ∀ s, ∃ es, OpRan ioRegs ioEnds s ((waitAt o n s).andThen fun t => .ok (f t)) es)
    (h0 : ∀ s, loop 0 s = .ok s)
    (hs : ∀ k s, loop (k + 1) s = ((waitAt o n s).andThen fun t => .ok (f t)).andThen (loop k)) :
    ∀ k s, ∃ es, OpRan ioRegs ioEnds s (loop k s) es := by
  intro k
  induction k with
  | zero => intro s; exact ⟨[], by rw [h0]; exact OpRan.ok_self (by simp) s⟩
  | succ k ih =>
    intro s; rw [hs]
    obtain ⟨_, h⟩ := hf s
    exact h.andThen fun t _ => ih t

theorem writeWords_opRan (order : ByteOrder) (b : List Byte) (k : Nat) (s : State) :
    ∃ es, OpRan ioRegs ioEnds s (writeWords order b k s) es :=
  loop_opRan _ _ _ _ (putWord_opRan order b) (fun _ => rfl) (writeWords_succ order b) k s

theorem writeBytes_opRan (b : List Byte) (k : Nat) (s : State) :
    ∃ es, OpRan ioRegs ioEnds s (writeBytes b k s) es :=
  loop_opRan _ _ _ _ (putByte_opRan b) (fun _ => rfl) (writeBytes_succ b) k s

theorem readWords_opRan (order : ByteOrder) (k : Nat) (s : State) :
    ∃ es, OpRan ioRegs ioEnds s (readWords order k s) es :=
  loop_opRan _ _ _ _ (getData_opRan .xferRead 6 7 5 _) (fun _ => rfl) (readWords_succ order) k s

theorem readBytes_opRan (k : Nat) (s : State) :
    ∃ es, OpRan ioRegs ioEnds s (readBytes k s) es :=
  loop_opRan _ _ _ _ (getData_opRan .xferRead 13 14 12 _) (fun _ => rfl) readBytes_succ k s

/-- XFER_WRITE (R112). -/
theorem xferWrite_opRan (order : ByteOrder) (b : List Byte) (s : State) :
    ∃ es, OpRan ioRegs ioEnds s (xferWrite order b s) es ∧ (xferWrite order b s).state.ops = s.ops := by
  obtain ⟨_, h⟩ := startTransfer_opRan .xferWrite (enterOp .xferWrite s)
  have g : ∃ es, OpRan ioRegs ioEnds (enterOp .xferWrite s)
      (xferWriteBody order b (enterOp .xferWrite s)) es := by
    refine h.andThen fun t _ => ?_
    obtain ⟨_, h⟩ := writeWords_opRan order b (b.length / 4) t
    refine h.andThen fun t _ => ?_
    obtain ⟨_, h⟩ := startPhaseB_opRan .xferWrite t
    refine h.andThen fun t _ => ?_
    obtain ⟨_, h⟩ := writeBytes_opRan b (b.length % 4) t
    exact ⟨_, h.return _ _⟩
  obtain ⟨es, g⟩ := g
  exact ⟨es, g.within, OpRan.within_ops (body := xferWriteBody order b) g⟩

theorem handBuffer_opRan (out : List Byte) (s : State) :
    OpRan ioRegs ioEnds s (.ok (handBuffer out s)) [] where
  ran := ran_handBuffer out s
  recorded := recorded_same rfl
  regs := by simp
  status := by simp
  seq := rfl
  ops := rfl
  buffers := rfl
  message := ⟨rfl, rfl, rfl⟩
  failed := by simp

/-- XFER_READ (R113). -/
theorem xferRead_opRan (order : ByteOrder) (n : Nat) (out : List Byte) (s : State) :
    ∃ es, OpRan ioRegs ioEnds s (xferRead order n out s) es ∧
      (xferRead order n out s).state.ops = s.ops := by
  obtain ⟨_, h⟩ := startTransfer_opRan .xferRead (handBuffer out (enterOp .xferRead s))
  have g : ∃ es, OpRan ioRegs ioEnds (handBuffer out (enterOp .xferRead s))
      (xferReadBody order n out (enterOp .xferRead s)) es := by
    refine h.andThen fun t _ => ?_
    obtain ⟨_, h⟩ := readWords_opRan order (n / 4) t
    refine h.andThen fun t _ => ?_
    obtain ⟨_, h⟩ := startPhaseB_opRan .xferRead t
    refine h.andThen fun t _ => ?_
    obtain ⟨_, h⟩ := readBytes_opRan (n % 4) t
    exact ⟨_, h.return _ _⟩
  obtain ⟨es, g⟩ := g
  have g := (handBuffer_opRan out (enterOp .xferRead s)).trans g
  exact ⟨_, g.within, OpRan.within_ops (body := xferReadBody order n out) g⟩

/-! ### The clock configurator -/

theorem ran_clampLines (s : State) : Ran s (clampLines s) [] := by
  unfold clampLines
  dsimp only
  split
  · exact ((ran_atLine _ _ _).line _ _).then_same (ran_setW _ _)
  · exact ran_atLine _ _ _

theorem clampLines_w (s : State) : (clampLines s).w = { s.w with rate := clampRate s.w.rate } := by
  unfold clampLines clampRate
  by_cases h : s.w.rate < Config.divMin
  · rw [if_pos h]; dsimp only; rw [if_pos (by exact h)]; rfl
  · rw [if_neg h]; dsimp only; rw [if_neg (by exact h)]; rfl

/-- The fields the clamp leaves alone, but for the position in NEGOTIATE. -/
theorem clampLines_kept (s : State) : { clampLines s with
    seqLog := s.seqLog, ops := s.ops, w := s.w } = s ∧ (clampLines s).ops.tail = s.ops.tail ∧
    ∃ ms, (clampLines s).seqLog = s.seqLog ++ ms ∧ entriesOf ms = [] := by
  unfold clampLines
  dsimp only
  split
  · exact ⟨rfl, rfl, _, by simp; rfl, rfl⟩
  · exact ⟨rfl, rfl, _, by simp; rfl, rfl⟩

theorem programDivider_ran (hz : Nat) (s : State) : Ran s (programDivider hz s).state
    [.rd .cfg (s.answerAt 0),
      .wr .cfg (cfgWord (s.answerAt 0) (codeOf (clampRate s.w.rate)))] := by
  have ha : (clampLines s).answerAt 0 = s.answerAt 0 := (ran_clampLines s).answerAt 0
  have hw : (clampLines s).w.rate = clampRate s.w.rate := by rw [clampLines_w]
  have h : Ran (clampLines s) (programDivider hz s).state
      [.rd .cfg ((clampLines s).answerAt 0),
        .wr .cfg (cfgWord ((clampLines s).answerAt 0) (codeOf (clampLines s).w.rate))] :=
    (((((((((ran_atLine .negotiate 8 _).trans (ran_setW _ _)).line .negotiate 9).trans
      (ran_regRead .cfg _)).trans (ran_setW _ _)).line .negotiate 10).trans
      (ran_regWrite .cfg _ _)).line .negotiate 11).then_same (ran_recordSpeed hz _)).line
      .negotiate 12
  rw [ha, hw] at h
  exact (ran_clampLines s).trans h

/-- A part of NEGOTIATE that ended without an access (R100, R135). -/
theorem negotiateFail {s : State} {n : Nat} (h : OpRan [.cfg] [.ok, .invalidSpeed] s (.ok s) []) :
    OpRan [.cfg] [.ok, .invalidSpeed] s (raiseAt .negotiate n .invalidSpeed s) [] where
  ran := ran_atLine .negotiate n s
  recorded := (h.line .negotiate n).recorded
  regs := by simp
  status := by simp
  seq := rfl
  ops := rfl
  buffers := rfl
  message := ⟨rfl, rfl, rfl⟩
  failed := by simp

/-- The lines of NEGOTIATE after its range test (R100). -/
theorem programDivider_opRan (hz : Nat) (s : State) :
    ∃ es, OpRan [.cfg] [.ok, .invalidSpeed] s (programDivider hz s) es := by
  obtain ⟨hk, ho, ms, hm, he⟩ := clampLines_kept s
  have hw := clampLines_w s
  generalize hc : clampLines s = c at hk ho hm hw
  have hl : ∃ ms', (programDivider hz s).state.seqLog = c.seqLog ++ ms' ∧ entriesOf ms' = [] :=
    ⟨_, by simp [programDivider, hc]; rfl, rfl⟩
  obtain ⟨ms', hm', he'⟩ := hl
  refine ⟨_, programDivider_ran hz s, recorded_free (ms := ms ++ ms') (by rw [hm', hm]; simp)
    (by rw [entriesOf_append, he, he']; rfl) ?_, ?_, ?_, ?_, ?_, ?_, ?_, ?_⟩
  · simp [Event.needsWait]
  · simp [Event.reg]
  · simp [programDivider]
  · simp only [programDivider, returnAt_eq, Res.state_ok, hc]; simp; rw [← hk]
  · simp only [programDivider, returnAt_eq, Res.state_ok, hc]; simpa using ho
  · simp only [programDivider, returnAt_eq, Res.state_ok, hc]; simp; rw [← hk]
  · simp only [programDivider, returnAt_eq, Res.state_ok, hc]; simp [hw]
  · simp [programDivider]

/-- NEGOTIATE: one read and one write of CFG, or an InvalidSpeed without any (R100, R135). -/
theorem negotiate_opRan (hz : Nat) (s : State) :
    ∃ es, OpRan [.cfg] [.ok, .invalidSpeed] s (negotiate hz s) es ∧
      (negotiate hz s).state.ops = s.ops := by
  have hbody : ∀ s : State, ∃ es, OpRan [.cfg] [.ok, .invalidSpeed] s (negotiateBody hz s) es := by
    intro s
    unfold negotiateBody
    dsimp only
    split
    · exact ⟨[], (negotiateFail (OpRan.ok_self (by simp) _)).after_line (by simp)⟩
    · have hset : ∀ (t : State) (r : Nat), OpRan [.cfg] [.ok, .invalidSpeed] t
          (.ok (t.setW { t.w with rate := r })) [] := fun t r =>
        { ran := ran_setW t _, recorded := recorded_same rfl, regs := by simp, status := by simp
          seq := rfl, ops := rfl, buffers := rfl, message := ⟨rfl, rfl, rfl⟩, failed := by simp }
      have h4 := (((opRan_line (R := [.cfg]) (E := [.ok, .invalidSpeed]) (by simp) .negotiate 1
        s).line .negotiate 3).trans (hset _ (ceilDiv Config.refHz hz))).line .negotiate 4
      split
      · exact ⟨_, h4.trans (negotiateFail (OpRan.ok_self (by simp) _))⟩
      · obtain ⟨es, h⟩ := programDivider_opRan hz (atLine .negotiate 4
          ((atLine .negotiate 3 (atLine .negotiate 1 s)).setW
            { (atLine .negotiate 3 (atLine .negotiate 1 s)).w with
              rate := ceilDiv Config.refHz hz }))
        exact ⟨_, h4.trans h⟩
  obtain ⟨es, h⟩ := hbody (enterOp .negotiate s)
  exact ⟨es, OpRan.within (body := negotiateBody hz) h, OpRan.within_ops (body := negotiateBody hz) h⟩

/-! ### An operation that raises does not raise Ok -/

/-- The end is a success, or an error that is one (R13). -/
def Res.clean : Res → Prop
  | .ok _ => True
  | .raise e _ => e ≠ .ok

theorem Res.clean_andThen {r : Res} {g : State → Res} (h : r.clean) (hg : ∀ t, (g t).clean) :
    (r.andThen g).clean := by
  cases r with
  | ok t => exact hg t
  | raise e t => exact h

theorem Res.clean_mapState {r : Res} {f : State → State} (h : r.clean) : (r.mapState f).clean := by
  cases r <;> exact h

theorem clean_within {o : OpName} {body : State → Res} {s : State} (h : ∀ t, (body t).clean) :
    (within o body s).clean := Res.clean_mapState (h _)

theorem waitReady_clean (s : State) : (waitReady s).clean := by
  rcases waitReady_cases s with ⟨k, -, -, -, he⟩ | ⟨-, he⟩ <;> rw [he] <;> simp [Res.clean]

theorem Res.clean_return {r : Res} {o : OpName} {n : Nat} (h : r.clean) :
    (r.andThen fun t => returnAt o n t).clean := Res.clean_andThen h fun _ => trivial

theorem deselect_clean (s : State) : (deselect s).clean :=
  clean_within fun _ => Res.clean_andThen (waitReady_clean _) fun _ =>
    Res.clean_andThen (waitReady_clean _) fun _ => Res.clean_return (waitReady_clean _)

theorem select_clean (slot : Nat) (s : State) : (select slot s).clean :=
  clean_within fun _ => Res.clean_andThen (deselect_clean _) fun _ =>
    Res.clean_return (waitReady_clean _)

theorem startTransfer_clean (o : OpName) (s : State) : (startTransfer o s).clean :=
  Res.clean_andThen (waitReady_clean _) fun _ => trivial

theorem startPhaseB_clean (o : OpName) (s : State) : (startPhaseB o s).clean :=
  Res.clean_andThen (waitReady_clean _) fun _ => trivial

theorem writeWords_clean (order : ByteOrder) (b : List Byte) (k : Nat) :
    ∀ s, (writeWords order b k s).clean := by
  induction k with
  | zero => exact fun _ => trivial
  | succ k ih => exact fun s => Res.clean_andThen (waitReady_clean _) fun _ => ih _

theorem writeBytes_clean (b : List Byte) (k : Nat) : ∀ s, (writeBytes b k s).clean := by
  induction k with
  | zero => exact fun _ => trivial
  | succ k ih => exact fun s => Res.clean_andThen (waitReady_clean _) fun _ => ih _

theorem readWords_clean (order : ByteOrder) (k : Nat) : ∀ s, (readWords order k s).clean := by
  induction k with
  | zero => exact fun _ => trivial
  | succ k ih => exact fun s => Res.clean_andThen (waitReady_clean _) fun _ => ih _

theorem readBytes_clean (k : Nat) : ∀ s, (readBytes k s).clean := by
  induction k with
  | zero => exact fun _ => trivial
  | succ k ih => exact fun s => Res.clean_andThen (waitReady_clean _) fun _ => ih _

theorem xferWrite_clean (order : ByteOrder) (b : List Byte) (s : State) :
    (xferWrite order b s).clean :=
  clean_within fun _ => Res.clean_andThen (startTransfer_clean _ _) fun _ =>
    Res.clean_andThen (writeWords_clean _ _ _ _) fun _ =>
      Res.clean_andThen (startPhaseB_clean _ _) fun _ => Res.clean_return (writeBytes_clean _ _ _)

theorem xferRead_clean (order : ByteOrder) (n : Nat) (out : List Byte) (s : State) :
    (xferRead order n out s).clean :=
  clean_within fun _ => Res.clean_andThen (startTransfer_clean _ _) fun _ =>
    Res.clean_andThen (readWords_clean _ _ _) fun _ =>
      Res.clean_andThen (startPhaseB_clean _ _) fun _ => Res.clean_return (readBytes_clean _ _)

theorem negotiate_clean (hz : Nat) (s : State) : (negotiate hz s).clean := by
  refine clean_within fun t => ?_
  unfold negotiateBody
  dsimp only
  split
  · simp [Res.clean]
  · split
    · simp [Res.clean]
    · trivial

theorem Res.raised {r : Res} {u : State} {x e : Status} (h : r = .raise x u) (hc : r.clean)
    (hs : r.status ∈ [.ok, e]) : x = e := by
  subst h
  rcases List.mem_cons.mp hs with h | h
  · exact absurd h hc
  · exact List.mem_singleton.mp h

end Sys2Proof.Machine
end

