-- ==== Sys2Proof/Laws/Call.lean ====
section
/-! SUPPORT. What a call is, said once: `exec` admits or refuses, and an admitted call leaves its
`effect`. Later proofs cite `exec_eq` and `exec_next_iff` and do not unfold the meanings. -/

namespace Sys2Proof.Machine

/-- The state an admitted call leaves. -/
def effect (i : Instr) (s : State) : State :=
  match i with
  | .rdCfg => readCall .cfg s
  | .wrCfg v => writeCall .cfg v s
  | .rdCfg2 => readCall .cfg2 s
  | .wrCfg2 v => writeCall .cfg2 v s
  | .rdCs => readCall .cs s
  | .wrCs v => writeCall .cs v s
  | .rdData => readCall .data s
  | .wrData v => writeCall .data v s
  | .rdData2 => readCall .data2 s
  | .wrData2 v => writeCall .data2 v s
  | .waitReady => reportRes (waitReady s) (fun _ => .none)
  | .negotiate hz => reportRes (negotiate hz s) (fun _ => .none)
  | .setup hz => reportRes (setup hz s) (fun _ => setupAnswer hz)
  | .deselect => reportRes (deselect s) (fun _ => .none)
  | .select slot => reportRes (select slot s) (fun _ => .none)
  | .xferWrite b => reportRes (xferWrite Config.hostByteOrder b s) (fun _ => .none)
  | .xferRead n out =>
    reportRes (xferRead Config.hostByteOrder n out s) (fun t => .bytes t.filled t.out)
  | .transfer m => transferCall Config.hostByteOrder m s
  | .maxXferSize => reportRes (maxXferSize s) (fun _ => .size Config.maxXfer)
  | .csDeselBoth => writeCall .cs wordDeselBoth s
  | .csAssertBoth => writeCall .cs wordAssertBoth s
  | .csSel0 => writeCall .cs wordSel0 s
  | .csSel1 => writeCall .cs wordSel1 s
  | .csLen4 hi lo => writeCall .cs (csWord hi 3#2 lo) s
  | .csLen1 hi lo => writeCall .cs (csWord hi 0#2 lo) s
  | .cfgDiv code rest => writeCall .cfg (cfgFieldsWord code rest) s
  | .dataByte b => writeCall .data (byteWord b) s
  | .dataWord b0 b1 b2 b3 => writeCall .data (pack32 Config.hostByteOrder b0 b1 b2 b3) s

theorem exec_eq (i : Instr) (s : State) : exec i s = acceptCall i.illegal s (effect i s) := by
  cases i <;> rfl

/-- A call runs exactly where the block accepts and the arguments are legal. -/
theorem acceptCall_next_iff {e : Option Illegal} {s t u : State} :
    acceptCall e s t = .next u ↔ Accepting s ∧ e = none ∧ u = t := by
  unfold acceptCall Accepting
  split
  · simp [*]
  · split
    · rename_i h; simp; intro _ h1 h2; simp [h1, h2] at h
    · rename_i h1 h2
      have h2 : s.seq = .idle ∧ s.ops = [] := by simpa using h2
      cases e
      · simp [h1, h2]; exact eq_comm
      · simp

theorem exec_next_iff {i : Instr} {s t : State} :
    exec i s = .next t ↔ Accepting s ∧ i.illegal = none ∧ t = effect i s := by
  rw [exec_eq, acceptCall_next_iff]

theorem wf_iff {i : Instr} : i.wf = true ↔ i.illegal = none := by
  simp [Instr.wf, Option.isNone_iff_eq_none]

/-- A legal call that is accepted completes. -/
theorem exec_next {i : Instr} {s : State} (hw : i.illegal = none) (hs : Accepting s) :
    exec i s = .next (effect i s) := exec_next_iff.mpr ⟨hs, hw, rfl⟩

theorem acceptCall_noHandle {e : Option Illegal} {s t : State} (h : s.handle = none) :
    acceptCall e s t = .refused .noHandle := by simp [acceptCall, h]

theorem acceptCall_inFlight {e : Option Illegal} {s t : State} (h : s.handle ≠ none)
    (hf : s.seq ≠ .idle ∨ s.ops ≠ []) : acceptCall e s t = .refused .callInFlight := by
  simp only [acceptCall, h, if_false, if_pos hf]

theorem acceptCall_illegal {e : Illegal} {s t : State} (h : Accepting s) :
    acceptCall (some e) s t = .refused (.illegalArgument e) := by
  simp [acceptCall, h.1, h.2.1, h.2.2]

/-- A step that completes waited, or ran the oldest pending call, made by the one it is open to, in a
state that accepts it. -/
theorem step_next_iff {s t : State} :
    step s = .next t ↔ (s.calls = [] ∧ t = s) ∨
      ∃ c rest i, s.calls = c :: rest ∧ decode c.request = .ok i ∧ c.invoker = invokerOf i ∧
        Accepting s ∧ i.illegal = none ∧ t = effect i { s with calls := rest } := by
  unfold step fetchCall
  cases hc : s.calls with
  | nil => simp [eq_comm]
  | cons c rest =>
    cases hd : decode c.request with
    | reject e => simp [hd]
    | ok i =>
      by_cases hi : c.invoker = invokerOf i
      · simp [hd, hi, exec_next_iff, Accepting]
      · simp [hd, hi]

/-- A table word, made the next call, decodes as `decodeTableWord` says and is made by the one it is open
to. -/
theorem tableCall_ok {nbits w : Nat} {i : Instr} (h : decodeTableWord nbits w = some i) :
    decode (tableCall nbits w).request = .ok i ∧ (tableCall nbits w).invoker = invokerOf i := by
  unfold decodeTableWord at h
  unfold tableCall
  split at h
  · rename_i j hd; cases h; simp [hd]
  · cases h

end Sys2Proof.Machine
end

