-- ==== Sys2Proof/Laws/Engine.lean ====
section
/-! SUPPORT. What the data engine sends, receives and leaves alone, said once, for any device (R112 to
R118): `xferWrite_sends` and `xferRead_fills`. -/

namespace Sys2Proof.Machine

theorem Ran.unique {s t : State} {a b : List Event} (h : Ran s t a) (g : Ran s t b) : a = b := by
  rw [← h.newEvents, g.newEvents]

@[simp] theorem writesTo_polls (r : Reg) (s : State) (k : Nat) : writesTo r (polls s k) = [] := by
  rw [polls_eq]
  generalize (List.range k).map s.answerAt = vs
  induction vs with
  | nil => rfl
  | cons v vs ih => simpa [writesTo] using ih

@[simp] theorem readsFrom_data_polls (s : State) (k : Nat) : readsFrom .data (polls s k) = [] := by
  rw [polls_eq]
  generalize (List.range k).map s.answerAt = vs
  induction vs with
  | nil => rfl
  | cons v vs ih => simpa [readsFrom] using ih

/-- A part of the engine's run: an operation that keeps the handle and the working registers that
are not the engine's. -/
structure Moved (s : State) (r : Res) (es : List Event) : Prop where
  op : OpRan ioRegs ioEnds s r es
  handle : r.state.handle = s.handle
  w : r.state.w =
    { s.w with
      poll := r.state.w.poll, cs := r.state.w.cs, i := r.state.w.i, word := r.state.w.word }

theorem Moved.trans {s t : State} {r : Res} {a b : List Event} (h : Moved s (.ok t) a)
    (g : Moved t r b) : Moved s r (a ++ b) where
  op := h.op.trans g.op
  handle := g.handle.trans h.handle
  w := by
    have h1 : t.w = _ := h.w
    have h2 := g.w
    rw [h1] at h2; exact h2

theorem Moved.ok_self (s : State) : Moved s (.ok s) [] := ⟨.ok_self (by simp) s, rfl, rfl⟩

/-- What one wait, called at line `n` of `o`, and the access after it do, for the engine's units
(R153). -/
theorem unit_cases {o : OpName} {n : Nat} {s : State} {f : State → State} {e : State → Event}
    (h : ∃ es, OpRan ioRegs ioEnds s ((waitAt o n s).andThen fun t => .ok (f t)) es)
    (hran : ∀ t, Ran t (f t) [e t]) (hh : ∀ t, (f t).handle = t.handle)
    (hw : ∀ t, (f t).w = { t.w with
      poll := (f t).w.poll, cs := (f t).w.cs, i := (f t).w.i, word := (f t).w.word }) :
    (∃ k, (waitAt o n s).andThen (fun t => .ok (f t)) = .ok (f ((atLine o n s).polled (k + 1))) ∧
      Moved s (.ok (f ((atLine o n s).polled (k + 1))))
        (polls s (k + 1) ++ [e ((atLine o n s).polled (k + 1))])) ∨
    ∃ k, (waitAt o n s).andThen (fun t => .ok (f t)) = .raise .timedOut ((atLine o n s).polled k) ∧
      Moved s (.raise .timedOut ((atLine o n s).polled k)) (polls s k) := by
  obtain ⟨es, hes⟩ := h
  have hw' : waitAt o n s = waitReady (atLine o n s) := rfl
  rw [hw'] at hes ⊢
  obtain ⟨k, he⟩ | ⟨k, he⟩ : (∃ k, waitReady (atLine o n s) = .ok ((atLine o n s).polled (k + 1))) ∨
      ∃ k, waitReady (atLine o n s) = .raise .timedOut ((atLine o n s).polled k) := by
    rcases waitReady_cases (atLine o n s) with ⟨k, -, -, -, he⟩ | ⟨-, he⟩
    · exact .inl ⟨k, he⟩
    · exact .inr ⟨_, he⟩
  · refine .inl ⟨k, by rw [he]; rfl, ?_⟩
    rw [he, Res.andThen_ok] at hes
    have := hes.ran.unique ((ran_polled (atLine o n s) (k + 1)).trans (hran _)).after_line
    subst this
    exact ⟨hes, hh _, hw ((atLine o n s).polled (k + 1))⟩
  · refine .inr ⟨_, by rw [he]; rfl, ?_⟩
    rw [he, Res.andThen_raise] at hes
    have := hes.ran.unique (ran_polled (atLine o n s) _).after_line
    subst this
    exact ⟨hes, rfl, rfl⟩

theorem Moved.return {s : State} {r : Res} {es : List Event} (h : Moved s r es) (o : OpName)
    (n : Nat) : Moved s (r.andThen fun t => returnAt o n t) es := by
  cases r with
  | raise e t => exact h
  | ok t => exact ⟨h.op.line o n, h.handle, h.w⟩

theorem Moved.after_line {o : OpName} {n : Nat} {s : State} {r : Res} {es : List Event}
    (h : Moved (atLine o n s) r es) : Moved s r es := ⟨h.op.after_line (by simp), h.handle, h.w⟩

/-! ### Sending -/

/-- What a loop of the engine's write path did: it sent the words `f i` for the first `j` places from
`s.w.i` on, `m` bytes each. -/
structure Sent (m : Nat) (f : Nat → Word) (k : Nat) (s : State) (r : Res) (es : List Event)
    (j : Nat) : Prop where
  moved : Moved s r es
  le : j ≤ k
  all : r.status = .ok → j = k
  data : writesTo .data es = (List.range j).map fun q => f (s.w.i + m * q)
  read : readsFrom .data es = []
  cs : writesTo .cs es = []
  i : r.state.w.i = s.w.i + m * j
  wcs : r.state.w.cs = s.w.cs
  out : r.state.out = s.out ∧ r.state.filled = s.filled

/-- A loop of waits, each followed by a DATA write (R112). -/
theorem sendLoop {o : OpName} {n m : Nat} {f : Nat → Word} {step : State → State}
    {loop : Nat → State → Res}
    (hop : ∀ s, ∃ es, OpRan ioRegs ioEnds s ((waitAt o n s).andThen fun t => .ok (step t)) es)
    (hran : ∀ t, Ran t (step t) [.wr .data (f t.w.i)]) (hh : ∀ t, (step t).handle = t.handle)
    (hw : ∀ t, (step t).w = { t.w with i := t.w.i + m, word := (step t).w.word })
    (hout : ∀ t, (step t).out = t.out ∧ (step t).filled = t.filled)
    (h0 : ∀ s, loop 0 s = .ok s)
    (hs : ∀ k s, loop (k + 1) s =
      ((waitAt o n s).andThen fun t => .ok (step t)).andThen (loop k)) :
    ∀ k s, ∃ es j, Sent m f k s (loop k s) es j := by
  intro k
  induction k with
  | zero =>
    intro s; rw [h0]
    exact ⟨[], 0, Moved.ok_self s, Nat.le_refl _, fun _ => rfl, rfl, rfl, rfl, rfl, rfl, rfl, rfl⟩
  | succ k ih =>
    intro s; rw [hs]
    rcases unit_cases (hop s) hran hh (fun t => by rw [hw t]) with ⟨p, he, hm⟩ | ⟨p, he, hm⟩
    · rw [he, Res.andThen_ok]
      have hi : (step ((atLine o n s).polled (p + 1))).w.i = s.w.i + m := by rw [hw]; rfl
      have hc : (step ((atLine o n s).polled (p + 1))).w.cs = s.w.cs := by rw [hw]; rfl
      obtain ⟨es, j, h⟩ := ih (step ((atLine o n s).polled (p + 1)))
      refine ⟨_, j + 1, hm.trans h.moved, Nat.succ_le_succ h.le, fun hk => by rw [h.all hk], ?_, ?_, ?_, ?_, ?_, ?_⟩
      · rw [writesTo_append, writesTo_append, h.data, writesTo_polls, hi,
          List.range_succ_eq_map]
        simp [writesTo, State.polled, Function.comp_def, Nat.mul_add, Nat.add_assoc,
          Nat.add_comm m]
      · rw [readsFrom_append, readsFrom_append, h.read, readsFrom_data_polls]; simp [readsFrom]
      · rw [writesTo_append, writesTo_append, h.cs, writesTo_polls]; simp [writesTo]
      · rw [h.i, hi, Nat.mul_add, Nat.mul_one]; omega
      · rw [h.wcs, hc]
      · exact ⟨h.out.1.trans (hout _).1, h.out.2.trans (hout _).2⟩
    · rw [he, Res.andThen_raise]
      exact ⟨_, 0, hm, Nat.zero_le _, fun h => by simp [Res.status] at h, by simp, by simp, by simp,
        rfl, rfl, rfl, rfl⟩

theorem writeWords_sent (order : ByteOrder) (b : List Byte) (k : Nat) (s : State) :
    ∃ es j, Sent 4 (fun i => pack32 order (byteAt b i) (byteAt b (i + 1)) (byteAt b (i + 2))
      (byteAt b (i + 3))) k s (writeWords order b k s) es j :=
  sendLoop (putWord_opRan order b) (ran_putWord order b) (by simp [putWord]) (by simp [putWord])
    (by simp [putWord]) (fun _ => rfl) (writeWords_succ order b) k s

theorem writeBytes_sent (b : List Byte) (k : Nat) (s : State) :
    ∃ es j, Sent 1 (fun i => byteWord (byteAt b i)) k s (writeBytes b k s) es j :=
  sendLoop (putByte_opRan b) (ran_putByte b) (by simp [putByte]) (by simp [putByte])
    (by simp [putByte]) (fun _ => rfl) (writeBytes_succ b) k s

/-! ### Receiving -/

theorem length_putBytes (bs : List Byte) : ∀ (out : List Byte) (i : Nat),
    (putBytes out i bs).length = out.length := by
  induction bs with
  | nil => exact fun _ _ => rfl
  | cons b bs ih => intro out i; simp [putBytes, ih]

theorem putBytes_append (as bs : List Byte) : ∀ (out : List Byte) (i : Nat),
    putBytes out i (as ++ bs) = putBytes (putBytes out i as) (i + as.length) bs := by
  induction as with
  | nil => exact fun _ _ => rfl
  | cons a as ih =>
    intro out i
    simp only [List.cons_append, putBytes, ih, List.length_cons]; congr 1; omega

/-- Received bytes stand from index `i` on; the rest is as it was (R118). -/
theorem putBytes_eq (bs : List Byte) : ∀ (out : List Byte) (i : Nat), i + bs.length ≤ out.length →
    putBytes out i bs = out.take i ++ bs ++ out.drop (i + bs.length) := by
  induction bs with
  | nil => intro out i _; simp [putBytes]
  | cons b bs ih =>
    intro out i h
    simp only [List.length_cons] at h
    have hi : i < out.length := by omega
    rw [putBytes, ih _ _ (by simpa using by omega), List.take_add_one, List.take_set_of_le (Nat.le_refl _),
      List.drop_set_of_lt (by omega)]
    simp [hi, Nat.add_assoc, Nat.add_comm 1]

/-- What a loop of the engine's read path did: it received the words `words`, each of `m` bytes, and
wrote their bytes from index `s.w.i` on. -/
structure Received (m : Nat) (bytes : Word → List Byte) (k : Nat) (s : State) (r : Res)
    (es : List Event) (words : List Word) : Prop where
  moved : Moved s r es
  le : words.length ≤ k
  all : r.status = .ok → words.length = k
  data : readsFrom .data es = words
  cs : writesTo .cs es = []
  wrote : writesTo .data es = []
  i : r.state.w.i = s.w.i + m * words.length
  wcs : r.state.w.cs = s.w.cs
  out : r.state.out = putBytes s.out s.w.i (words.flatMap bytes)
  filled : r.state.filled = if words = [] then s.filled else r.state.w.i

/-- A loop of waits, each followed by a DATA read (R113). -/
theorem receiveLoop {o : OpName} {n a c m : Nat} {bytes : Word → List Byte}
    {loop : Nat → State → Res}
    (hm : ∀ w, (bytes w).length = m) (h0 : ∀ s, loop 0 s = .ok s)
    (hs : ∀ k s, loop (k + 1) s =
      ((waitAt o n s).andThen fun t => .ok (getData a c bytes t)).andThen (loop k)) :
    ∀ k s, ∃ es words, Received m bytes k s (loop k s) es words := by
  intro k
  induction k with
  | zero =>
    intro s; rw [h0]
    exact ⟨[], [], Moved.ok_self s, Nat.le_refl _, fun _ => rfl, rfl, rfl, rfl, rfl, rfl, rfl, rfl⟩
  | succ k ih =>
    intro s; rw [hs]
    rcases unit_cases (getData_opRan o n a c bytes s) (ran_getData a c bytes) (by simp [getData])
      (by simp [getData]) with ⟨p, he, hmv⟩ | ⟨p, he, hmv⟩
    · rw [he, Res.andThen_ok]
      generalize hw : ((atLine o n s).polled (p + 1)).answerAt 0 = w at hmv
      have hi : (getData a c bytes ((atLine o n s).polled (p + 1))).w.i = s.w.i + m := by
        simp [getData, hm, State.polled]
      have hc : (getData a c bytes ((atLine o n s).polled (p + 1))).w.cs = s.w.cs := by simp [getData, State.polled]
      have ho : (getData a c bytes ((atLine o n s).polled (p + 1))).out = putBytes s.out s.w.i (bytes w) := by
        rw [← hw]; rfl
      have hf : (getData a c bytes ((atLine o n s).polled (p + 1))).filled = s.w.i + m := by
        rw [← hm w, ← hw]; rfl
      obtain ⟨es, words, h⟩ := ih (getData a c bytes ((atLine o n s).polled (p + 1)))
      refine ⟨_, w :: words, hmv.trans h.moved, Nat.succ_le_succ h.le,
        fun hk => by rw [List.length_cons, h.all hk], ?_, ?_, ?_, ?_, ?_, ?_, ?_⟩
      · rw [readsFrom_append, readsFrom_append, h.data, readsFrom_data_polls]; simp [readsFrom]
      · rw [writesTo_append, writesTo_append, h.cs, writesTo_polls]; simp [writesTo]
      · rw [writesTo_append, writesTo_append, h.wrote, writesTo_polls]; simp [writesTo]
      · rw [h.i, hi, List.length_cons, Nat.mul_add, Nat.mul_one]; omega
      · rw [h.wcs, hc]
      · rw [h.out, ho, hi, List.flatMap_cons, putBytes_append, hm]
      · rw [h.filled, hf]
        by_cases hn : words = []
        · subst hn; simp [h.i, hi]
        · simp [hn]
    · rw [he, Res.andThen_raise]
      exact ⟨_, [], hmv, Nat.zero_le _, fun h => by simp [Res.status] at h, by simp, by simp,
        by simp, rfl, rfl, rfl, rfl⟩

theorem readWords_received (order : ByteOrder) (k : Nat) (s : State) :
    ∃ es words, Received 4 (unpack32 order) k s (readWords order k s) es words :=
  receiveLoop (length_unpack32 order) (fun _ => rfl) (readWords_succ order) k s

theorem readBytes_received (k : Nat) (s : State) :
    ∃ es words, Received 1 (fun w => [wordByte w]) k s (readBytes k s) es words :=
  receiveLoop (m := 1) (bytes := fun w => [wordByte w]) (fun _ => rfl) (fun _ => rfl)
    readBytes_succ k s

/-! ### The start of a transfer and of Phase B -/

theorem tookCs_moved (o : OpName) (s : State) :
    Moved s (.ok (tookCs o s)) [.rd .cs (s.answerAt 0)] where
  op := tookCs_opRan o s
  handle := by simp [tookCs]
  w := by simp [tookCs]

/-- The start of a transfer: it reads CS, and then writes the LEN4 word over the value read, or times
out before. -/
theorem startTransfer_cases (o : OpName) (s : State) :
    (∃ t es, startTransfer o s = .ok t ∧ Moved s (.ok t) es ∧
      es.head? = some (.rd .cs (s.answerAt 0)) ∧ writesTo .data es = [] ∧
      readsFrom .data es = [] ∧ writesTo .cs es = [s.answerAt 0 ||| lenMask] ∧ t.w.i = 0 ∧
      t.w.cs = s.answerAt 0 &&& ~~~lenMask ∧ t.out = s.out ∧ t.filled = s.filled) ∨
    ∃ t es, startTransfer o s = .raise .timedOut t ∧ Moved s (.raise .timedOut t) es ∧
      es.head? = some (.rd .cs (s.answerAt 0)) ∧
      writesTo .data es = [] ∧ readsFrom .data es = [] ∧ writesTo .cs es = [] ∧
      t.out = s.out ∧ t.filled = s.filled := by
  rw [startTransfer_eq]
  have hor : ∀ r : Word, (r &&& ~~~lenMask) ||| lenMask = r ||| lenMask := by
    intro r; ext i; simp only [BitVec.getElem_or, BitVec.getElem_and, BitVec.getElem_not]
    cases r[i] <;> cases lenMask[i] <;> rfl
  rcases unit_cases (putLen4_opRan o (tookCs o s)) (ran_putLen4 o) (by simp [putLen4])
    (by simp [putLen4]) with ⟨p, he, hm⟩ | ⟨p, he, hm⟩
  · have hm := (tookCs_moved o s).trans hm
    refine .inl ⟨_, _, he, hm, by simp, by simp [writesTo], by simp [readsFrom], ?_, ?_, ?_, ?_, ?_⟩
    · simp only [writesTo_append, writesTo_polls]
      simp [writesTo, State.polled, tookCs, len4Word, len1Word, hor]
    · simp [putLen4]
    · simp [putLen4, State.polled, tookCs, len1Word]
    · simp [putLen4, State.polled, tookCs]
    · simp [putLen4, State.polled, tookCs]
  · have hm := (tookCs_moved o s).trans hm
    refine .inr ⟨_, _, he, hm, by simp, by simp [writesTo], by simp [readsFrom], by simp [writesTo],
      ?_, ?_⟩
    · simp [State.polled, tookCs]
    · simp [State.polled, tookCs]

/-- The start of Phase B: it writes the LEN1 word, or times out before. -/
theorem startPhaseB_cases (o : OpName) (s : State) :
    (∃ t es, startPhaseB o s = .ok t ∧ Moved s (.ok t) es ∧ writesTo .data es = [] ∧
      readsFrom .data es = [] ∧ writesTo .cs es = [s.w.cs] ∧ t.w.i = s.w.i ∧
      t.w.cs = s.w.cs ∧ t.out = s.out ∧ t.filled = s.filled) ∨
    ∃ t es, startPhaseB o s = .raise .timedOut t ∧ Moved s (.raise .timedOut t) es ∧
      writesTo .data es = [] ∧ readsFrom .data es = [] ∧ writesTo .cs es = [] ∧ t.w.i = s.w.i ∧
      t.out = s.out ∧ t.filled = s.filled := by
  rw [startPhaseB_eq]
  rcases unit_cases (o := o) (n := 10) (f := putLen1 o) (startPhaseB_opRan o s) (ran_putLen1 o)
    (fun _ => rfl) (fun _ => rfl) with ⟨p, he, hm⟩ | ⟨p, he, hm⟩
  · exact .inl ⟨_, _, he, hm, by simp [writesTo], by simp [readsFrom],
      by simp [writesTo, State.polled], rfl, rfl, rfl, rfl⟩
  · exact .inr ⟨_, _, he, hm, by simp, by simp, by simp, rfl, rfl, rfl⟩

theorem Moved.within {o : OpName} {body : State → Res} {s : State} {es : List Event}
    (h : Moved (enterOp o s) (body (enterOp o s)) es) : Moved s (within o body s) es where
  op := h.op.within
  handle := by simp only [Machine.within]; simpa using h.handle
  w := by simp only [Machine.within]; simpa using h.w

/-- What a write sends, on any device (R112, R117, R119). -/
structure WriteSent (order : ByteOrder) (b : List Byte) (s : State) (r : Res) (es : List Event) :
    Prop where
  moved : Moved s r es
  head : es.head? = some (.rd .cs (s.answerAt 0))
  data : writesTo .data es <+: phaseAWords order b ++ phaseBWords b
  read : readsFrom .data es = []
  cs : writesTo .cs es <+: [s.answerAt 0 ||| lenMask, s.answerAt 0 &&& ~~~lenMask]
  all : r.status = .ok → writesTo .data es = phaseAWords order b ++ phaseBWords b ∧
    (writesTo .cs es).length = 2 ∧ r.state.w.i = b.length
  out : r.state.out = s.out ∧ r.state.filled = s.filled

theorem prefix_map_range {α : Type} {j k : Nat} (f : Nat → α) (h : j ≤ k) :
    (List.range j).map f <+: (List.range k).map f := by
  obtain ⟨d, rfl⟩ := Nat.exists_eq_add_of_le h
  rw [List.range_add, List.map_append]; exact List.prefix_append _ _

theorem head_append {a : List Event} {e : Event} (h : a.head? = some e) (b : List Event) :
    (a ++ b).head? = some e := by rw [List.head?_append, h]; rfl

/-- The lines of XFER_WRITE before its return. -/
def xferWriteLines (order : ByteOrder) (b : List Byte) (s : State) : Res :=
  (startTransfer .xferWrite s).andThen fun s =>
  (writeWords order b (b.length / 4) s).andThen fun s =>
  (startPhaseB .xferWrite s).andThen fun s =>
  writeBytes b (b.length % 4) s

theorem xferWriteBody_eq (order : ByteOrder) (b : List Byte) (s : State) : xferWriteBody order b s =
    (xferWriteLines order b s).andThen fun t => returnAt .xferWrite 16 t := by
  simp only [xferWriteLines, Res.andThen_assoc]; rfl

theorem xferWriteLines_sends (order : ByteOrder) (b : List Byte) (s : State) :
    ∃ es, WriteSent order b s (xferWriteLines order b s) es := by
  unfold xferWriteLines
  rcases startTransfer_cases .xferWrite s with ⟨t1, a1, e1, m1, g1, d1, r1, c1, i1, w1, o1, f1⟩ |
    ⟨t1, a1, e1, m1, g1, d1, r1, c1, o1, f1⟩
  · rw [e1, Res.andThen_ok]
    obtain ⟨a2, j2, h2⟩ := writeWords_sent order b (b.length / 4) t1
    have hd2 : writesTo .data a2 = (List.range j2).map fun q => pack32 order (byteAt b (4 * q))
        (byteAt b (4 * q + 1)) (byteAt b (4 * q + 2)) (byteAt b (4 * q + 3)) := by
      rw [h2.data, i1]; simp
    cases e2 : writeWords order b (b.length / 4) t1 with
    | raise x u2 =>
      rw [e2] at h2
      have hx := Res.raised e2 (writeWords_clean _ _ _ _) (by rw [e2]; exact h2.moved.op.status)
      exact ⟨a1 ++ a2, m1.trans h2.moved, head_append g1 _,
        by rw [writesTo_append, d1, hd2]
           exact (prefix_map_range _ h2.le).trans (List.prefix_append _ _),
        by rw [readsFrom_append, r1, h2.read]; rfl,
        by rw [writesTo_append, c1, h2.cs]; exact ⟨_, rfl⟩,
        fun h => by subst hx; simp [Res.status] at h,
        h2.out.1.trans o1, h2.out.2.trans f1⟩
    | ok u2 =>
    rw [e2] at h2
    rw [Res.andThen_ok]
    have hj : j2 = b.length / 4 := h2.all rfl
    subst hj
    have hA : writesTo .data a2 = phaseAWords order b := hd2
    have i2 : u2.w.i = 4 * (b.length / 4) := by have := h2.i; rw [i1] at this; simpa using this
    have w2 : u2.w.cs = s.answerAt 0 &&& ~~~lenMask := h2.wcs.trans w1
    rcases startPhaseB_cases _ u2 with ⟨t3, a3, e3, m3, d3, r3, c3, i3, -, o3, f3⟩ |
      ⟨t3, a3, e3, m3, d3, r3, c3, -, o3, f3⟩
    · rw [e3, Res.andThen_ok]
      obtain ⟨a4, j4, h4⟩ := writeBytes_sent b (b.length % 4) t3
      have hd4 : writesTo .data a4 = (List.range j4).map fun q =>
          byteWord (byteAt b (4 * (b.length / 4) + q)) := by
        rw [h4.data, i3, i2]; simp
      refine ⟨((a1 ++ a2) ++ a3) ++ a4, ((m1.trans h2.moved).trans m3).trans h4.moved,
        head_append (head_append (head_append g1 _) _) _, ?_, ?_, ?_, ?_,
        ((h4.out.1.trans o3).trans h2.out.1).trans o1,
        ((h4.out.2.trans f3).trans h2.out.2).trans f1⟩
      · simp only [writesTo_append, d1, d3, hA, hd4, List.nil_append, List.append_nil]
        exact (List.prefix_append_right_inj _).mpr (prefix_map_range _ h4.le)
      · simp only [readsFrom_append, r1, h2.read, r3, h4.read, List.append_nil]
      · simp [c1, h2.cs, c3, h4.cs, w2]
      · intro hk
        have hj : j4 = b.length % 4 := h4.all hk
        subst hj
        refine ⟨?_, by simp [c1, h2.cs, c3, h4.cs], ?_⟩
        · simp only [writesTo_append, d1, d3, hA, hd4, List.nil_append, List.append_nil]; rfl
        · rw [h4.i, i3, i2, Nat.one_mul]; omega
    · rw [e3, Res.andThen_raise]
      exact ⟨(a1 ++ a2) ++ a3, (m1.trans h2.moved).trans m3, head_append (head_append g1 _) _,
        by simp only [writesTo_append, d1, d3, hA, List.nil_append, List.append_nil]
           exact List.prefix_append _ _,
        by simp only [readsFrom_append, r1, h2.read, r3, List.append_nil],
        by simp only [writesTo_append, c1, h2.cs, c3]; exact ⟨_, rfl⟩,
        fun h => by simp [Res.status] at h,
        (o3.trans h2.out.1).trans o1, (f3.trans h2.out.2).trans f1⟩
  · rw [e1, Res.andThen_raise]
    exact ⟨a1, m1, g1, by rw [d1]; exact List.nil_prefix, r1, by rw [c1]; exact List.nil_prefix,
      fun h => by simp [Res.status] at h, o1, f1⟩

/-- XFER_WRITE, for any device. -/
theorem xferWrite_sends (order : ByteOrder) (b : List Byte) (s : State) :
    ∃ es, WriteSent order b s (xferWrite order b s) es := by
  obtain ⟨es, h⟩ := xferWriteLines_sends order b (enterOp .xferWrite s)
  have hb := xferWriteBody_eq order b (enterOp .xferWrite s)
  refine ⟨es, Moved.within (body := xferWriteBody order b) (hb ▸ h.moved.return _ _), h.head, h.data,
    h.read, h.cs, fun hk => ?_, ?_⟩
  · have := h.all (by simpa [xferWrite, within, hb] using hk)
    exact ⟨this.1, this.2.1, by rw [← this.2.2]; simp [xferWrite, within, hb]⟩
  · simpa [xferWrite, within, hb] using h.out

/-- What a read leaves in its destination, on any device (R113, R117 to R119). -/
structure ReadFilled (order : ByteOrder) (n : Nat) (out : List Byte) (s : State) (r : Res)
    (es : List Event) : Prop where
  moved : Moved s r es
  head : es.head? = some (.rd .cs (s.answerAt 0))
  cs : writesTo .cs es <+: [s.answerAt 0 ||| lenMask, s.answerAt 0 &&& ~~~lenMask]
  wrote : writesTo .data es = []
  le : r.state.filled ≤ n
  all : r.status = .ok → r.state.filled = n ∧ (writesTo .cs es).length = 2 ∧ r.state.w.i = n
  length : (bytesOfWords order n (readsFrom .data es)).length = r.state.filled
  out : r.state.out = putBytes out 0 (bytesOfWords order n (readsFrom .data es))

theorem length_flatMap_const {α β : Type} {f : α → List β} {m : Nat} (h : ∀ a, (f a).length = m)
    (l : List α) : (l.flatMap f).length = m * l.length := by
  induction l with
  | nil => rfl
  | cons a l ih => simp [h, ih, Nat.mul_add]; omega

/-- The lines of XFER_READ before its return. -/
def xferReadLines (order : ByteOrder) (n : Nat) (out : List Byte) (s : State) : Res :=
  (startTransfer .xferRead (handBuffer out s)).andThen fun s =>
  (readWords order (n / 4) s).andThen fun s =>
  (startPhaseB .xferRead s).andThen fun s =>
  readBytes (n % 4) s

theorem xferReadBody_eq (order : ByteOrder) (n : Nat) (out : List Byte) (s : State) :
    xferReadBody order n out s =
      (xferReadLines order n out s).andThen fun t => returnAt .xferRead 17 t := by
  simp only [xferReadLines, Res.andThen_assoc]; rfl

theorem xferReadLines_fills (order : ByteOrder) (n : Nat) (out : List Byte) (s : State) :
    ∃ es, ReadFilled order n out s (xferReadLines order n out s) es := by
  unfold xferReadLines
  have m0 : Moved s (.ok (handBuffer out s)) [] := ⟨handBuffer_opRan out s, rfl, rfl⟩
  have hans : (handBuffer out s).answerAt 0 = s.answerAt 0 := rfl
  rcases startTransfer_cases .xferRead (handBuffer out s) with ⟨t1, a1, e1, m1, g1, d1, r1, c1, i1, w1, o1, f1⟩ |
    ⟨t1, a1, e1, m1, g1, d1, r1, c1, o1, f1⟩
  · rw [e1, Res.andThen_ok]
    rw [hans] at c1 w1
    have o1 : t1.out = out := o1
    have f1 : t1.filled = 0 := f1
    have g0 : ([] ++ a1).head? = some (.rd .cs (s.answerAt 0)) := g1
    obtain ⟨a2, ws, h2⟩ := readWords_received order (n / 4) t1
    have hout2 : (readWords order (n / 4) t1).state.out = putBytes out 0 (ws.flatMap (unpack32 order)) := by
      rw [h2.out, i1, o1]
    have hi2 : (readWords order (n / 4) t1).state.w.i = 4 * ws.length := by
      rw [h2.i, i1, Nat.zero_add]
    have hfil2 : (readWords order (n / 4) t1).state.filled = 4 * ws.length := by
      rw [h2.filled, hi2, f1]; split
      · next h => rw [h]; rfl
      · rfl
    have hle2 := h2.le
    have hbw : ∀ vs : List Word, ws.length = n / 4 → bytesOfWords order n (ws ++ vs) =
        ws.flatMap (unpack32 order) ++ vs.map wordByte := by
      intro vs h; unfold bytesOfWords; rw [← h, List.take_left, List.drop_left]
    have hb2 : bytesOfWords order n ws = ws.flatMap (unpack32 order) := by
      unfold bytesOfWords
      rw [List.take_of_length_le hle2, List.drop_eq_nil_of_le hle2]; simp
    have hl2 : (ws.flatMap (unpack32 order)).length = 4 * ws.length :=
      length_flatMap_const (length_unpack32 order) ws
    cases e2 : readWords order (n / 4) t1 with
    | raise x u2 =>
      rw [e2] at h2 hout2 hi2 hfil2
      have hx := Res.raised e2 (readWords_clean _ _ _) (by rw [e2]; exact h2.moved.op.status)
      have hr : readsFrom .data (([] ++ a1) ++ a2) = ws := by
        rw [readsFrom_append, readsFrom_append, r1, h2.data]; rfl
      refine ⟨([] ++ a1) ++ a2, (m0.trans m1).trans h2.moved, head_append g0 _, ?_, ?_, ?_, ?_, ?_, ?_⟩
      · simp only [List.nil_append, writesTo_append, c1, h2.cs]; exact ⟨_, rfl⟩
      · simp only [List.nil_append, writesTo_append, d1, h2.wrote]
      · rw [Res.andThen_raise, hfil2]; omega
      · intro h; subst hx; simp [Res.status] at h
      · rw [hr, hb2, hl2]; exact hfil2.symm
      · rw [hr, hb2]; exact hout2
    | ok u2 =>
    rw [e2] at h2 hout2 hi2 hfil2
    rw [Res.andThen_ok]
    have hj : ws.length = n / 4 := h2.all rfl
    have w2 : u2.w.cs = s.answerAt 0 &&& ~~~lenMask := h2.wcs.trans w1
    rcases startPhaseB_cases _ u2 with ⟨t3, a3, e3, m3, d3, r3, c3, i3, -, o3, f3⟩ |
      ⟨t3, a3, e3, m3, d3, r3, c3, -, o3, f3⟩
    · rw [e3, Res.andThen_ok]
      obtain ⟨a4, vs, h4⟩ := readBytes_received (n % 4) t3
      have hle4 := h4.le
      have i3' : t3.w.i = 4 * ws.length := i3.trans hi2
      have hr : readsFrom .data (((([] ++ a1) ++ a2) ++ a3) ++ a4) = ws ++ vs := by
        simp only [List.nil_append, readsFrom_append, r1, h2.data, r3, h4.data, List.append_nil]
      have hfil : (readBytes (n % 4) t3).state.filled = 4 * ws.length + vs.length := by
        rw [h4.filled]; split
        · next h => rw [f3, show u2.filled = _ from hfil2, h]; rfl
        · rw [h4.i, i3', Nat.one_mul]
      have hmap : vs.flatMap (fun w => [wordByte w]) = vs.map wordByte := by
        clear h4 hle4 hr hfil
        induction vs with
        | nil => rfl
        | cons v vs ih => rw [List.flatMap_cons, ih]; rfl
      have hbytes := hbw vs hj
      refine ⟨(((([] ++ a1) ++ a2) ++ a3) ++ a4), (((m0.trans m1).trans h2.moved).trans m3).trans h4.moved,
        head_append (head_append (head_append g0 _) _) _, ?_, ?_, ?_, ?_, ?_, ?_⟩
      · simp [c1, h2.cs, c3, h4.cs, w2]
      · simp [d1, h2.wrote, d3, h4.wrote]
      · rw [hfil]; omega
      · intro hk
        have hv : vs.length = n % 4 := h4.all hk
        refine ⟨by rw [hfil]; omega, by simp [c1, h2.cs, c3, h4.cs], ?_⟩
        rw [h4.i, i3', Nat.one_mul]; omega
      · rw [hr, hbytes, List.length_append, hl2, List.length_map, hfil]
      · rw [hr, hbytes, putBytes_append, hl2, Nat.zero_add, h4.out, hmap, i3', o3,
          show u2.out = _ from hout2]
    · rw [e3, Res.andThen_raise]
      have hr : readsFrom .data ((([] ++ a1) ++ a2) ++ a3) = ws := by
        simp only [List.nil_append, readsFrom_append, r1, h2.data, r3, List.append_nil]
      refine ⟨(([] ++ a1) ++ a2) ++ a3, ((m0.trans m1).trans h2.moved).trans m3,
        head_append (head_append g0 _) _, ?_, ?_, ?_, ?_, ?_, ?_⟩
      · simp only [List.nil_append, writesTo_append, c1, h2.cs, c3]; exact ⟨_, rfl⟩
      · simp [d1, h2.wrote, d3]
      · show t3.filled ≤ n; rw [f3, show u2.filled = _ from hfil2]; omega
      · intro h; simp [Res.status] at h
      · rw [hr, hb2, hl2]; show _ = t3.filled; rw [f3, show u2.filled = _ from hfil2]
      · rw [hr, hb2]; show t3.out = _; rw [o3, show u2.out = _ from hout2]
  · rw [e1, Res.andThen_raise]
    have hr : readsFrom .data ([] ++ a1) = [] := r1
    have hb : bytesOfWords order n [] = [] := by simp [bytesOfWords]
    refine ⟨[] ++ a1, m0.trans m1, g1, ?_, d1, ?_, ?_, ?_, ?_⟩
    · rw [List.nil_append, c1]; exact List.nil_prefix
    · show t1.filled ≤ n; rw [f1]; exact Nat.zero_le _
    · intro h; simp [Res.status] at h
    · rw [hr, hb]; exact f1.symm
    · rw [hr, hb]; exact o1

/-- XFER_READ, for any device. -/
theorem xferRead_fills (order : ByteOrder) (n : Nat) (out : List Byte) (s : State) :
    ∃ es, ReadFilled order n out s (xferRead order n out s) es := by
  obtain ⟨es, h⟩ := xferReadLines_fills order n out (enterOp .xferRead s)
  have hb := xferReadBody_eq order n out (enterOp .xferRead s)
  refine ⟨es, Moved.within (body := xferReadBody order n out) (hb ▸ h.moved.return _ _), h.head, h.cs,
    h.wrote, ?_, fun hk => ?_, ?_, ?_⟩
  · simpa [xferRead, within, hb] using h.le
  · have := h.all (by simpa [xferRead, within, hb] using hk)
    refine ⟨?_, this.2.1, ?_⟩
    · refine Eq.trans ?_ this.1; simp [xferRead, within, hb]
    · refine Eq.trans ?_ this.2.2; simp [xferRead, within, hb]
  · rw [h.length]; simp [xferRead, within, hb]
  · rw [← h.out]; simp [xferRead, within, hb]

end Sys2Proof.Machine
end

