-- ==== Sys2Proof/Laws/Stages.lean ====
section
/-! SUPPORT. A message's run cut into the stages of its states (`Staged`), what `accessesIn` gives for
each, the CS words of a pulse and of a selection (`CsSent`), and what one descriptor's engine run does
with CS and its destination (`Engaged`), for any device. -/

namespace Sys2Proof.Machine

/-! ### Stages -/

/-- The accesses of a run's stages, in order. -/
def stageEvents (st : List (Phase × List Event)) : List Event := st.flatMap Prod.snd

/-- The entries of the stages `st`, with `n` accesses made before the first. -/
def entriesAt : Nat → List (Phase × List Event) → List (Nat × Phase)
  | _, [] => []
  | n, (p, es) :: st => (n, p) :: entriesAt (n + es.length) st

@[simp] theorem stageEvents_append (a b : List (Phase × List Event)) :
    stageEvents (a ++ b) = stageEvents a ++ stageEvents b := List.flatMap_append

@[simp] theorem stageEvents_cons (p : Phase) (es : List Event) (st : List (Phase × List Event)) :
    stageEvents ((p, es) :: st) = es ++ stageEvents st := rfl

@[simp] theorem stageEvents_nil : stageEvents [] = [] := rfl

theorem mem_stageEvents {e : Event} {st : List (Phase × List Event)} (h : e ∈ stageEvents st) :
    ∃ x ∈ st, e ∈ x.2 := List.mem_flatMap.mp h

theorem entriesAt_append (a b : List (Phase × List Event)) : ∀ n,
    entriesAt n (a ++ b) = entriesAt n a ++ entriesAt (n + (stageEvents a).length) b := by
  induction a with
  | nil => exact fun _ => rfl
  | cons x a ih => intro n; simp [entriesAt, stageEvents, ih, Nat.add_assoc]

theorem map_snd_entriesAt (st : List (Phase × List Event)) : ∀ n,
    (entriesAt n st).map Prod.snd = st.map Prod.fst := by
  induction st with
  | nil => exact fun _ => rfl
  | cons x st ih => intro n; simp [entriesAt, ih]

/-- The stages of a trace are found again from the entries. -/
theorem stagesOf_entriesAt (st : List (Phase × List Event)) : ∀ pre : List Event,
    stagesOf (pre ++ stageEvents st) (entriesAt pre.length st) = st := by
  induction st with
  | nil => exact fun _ => rfl
  | cons x st ih =>
    intro pre
    obtain ⟨p, es⟩ := x
    cases st with
    | nil => simp [entriesAt, stagesOf]
    | cons y st =>
      obtain ⟨q, fs⟩ := y
      have h := ih (pre ++ es)
      simp only [List.length_append] at h
      simp only [entriesAt, stagesOf]
      rw [show pre ++ stageEvents ((p, es) :: (q, fs) :: st) =
        (pre ++ es) ++ stageEvents ((q, fs) :: st) by simp]
      simp only [entriesAt] at h
      rw [h]
      rw [show pre.length + es.length = (pre ++ es).length by simp, List.take_left, List.drop_left]

/-- The record from `s` to `t`, between which the accesses `es` were made: the entries of message
states in it are `ent`, and each access is guarded, whatever came before (R153). -/
def Logged (s t : State) (es : List Event) (ent : List (Nat × Phase)) : Prop :=
  ∃ ms, t.seqLog = s.seqLog ++ ms ∧ entriesOf ms = ent ∧
    ∀ b, guardedFrom ms s.trace.length b es = true

theorem Recorded.logged {s t : State} {es : List Event} (h : Recorded s t es) : Logged s t es [] := h

theorem Logged.trans {s t u : State} {a b : List Event} {x y : List (Nat × Phase)}
    (h : Logged s t a x) (g : Logged t u b y) (ht : t.trace = s.trace ++ a) :
    Logged s u (a ++ b) (x ++ y) := by
  obtain ⟨m, hm, em, gm⟩ := h
  obtain ⟨n, hn, en, gn⟩ := g
  refine ⟨m ++ n, by rw [hn, hm, List.append_assoc], by rw [entriesOf_append, em, en], fun c => ?_⟩
  rw [guardedFrom_append, Bool.and_eq_true]
  refine ⟨guardedFrom_mono (fun _ => List.mem_append_left _) (gm c),
    guardedFrom_mono (fun _ => List.mem_append_right _) ?_⟩
  have := gn (lastReady c a)
  rwa [ht, List.length_append] at this

/-- The run from `s` to `t` went through the stages `st`. -/
structure Staged (s t : State) (st : List (Phase × List Event)) : Prop where
  trace : t.trace = s.trace ++ stageEvents st
  log : Logged s t (stageEvents st) (entriesAt s.trace.length st)

theorem Staged.trans {s t u : State} {a b : List (Phase × List Event)} (h : Staged s t a)
    (g : Staged t u b) : Staged s u (a ++ b) where
  trace := by rw [g.trace, h.trace, stageEvents_append, List.append_assoc]
  log := by
    have := h.log.trans g.log h.trace
    rwa [← stageEvents_append, h.trace, List.length_append, ← entriesAt_append] at this

/-- No access, and no message state entered. -/
theorem Staged.none {s t : State} (ht : t.trace = s.trace) (hr : Recorded s t []) : Staged s t [] :=
  ⟨by simp [ht], hr⟩

/-- A message state is entered. -/
theorem staged_enter (p : Phase) (s : State) : Staged s (enterPhase p s) [(p, [])] :=
  ⟨by simp, ⟨[⟨s.trace.length, .phase p⟩], by simp, rfl, fun _ => rfl⟩⟩

/-- The last stage goes on. -/
theorem Staged.goOn {s t u : State} {st : List (Phase × List Event)} {p : Phase} {a b : List Event}
    (h : Staged s t (st ++ [(p, a)])) (ht : u.trace = t.trace ++ b) (hr : Recorded t u b) :
    Staged s u (st ++ [(p, a ++ b)]) where
  trace := by rw [ht, h.trace]; simp
  log := by
    have := h.log.trans hr.logged h.trace
    simpa [entriesAt_append, entriesAt] using this

/-- The last stage goes on without an access. -/
theorem Staged.same {s t u : State} {st : List (Phase × List Event)} (h : Staged s t st)
    (ht : u.trace = t.trace) (hr : Recorded t u []) : Staged s u st :=
  List.append_nil st ▸ h.trans (.none ht hr)

theorem Staged.newEvents {s t : State} {st : List (Phase × List Event)} (h : Staged s t st) :
    newEvents s t = stageEvents st := by simp [Machine.newEvents, h.trace]

theorem Staged.phases {s t : State} {st : List (Phase × List Event)} (h : Staged s t st) :
    phasesOf (newMarks s t) = st.map Prod.fst := by
  obtain ⟨ms, hm, he, -⟩ := h.log
  rw [phasesOf_eq, newMarks, hm, List.drop_left, he, map_snd_entriesAt]

theorem Staged.guarded {s t : State} {st : List (Phase × List Event)} (h : Staged s t st) (b : Bool) :
    guardedFrom (newMarks s t) s.trace.length b (Machine.newEvents s t) = true := by
  obtain ⟨ms, hm, -, hg⟩ := h.log
  rw [h.newEvents, newMarks, hm, List.drop_left]; exact hg b

/-- The accesses made in a message state. -/
theorem Staged.accessesIn {s t : State} {st : List (Phase × List Event)} (h : Staged s t st)
    (p : Phase) : accessesIn p s t = (st.lookup p).getD [] := by
  obtain ⟨ms, hm, he, -⟩ := h.log
  rw [Machine.accessesIn, newMarks, hm, List.drop_left, he, h.trace, stagesOf_entriesAt]

theorem lookup_of_mem {st : List (Phase × List Event)} (h : (st.map Prod.fst).Nodup) {p : Phase}
    {es : List Event} (hm : (p, es) ∈ st) : st.lookup p = some es := by
  induction st with
  | nil => cases hm
  | cons x st ih =>
    obtain ⟨q, fs⟩ := x
    simp only [List.map_cons, List.nodup_cons] at h
    rcases List.mem_cons.mp hm with h' | h'
    · cases h'; simp [List.lookup]
    · have : p ≠ q := fun hpq => h.1 (hpq ▸ List.mem_map_of_mem (f := Prod.fst) h')
      simp [List.lookup, beq_eq_false_iff_ne.mpr this, ih h.2 h']

theorem mem_of_lookup {st : List (Phase × List Event)} {p : Phase} {es : List Event}
    (h : st.lookup p = some es) : (p, es) ∈ st := by
  induction st with
  | nil => cases h
  | cons x st ih =>
    obtain ⟨q, fs⟩ := x
    by_cases hpq : p = q
    · subst hpq; simp [List.lookup] at h; simp [h]
    · simp [List.lookup, beq_eq_false_iff_ne.mpr hpq] at h; exact List.mem_cons_of_mem _ (ih h)

/-! ### The words of the chip-select sequencer -/

/-- The operation wrote the words `ws` to CS in order, at least the first, and all where it
succeeded. -/
structure CsSent (ws : List Word) (s : State) (r : Res) (es : List Event) : Prop where
  ran : Ran s r.state es
  words : writesTo .cs es <+: ws
  first : writesTo .cs es ≠ []
  all : ∀ t, r = .ok t → writesTo .cs es = ws

theorem CsSent.andThen {v w : List Word} {s : State} {r : Res} {a : List Event} {g : State → Res}
    (h : CsSent v s r a) (hg : ∀ t, r = .ok t → ∃ b, CsSent w t (g t) b) :
    ∃ es, CsSent (v ++ w) s (r.andThen g) es := by
  cases r with
  | raise e t =>
    exact ⟨a, h.ran, h.words.trans (List.prefix_append _ _), h.first, fun _ h => by cases h⟩
  | ok t =>
    obtain ⟨b, hb⟩ := hg t rfl
    have ha := h.all t rfl
    refine ⟨a ++ b, h.ran.trans hb.ran, ?_, ?_, fun u hu => ?_⟩
    · rw [writesTo_append, ha]; exact (List.prefix_append_right_inj _).mpr hb.words
    · simp [h.first]
    · rw [writesTo_append, ha, hb.all u hu]

theorem CsSent.return {ws : List Word} {s : State} {r : Res} {es : List Event}
    (h : CsSent ws s r es) (o : OpName) (n : Nat) :
    CsSent ws s (r.andThen fun t => returnAt o n t) es := by
  cases r with
  | raise e t => exact h
  | ok t => exact ⟨h.ran.line o n, h.words, h.first, fun _ _ => h.all t rfl⟩

theorem CsSent.within {ws : List Word} {o : OpName} {body : State → Res} {s : State}
    {es : List Event} (h : CsSent ws (enterOp o s) (body (enterOp o s)) es) :
    CsSent ws s (within o body s) es :=
  ⟨ran_within h.ran, h.words, h.first, fun t ht => by
    unfold Machine.within at ht
    cases hb : body (enterOp o s) with
    | ok u => exact h.all u hb
    | raise e u => rw [hb] at ht; cases ht⟩

theorem CsSent.after_line {ws : List Word} {o : OpName} {n : Nat} {s : State} {r : Res}
    {es : List Event} (h : CsSent ws (atLine o n s) r es) : CsSent ws s r es :=
  ⟨h.ran.after_line, h.words, h.first, h.all⟩

/-- A readiness wait writes nothing. -/
theorem waitAt_writesTo {o : OpName} {n : Nat} {s : State} {es : List Event}
    (h : Ran s (waitAt o n s).state es) (r : Reg) : writesTo r es = [] := by
  have hw : waitAt o n s = waitReady (atLine o n s) := rfl
  rw [hw] at h
  rcases waitReady_cases (atLine o n s) with ⟨k, -, -, -, he⟩ | ⟨-, he⟩ <;> rw [he] at h <;>
    rw [h.unique (ran_polled (atLine o n s) _).after_line, writesTo_polls]

theorem writeCsAndWait_sent (o : OpName) (n m : Nat) (v : Word) (s : State) :
    ∃ es, CsSent [v] s (writeCsAndWait o n m v s) es := by
  obtain ⟨es, h, -⟩ := waitAt_opRan (R := ioRegs) (E := ioEnds) (by simp) (by simp) (by simp) o m
    (regWrite .cs v (atLine o n s))
  have hw : writesTo .cs (.wr .cs v :: es) = [v] := by
    simp [writesTo, waitAt_writesTo h.ran .cs]
  exact ⟨_, (ran_regWrite .cs v _).after_line.trans h.ran, by simp [hw], by simp [hw],
    fun _ _ => hw⟩

/-- DESELECT sends the words of the pulse (R107). -/
theorem deselect_sent (s : State) :
    ∃ es, CsSent [wordDeselBoth, wordAssertBoth, wordDeselBoth] s (deselect s) es := by
  have : ∃ es, CsSent ([wordDeselBoth] ++ ([wordAssertBoth] ++ [wordDeselBoth]))
      (enterOp .deselect s) (deselectBody (enterOp .deselect s)) es := by
    obtain ⟨_, h1⟩ := writeCsAndWait_sent .deselect 1 2 wordDeselBoth (enterOp .deselect s)
    refine h1.andThen fun t _ => ?_
    obtain ⟨_, h2⟩ := writeCsAndWait_sent .deselect 3 4 wordAssertBoth t
    refine h2.andThen fun t _ => ?_
    obtain ⟨_, h3⟩ := writeCsAndWait_sent .deselect 5 6 wordDeselBoth t
    exact ⟨_, h3.return .deselect 7⟩
  obtain ⟨es, h⟩ := this
  exact ⟨es, CsSent.within (body := deselectBody) h⟩

/-- SELECT sends the words of the pulse, and then the slot's (R108). -/
theorem select_sent (slot : Nat) (s : State) : ∃ es,
    CsSent [wordDeselBoth, wordAssertBoth, wordDeselBoth, selectWord slot] s (select slot s) es := by
  obtain ⟨_, h⟩ := deselect_sent (atLine .select 1 (enterOp .select s))
  have : ∃ es, CsSent ([wordDeselBoth, wordAssertBoth, wordDeselBoth] ++ [selectWord slot])
      (enterOp .select s) (selectBody slot (enterOp .select s)) es := by
    refine h.after_line.andThen fun t _ => ?_
    obtain ⟨_, g⟩ := writeCsAndWait_sent .select (selectLine slot) 6 (selectWord slot)
      (atLine .select 2 t)
    exact ⟨_, g.after_line.return .select 7⟩
  obtain ⟨es, h⟩ := this
  exact ⟨es, CsSent.within (body := selectBody slot) h⟩

/-- How many of a pulse's or a selection's words were written, and the latch after them. -/
theorem CsSent.count {ws : List Word} {s : State} {r : Res} {es : List Event} (h : CsSent ws s r es) :
    ∃ n, 1 ≤ n ∧ n ≤ ws.length ∧ writesTo .cs es = ws.take n ∧
      (∀ t, r = .ok t → n = ws.length) := by
  refine ⟨(writesTo .cs es).length, List.length_pos_iff.mpr h.first, h.words.length_le,
    List.prefix_iff_eq_take.mp h.words, fun t ht => by rw [h.all t ht]⟩

/-! ### One descriptor -/

/-- What the accesses of one descriptor's stage tell: they are none, or CS was read first, and only its
LEN bits are changed in what is written back, LEN4 and then LEN1 (R75, R117, R119); and they carry no
more bytes than the descriptor has (R113, R118). -/
structure Engaged (order : ByteOrder) (d : Descriptor) (es : List Event) : Prop where
  cs : es = [] ∨ ∃ a, es.head? = some (.rd .cs a) ∧
    writesTo .cs es <+: [a ||| lenMask, a &&& ~~~lenMask]
  le : (bytesOfWords order d.len (readsFrom .data es)).length ≤ d.len

@[simp] theorem bytesOfWords_nil (order : ByteOrder) (n : Nat) : bytesOfWords order n [] = [] := by
  simp [bytesOfWords]

/-- A descriptor that no engine run was made for. -/
theorem engaged_nil (order : ByteOrder) (d : Descriptor) : Engaged order d [] :=
  ⟨.inl rfl, by simp [readsFrom]⟩

/-- What a descriptor's destination holds, by the accesses of its stage (R41, R118). -/
def destinationOf (order : ByteOrder) (d : Descriptor) (es : List Event) : Option (List Byte) :=
  match d.tx with
  | some _ => d.rx
  | none =>
    d.rx.map fun out =>
      bytesOfWords order d.len (readsFrom .data es) ++
        out.drop (bytesOfWords order d.len (readsFrom .data es)).length

@[simp] theorem destinationOf_nil (order : ByteOrder) (d : Descriptor) :
    destinationOf order d [] = d.rx := by
  unfold destinationOf
  cases d.tx <;> simp [readsFrom]

/-- The LEN bits apart, a CS word the engine writes back is the word it read (R75). -/
theorem linesOf_lenWords (a : Word) :
    linesOf (a ||| lenMask) = linesOf a ∧ linesOf (a &&& ~~~lenMask) = linesOf a := by
  simp [linesOf, csb0, csb1, dps, lenMask]

/-- The two LEN codes the engine writes (R72, R75). -/
theorem lenField_lenWords (a : Word) :
    lenField (a ||| lenMask) = 3#2 ∧ lenField (a &&& ~~~lenMask) = 0#2 := by
  unfold lenField lenMask
  constructor <;> ext i hi <;>
    (rcases i with _ | _ | i <;> first | omega | simp [BitVec.getElem_extractLsb'])

/-- The CS words of an engaged stage keep the lines that the first read saw, and set LEN (R75, R157). -/
theorem Engaged.wrote {order : ByteOrder} {d : Descriptor} {es : List Event}
    (h : Engaged order d es) {v : Word} (hv : v ∈ writesTo .cs es) :
    (lenField v = 3#2 ∨ lenField v = 0#2) ∧
      ∃ a, es.head? = some (.rd .cs a) ∧ linesOf v = linesOf a := by
  rcases h.cs with rfl | ⟨a, ha, hp⟩
  · cases hv
  · rcases List.mem_cons.mp (hp.subset hv) with rfl | hv
    · exact ⟨.inl (lenField_lenWords a).1, a, ha, (linesOf_lenWords a).1⟩
    · rw [List.mem_singleton.mp hv]
      exact ⟨.inr (lenField_lenWords a).2, a, ha, (linesOf_lenWords a).2⟩

end Sys2Proof.Machine
end

