-- ==== Sys2Proof/Laws/Message.lean ====
section
/-! SUPPORT. Everything TRANSFER can do, said once, for any device (R121 to R127, R140): `XfersRan` for
its descriptors and `transfer_cases` for the whole message, with its stages. -/

namespace Sys2Proof.Machine

/-- The engine's run for descriptor `k`: as any operation of the engine, and what it does with CS and
with the descriptor's destination, which goes back to its place (R121, R41). -/
structure EngineRan (order : ByteOrder) (k : Nat) (d : Descriptor) (s : State) (r : Res)
    (es : List Event) : Prop where
  ran : Ran s r.state es
  recorded : Recorded s r.state es
  regs : ∀ e ∈ es, e.reg ∈ ioRegs
  status : r.status ∈ ioEnds
  seq : r.state.seq = s.seq
  ops : r.state.ops.tail = s.ops.tail
  message : r.state.w.speed = s.w.speed ∧ r.state.w.actual = s.w.actual ∧
    r.state.w.status = s.w.status
  failed : r.status = .timedOut → FailedWait es
  engaged : Engaged order d es
  full : r.status = .ok → d.tx = none →
    (bytesOfWords order d.len (readsFrom .data es)).length = d.len
  buffers : d.illegal = none → s.buffers[k]? = some d.rx →
    r.state.buffers = s.buffers.set k (destinationOf order d es)

/-- The bytes a read received, at the start of a destination that they fit in (R118). -/
theorem putBytes_zero {out bs : List Byte} (h : bs.length ≤ out.length) :
    putBytes out 0 bs = bs ++ out.drop bs.length := by
  rw [putBytes_eq _ _ _ (by omega)]; simp

/-- A legal descriptor that is no write is a read into a destination of its length (R39 duty 4,
R113). -/
theorem illegal_none_read {d : Descriptor} (h : d.illegal = none) (ht : d.tx = none) :
    ∃ out, d.rx = some out ∧ out.length = d.len := by
  cases hr : d.rx with
  | none => simp [Descriptor.illegal, ht, hr] at h
  | some out =>
    refine ⟨out, rfl, ?_⟩
    simp only [Descriptor.illegal, ht, hr, illegalLength, bufferFits] at h
    by_contra hne
    simp [hne] at h
    split at h <;> cases h

theorem runEngine_ran (order : ByteOrder) (k : Nat) (t : Descriptor) (s : State) :
    ∃ es, EngineRan order k t s (runEngine order k t s) es := by
  unfold runEngine
  cases ht : t.tx with
  | some b =>
    obtain ⟨es, h⟩ := xferWrite_sends order b (atLine .transfer 16 s)
    have g := h.moved.op.after_line (by simp)
    exact ⟨es, {
      ran := g.ran, recorded := g.recorded, regs := g.regs, status := g.status, seq := g.seq
      ops := g.ops, message := g.message, failed := g.failed
      engaged := ⟨.inr ⟨_, h.head, h.cs⟩, by rw [h.read]; simp⟩
      full := fun _ h => by rw [ht] at h; cases h
      buffers := fun _ hk => by
        rw [g.buffers]
        have hd : destinationOf order t es = t.rx := by simp [destinationOf, ht]
        rw [hd]
        obtain ⟨hl, hk⟩ := List.getElem?_eq_some_iff.mp hk
        rw [← hk, List.set_getElem_self] }⟩
  | none =>
    obtain ⟨es, h⟩ := xferRead_fills order t.len (t.rx.getD []) (atLine .transfer 18 s)
    have g := h.moved.op.after_line (by simp)
    have hle : (bytesOfWords order t.len (readsFrom .data es)).length ≤ t.len := by
      rw [h.length]; exact h.le
    refine ⟨es, ?_⟩
    generalize xferRead order t.len (t.rx.getD []) (atLine .transfer 18 s) = r at h g ⊢
    exact {
      ran := by simpa using g.ran.then_same (ran_returnBuffer k _)
      recorded := by
        obtain ⟨ms, hm, he⟩ := g.recorded
        exact ⟨ms, by simpa [returnBuffer] using hm, he⟩
      regs := g.regs, status := by simpa using g.status, seq := by simpa using g.seq
      ops := by simpa using g.ops, message := by simpa [returnBuffer] using g.message
      failed := fun hf => g.failed (by simpa using hf)
      engaged := ⟨.inr ⟨_, h.head, h.cs⟩, hle⟩
      full := fun hok _ => by rw [h.length]; exact (h.all (by simpa using hok)).1
      buffers := fun hd hk => by
        obtain ⟨out, hr, hl⟩ := illegal_none_read hd ht
        have ho : r.state.out = _ := h.out
        rw [hr, Option.getD_some, putBytes_zero (by omega)] at ho
        simp [returnBuffer, g.buffers, destinationOf, ht, hr, ho] }

theorem runEngine_clean (order : ByteOrder) (k : Nat) (t : Descriptor) (s : State) :
    (runEngine order k t s).clean := by
  unfold runEngine
  cases t.tx with
  | some b => exact xferWrite_clean order b _
  | none => exact Res.clean_mapState (xferRead_clean _ _ _ _)

/-- How a message's descriptors ended (R121, R124, R125). -/
inductive XfersEnd where
  /-- All of them completed. -/
  | all
  /-- The engine's run for descriptor `j` timed out. -/
  | timedOut (j : Nat)
  /-- Descriptor `j` asked for both directions. -/
  | conflict (j : Nat)
deriving DecidableEq, Repr

/-- The status an end of the descriptors gives. -/
def XfersEnd.status : XfersEnd → Status
  | .all => .ok
  | .timedOut _ => .timedOut
  | .conflict _ => .conflictingTransfer

/-- How many descriptors completed. -/
def XfersEnd.done (n : Nat) : XfersEnd → Nat
  | .all => n
  | .timedOut j => j
  | .conflict j => j

/-- How many descriptors' states were entered. -/
def XfersEnd.entered (n : Nat) : XfersEnd → Nat
  | .all => n
  | .timedOut j => j + 1
  | .conflict j => j + 1

/-- The end of a message's descriptors, by the end of those after the first, which completed. -/
def XfersEnd.next : XfersEnd → XfersEnd
  | .all => .all
  | .timedOut j => .timedOut (j + 1)
  | .conflict j => .conflict (j + 1)

@[simp] theorem XfersEnd.next_status (e : XfersEnd) : e.next.status = e.status := by cases e <;> rfl
@[simp] theorem XfersEnd.next_done (e : XfersEnd) (n : Nat) :
    e.next.done (n + 1) = e.done n + 1 := by cases e <;> rfl
@[simp] theorem XfersEnd.next_entered (e : XfersEnd) (n : Nat) :
    e.next.entered (n + 1) = e.entered n + 1 := by cases e <;> rfl
@[simp] theorem XfersEnd.next_all (e : XfersEnd) : e.next = .all ↔ e = .all := by
  cases e <;> simp [XfersEnd.next]

/-- What a message's descriptors leave in their destinations, by the accesses of their stages. -/
def destinationsOf (order : ByteOrder) (ts : List Descriptor) (st : List (Phase × List Event)) :
    List (Option (List Byte)) :=
  ts.mapIdx fun j d => destinationOf order d ((st[j]?.map Prod.snd).getD [])

@[simp] theorem destinationsOf_cons (order : ByteOrder) (t : Descriptor) (ts : List Descriptor)
    (p : Phase) (es : List Event) (st : List (Phase × List Event)) :
    destinationsOf order (t :: ts) ((p, es) :: st) =
      destinationOf order t es :: destinationsOf order ts st := by
  simp [destinationsOf, List.mapIdx_cons]

@[simp] theorem destinationsOf_nil (order : ByteOrder) (ts : List Descriptor) :
    destinationsOf order ts [] = ts.map Descriptor.rx := by
  induction ts with
  | nil => rfl
  | cons t ts ih =>
    simp only [destinationsOf, List.mapIdx_cons] at ih ⊢
    simpa using ih

/-- What the descriptors `ts` of a message, the first of them number `k`, did in a run from `s` that
ended in `r`, with the stages `st`. -/
structure XfersRan (order : ByteOrder) (k : Nat) (ts : List Descriptor) (s : State) (r : Res)
    (st : List (Phase × List Event)) (e : XfersEnd) : Prop where
  ran : Ran s r.state (stageEvents st)
  staged : Staged s r.state st
  names : st.map Prod.fst = (List.range (e.entered ts.length)).map fun j => .transferring (k + j)
  regs : ∀ x ∈ stageEvents st, x.reg ∈ ioRegs
  status : r.status = e.status
  bound : e.done ts.length ≤ ts.length
  before : e ≠ .all → e.done ts.length < ts.length
  ops : r.state.ops.tail = s.ops.tail
  actual : r.state.w.actual = s.w.actual + ((ts.take (e.done ts.length)).map Descriptor.len).sum
  kept : r.state.w.speed = s.w.speed ∧ r.state.w.status = s.w.status
  failed : r.status = .timedOut → FailedWait (stageEvents st)
  engaged : ∀ j d p es, ts[j]? = some d → st[j]? = some (p, es) → Engaged order d es ∧
    (j < e.done ts.length → d.tx = none →
      (bytesOfWords order d.len (readsFrom .data es)).length = d.len)
  buffers : (∀ d ∈ ts, d.illegal = none) → ∀ pre, pre.length = k →
    s.buffers = pre ++ ts.map Descriptor.rx → r.state.buffers = pre ++ destinationsOf order ts st
  conflict : ∀ j d, ts[j]? = some d → j < e.entered ts.length →
    (d.tx.isSome && d.rx.isSome) = true → e = .conflict j
  conflicting : ∀ j, e = .conflict j →
    (∃ d, ts[j]? = some d ∧ (d.tx.isSome && d.rx.isSome) = true) ∧
    ∃ st', st = st' ++ [(.transferring (k + j), [])]

/-- The position moves to the head of the loop's body, and the descriptor's state is entered. -/
theorem staged_enterXfer (k : Nat) (s : State) :
    Staged s (enterPhase (.transferring k) (atLine .transfer 11 s)) [(.transferring k, [])] :=
  (Staged.none (atLine_trace ..) (opRan_line (R := ioRegs) (E := ioEnds) (by simp) .transfer 11
    s).recorded).trans (staged_enter _ _)

/-- Everything the descriptors of a message can do, for any device. -/
theorem runXfers_ran (order : ByteOrder) (ts : List Descriptor) :
    ∀ (k : Nat) (s : State), ∃ st e, XfersRan order k ts s (runXfers order k ts s) st e := by
  have line : ∀ (n : Nat) (s : State), Recorded s (atLine .transfer n s) [] := fun n s =>
    (opRan_line (R := ioRegs) (E := ioEnds) (by simp) .transfer n s).recorded
  induction ts with
  | nil =>
    intro k s
    refine ⟨[], .all, ?_⟩
    exact {
      ran := .refl s, staged := .none rfl (recorded_same rfl), names := rfl, regs := by simp
      status := rfl, bound := Nat.le_refl _, before := fun h => absurd rfl h, ops := rfl
      actual := by simp [runXfers], kept := ⟨rfl, rfl⟩, failed := by simp [runXfers]
      engaged := by simp, buffers := fun _ pre _ h => by
        rw [destinationsOf_nil]; exact h
      conflict := by simp, conflicting := fun _ h => by cases h }
  | cons t ts ih =>
    intro k s
    have h11 := staged_enterXfer k s
    have h12 := h11.same (atLine_trace ..) (line 12 _)
    have h13 := h12.same (atLine_trace ..) (line 13 _)
    have r13 := ((((ran_atLine .transfer 11 s).then_same (ran_enterPhase (.transferring k) _)).line
      .transfer 12).line .transfer 13)
    have o13 : (atLine .transfer 13 (atLine .transfer 12 (enterPhase (.transferring k)
        (atLine .transfer 11 s)))).ops.tail = s.ops.tail := rfl
    have w13 : (atLine .transfer 13 (atLine .transfer 12 (enterPhase (.transferring k)
        (atLine .transfer 11 s)))).w = s.w := rfl
    have b13 : (atLine .transfer 13 (atLine .transfer 12 (enterPhase (.transferring k)
        (atLine .transfer 11 s)))).buffers = s.buffers := rfl
    simp only [runXfers]
    generalize atLine .transfer 13 (atLine .transfer 12 (enterPhase (.transferring k)
      (atLine .transfer 11 s))) = s0 at h13 r13 o13 w13 b13 ⊢
    by_cases hc : (t.tx.isSome && t.rx.isSome) = true
    · rw [if_pos hc]
      refine ⟨[(.transferring k, [])], .conflict 0, ?_⟩
      exact {
        ran := r13.line .transfer 14, staged := h13.same (atLine_trace ..) (line 14 _)
        names := rfl, regs := by simp, status := rfl, bound := Nat.zero_le _
        before := fun _ => Nat.succ_pos _, ops := o13, actual := by
          show s0.w.actual = _; rw [w13]; rfl
        kept := by show s0.w.speed = _ ∧ s0.w.status = _; rw [w13]; exact ⟨rfl, rfl⟩
        failed := fun h => by cases h
        engaged := by
          intro j d p es _ hs
          cases j with
          | zero => cases hs; exact ⟨engaged_nil order d, fun h => absurd h (Nat.not_lt_zero _)⟩
          | succ j => cases hs
        buffers := by
          intro _ pre _ hb
          show s0.buffers = _
          rw [b13, hb]; simp
        conflict := by
          intro j d hd hj _
          have : j = 0 := by simp [XfersEnd.entered] at hj; omega
          rw [this]
        conflicting := by intro j hj; cases hj; exact ⟨⟨t, rfl, hc⟩, [], rfl⟩ }
    · rw [if_neg hc]
      obtain ⟨a, ha⟩ := runEngine_ran order k t (atLine .transfer 15 s0)
      have hst : Staged s (runEngine order k t (atLine .transfer 15 s0)).state
          [(.transferring k, a)] := by
        have := (h13.same (atLine_trace ..) (line 15 _)).goOn (st := []) ha.ran.trace ha.recorded
        simpa using this
      have hran : Ran s (runEngine order k t (atLine .transfer 15 s0)).state a := by
        simpa using (r13.line .transfer 15).trans ha.ran
      have hops : (runEngine order k t (atLine .transfer 15 s0)).state.ops.tail = s.ops.tail :=
        ha.ops.trans o13
      have hact : (runEngine order k t (atLine .transfer 15 s0)).state.w.actual = s.w.actual := by
        rw [ha.message.2.1]; exact congrArg Work.actual w13
      have hkept : (runEngine order k t (atLine .transfer 15 s0)).state.w.speed = s.w.speed ∧
          (runEngine order k t (atLine .transfer 15 s0)).state.w.status = s.w.status := by
        rw [ha.message.1, ha.message.2.2]
        exact ⟨congrArg Work.speed w13, congrArg Work.status w13⟩
      have hbuf : t.illegal = none → ∀ pre, pre.length = k →
          s.buffers = pre ++ (t :: ts).map Descriptor.rx →
          (runEngine order k t (atLine .transfer 15 s0)).state.buffers =
            pre ++ destinationOf order t a :: ts.map Descriptor.rx := by
        intro hl pre hp hb
        have h0 : (atLine .transfer 15 s0).buffers = pre ++ (t :: ts).map Descriptor.rx :=
          (show s0.buffers = _ from b13).trans hb
        rw [ha.buffers hl (by rw [h0]; simp [← hp]), h0]; simp [← hp]
      cases hres : runEngine order k t (atLine .transfer 15 s0) with
      | raise x u =>
        rw [hres] at ha hst hran hops hact hkept hbuf
        have hx := Res.raised hres (runEngine_clean _ _ _ _) (by rw [hres]; exact ha.status)
        subst hx
        refine ⟨[(.transferring k, a)], .timedOut 0, ?_⟩
        exact {
          ran := by simpa using hran, staged := hst, names := rfl
          regs := by simpa using ha.regs, status := rfl, bound := Nat.zero_le _
          before := fun _ => Nat.succ_pos _, ops := hops
          actual := hact, kept := hkept
          failed := fun h => by simpa using ha.failed h
          engaged := by
            intro j d p es hd hs
            cases j with
            | zero => cases hs; cases hd; exact ⟨ha.engaged, fun h => absurd h (Nat.not_lt_zero _)⟩
            | succ j => cases hs
          buffers := by
            intro hl pre hp hb
            rw [Res.andThen_raise, hbuf (hl t (List.mem_cons_self ..)) pre hp hb]; simp
          conflict := by
            intro j d hd hj hb
            have : j = 0 := by simp [XfersEnd.entered] at hj; omega
            subst this; cases hd; exact absurd hb hc
          conflicting := fun _ h => by cases h }
      | ok u =>
        rw [hres] at ha hst hran hops hact hkept hbuf
        rw [Res.andThen_ok]
        have hu : Staged s (atLine .transfer 10 (countBytes t.len (atLine .transfer 19 u)))
            [(.transferring k, a)] :=
          ((hst.same (atLine_trace ..) (line 19 _)).same
            (u := countBytes t.len (atLine .transfer 19 u)) rfl (recorded_same rfl)).same
            (atLine_trace ..) (line 10 _)
        have hur : Ran s (atLine .transfer 10 (countBytes t.len (atLine .transfer 19 u))) a :=
          ((hran.line .transfer 19).then_same (ran_setW _ _)).line .transfer 10
        have hw : (atLine .transfer 10 (countBytes t.len (atLine .transfer 19 u))).w =
            { u.w with actual := u.w.actual + t.len } := rfl
        have ho : (atLine .transfer 10 (countBytes t.len (atLine .transfer 19 u))).ops.tail =
            u.ops.tail := rfl
        have hb : (atLine .transfer 10 (countBytes t.len (atLine .transfer 19 u))).buffers =
            u.buffers := rfl
        generalize atLine .transfer 10 (countBytes t.len (atLine .transfer 19 u)) = u1
          at hu hur hw ho hb ⊢
        obtain ⟨st, e, g⟩ := ih (k + 1) u1
        refine ⟨(.transferring k, a) :: st, e.next, ?_⟩
        exact {
          ran := hur.trans g.ran
          staged := hu.trans g.staged
          names := by
            rw [List.map_cons, g.names, List.length_cons, XfersEnd.next_entered,
              List.range_succ_eq_map]
            simp [Function.comp_def, Nat.add_assoc, Nat.add_comm 1]
          regs := fun x hx => (List.mem_append.mp hx).elim (ha.regs x) (g.regs x)
          status := by rw [g.status, XfersEnd.next_status]
          bound := by simpa using g.bound
          before := fun h => by simpa using g.before (by simpa using h)
          ops := g.ops.trans (ho.trans hops)
          actual := by
            rw [g.actual, hw, List.length_cons, XfersEnd.next_done, List.take_succ_cons,
              List.map_cons, List.sum_cons]
            show u.w.actual + _ + _ = _
            rw [show u.w.actual = _ from hact]; omega
          kept := by rw [g.kept.1, g.kept.2, hw]; exact hkept
          failed := fun h => (g.failed h).prepend a
          engaged := by
            intro j d p es hd hs
            cases j with
            | zero => cases hs; cases hd; exact ⟨ha.engaged, fun _ => ha.full rfl⟩
            | succ j =>
              obtain ⟨h1, h2⟩ := g.engaged j d p es hd hs
              exact ⟨h1, fun h => h2 (by simpa using h)⟩
          buffers := by
            intro hl pre hp hb'
            have := g.buffers (fun d hd => hl d (List.mem_cons_of_mem _ hd))
              (pre ++ [destinationOf order t a]) (by simp [hp]) (by
                rw [hb, show u.buffers = _ from hbuf (hl t (List.mem_cons_self ..)) pre hp hb']
                simp)
            rw [this]; simp
          conflict := by
            intro j d hd hj hbth
            cases j with
            | zero => cases hd; exact absurd hbth hc
            | succ j =>
              have := g.conflict j d hd (by simpa using hj) hbth
              subst this; rfl
          conflicting := by
            intro j hj
            cases e with
            | all => cases hj
            | timedOut i => cases hj
            | conflict i =>
              cases hj
              obtain ⟨h1, st', h2⟩ := g.conflicting i rfl
              refine ⟨h1, (.transferring k, a) :: st', ?_⟩
              rw [h2, Nat.add_right_comm]; rfl }

theorem runXfers_clean (order : ByteOrder) (ts : List Descriptor) :
    ∀ k s, (runXfers order k ts s).clean := by
  induction ts with
  | nil => exact fun _ _ => trivial
  | cons t ts ih =>
    intro k s
    simp only [runXfers]
    split
    · simp [Res.clean]
    · exact Res.clean_andThen (runEngine_clean _ _ _ _) fun _ => ih _ _

/-- The stages of the descriptors, by their names. -/
theorem lookup_xfers {st : List (Phase × List Event)} {k n : Nat}
    (h : st.map Prod.fst = (List.range n).map fun j => .transferring (k + j)) (j : Nat) :
    st.lookup (.transferring (k + j)) = st[j]?.map Prod.snd := by
  have hn : (st.map Prod.fst).Nodup := by
    rw [h]; exact (List.nodup_range).map fun a b hab => by simpa using hab
  have hi : ∀ (i : Nat) (x : Phase × List Event), st[i]? = some x → x.1 = .transferring (k + i) := by
    intro i x hx
    have : (st.map Prod.fst)[i]? = some x.1 := by rw [List.getElem?_map, hx]; rfl
    rw [h, List.getElem?_map] at this
    obtain ⟨a, ha, hax⟩ := Option.map_eq_some_iff.mp this
    rw [List.getElem?_range (by
      have := (List.getElem?_eq_some_iff.mp ha).1; simpa using this)] at ha
    cases ha; exact hax.symm
  cases hj : st[j]? with
  | some x =>
    obtain ⟨p, es⟩ := x
    have := hi j _ hj
    simp only at this; subst this
    exact lookup_of_mem hn (List.mem_of_getElem? hj)
  | none =>
    cases hl : st.lookup (.transferring (k + j)) with
    | none => rfl
    | some es =>
      obtain ⟨i, hi'⟩ := List.getElem?_of_mem (mem_of_lookup hl)
      have := hi i _ hi'
      simp at this; subst this
      rw [hj] at hi'; cases hi'

/-- A stage of the descriptors, by its place. -/
theorem XfersRan.stage {order : ByteOrder} {k : Nat} {ts : List Descriptor} {s : State} {r : Res}
    {st : List (Phase × List Event)} {e : XfersEnd} (h : XfersRan order k ts s r st e)
    {x : Phase × List Event} (hx : x ∈ st) :
    ∃ j, st[j]? = some x ∧ x.1 = .transferring (k + j) ∧ j < e.entered ts.length := by
  obtain ⟨j, hj⟩ := List.getElem?_of_mem hx
  have hp : (st.map Prod.fst)[j]? = some x.1 := by rw [List.getElem?_map, hj]; rfl
  rw [h.names, List.getElem?_map] at hp
  obtain ⟨a, ha, hax⟩ := Option.map_eq_some_iff.mp hp
  have hl : j < e.entered ts.length := by
    have := (List.getElem?_eq_some_iff.mp ha).1; simpa using this
  rw [List.getElem?_range hl] at ha
  cases ha
  exact ⟨j, hj, hax.symm, hl⟩

/-! ### The whole message -/

/-- Where a message ended (R121, R140). -/
inductive MessageEnd where
  | awaitReady
  | speed
  | select
  | xfers (e : XfersEnd)
  | deselect
  | success
deriving DecidableEq, Repr

/-- The status each end gives (R140). -/
def MessageEnd.status : MessageEnd → Status
  | .awaitReady => .timedOut
  | .speed => .invalidSpeed
  | .select => .timedOut
  | .xfers e => e.status
  | .deselect => .timedOut
  | .success => .ok

/-- How many descriptors completed (R125). -/
def MessageEnd.done (n : Nat) : MessageEnd → Nat
  | .awaitReady => 0
  | .speed => 0
  | .select => 0
  | .xfers e => e.done n
  | .deselect => n
  | .success => n

/-- The states entered before Done (R121). -/
def MessageEnd.phases (n : Nat) : MessageEnd → List Phase
  | .awaitReady => [.awaitReady]
  | .speed => [.awaitReady, .prepared]
  | .select => [.awaitReady, .prepared, .selected]
  | .xfers e => [.awaitReady, .prepared, .selected] ++
      (List.range (e.entered n)).map Phase.transferring
  | .deselect => phaseOrder n
  | .success => phaseOrder n

/-- The words of a message's selection, and those of its deselect. -/
abbrev selectWords (slot : Nat) : List Word :=
  [wordDeselBoth, wordAssertBoth, wordDeselBoth, selectWord slot]
abbrev deselectWords : List Word := [wordDeselBoth, wordAssertBoth, wordDeselBoth]

/-- What the accesses of a message's stage tell, by the state it was made in and the end of the
message: no CS word before Selected; there and in Deselected the words as far as they were written;
in a Transferring state what one engine run does (R107, R108, R112, R113, R157). -/
def StageFacts (order : ByteOrder) (m : Message) (e : MessageEnd) (x : Phase × List Event) : Prop :=
  match x.1 with
  | .awaitReady => writesTo .cs x.2 = []
  | .prepared => writesTo .cs x.2 = []
  | .selected => ∃ n, 1 ≤ n ∧ n ≤ 4 ∧ writesTo .cs x.2 = (selectWords m.slot).take n ∧
      (e ≠ .select → n = 4)
  | .transferring j => ∀ d, m.xfers[j]? = some d → Engaged order d x.2 ∧
      (j < e.done m.xfers.length → d.tx = none →
        (bytesOfWords order d.len (readsFrom .data x.2)).length = d.len)
  | .deselected => ∃ n, 1 ≤ n ∧ n ≤ 3 ∧ writesTo .cs x.2 = deselectWords.take n ∧
      (e = .success → n = 3)
  | .done => x.2 = []
  | .idle => x.2 = []

/-- What a message leaves in its descriptors' destinations, by its stages (R41, R118). -/
def messageBuffers (order : ByteOrder) (m : Message) (st : List (Phase × List Event)) :
    List (Option (List Byte)) :=
  m.xfers.mapIdx fun j d => destinationOf order d ((st.lookup (.transferring j)).getD [])

/-- The stages before and after the descriptors' do not speak of the destinations. -/
theorem messageBuffers_parts (order : ByteOrder) (m : Message)
    {hd xs tl : List (Phase × List Event)} {n : Nat}
    (hh : ∀ j, hd.lookup (.transferring j) = none)
    (hx : xs.map Prod.fst = (List.range n).map fun j => .transferring (0 + j))
    (ht : ∀ j, tl.lookup (.transferring j) = none) :
    messageBuffers order m (hd ++ xs ++ tl) = destinationsOf order m.xfers xs := by
  unfold messageBuffers destinationsOf
  congr 1; funext j d
  have := lookup_xfers hx j
  rw [Nat.zero_add] at this
  rw [List.lookup_append, List.lookup_append, hh, ht, this]; simp

/-- What a message did up to Done, in a run from `s` to `u` with the stages `st`. -/
structure MessageRan (order : ByteOrder) (m : Message) (s u : State)
    (st : List (Phase × List Event)) (e : MessageEnd) : Prop where
  ran : Ran s u (stageEvents st)
  staged : Staged s u st
  names : st.map Prod.fst = e.phases m.xfers.length
  regs : ∀ x ∈ stageEvents st, x.reg ∈ [Reg.cfg, .cs, .data]
  status : u.w.status = e.status
  bound : e.done m.xfers.length ≤ m.xfers.length
  notAll : e ≠ .xfers .all
  before : ∀ x, e = .xfers x → x.done m.xfers.length < m.xfers.length
  ops : u.ops.tail = s.ops
  actual : u.w.actual = bytesOfFirst (e.done m.xfers.length) m
  failed : e.status = .timedOut → FailedWait (stageEvents st)
  facts : ∀ x ∈ st, StageFacts order m e x
  buffers : m.illegal = none → u.buffers = messageBuffers order m st
  conflict : ∀ j d, m.xfers[j]? = some d →
    Phase.transferring j ∈ e.phases m.xfers.length → (d.tx.isSome && d.rx.isSome) = true →
    e = .xfers (.conflict j)
  conflicting : ∀ j, e = .xfers (.conflict j) →
    (∃ d, m.xfers[j]? = some d ∧ (d.tx.isSome && d.rx.isSome) = true) ∧
    ∃ st', st = st' ++ [(.transferring j, [])]

/-- A part of a message before its descriptors: its stages, and the working registers it kept. -/
structure HeadRan (m : Message) (s u : State) (st : List (Phase × List Event)) : Prop where
  ran : Ran s u (stageEvents st)
  staged : Staged s u st
  regs : ∀ x ∈ stageEvents st, x.reg ∈ [Reg.cfg, .cs, .data]
  status : u.w.status = .ok
  actual : u.w.actual = 0
  ops : u.ops.tail = s.ops
  buffers : u.buffers = m.xfers.map Descriptor.rx

theorem startMessage_head (m : Message) (s : State) :
    HeadRan m s (startMessage m s) [(.awaitReady, [])] where
  ran := .of_same rfl rfl rfl rfl rfl ⟨[⟨s.trace.length, .enter .transfer⟩,
    ⟨s.trace.length, .line .transfer 1⟩, ⟨s.trace.length, .phase .awaitReady⟩,
    ⟨s.trace.length, .line .transfer 2⟩], by simp [startMessage]⟩ rfl rfl rfl
  staged := ⟨by simp [startMessage], ⟨[⟨s.trace.length, .enter .transfer⟩,
    ⟨s.trace.length, .line .transfer 1⟩, ⟨s.trace.length, .phase .awaitReady⟩,
    ⟨s.trace.length, .line .transfer 2⟩], by simp [startMessage], rfl, fun _ => rfl⟩⟩
  regs := by simp
  status := rfl
  actual := rfl
  ops := rfl
  buffers := rfl

/-- A message goes on with an operation. -/
theorem HeadRan.op {m : Message} {s u : State} {st : List (Phase × List Event)} {p : Phase}
    {a b : List Event} {R : List Reg} {E : List Status} {r : Res}
    (h : HeadRan m s u (st ++ [(p, a)])) (g : OpRan R E u r b)
    (hR : ∀ x ∈ R, x ∈ [Reg.cfg, .cs, .data]) : HeadRan m s r.state (st ++ [(p, a ++ b)]) where
  ran := by simpa using h.ran.trans g.ran
  staged := h.staged.goOn g.ran.trace g.recorded
  regs := fun x hx => by
    have hx : x ∈ stageEvents (st ++ [(p, a)]) ++ b := by simpa using hx
    exact (List.mem_append.mp hx).elim (h.regs x) fun hx => hR _ (g.regs x hx)
  status := g.message.2.2.trans h.status
  actual := g.message.2.1.trans h.actual
  ops := g.ops.trans h.ops
  buffers := g.buffers.trans h.buffers

/-- A message comes to a line of TRANSFER. -/
theorem HeadRan.line {m : Message} {s u : State} {st : List (Phase × List Event)}
    (h : HeadRan m s u st) (n : Nat) : HeadRan m s (atLine .transfer n u) st where
  ran := h.ran.line .transfer n
  staged := h.staged.same (atLine_trace ..) (opRan_line (R := ioRegs) (E := ioEnds) (by simp)
    .transfer n u).recorded
  regs := h.regs
  status := h.status
  actual := h.actual
  ops := h.ops
  buffers := h.buffers

/-- A message enters its next state. -/
theorem HeadRan.enter {m : Message} {s u : State} {st : List (Phase × List Event)}
    (h : HeadRan m s u st) (p : Phase) : HeadRan m s (enterPhase p u) (st ++ [(p, [])]) where
  ran := by simpa using h.ran.trans (ran_enterPhase p u)
  staged := h.staged.trans (staged_enter p u)
  regs := by simpa using h.regs
  status := h.status
  actual := h.actual
  ops := h.ops
  buffers := h.buffers

/-- A message sets W.speed. -/
theorem HeadRan.setSpeed {m : Message} {s u : State} {st : List (Phase × List Event)}
    (h : HeadRan m s u st) (hz : Nat) : HeadRan m s (u.setW { u.w with speed := hz }) st :=
  ⟨h.ran.then_same (ran_setW u _), h.staged.same rfl (recorded_same rfl), h.regs, h.status,
    h.actual, h.ops, h.buffers⟩

/-- A message that ends before its descriptors. -/
theorem HeadRan.fails {order : ByteOrder} {m : Message} {s u : State}
    {st : List (Phase × List Event)} {e : MessageEnd} (h : HeadRan m s u st)
    (hn : st.map Prod.fst = e.phases m.xfers.length) (h0 : e.done m.xfers.length = 0)
    (hx : ∀ x, e ≠ .xfers x) (hp : ∀ j, Phase.transferring j ∉ e.phases m.xfers.length)
    (hf : e.status = .timedOut → FailedWait (stageEvents st))
    (facts : ∀ x ∈ st, StageFacts order m e x) :
    MessageRan order m s (takeError e.status u) st e where
  ran := h.ran.then_same (ran_takeError e.status u)
  staged := h.staged.same rfl (recorded_same rfl)
  names := hn
  regs := h.regs
  status := rfl
  bound := by omega
  notAll := hx _
  before := fun x hx' => absurd hx' (hx x)
  ops := h.ops
  actual := by rw [h0]; exact h.actual
  failed := hf
  facts := facts
  buffers := fun _ => by
    have hl : ∀ j, st.lookup (.transferring j) = none := fun j => by
      cases hl : st.lookup (.transferring j) with
      | none => rfl
      | some es =>
        exact absurd (hn ▸ List.mem_map_of_mem (f := Prod.fst) (mem_of_lookup hl)) (hp j)
    have := messageBuffers_parts order m (hd := st) (xs := []) (tl := []) (n := 0) hl rfl
      fun _ => rfl
    rw [List.append_nil, List.append_nil, destinationsOf_nil] at this
    rw [this]; exact h.buffers
  conflict := fun j _ _ hj _ => absurd hj (hp j)
  conflicting := fun j hj => absurd hj (hx _)

theorem mem_transferring {j n : Nat} :
    Phase.transferring j ∈ [Phase.awaitReady, .prepared, .selected] ++
      (List.range n).map Phase.transferring ↔ j < n := by
  simp

theorem writesTo_cs_of_regs {es : List Event} (h : ∀ e ∈ es, e.reg ∈ [Reg.cfg]) :
    writesTo .cs es = [] := by
  induction es with
  | nil => rfl
  | cons e es ih =>
    have h1 := h e (List.mem_cons_self ..)
    have h2 := ih fun x hx => h x (List.mem_cons_of_mem _ hx)
    cases e with
    | rd r v => simpa [writesTo] using h2
    | wr r v =>
      have : r = .cfg := by simpa [Event.reg] using h1
      subst this; simpa [writesTo] using h2

/-- A message none of whose descriptors is illegal. -/
theorem message_legal {m : Message} (h : m.illegal = none) : ∀ d ∈ m.xfers, d.illegal = none := by
  unfold Message.illegal at h
  split at h
  · cases h
  · exact List.findSome?_eq_none_iff.mp h

/-- Everything TRANSFER can do up to Done, for any device. -/
theorem transfer_ran (order : ByteOrder) (m : Message) (s : State) : ∃ st e,
    MessageRan order m s (catchError (runMessage order m (startMessage m s))) st e := by
  have io : ∀ x ∈ ioRegs, x ∈ [Reg.cfg, .cs, .data] := by decide
  have h0 := startMessage_head m s
  obtain ⟨a1, g1, -⟩ := waitAt_opRan (R := ioRegs) (E := ioEnds) (by simp) (by simp) (by simp)
    .transfer 3 (startMessage m s)
  have h1 := h0.op (st := []) g1 io
  have c1 : ∀ e, StageFacts order m e (.awaitReady, [] ++ a1) := fun _ =>
    (waitAt_writesTo g1.ran .cs :)
  unfold runMessage
  cases e1 : waitAt .transfer 3 (startMessage m s) with
  | raise x u =>
    have hx := Res.raised e1 (waitReady_clean _) g1.status
    rw [e1] at h1 g1; subst hx
    exact ⟨_, .awaitReady, h1.fails (e := .awaitReady) rfl rfl (by simp) (by simp [MessageEnd.phases])
      (fun _ => by simpa using g1.failed rfl) (by simpa using c1 _)⟩
  | ok u1 =>
  rw [e1] at h1
  have h2 := ((((((show HeadRan m s u1 _ from h1).line 4).enter .prepared).line 5).line 6).setSpeed
    (messageSpeed m)).line 7
  simp only [Res.andThen_ok]
  generalize hs2 : atLine .transfer 7 ((atLine .transfer 6 (atLine .transfer 5 (enterPhase .prepared
    (atLine .transfer 4 u1)))).setW { (atLine .transfer 6 (atLine .transfer 5 (enterPhase .prepared
    (atLine .transfer 4 u1)))).w with speed := messageSpeed m }) = s2 at h2
  simp only [setW_w]
  obtain ⟨a2, g2, -⟩ := negotiate_opRan (messageSpeed m) s2
  have h3 := h2.op g2 (by decide)
  have c2 : ∀ e, StageFacts order m e (.prepared, [] ++ a2) := fun _ =>
    (writesTo_cs_of_regs g2.regs :)
  cases e2 : negotiate (messageSpeed m) s2 with
  | raise x u =>
    have hx := Res.raised e2 (negotiate_clean _ _) g2.status
    rw [e2] at h3; subst hx
    exact ⟨_, .speed, h3.fails (e := .speed) rfl rfl (by simp) (by simp [MessageEnd.phases])
      (fun h => by cases h) (by simpa using ⟨c1 _, c2 _⟩)⟩
  | ok u2 =>
  rw [e2] at h3
  have h4 := (((show HeadRan m s u2 _ from h3).line 8).enter .selected).line 9
  simp only [Res.andThen_ok]
  generalize atLine .transfer 9 (enterPhase .selected (atLine .transfer 8 u2)) = s4 at h4 ⊢
  obtain ⟨a3, g3, -, -⟩ := select_opRan m.slot s4
  obtain ⟨a3', w3⟩ := select_sent m.slot s4
  obtain rfl := w3.ran.unique g3.ran
  have h5 := h4.op g3 io
  have c3 : ∀ e, (e = .select ∨ (∃ t, select m.slot s4 = .ok t)) →
      StageFacts order m e (.selected, [] ++ a3') := by
    intro e he
    obtain ⟨n, h1, h4, hw, hn⟩ := w3.count
    exact ⟨n, h1, h4, hw, fun hne => by
      rcases he with rfl | ⟨t, ht⟩
      · exact absurd rfl hne
      · exact hn t ht⟩
  cases e3 : select m.slot s4 with
  | raise x u =>
    have hx := Res.raised e3 (select_clean _ _) g3.status
    rw [e3] at h5 g3; subst hx
    exact ⟨_, .select, h5.fails (e := .select) rfl rfl (by simp) (by simp [MessageEnd.phases])
      (fun _ => by simpa using ((g3.failed rfl).prepend a2).prepend a1)
      (by simpa using ⟨c1 _, c2 _, c3 _ (.inl rfl)⟩)⟩
  | ok u3 =>
  rw [e3] at h5
  have h6 := (show HeadRan m s u3 _ from h5).line 10
  have c3 : ∀ e, StageFacts order m e (.selected, [] ++ a3') := fun e => c3 e (.inr ⟨u3, e3⟩)
  simp only [Res.andThen_ok]
  generalize atLine .transfer 10 u3 = s6 at h6 ⊢
  generalize hhd : [] ++ [(Phase.awaitReady, [] ++ a1)] ++ [(.prepared, [] ++ a2)] ++
    [(.selected, [] ++ a3')] = hd at h6
  have hdl : ∀ j, hd.lookup (.transferring j) = none := fun j => by subst hhd; rfl
  have hdn : hd.map Prod.fst = [.awaitReady, .prepared, .selected] := by subst hhd; rfl
  have hdf : ∀ e, ∀ x ∈ hd, StageFacts order m e x := fun e => by
    subst hhd; simpa using ⟨c1 e, c2 e, c3 e⟩
  obtain ⟨xs, e, g4⟩ := runXfers_ran order m.xfers 0 s6
  have hxf : ∀ f : MessageEnd, f.done m.xfers.length = e.done m.xfers.length →
      ∀ x ∈ xs, StageFacts order m f x := by
    intro f hf x hx
    obtain ⟨j, hj, hp, -⟩ := g4.stage hx
    obtain ⟨p, es⟩ := x
    simp only [Nat.zero_add] at hp; subst hp
    intro d hd
    rw [hf]; exact g4.engaged j d _ es hd hj
  have hran : Ran s (runXfers order 0 m.xfers s6).state (stageEvents (hd ++ xs)) := by
    rw [stageEvents_append]; exact h6.ran.trans g4.ran
  have hstg := h6.staged.trans g4.staged
  have hnm : (hd ++ xs).map Prod.fst = [.awaitReady, .prepared, .selected] ++
      (List.range (e.entered m.xfers.length)).map Phase.transferring := by
    rw [List.map_append, hdn, g4.names]; simp
  have hact : (runXfers order 0 m.xfers s6).state.w.actual =
      bytesOfFirst (e.done m.xfers.length) m := by
    rw [g4.actual, h6.actual, Nat.zero_add]; rfl
  have hrg : ∀ x ∈ stageEvents (hd ++ xs), x.reg ∈ [Reg.cfg, .cs, .data] := fun x hx => by
    rw [stageEvents_append] at hx
    exact (List.mem_append.mp hx).elim (h6.regs x) fun hx => io _ (g4.regs x hx)
  have hst : (runXfers order 0 m.xfers s6).state.w.status = .ok := g4.kept.2.trans h6.status
  have hop : (runXfers order 0 m.xfers s6).state.ops.tail = s.ops := g4.ops.trans h6.ops
  have hbf : ∀ tl : List (Phase × List Event), (∀ j, tl.lookup (.transferring j) = none) →
      m.illegal = none →
      (runXfers order 0 m.xfers s6).state.buffers = messageBuffers order m (hd ++ xs ++ tl) := by
    intro tl htl hl
    rw [messageBuffers_parts order m hdl g4.names htl,
      g4.buffers (message_legal hl) [] rfl (by simpa using h6.buffers)]; rfl
  have hstat := g4.status
  have hfail := g4.failed
  have hconf := g4.conflict
  cases e4 : runXfers order 0 m.xfers s6 with
  | raise x u =>
    rw [e4] at hran hstg hact hst hop hbf hstat hfail
    have hx : x = e.status := hstat
    have hne : e ≠ .all := by
      intro h; subst h
      have := runXfers_clean order m.xfers 0 s6
      rw [e4] at this; exact this hx
    subst hx
    refine ⟨hd ++ xs, .xfers e, ?_⟩
    exact {
      ran := hran.then_same (ran_takeError e.status u)
      staged := hstg.same rfl (recorded_same rfl)
      names := hnm, regs := hrg, status := rfl, bound := g4.bound
      notAll := by intro h; cases h; exact hne rfl
      before := by intro x h; cases h; exact g4.before hne
      ops := hop, actual := hact
      failed := fun h => by rw [stageEvents_append]; exact (hfail h).prepend _
      facts := fun x hx => (List.mem_append.mp hx).elim (hdf _ x) (hxf _ rfl x)
      buffers := fun hl => (hbf [] (fun _ => rfl) hl).trans (by rw [List.append_nil])
      conflict := by
        intro j d hd hj hb
        rw [hconf j d hd (mem_transferring.mp hj) hb]
      conflicting := by
        intro j hj; cases hj
        obtain ⟨h1, st', h2⟩ := g4.conflicting j rfl
        exact ⟨h1, hd ++ st', by rw [h2]; simp⟩ }
  | ok u4 =>
  rw [e4] at hran hstg hact hst hop hbf hstat
  have he : e = .all := by cases e <;> first | rfl | cases hstat
  subst he
  simp only [Res.andThen_ok]
  have hran5 := ((hran.line .transfer 20).then_same (ran_enterPhase .deselected _)).line .transfer 21
  have line : ∀ (n : Nat) (s : State), Recorded s (atLine .transfer n s) [] := fun n s =>
    (opRan_line (R := ioRegs) (E := ioEnds) (by simp) .transfer n s).recorded
  have hstg5 := ((hstg.same (atLine_trace ..) (line 20 _)).trans (staged_enter .deselected _)).same
    (atLine_trace ..) (line 21 _)
  have w5 : (atLine .transfer 21 (enterPhase .deselected (atLine .transfer 20 u4))).w = u4.w := rfl
  have o5 : (atLine .transfer 21 (enterPhase .deselected (atLine .transfer 20 u4))).ops.tail =
    u4.ops.tail := rfl
  have b5 : (atLine .transfer 21 (enterPhase .deselected (atLine .transfer 20 u4))).buffers =
    u4.buffers := rfl
  simp only [Res.state_ok] at hran5 hstg5
  generalize atLine .transfer 21 (enterPhase .deselected (atLine .transfer 20 u4)) = s5
    at hran5 hstg5 w5 o5 b5 ⊢
  obtain ⟨a5, g5, -, -⟩ := deselect_opRan s5
  obtain ⟨a5', w5'⟩ := deselect_sent s5
  obtain rfl := w5'.ran.unique g5.ran
  have hcf : ∀ (e : MessageEnd), e.phases m.xfers.length = phaseOrder m.xfers.length →
      ∀ j d, m.xfers[j]? = some d → Phase.transferring j ∈ e.phases m.xfers.length →
      (d.tx.isSome && d.rx.isSome) = true → e = .xfers (.conflict j) := by
    intro e he j d hd hj hb
    have : j < m.xfers.length := by
      rw [he] at hj; simpa [phaseOrder] using hj
    have := hconf j d hd this hb
    cases this
  have c5 : ∀ e, (e = .success → ∃ t, deselect s5 = .ok t) →
      StageFacts order m e (.deselected, a5') := by
    intro e he
    obtain ⟨n, h1, h3, hw, hn⟩ := w5'.count
    exact ⟨n, h1, h3, hw, fun hs => by obtain ⟨t, ht⟩ := he hs; exact hn t ht⟩
  have hev : stageEvents (hd ++ xs ++ [(Phase.deselected, a5')]) = stageEvents (hd ++ xs) ++ a5' := by
    simp
  have hran6 : Ran s (deselect s5).state (stageEvents (hd ++ xs ++ [(Phase.deselected, a5')])) := by
    rw [hev]; exact hran5.trans g5.ran
  have hstg6 : Staged s (deselect s5).state (hd ++ xs ++ [(Phase.deselected, a5')]) :=
    hstg5.goOn g5.ran.trace g5.recorded
  have hnm6 : (hd ++ xs ++ [(Phase.deselected, a5')]).map Prod.fst = phaseOrder m.xfers.length := by
    rw [List.map_append, hnm]; simp [phaseOrder, XfersEnd.entered]
  have hrg6 : ∀ x ∈ stageEvents (hd ++ xs ++ [(Phase.deselected, a5')]),
      x.reg ∈ [Reg.cfg, .cs, .data] := fun x hx => by
    rw [hev] at hx
    exact (List.mem_append.mp hx).elim (hrg x) fun hx => io _ (g5.regs x hx)
  have hfc6 : ∀ e : MessageEnd, e.done m.xfers.length = m.xfers.length →
      (e = .success → ∃ t, deselect s5 = .ok t) →
      ∀ x ∈ hd ++ xs ++ [(Phase.deselected, a5')], StageFacts order m e x := by
    intro e hd' he x hx
    rcases List.mem_append.mp hx with hx | hx
    · exact (List.mem_append.mp hx).elim (hdf _ x) (hxf _ hd' x)
    · rw [List.mem_singleton.mp hx]; exact c5 e he
  have hbf6 := hbf [(Phase.deselected, a5')] fun _ => rfl
  have hact6 := g5.message.2.1.trans ((congrArg Work.actual w5).trans hact)
  have hst6 := g5.message.2.2.trans ((congrArg Work.status w5).trans hst)
  have hop6 := g5.ops.trans (o5.trans hop)
  have hb6 := g5.buffers.trans b5
  refine ⟨hd ++ xs ++ [(Phase.deselected, a5')],
    if (deselect s5).status = .ok then .success else .deselect, ?_⟩
  cases e5 : deselect s5 with
  | raise x u =>
    have hx := Res.raised e5 (deselect_clean _) g5.status
    rw [e5] at hran6 hstg6 g5 hact6 hop6 hb6; subst hx
    exact {
      ran := hran6.then_same (ran_takeError .timedOut u)
      staged := hstg6.same rfl (recorded_same rfl)
      names := hnm6, regs := hrg6, status := rfl, bound := Nat.le_refl _
      notAll := by simp [Res.status], before := by simp [Res.status]
      ops := hop6, actual := hact6
      failed := fun _ => by rw [hev]; exact (g5.failed rfl).prepend _
      facts := hfc6 .deselect rfl (fun h => by cases h)
      buffers := fun hl => (show u.buffers = _ from hb6).trans (hbf6 hl)
      conflict := hcf .deselect rfl, conflicting := by simp [Res.status] }
  | ok u =>
    rw [e5] at hran6 hstg6 hact6 hst6 hop6 hb6
    exact {
      ran := hran6, staged := hstg6, names := hnm6, regs := hrg6, status := hst6
      bound := Nat.le_refl _, notAll := by simp [Res.status], before := by simp [Res.status]
      ops := hop6, actual := hact6, failed := fun h => by cases h
      facts := hfc6 .success rfl (fun _ => ⟨u, e5⟩)
      buffers := fun hl => hb6.trans (hbf6 hl)
      conflict := hcf .success rfl, conflicting := by simp [Res.status] }

/-- The states a message enters stand in its record once each. -/
theorem MessageEnd.phases_nodup (e : MessageEnd) (n : Nat) : (e.phases n).Nodup := by
  have hr : ∀ k, ((List.range k).map Phase.transferring).Nodup := fun k =>
    (List.nodup_range).map fun a b h => by simpa using h
  cases e <;> simp [MessageEnd.phases, phaseOrder, List.nodup_append, hr]

/-- Done and Idle, which make no access (R127). -/
theorem staged_finish (st : Status) (s : State) :
    Staged s (leaveOp .transfer st (finishMessage s)) [(.done, []), (.idle, [])] :=
  ⟨by simp [finishMessage, report], ⟨[⟨s.trace.length, .line .transfer 23⟩,
    ⟨s.trace.length, .phase .done⟩, ⟨s.trace.length, .line .transfer 24⟩,
    ⟨s.trace.length, .line .transfer 25⟩, ⟨s.trace.length, .phase .idle⟩,
    ⟨s.trace.length, .leave .transfer st⟩], by simp [finishMessage, report], rfl, fun _ => rfl⟩⟩

/-- Everything a TRANSFER call can do: it runs to Done, reports once, and is Idle again (R121, R127);
`Staged` gives the accesses of each state (`Staged.accessesIn`), the states (`Staged.phases`) and the
guards (`Staged.guarded`). -/
theorem transfer_cases {m : Message} {s t : State} (h : exec (.transfer m) s = .next t) :
    ∃ st e u, MessageRan Config.hostByteOrder m s u st e ∧
      t = leaveOp .transfer u.w.status (finishMessage u) ∧
      Staged s t (st ++ [(.done, []), (.idle, [])]) ∧
      t.buffers = messageBuffers Config.hostByteOrder m st ∧
      t.reports = s.reports ++
        [⟨e.status, .message (bytesOfFirst (e.done m.xfers.length) m) t.buffers⟩] := by
  obtain ⟨-, hl, rfl⟩ := exec_next_iff.mp h
  obtain ⟨st, e, hu⟩ := transfer_ran Config.hostByteOrder m s
  have hl : m.illegal = none := hl
  exact ⟨st, e, _, hu, rfl, hu.staged.trans (staged_finish _ _), hu.buffers hl, by
    rw [← hu.status, ← hu.actual, ← hu.ran.reports]; rfl⟩

end Sys2Proof.Machine
end

