-- ==== Sys2Proof/Laws/Ready.lean ====
section
/-! SUPPORT. What each operation does on a device that is ready at every wait, said once: it succeeds,
and makes exactly the accesses of its expected sequence (Safety.lean's items). -/

namespace Sys2Proof.Machine

/-! ### Sequences -/

theorem readCount_append (a b : List Item) : readCount (a ++ b) = readCount a + readCount b := by
  induction a with
  | nil => simp [readCount]
  | cons i is ih => cases i <;> simp [readCount, ih] <;> omega

theorem eventsOf_append (s : State) (a b : List Item) : ∀ k,
    eventsOf s k (a ++ b) = eventsOf s k a ++ eventsOf s (k + readCount a) b := by
  induction a with
  | nil => intro k; simp [eventsOf, readCount]
  | cons i is ih =>
    intro k; cases i <;> simp [eventsOf, readCount, ih, Nat.add_assoc, Nat.add_comm 1]

theorem readyAt_append (s : State) (a b : List Item) : ∀ k,
    readyAt s k (a ++ b) = (readyAt s k a && readyAt s (k + readCount a) b) := by
  induction a with
  | nil => intro k; simp [readyAt, readCount]
  | cons i is ih =>
    intro k
    cases i <;> simp [readyAt, readCount, ih, Nat.add_assoc, Nat.add_comm 1, Bool.and_assoc]

theorem length_answersUsed_eventsOf (s : State) (is : List Item) : ∀ k,
    (answersUsed (eventsOf s k is)).length = readCount is := by
  induction is with
  | nil => exact fun _ => rfl
  | cons i is ih => intro k; cases i <;> simp [eventsOf, answersUsed, readCount, ih]

theorem eventsOf_shift {s t : State} {n : Nat} (h : ∀ k, t.answerAt k = s.answerAt (n + k))
    (is : List Item) : ∀ k, eventsOf t k is = eventsOf s (n + k) is := by
  induction is with
  | nil => exact fun _ => rfl
  | cons i is ih => intro k; cases i <;> simp [eventsOf, ih, h, Nat.add_assoc]

theorem readyAt_shift {s t : State} {n : Nat} (h : ∀ k, t.answerAt k = s.answerAt (n + k))
    (is : List Item) : ∀ k, readyAt t k is = readyAt s (n + k) is := by
  induction is with
  | nil => exact fun _ => rfl
  | cons i is ih => intro k; cases i <;> simp [readyAt, ih, h, Nat.add_assoc]

/-- The operation succeeded from `s`, by the accesses of `is`, in a state with `P`. -/
def Goes (s : State) (r : Res) (is : List Item) (P : State → Prop) : Prop :=
  ∃ t, r = .ok t ∧ Ran s t (eventsOf s 0 is) ∧ P t

theorem Goes.answerAt {s t : State} {is : List Item} (h : Ran s t (eventsOf s 0 is)) (k : Nat) :
    t.answerAt k = s.answerAt (readCount is + k) := by
  rw [h.answerAt, length_answersUsed_eventsOf]

/-- Sequencing. -/
theorem Goes.andThen {s : State} {r : Res} {a b : List Item} {P Q : State → Prop}
    {g : State → Res} (h : readyAt s 0 (a ++ b) = true)
    (h1 : readyAt s 0 a = true → Goes s r a P)
    (h2 : ∀ t, P t → readyAt t 0 b = true → Goes t (g t) b Q) :
    Goes s (r.andThen g) (a ++ b) Q := by
  rw [readyAt_append, Bool.and_eq_true] at h
  obtain ⟨t, rfl, ht, hP⟩ := h1 h.1
  have hs := Goes.answerAt ht
  obtain ⟨u, hu, hr, hQ⟩ := h2 t hP (by rw [readyAt_shift hs, Nat.add_zero, ← Nat.zero_add (readCount a)]; exact h.2)
  refine ⟨u, hu, ?_, hQ⟩
  rw [eventsOf_append, Nat.zero_add]
  have := ht.trans hr
  rwa [eventsOf_shift hs, Nat.add_zero] at this

theorem Goes.mono {s : State} {r : Res} {is : List Item} {P Q : State → Prop} (h : Goes s r is P)
    (hPQ : ∀ t, P t → Q t) : Goes s r is Q := by
  obtain ⟨t, h1, h2, h3⟩ := h; exact ⟨t, h1, h2, hPQ t h3⟩

theorem Goes.ok {s t : State} {is : List Item} {P : State → Prop} (h : Ran s t (eventsOf s 0 is))
    (hP : P t) : Goes s (.ok t) is P := ⟨t, rfl, h, hP⟩

/-- A change that makes no access leaves the device as ready as it was. -/
theorem Ran.readyAt {s t : State} (h : Ran s t []) (is : List Item) (k : Nat) :
    readyAt t k is = readyAt s k is := by
  rw [readyAt_shift (n := 0) (s := s) (fun k => by rw [h.answerAt]; rfl), Nat.zero_add]

/-- A change that makes no access, and then an operation. -/
theorem Goes.after {s t : State} {r : Res} {is : List Item} {P : State → Prop} (h : Ran s t [])
    (g : Goes t r is P) : Goes s r is P := by
  obtain ⟨u, h1, h2, h3⟩ := g
  refine ⟨u, h1, ?_, h3⟩
  have := h.trans h2
  rwa [List.nil_append, eventsOf_shift (n := 0) (s := s) (fun k => by rw [h.answerAt]; rfl),
    Nat.zero_add] at this

/-- `return Ok`. -/
theorem Goes.return {s : State} {r : Res} {is : List Item} {P Q : State → Prop} (h : Goes s r is P)
    (o : OpName) (n : Nat) (hPQ : ∀ t, P t → Q (atLine o n t)) :
    Goes s (r.andThen fun t => returnAt o n t) is Q := by
  obtain ⟨t, rfl, h2, h3⟩ := h; exact ⟨_, rfl, h2.line o n, hPQ t h3⟩

/-- An operation called as the innermost one. -/
theorem Goes.within {o : OpName} {body : State → Res} {s : State} {is : List Item}
    {P Q : State → Prop} (h : Goes (enterOp o s) (body (enterOp o s)) is P)
    (hPQ : ∀ t, P t → Q (leaveOp o .ok t)) : Goes s (within o body s) is Q := by
  obtain ⟨t, h1, h2, h3⟩ := Goes.after (ran_enterOp o s) h
  refine ⟨leaveOp o .ok t, by simp [Machine.within, h1], ?_, hPQ t h3⟩
  exact h2.then_same (ran_leaveOp o .ok t)

/-! ### The operations -/

theorem wait_goes {o : OpName} {n : Nat} {s : State} (h : readyAt s 0 [.wait] = true) :
    Goes s (waitAt o n s) [.wait] (fun t => t = (atLine o n s).polled 1) := by
  have h0 : rdy ((atLine o n s).answerAt 0) = true := by simpa [readyAt] using h
  refine ⟨_, waitReady_ready h0, ?_, rfl⟩
  have := (ran_polled (atLine o n s) 1).after_line
  simpa [polls, eventsOf] using this

/-- A wait and the access after it. -/
theorem unit_goes {o : OpName} {n : Nat} {s : State} {f : State → State} {i : Item}
    (hran : Ran ((atLine o n s).polled 1) (f ((atLine o n s).polled 1)) (eventsOf s 1 [i]))
    (h : readyAt s 0 [.wait, i] = true) :
    Goes s ((waitAt o n s).andThen fun t => .ok (f t)) [.wait, i]
      (fun t => t = f ((atLine o n s).polled 1)) := by
  have h0 : rdy ((atLine o n s).answerAt 0) = true := by
    simp only [readyAt, Bool.and_eq_true] at h; exact h.1
  have hw : waitAt o n s = .ok ((atLine o n s).polled 1) := waitReady_ready h0
  refine ⟨_, by rw [hw]; rfl, ?_, rfl⟩
  have := ((ran_polled (atLine o n s) 1).trans hran).after_line
  simpa [polls, eventsOf] using this

theorem writeCsAndWait_goes (o : OpName) (n m : Nat) (v : Word) {s : State}
    (h : readyAt s 0 [.wr .cs v, .wait] = true) :
    Goes s (writeCsAndWait o n m v s) [.wr .cs v, .wait]
      (fun t => t = (atLine o m (regWrite .cs v (atLine o n s))).polled 1) :=
  Goes.andThen (r := .ok (regWrite .cs v (atLine o n s))) (a := [.wr .cs v]) (b := [.wait])
    (P := fun t => t = regWrite .cs v (atLine o n s)) h
    (fun _ => .ok (ran_regWrite .cs v _).after_line rfl)
    (fun t ht hr => by subst ht; exact wait_goes hr)

/-- What the chip-select sequencer leaves alone, and W.poll after a wait that succeeded at once; the
position in the innermost operation, and the record, set aside. -/
structure SelKept (v : Word) (s t : State) : Prop where
  same : { t with
      ops := s.ops, seqLog := s.seqLog, trace := s.trace, answers := s.answers, draws := s.draws } =
    { s with w := { s.w with poll := 1 }, window := { s.window with cs := v } }
  ops : t.ops.tail = s.ops.tail

theorem SelKept.write {v v' : Word} {s t : State} (h : SelKept v s t) (o : OpName) (n m : Nat) :
    SelKept v' s ((atLine o m (regWrite .cs v' (atLine o n t))).polled 1) := by
  obtain ⟨h, h'⟩ := h
  obtain ⟨handle, seq, ops, seqLog, w, window, spi, answers, draws, trace, out, filled, buffers, reports,
    calls⟩ := t
  simp only [State.mk.injEq] at h
  obtain ⟨rfl, rfl, -, -, rfl, rfl, rfl, -, -, -, rfl, rfl, rfl, rfl, rfl⟩ := h
  exact ⟨rfl, h'⟩

theorem SelKept.line {v : Word} {s t : State} (h : SelKept v s t) (o : OpName) (n : Nat) :
    SelKept v s (atLine o n t) := ⟨h.same, h.ops⟩

theorem SelKept.of_line {v : Word} {o : OpName} {n : Nat} {s t : State}
    (h : SelKept v (atLine o n s) t) : SelKept v s t := by
  obtain ⟨h, h'⟩ := h
  obtain ⟨handle, seq, ops, seqLog, w, window, spi, answers, draws, trace, out, filled, buffers, reports,
    calls⟩ := t
  simp only [atLine, State.mark, State.mk.injEq] at h
  obtain ⟨rfl, rfl, -, -, rfl, rfl, rfl, -, -, -, rfl, rfl, rfl, rfl, rfl⟩ := h
  exact ⟨rfl, h'⟩

/-- The operations in progress, and the record, are no part of what it leaves alone. -/
theorem SelKept.leave {v : Word} {o : OpName} {st : Status} {s t : State}
    (h : SelKept v (enterOp o s) t) : SelKept v s (leaveOp o st t) ∧ (leaveOp o st t).ops = s.ops := by
  obtain ⟨h, h'⟩ := h
  obtain ⟨handle, seq, ops, seqLog, w, window, spi, answers, draws, trace, out, filled, buffers, reports,
    calls⟩ := t
  simp only [enterOp, State.mark, State.mk.injEq] at h
  obtain ⟨rfl, rfl, -, -, rfl, rfl, rfl, -, -, -, rfl, rfl, rfl, rfl, rfl⟩ := h
  have h' : ops.tail = s.ops := h'
  exact ⟨⟨rfl, by simp [h']⟩, by simp [h']⟩

/-- DESELECT on a ready device (R107). -/
theorem deselect_goes {s : State} (h : readyAt s 0 pulseItems = true) :
    Goes s (deselect s) pulseItems (fun t => SelKept 0xC0000000#32 s t ∧ t.ops = s.ops) := by
  rw [← (ran_enterOp .deselect s).readyAt] at h
  refine Goes.within (body := deselectBody) (P := SelKept 0xC0000000#32 (enterOp .deselect s)) ?_
    fun t ht => ht.leave
  generalize enterOp .deselect s = s at h
  refine Goes.andThen (a := [.wr .cs 0xC0000000#32, .wait])
    (P := SelKept 0xC0000000#32 s) (b := [.wr .cs 0x00000000#32, .wait, .wr .cs 0xC0000000#32, .wait])
    h (fun h => (writeCsAndWait_goes .deselect 1 2 _ h).mono ?_) fun t ht h1 => ?_
  · rintro _ rfl; exact ⟨rfl, rfl⟩
  refine Goes.andThen (a := [.wr .cs 0x00000000#32, .wait])
    (P := SelKept 0x00000000#32 s) (b := [.wr .cs 0xC0000000#32, .wait])
    h1 (fun h => (writeCsAndWait_goes .deselect 3 4 _ h).mono ?_) fun t ht h2 => ?_
  · rintro _ rfl; exact ht.write _ _ _
  refine (writeCsAndWait_goes .deselect 5 6 _ h2).return _ _ ?_
  rintro _ rfl; exact (ht.write _ _ _).line _ _

/-- SELECT on a ready device (R108). -/
theorem select_goes {slot : Nat} {s : State} (h : readyAt s 0 (selectItems slot) = true) :
    Goes s (select slot s) (selectItems slot)
      (fun t => SelKept (selectWord slot) s t ∧ t.ops = s.ops) := by
  rw [← ((ran_enterOp .select s).line .select 1).readyAt] at h
  refine Goes.within (body := selectBody slot) (P := SelKept (selectWord slot) (enterOp .select s)) ?_
    fun t ht => ht.leave
  generalize enterOp .select s = s at h
  refine Goes.after (ran_atLine .select 1 s) (Goes.andThen h deselect_goes fun t ht h1 => ?_)
  rw [← (ran_atLine .select 2 t).readyAt] at h1
  refine Goes.after (ran_atLine .select 2 t)
    ((writeCsAndWait_goes .select (selectLine slot) 6 (selectWord slot) h1).return _ _ ?_)
  rintro _ rfl
  exact ((ht.1.of_line.line .select 2).write _ _ _).line _ _

/-- The start of a transfer on a ready device. -/
theorem startTransfer_goes {o : OpName} {s : State}
    (h : readyAt s 0 [.rd .cs, .wait, .wr .cs (s.answerAt 0 ||| lenMask)] = true) :
    Goes s (startTransfer o s) [.rd .cs, .wait, .wr .cs (s.answerAt 0 ||| lenMask)]
      (fun t => t.w.i = 0 ∧ t.w.cs = s.answerAt 0 &&& ~~~lenMask) := by
  have hor : ((s.answerAt 0) &&& ~~~lenMask) ||| lenMask = s.answerAt 0 ||| lenMask := by
    ext i; simp only [BitVec.getElem_or, BitVec.getElem_and, BitVec.getElem_not]
    cases (s.answerAt 0)[i] <;> cases lenMask[i] <;> rfl
  change Goes s ((Res.ok (tookCs o s)).andThen fun u =>
      (waitAt o 2 u).andThen fun t => .ok (putLen4 o t))
    ([.rd .cs] ++ [.wait, .wr .cs (s.answerAt 0 ||| lenMask)]) _
  refine Goes.andThen (r := .ok (tookCs o s)) (a := [.rd .cs])
    (b := [.wait, .wr .cs (s.answerAt 0 ||| lenMask)]) (P := fun t => t = tookCs o s) h
    (fun _ => .ok (ran_tookCs o s) rfl) fun t ht hr => ?_
  subst ht
  refine (unit_goes (f := putLen4 o) ?_ hr).mono ?_
  · have := ran_putLen4 o ((atLine o 2 (tookCs o s)).polled 1)
    rwa [show len4Word ((atLine o 2 (tookCs o s)).polled 1).w.cs = s.answerAt 0 ||| lenMask from hor]
      at this
  · rintro _ rfl
    exact ⟨by simp [putLen4], by simp [putLen4, State.polled, tookCs, len1Word]⟩

/-- The start of Phase B on a ready device. -/
theorem startPhaseB_goes {o : OpName} {s : State} {v : Word} (hv : s.w.cs = v)
    (h : readyAt s 0 [.wait, .wr .cs v] = true) :
    Goes s (startPhaseB o s) [.wait, .wr .cs v] (fun t => t.w.i = s.w.i) := by
  subst hv
  refine (unit_goes (f := putLen1 o) (ran_putLen1 o _) h).mono ?_
  rintro _ rfl; simp [putLen1, State.polled]

/-- A loop of waits, each followed by one access, on a ready device. -/
theorem loop_goes {o : OpName} {n m : Nat} {item : Nat → Item} {step : State → State} {loop : Nat → State → Res}
    (hran : ∀ t k s, (∀ j, t.answerAt j = s.answerAt (k + j)) →
      Ran t (step t) (eventsOf s k [item t.w.i]))
    (hi : ∀ t, (step t).w.i = t.w.i + m) (hc : ∀ t, (step t).w.cs = t.w.cs)
    (h0 : ∀ s, loop 0 s = .ok s)
    (hs : ∀ k s, loop (k + 1) s =
      ((waitAt o n s).andThen fun t => .ok (step t)).andThen (loop k)) :
    ∀ k s, readyAt s 0 ((List.range k).flatMap fun q => [.wait, item (s.w.i + m * q)]) = true →
      Goes s (loop k s) ((List.range k).flatMap fun q => [.wait, item (s.w.i + m * q)])
        (fun t => t.w.i = s.w.i + m * k ∧ t.w.cs = s.w.cs) := by
  intro k
  induction k with
  | zero => intro s _; rw [h0]; exact .ok (.refl s) ⟨rfl, rfl⟩
  | succ k ih =>
    intro s h
    have hsplit : ((List.range (k + 1)).flatMap fun q => [.wait, item (s.w.i + m * q)]) =
        [.wait, item s.w.i] ++
          (List.range k).flatMap fun q => [.wait, item ((s.w.i + m) + m * q)] := by
      rw [List.range_succ_eq_map, List.flatMap_cons, List.flatMap_map]
      simp [Nat.mul_add, Nat.add_assoc, Nat.add_comm m]
    rw [hsplit] at h ⊢
    rw [hs]
    refine Goes.andThen (P := fun t => t = step ((atLine o n s).polled 1)) h
      (fun h => unit_goes (f := step) ?_ h) fun t ht hr => ?_
    · exact hran ((atLine o n s).polled 1) 1 s fun j => (ran_polled (atLine o n s) 1).answerAt j
    · subst ht
      have hi' : (step ((atLine o n s).polled 1)).w.i = s.w.i + m := hi _
      have hc' : (step ((atLine o n s).polled 1)).w.cs = s.w.cs := hc _
      rw [← hi'] at hr ⊢
      refine (ih _ hr).mono fun t ht => ⟨?_, ht.2.trans hc'⟩
      rw [ht.1, hi', Nat.mul_add, Nat.mul_one]; omega

theorem map_flatMap_wait {f : Nat → Word} (k : Nat) :
    ((List.range k).map f).flatMap (fun v => [Item.wait, .wr .data v]) =
      (List.range k).flatMap fun q => [.wait, .wr .data (f q)] := by
  rw [List.flatMap_map]

/-- XFER_WRITE on a ready device (R112, R116). -/
theorem xferWrite_goes {order : ByteOrder} {b : List Byte} {s : State}
    (h : readyAt s 0 (xferWriteItems order b (s.answerAt 0)) = true) :
    Goes s (xferWrite order b s) (xferWriteItems order b (s.answerAt 0)) (fun _ => True) := by
  refine Goes.within (body := xferWriteBody order b) (P := fun _ => True) ?_ (fun _ _ => trivial)
  have h0 := ((ran_enterOp .xferWrite s).readyAt _ 0).trans h
  change Goes _ _ (xferWriteItems order b ((enterOp .xferWrite s).answerAt 0)) _
  change readyAt _ 0 (xferWriteItems order b ((enterOp .xferWrite s).answerAt 0)) = true at h0
  generalize enterOp .xferWrite s = s at h0 ⊢
  unfold xferWriteItems phaseAWords phaseBWords at h0 ⊢
  rw [map_flatMap_wait, map_flatMap_wait] at h0 ⊢
  rw [List.append_assoc, List.append_assoc] at h0 ⊢
  refine Goes.andThen h0 startTransfer_goes fun t1 ht1 h1 => ?_
  have hA := loop_goes (m := 4) (item := fun i => .wr .data (pack32 order (byteAt b i)
    (byteAt b (i + 1)) (byteAt b (i + 2)) (byteAt b (i + 3)))) (step := putWord order b)
    (loop := writeWords order b) (fun t _ _ _ => ran_putWord order b t) (by simp [putWord])
    (by simp [putWord]) (fun _ => rfl) (writeWords_succ order b) (b.length / 4) t1
  rw [ht1.1] at hA
  simp only [Nat.zero_add] at hA
  refine Goes.andThen h1 hA fun t2 ht2 h2 => ?_
  refine Goes.andThen h2 (startPhaseB_goes (ht2.2.trans ht1.2)) fun t3 ht3 h3 => ?_
  have hB := loop_goes (m := 1) (item := fun i => .wr .data (byteWord (byteAt b i)))
    (step := putByte b) (loop := writeBytes b) (fun t _ _ _ => ran_putByte b t) (by simp [putByte])
    (by simp [putByte]) (fun _ => rfl) (writeBytes_succ b) (b.length % 4) t3
  rw [ht3, ht2.1] at hB
  simp only [Nat.one_mul] at hB
  exact (hB h3).return _ _ fun _ _ => trivial

/-- XFER_READ on a ready device (R113, R116). -/
theorem xferRead_goes {order : ByteOrder} {n : Nat} {out : List Byte} {s : State}
    (h : readyAt s 0 (xferReadItems n (s.answerAt 0)) = true) :
    Goes s (xferRead order n out s) (xferReadItems n (s.answerAt 0)) (fun _ => True) := by
  refine Goes.within (body := xferReadBody order n out) (P := fun _ => True) ?_ (fun _ _ => trivial)
  have hr := ran_handBuffer out (enterOp .xferRead s)
  refine Goes.after hr ?_
  have h0 := (((ran_enterOp .xferRead s).then_same hr).readyAt _ 0).trans h
  change Goes _ _ (xferReadItems n ((handBuffer out (enterOp .xferRead s)).answerAt 0)) _
  change readyAt _ 0 (xferReadItems n ((handBuffer out (enterOp .xferRead s)).answerAt 0)) = true at h0
  unfold xferReadBody
  generalize handBuffer out (enterOp .xferRead s) = s at h0 ⊢
  unfold xferReadItems at h0 ⊢
  rw [List.append_assoc, List.append_assoc] at h0 ⊢
  refine Goes.andThen h0 startTransfer_goes fun t1 ht1 h1 => ?_
  have hg : ∀ (a c : Nat) (bytes : Word → List Byte) (t : State) (k : Nat) (s : State),
      (∀ j, t.answerAt j = s.answerAt (k + j)) →
      Ran t (getData a c bytes t) (eventsOf s k [.rd .data]) := fun a c bytes t k s hj => by
    have := ran_getData a c bytes t; rw [hj 0] at this; exact this
  have hA := loop_goes (m := 4) (item := fun _ => .rd .data) (step := getData 7 5 (unpack32 order))
    (loop := readWords order) (hg _ _ _) (by simp [getData, length_unpack32]) (by simp [getData])
    (fun _ => rfl) (readWords_succ order) (n / 4) t1
  refine Goes.andThen h1 hA fun t2 ht2 h2 => ?_
  refine Goes.andThen h2 (startPhaseB_goes (ht2.2.trans ht1.2)) fun t3 ht3 h3 => ?_
  have hB := loop_goes (m := 1) (item := fun _ => .rd .data) (step := getData 14 12 fun w => [wordByte w])
    (loop := readBytes) (hg _ _ _) (by simp [getData]) (by simp [getData])
    (fun _ => rfl) readBytes_succ (n % 4) t3
  exact (hB h3).return _ _ fun _ _ => trivial

/-- The lines of NEGOTIATE after its range test succeed, on any device (R100). -/
theorem programDivider_goes (hz : Nat) (s : State) : Goes s (programDivider hz s)
    [.rd .cfg, .wr .cfg (cfgWord (s.answerAt 0) (codeOf (clampRate s.w.rate)))]
    (fun t => t.handle = s.handle.map fun h => { h with lastSpeedHz := hz }) := by
  refine ⟨(programDivider hz s).state, rfl, programDivider_ran hz s, ?_⟩
  obtain ⟨hk, -⟩ := clampLines_kept s
  have : (clampLines s).handle = s.handle := by simpa using congrArg State.handle hk
  simp [programDivider, recordSpeed, this]

/-- NEGOTIATE for a speed in range, on any device: it makes no wait (R100). -/
theorem negotiate_goes {hz : Nat} (hhz : 12500000 ≤ hz) (s : State) :
    Goes s (negotiate hz s) (negotiateItems hz (s.answerAt 0))
      (fun t => t.handle = s.handle.map fun h => { h with lastSpeedHz := hz }) := by
  have hr : ¬ Config.divMax < ceilDiv Config.refHz hz := by
    have : ceilDiv Config.refHz hz ≤ 16 := by
      unfold ceilDiv Config.refHz
      rw [Nat.div_le_iff_le_mul_add_pred (by omega)]; omega
    simpa [Config.divMax] using this
  have key : ∀ s : State, Goes s (negotiateBody hz s) (negotiateItems hz (s.answerAt 0))
      (fun t => t.handle = s.handle.map fun h => { h with lastSpeedHz := hz }) := by
    intro s
    unfold negotiateBody
    dsimp only
    rw [if_neg (by omega), if_neg (by simpa using hr)]
    have hs : Ran s (atLine .negotiate 4 ((atLine .negotiate 3 (atLine .negotiate 1 s)).setW
        { (atLine .negotiate 3 (atLine .negotiate 1 s)).w with rate := ceilDiv Config.refHz hz })) [] :=
      (((ran_atLine .negotiate 1 s).line .negotiate 3).then_same (ran_setW _ _)).line .negotiate 4
    refine Goes.after hs ?_
    have ha := hs.answerAt 0
    rw [show s.answerAt ((answersUsed []).length + 0) = s.answerAt 0 from rfl] at ha
    rw [← ha]
    exact programDivider_goes hz _
  exact Goes.within (body := negotiateBody hz) (key (enterOp .negotiate s)) fun _ h => h

/-! ### The message -/

theorem xfersItems_shift {order : ByteOrder} {s t : State} {n : Nat}
    (h : ∀ k, t.answerAt k = s.answerAt (n + k)) (ts : List Descriptor) : ∀ k,
    xfersItems order t k ts = xfersItems order s (n + k) ts := by
  induction ts with
  | nil => exact fun _ => rfl
  | cons d ts ih => intro k; simp [xfersItems, ih, h, Nat.add_assoc]

theorem receivedBytes_shift {order : ByteOrder} {s t : State} {n : Nat}
    (h : ∀ k, t.answerAt k = s.answerAt (n + k)) (k l : Nat) :
    receivedBytes order t k l = receivedBytes order s (n + k) l := by
  simp [receivedBytes, h, eventsOf_shift h]

theorem buffersAfter_shift {order : ByteOrder} {s t : State} {n : Nat}
    (h : ∀ k, t.answerAt k = s.answerAt (n + k)) (ts : List Descriptor) : ∀ k,
    buffersAfter order t k ts = buffersAfter order s (n + k) ts := by
  induction ts with
  | nil => exact fun _ => rfl
  | cons d ts ih => intro k; simp [buffersAfter, ih, h, receivedBytes_shift h, Nat.add_assoc]

/-- The whole destination of a read that succeeded on a ready device (R118). -/
theorem xferRead_ready_out {order : ByteOrder} {n : Nat} {out : List Byte} {s t : State}
    (ho : out.length = n) (h : xferRead order n out s = .ok t)
    (hr : Ran s t (eventsOf s 0 (xferReadItems n (s.answerAt 0)))) :
    t.out = receivedBytes order s 0 n ∧ t.filled = n ∧ t.w.i = n := by
  obtain ⟨es, hf⟩ := xferRead_fills order n out s
  rw [h] at hf
  have he : es = _ := hf.moved.op.ran.unique hr
  obtain ⟨h1, -, h3⟩ := hf.all rfl
  have hl := hf.length
  rw [h1] at hl
  refine ⟨?_, h1, h3⟩
  have hout : t.out = _ := hf.out
  rw [hout, putBytes_eq _ _ _ (by rw [hl, ho]; omega), hl, List.drop_eq_nil_of_le (by omega), he]
  simp [receivedBytes]

/-- One descriptor's engine run on a ready device. -/
theorem runEngine_goes {order : ByteOrder} {k : Nat} {d : Descriptor} {s : State}
    (hd : d.illegal = none) (hone : d.tx = none ∨ d.rx = none)
    (h : readyAt s 0 (descriptorItems order d (s.answerAt 0)) = true) :
    Goes s (runEngine order k d s) (descriptorItems order d (s.answerAt 0)) (fun t =>
      t.buffers = match d.rx with
        | none => s.buffers
        | some _ => s.buffers.set k (some (receivedBytes order s 0 d.len))) := by
  unfold descriptorItems at h ⊢
  unfold runEngine
  cases htx : d.tx with
  | some b =>
    rw [htx] at h
    have hrx : d.rx = none := by simpa [htx] using hone
    rw [← (ran_atLine .transfer 16 s).readyAt] at h
    obtain ⟨t, h1, h2, -⟩ := Goes.after (ran_atLine .transfer 16 s) (xferWrite_goes h)
    refine ⟨t, h1, h2, ?_⟩
    obtain ⟨es, ho, -⟩ := xferWrite_opRan order b (atLine .transfer 16 s)
    rw [h1] at ho; rw [hrx]; exact ho.buffers
  | none =>
    rw [htx] at h
    obtain ⟨out, hrx, ho⟩ := illegal_none_read hd htx
    rw [hrx]
    show Goes s ((xferRead order d.len out (atLine .transfer 18 s)).mapState (returnBuffer k)) _ _
    have hev : eventsOf (atLine .transfer 18 s) 0 (xferReadItems d.len (s.answerAt 0)) =
        eventsOf s 0 (xferReadItems d.len (s.answerAt 0)) := by
      rw [eventsOf_shift (n := 0) (s := s) (fun k => by rw [Nat.zero_add]; rfl), Nat.zero_add]
    rw [← (ran_atLine .transfer 18 s).readyAt] at h
    obtain ⟨t, h1, h2, -⟩ := xferRead_goes (order := order) (out := out) h
    obtain ⟨es, hop, -⟩ := xferRead_opRan order d.len out (atLine .transfer 18 s)
    have hout := (xferRead_ready_out ho h1 h2).1
    rw [receivedBytes_shift (n := 0) (s := s) (fun k => by rw [Nat.zero_add]; rfl), Nat.zero_add] at hout
    rw [h1] at hop
    have hb : t.buffers = s.buffers := hop.buffers
    refine ⟨returnBuffer k t, by simp [h1], ?_, ?_⟩
    · rw [← hev]; exact h2.after_line.then_same (ran_returnBuffer k t)
    · simp [returnBuffer, hb, hout]

/-- A message's descriptors on a ready device (R121, R125, R41). -/
theorem runXfers_goes {order : ByteOrder} (ts : List Descriptor) :
    ∀ (pre : List (Option (List Byte))) (s : State), (∀ d ∈ ts, d.illegal = none) →
      (∀ d ∈ ts, d.tx = none ∨ d.rx = none) → s.buffers = pre ++ ts.map Descriptor.rx →
      readyAt s 0 (xfersItems order s 0 ts) = true →
      Goes s (runXfers order pre.length ts s) (xfersItems order s 0 ts)
        (fun t => t.buffers = pre ++ buffersAfter order s 0 ts) := by
  induction ts with
  | nil => intro pre s _ _ hb _; exact .ok (.refl s) hb
  | cons d ts ih =>
    intro pre s hl hone hb h
    have hd := hone d (List.mem_cons_self ..)
    have hnc : ¬ (d.tx.isSome && d.rx.isSome) = true := by
      rcases hd with h | h <;> simp [h]
    simp only [runXfers]
    rw [if_neg hnc]
    have hse := (((((ran_atLine .transfer 11 s).then_same (ran_enterPhase (.transferring pre.length)
      _)).line .transfer 12).line .transfer 13).line .transfer 15)
    refine Goes.after hse ?_
    have hbe : (atLine .transfer 15 (atLine .transfer 13 (atLine .transfer 12 (enterPhase
        (.transferring pre.length) (atLine .transfer 11 s))))).buffers =
        pre ++ (d :: ts).map Descriptor.rx := hb
    generalize atLine .transfer 15 (atLine .transfer 13 (atLine .transfer 12 (enterPhase
        (.transferring pre.length) (atLine .transfer 11 s)))) = s5 at hse hbe ⊢
    have ha : ∀ k, s5.answerAt k = s.answerAt (0 + k) := hse.answerAt
    have hxi : ∀ k, xfersItems order s5 k (d :: ts) = xfersItems order s k (d :: ts) := fun k => by
      rw [xfersItems_shift ha, Nat.zero_add]
    rw [← hse.readyAt, ← hxi] at h
    rw [← hxi, show buffersAfter order s 0 (d :: ts) = buffersAfter order s5 0 (d :: ts) by
      rw [buffersAfter_shift ha]]
    clear hxi ha hse hb
    simp only [xfersItems, Nat.zero_add] at h ⊢
    obtain ⟨t, e1, r1, p1⟩ := runEngine_goes (order := order) (k := pre.length) (s := s5)
      (hl d (List.mem_cons_self ..)) hd (by
        rw [readyAt_append, Bool.and_eq_true] at h; exact h.1)
    refine Goes.andThen (P := fun u => u = t) h (fun _ => ⟨t, e1, r1, rfl⟩) fun u hu hr => ?_
    subst hu
    have hu := ((ran_atLine .transfer 19 u).then_same (ran_setW _
      { (atLine .transfer 19 u).w with actual := (atLine .transfer 19 u).w.actual + d.len })).line
      .transfer 10
    refine Goes.after hu ?_
    have hbt : (atLine .transfer 10 (countBytes d.len (atLine .transfer 19 u))).buffers =
        (pre ++ [d.rx.map fun _ => receivedBytes order s5 0 d.len]) ++ ts.map Descriptor.rx := by
      show u.buffers = _
      rw [p1, hbe]
      cases hrx : d.rx <;> simp [hrx]
    change Goes (atLine .transfer 10 (countBytes d.len (atLine .transfer 19 u))) _ _ _
    have hans : ∀ k, (atLine .transfer 10 (countBytes d.len (atLine .transfer 19 u))).answerAt k =
        s5.answerAt (readCount (descriptorItems order d (s5.answerAt 0)) + k) :=
      Goes.answerAt (r1.then_same hu)
    rw [← hu.readyAt] at hr
    change readyAt (atLine .transfer 10 (countBytes d.len (atLine .transfer 19 u))) 0 _ = true at hr
    generalize atLine .transfer 10 (countBytes d.len (atLine .transfer 19 u)) = u1 at hbt hans hr ⊢
    have hI := ih (pre ++ [d.rx.map fun _ => receivedBytes order s5 0 d.len]) u1
      (fun x hx => hl x (List.mem_cons_of_mem _ hx)) (fun x hx => hone x (List.mem_cons_of_mem _ hx))
      hbt (by rw [xfersItems_shift hans]; exact hr)
    rw [xfersItems_shift hans, buffersAfter_shift hans, List.length_append, List.length_singleton] at hI
    exact hI.mono fun v hv => by rw [hv]; simp [buffersAfter]

end Sys2Proof.Machine
end

