-- ==== Sys2Proof/Laws/Walk.lean ====
section
/-! SUPPORT. The walk of the sequencer through the pseudocode, by its parts: `Walks` says that the record
between two states is a walk whose operations in progress are the states' own; each shared move has
its lemma, and the readiness wait, so that an operation's walk is put together line by line. -/

namespace Sys2Proof.Machine

theorem Walk.follow_append (w : Walk) (a b : List Mark) :
    w.follow (a ++ b) = (w.follow a).bind fun w => w.follow b := by
  induction a generalizing w with
  | nil => rfl
  | cons m ms ih =>
    simp only [List.cons_append, Walk.follow]
    cases w.move m.what <;> simp [ih]

/-- From `s`, its line having (`b`) or not having made its call, the record walks to `t`, whose line has
(`c`) or has not; `e` is the error the last operation to end raised, if any. -/
def Walks (s : State) (b : Bool) (t : State) (c : Bool) (e : Option Status) : Prop :=
  ∃ ms, t.seqLog = s.seqLog ++ ms ∧ Walk.follow ⟨s.ops, b, none⟩ ms = some ⟨t.ops, c, e⟩

/-- No move. -/
theorem Walks.same {s t : State} {b : Bool} (hl : t.seqLog = s.seqLog) (ho : t.ops = s.ops) :
    Walks s b t b none := ⟨[], by simp [hl], by simp [Walk.follow, ho]⟩

theorem Walks.trans {s t u : State} {b c d : Bool} {e : Option Status} (h : Walks s b t c none)
    (g : Walks t c u d e) : Walks s b u d e := by
  obtain ⟨x, hx, wx⟩ := h
  obtain ⟨y, hy, wy⟩ := g
  exact ⟨x ++ y, by rw [hy, hx, List.append_assoc], by rw [Walk.follow_append, wx]; exact wy⟩

/-- A change after a walk that touches neither the record nor the operations in progress. -/
theorem Walks.then_same {s t u : State} {b c : Bool} {e : Option Status} (h : Walks s b t c e)
    (hl : u.seqLog = t.seqLog) (ho : u.ops = t.ops) : Walks s b u c e := by
  obtain ⟨x, hx, wx⟩ := h; exact ⟨x, hl.trans hx, by rw [ho]; exact wx⟩

/-- The next line of an operation. -/
theorem walks_line {s : State} {o : OpName} {k n : Nat} {fs : List Frame} (h : s.ops = ⟨o, k⟩ :: fs)
    (hn : n ∈ linesAfter o k) : Walks s (hasMove o k) (atLine o n s) false none :=
  ⟨_, atLine_seqLog s o n, by simp [Walk.follow, Walk.move, h, hn]⟩

/-- The next line, after a walk. -/
theorem Walks.line {s t : State} {b : Bool} {o : OpName} {k n : Nat} {fs : List Frame}
    (w : Walks s b t (hasMove o k) none) (h : t.ops = ⟨o, k⟩ :: fs) (hn : n ∈ linesAfter o k) :
    Walks s b (atLine o n t) false none := w.trans (walks_line h hn)

/-- A message state is entered at its line. -/
theorem walks_phase {s : State} {p : Phase} {fs : List Frame}
    (h : s.ops = ⟨.transfer, phaseLine p⟩ :: fs) : Walks s false (enterPhase p s) true none :=
  ⟨[⟨s.trace.length, .phase p⟩], enterPhase_seqLog .., by simp [Walk.follow, Walk.move, h]⟩

/-- An operation begins where the line in hand calls it. -/
theorem walks_enterOp {s : State} {o : OpName} (h : ∀ f ∈ s.ops.head?, callAt f.op f.line = some o) :
    Walks s false (enterOp o s) false none :=
  ⟨_, enterOp_seqLog s o, by simp only [Walk.follow, Walk.move]; rw [if_pos ⟨trivial, trivial, h⟩]; rfl⟩

/-- An operation below TRANSFER, called by the line in hand, that returns. -/
theorem Walks.within_ok {s : State} {o : OpName} {body : State → Res} {b : Bool} {fs : List Frame}
    (hc : ∀ f ∈ s.ops.head?, callAt f.op f.line = some o)
    (w : Walks (enterOp o s) false (body (enterOp o s)).state b none)
    (ho : (body (enterOp o s)).state.ops = ⟨o, returnLine o⟩ :: fs)
    (hb : b = hasMove o (returnLine o)) (hs : (body (enterOp o s)).status = .ok) :
    Walks s false (within o body s).state true none := by
  have hw : (within o body s).state = leaveOp o .ok (body (enterOp o s)).state := by
    simp [within, hs]
  rw [hw]
  refine ((walks_enterOp hc).trans w).trans ⟨_, leaveOp_seqLog .., ?_⟩
  simp [Walk.follow, Walk.move, ho, hb]

/-- An operation below TRANSFER, called by the line in hand, that raises at its own line. -/
theorem Walks.within_raise {s : State} {o : OpName} {body : State → Res} {b : Bool} {n : Nat}
    {e : Status} {fs : List Frame} (hc : ∀ f ∈ s.ops.head?, callAt f.op f.line = some o)
    (w : Walks (enterOp o s) false (body (enterOp o s)).state b none)
    (ho : (body (enterOp o s)).state.ops = ⟨o, n⟩ :: fs) (he : errorAt o n = some e)
    (hs : (body (enterOp o s)).status = e) (hne : e ≠ .ok) (ht : o ≠ .transfer) :
    Walks s false (within o body s).state true (some e) := by
  have hw : (within o body s).state = leaveOp o e (body (enterOp o s)).state := by
    simp [within, hs]
  rw [hw]
  refine ((walks_enterOp hc).trans w).trans ⟨_, leaveOp_seqLog .., ?_⟩
  simp [Walk.follow, Walk.move, ho, he, hne, ht]

/-- An operation below TRANSFER, called by the line in hand, that propagates the error of one it
called. -/
theorem Walks.within_propagate {s : State} {o : OpName} {body : State → Res} {n : Nat} {e : Status}
    {fs : List Frame} (hc : ∀ f ∈ s.ops.head?, callAt f.op f.line = some o)
    (w : Walks (enterOp o s) false (body (enterOp o s)).state true (some e))
    (ho : (body (enterOp o s)).state.ops = ⟨o, n⟩ :: fs)
    (hs : (body (enterOp o s)).status = e) (hne : e ≠ .ok) (ht : o ≠ .transfer) :
    Walks s false (within o body s).state true (some e) := by
  have hw : (within o body s).state = leaveOp o e (body (enterOp o s)).state := by
    simp [within, hs]
  obtain ⟨x, hx, wx⟩ := (walks_enterOp hc).trans w
  rw [hw]
  refine ⟨x ++ _, (leaveOp_seqLog ..).trans (by rw [hx, List.append_assoc]), ?_⟩
  rw [Walk.follow_append, wx]
  simp [Walk.follow, Walk.move, ho, hne, ht]

/-- An operation goes on from no line that returns. -/
theorem linesAfter_return (o : OpName) : linesAfter o (returnLine o) = [] := by simp [linesAfter]

/-- An operation goes on from no line that raises. -/
theorem linesAfter_raise {o : OpName} {n : Nat} {e : Status} (h : errorAt o n = some e) :
    linesAfter o n = [] := by simp [linesAfter, h]

/-- The lines of a wait (R97). -/
theorem linesAfter_waitReady : linesAfter .waitReady 1 = [2, 6] ∧ linesAfter .waitReady 2 = [3] ∧
    linesAfter .waitReady 3 = [4, 5] ∧ linesAfter .waitReady 5 = [1] := by decide

/-- The polls of a wait, from the first line of the loop on (R97). -/
theorem follow_pollMarks (vs : List Word) (fs : List Frame) : ∀ n,
    Walk.follow ⟨⟨.waitReady, 1⟩ :: fs, false, none⟩ (pollMarks n vs) =
      some ⟨fs, true, if vs.any rdy then none else some .timedOut⟩ := by
  induction vs with
  | nil => exact fun _ => rfl
  | cons v vs ih =>
    intro n
    by_cases hv : rdy v = true
    · simp [pollMarks, hv, Walk.follow, Walk.move, linesAfter_waitReady, hasMove, callAt, returnLine]
    · have h5 : Walk.follow ⟨⟨.waitReady, 1⟩ :: fs, false, none⟩ (pollMarks n (v :: vs)) =
          Walk.follow ⟨⟨.waitReady, 1⟩ :: fs, false, none⟩ (pollMarks (n + 1) vs) := by
        simp [pollMarks, hv, Walk.follow, Walk.move, linesAfter_waitReady, hasMove, callAt]
      rw [h5, ih]; simp [hv]

/-- WAIT_READY, called by the line in hand (R97). -/
theorem waitReady_walks {s : State} (hc : ∀ f ∈ s.ops.head?, callAt f.op f.line = some .waitReady) :
    Walks s false (waitReady s).state true
      (if (waitReady s).status = .ok then none else some .timedOut) := by
  have key : ∀ vs : List Word, Walk.follow ⟨s.ops, false, none⟩ (waitMarks s.trace.length vs) =
      some ⟨s.ops, true, if vs.any rdy then none else some .timedOut⟩ := by
    intro vs
    have h1 : Walk.follow ⟨s.ops, false, none⟩ (waitMarks s.trace.length vs) =
        Walk.follow ⟨⟨.waitReady, 1⟩ :: s.ops, false, none⟩ (pollMarks s.trace.length vs) := by
      simp only [waitMarks, Walk.follow, Walk.move]
      rw [if_pos ⟨trivial, trivial, hc⟩]; rfl
    rw [h1, follow_pollMarks]
  rcases waitReady_cases s with ⟨k, -, -, hr, he⟩ | ⟨hb, he⟩
  · have ha : ((List.range (k + 1)).map s.answerAt).any rdy = true := List.any_eq_true.mpr
      ⟨_, List.mem_map_of_mem (f := s.answerAt) (List.mem_range.mpr (Nat.lt_succ_self k)), hr⟩
    refine ⟨_, by rw [he]; rfl, ?_⟩
    rw [key, he, ha]; rfl
  · have ha : ((List.range Config.pollLimit).map s.answerAt).any rdy = false := by
      rw [List.any_eq_false]
      intro v hv
      obtain ⟨j, hj, rfl⟩ := List.mem_map.mp hv
      have := hb j (List.mem_range.mp hj)
      simp [this]
    refine ⟨_, by rw [he]; rfl, ?_⟩
    rw [key, he, ha]; rfl

/-- WAIT_READY called at the next line `n` of `o`, which calls it. -/
theorem waitAt_walks {s : State} {o : OpName} {k n : Nat} {fs : List Frame}
    (h : s.ops = ⟨o, k⟩ :: fs) (hn : n ∈ linesAfter o k) (hc : callAt o n = some .waitReady) :
    Walks s (hasMove o k) (waitAt o n s).state true
        (if (waitAt o n s).status = .ok then none else some .timedOut) ∧
      (waitAt o n s).state.ops = ⟨o, n⟩ :: fs := by
  refine ⟨(walks_line h hn).trans (waitReady_walks fun f hf => ?_), ?_⟩
  · simp at hf; subst hf; exact hc
  · obtain ⟨_, -, -, ho⟩ := waitReady_opRan (R := ioRegs) (E := ioEnds) (by simp) (by simp) (by simp)
      (atLine o n s)
    show (waitReady (atLine o n s)).state.ops = _
    rw [ho]; simp [h]

end Sys2Proof.Machine
end

