-- ==== Sys2Proof/Tests/Slice0.lean ====
section
/-! SUPPORT. Tests: the WellFormed smoke tests, words written out from the spec's encodings, single
steps with results from 95_test_vectors.md, and a witness for each statement's hypotheses. -/

namespace Sys2Proof.Tests

open Sys2Proof.Machine

/-! ### Helpers -/

/-- The block after reset, on a device that gives these answers to its next register reads. -/
def dev (answers : List Word) : State := { State.reset with answers := answers }

/-- What a call showed: the bus trace and the reports. -/
def seen (o : Host.Outcome State Fault Refusal) : Option (List Event × List Report) :=
  match o with
  | .next t => some (t.trace, t.reports)
  | .fault _ => none
  | .refused _ => none

/-- One field of the next state. -/
def after {α : Type} (f : State → α) (o : Host.Outcome State Fault Refusal) : Option α :=
  match o with
  | .next t => some (f t)
  | .fault _ => none
  | .refused _ => none

/-- Why a call was refused. -/
def refusal (o : Host.Outcome State Fault Refusal) : Option Refusal :=
  match o with
  | .next _ => none
  | .fault _ => none
  | .refused r => some r

/-- The sequence `0, 1, …` of `n` bytes. -/
def someBytes (n : Nat) : List Byte := List.replicate n 0x5A#8

theorem length_someBytes (n : Nat) : (someBytes n).length = n := List.length_replicate

/-- The device's answers to a pulse of 95_test_vectors.md W3. -/
def pulseAnswers : List Word := [0xC8000000#32, 0x08000000#32, 0xC8000000#32]

/-- The pulse of W3. -/
def pulseTrace : List Event :=
  [.wr .cs 0xC0000000#32, .rd .cs 0xC8000000#32, .wr .cs 0x00000000#32, .rd .cs 0x08000000#32,
    .wr .cs 0xC0000000#32, .rd .cs 0xC8000000#32]

theorem dev_accepting (answers : List Word) : Accepting (dev answers) :=
  ⟨by simp [dev, State.reset, State.attach, Config.attachOk], rfl, rfl⟩

/-! ### WellFormed: one ill-formed term per check, and the machine refuses it -/

theorem test_illegal_slot : (Instr.select 2).wf = false ∧ (Instr.select 1).wf = true := by decide

theorem test_illegal_write_257 : (Instr.xferWrite (someBytes 257)).wf = false ∧
    (Instr.xferWrite (someBytes 256)).wf = true := by
  simp [Instr.wf, Instr.illegal, illegalLength, bufferFits, length_someBytes, Config.maxXfer]

theorem test_illegal_read_257 : (Instr.xferRead 257 (someBytes 257)).wf = false ∧
    (Instr.xferRead 2 (someBytes 1)).illegal = some .bufferSize := by
  decide

theorem test_illegal_message_slot : (Instr.transfer ⟨2, 25000000, []⟩).illegal = some .badSlot := by
  decide

theorem test_illegal_no_buffer :
    (Instr.transfer ⟨0, 25000000, [⟨none, none, 1, 0⟩]⟩).illegal = some .noBuffer := by
  decide

theorem test_illegal_descriptor_257 :
    (Instr.transfer ⟨0, 25000000, [⟨some (someBytes 257), none, 257, 0⟩]⟩).illegal =
      some .tooLong := by
  decide

theorem test_illegal_buffer_size :
    (Instr.transfer ⟨0, 25000000, [⟨some (someBytes 3), none, 2, 0⟩]⟩).illegal =
      some .bufferSize := by
  decide

/-- Both buffers at once is legal: it is rejected when its turn comes (R80). -/
theorem test_both_buffers_legal :
    (Instr.transfer ⟨0, 25000000, [⟨some (someBytes 2), some (someBytes 2), 2, 0⟩]⟩).wf = true := by
  decide

/-- `select 2` is refused, with no access (95_test_vectors.md 3.5, D31). -/
theorem test_select_2_refused :
    refusal (exec (.select 2) (dev [])) = some (.illegalArgument .badSlot) := by
  decide

/-- `xfer.w` of 257 bytes is refused (95_test_vectors.md 3.6, D11). -/
theorem test_xferWrite_257_refused :
    refusal (exec (.xferWrite (someBytes 257)) (dev [])) = some (.illegalArgument .tooLong) := by
  have h : (Instr.xferWrite (someBytes 257)).illegal = some .tooLong := by
    simp [Instr.illegal, illegalLength, length_someBytes, Config.maxXfer]
  rw [exec_eq, h, acceptCall_illegal (dev_accepting [])]; rfl

/-! ### Decoding: words written out from 30_encoding.md and 95_test_vectors.md section 2 -/

theorem test_decode_bus_reads :
    [0b000000#32, 0b000100#32, 0b001000#32, 0b001100#32, 0b010000#32].map
        (fun d => decode ⟨.bus, d, []⟩) =
      [.ok .rdCfg, .ok .rdCfg2, .ok .rdCs, .ok .rdData, .ok .rdData2] := by
  decide

theorem test_decode_bus_writes :
    [0b100000#32, 0b100100#32, 0b101000#32, 0b101100#32, 0b110000#32].map
        (fun d => decode ⟨.bus, d, [0xFFFFFFFF]⟩) =
      [.ok (.wrCfg 0xFFFFFFFF#32), .ok (.wrCfg2 0xFFFFFFFF#32), .ok (.wrCs 0xFFFFFFFF#32),
        .ok (.wrData 0xFFFFFFFF#32), .ok (.wrData2 0xFFFFFFFF#32)] := by
  decide

theorem test_decode_bus_rejects :
    [0x14#32, 0x01#32, 0x3C#32, 0x34#32, 0x1F#32].map (fun d => decode ⟨.bus, d, []⟩) =
      List.replicate 5 (.reject .illegalDescriptor) := by
  decide

/-- A write value of more than 32 bits, a missing one, and one too many (R64). -/
theorem test_decode_bus_operands :
    [decode ⟨.bus, 0x20#32, [0x100000000]⟩, decode ⟨.bus, 0x20#32, []⟩,
        decode ⟨.bus, 0x00#32, [0]⟩] = List.replicate 3 (.reject .badOperands) := by
  decide

theorem test_decode_ops :
    [decode ⟨.op, 0x0#32, []⟩, decode ⟨.op, 0x1#32, [40000000]⟩, decode ⟨.op, 0x2#32, [50000000]⟩,
        decode ⟨.op, 0x3#32, []⟩, decode ⟨.op, 0x4#32, [1]⟩, decode ⟨.op, 0x5#32, [1, 0xAB]⟩,
        decode ⟨.op, 0x6#32, [2, 2, 0xEE, 0xEF]⟩, decode ⟨.op, 0x8#32, []⟩] =
      [.ok .waitReady, .ok (.negotiate 40000000), .ok (.setup 50000000), .ok .deselect,
        .ok (.select 1), .ok (.xferWrite [0xAB#8]), .ok (.xferRead 2 [0xEE#8, 0xEF#8]),
        .ok .maxXferSize] := by
  decide

/-- `transfer slot=1 ceiling=50000000`, a write at 40000000 Hz and a read (R86, P2). -/
theorem test_decode_transfer :
    decode ⟨.op, 0x7#32, [1, 50000000, 2, 2, 40000000, 1, 2, 0x01, 0x02, 0, 1, 0, 0, 1, 1, 0xEE]⟩ =
      .ok (.transfer ⟨1, 50000000,
        [⟨some [0x01#8, 0x02#8], none, 2, 40000000⟩, ⟨none, some [0xEE#8], 1, 0⟩]⟩) := by
  decide

theorem test_decode_op_rejects :
    [0x9#32, 0xA#32, 0xB#32, 0xC#32, 0xD#32, 0xE#32, 0xF#32].map (fun c => decode ⟨.op, c, []⟩) =
      List.replicate 7 (.reject .illegalLabel) := by
  decide

theorem test_decode_cs_select :
    [0xC0000000#32, 0x00000000#32, 0x40000000#32, 0x81000000#32, 0x80000000#32].map
        (fun w => decode ⟨.csSelect, w, []⟩) =
      [.ok .csDeselBoth, .ok .csAssertBoth, .ok .csSel0, .ok .csSel1, .reject .illegalWord] := by
  decide

/-- 0xB9000000 is the LEN4 word of slot 1 and 0x89000000 its LEN1 word (95_test_vectors.md section 2,
P2); LEN 1 and 2 are no words of the engine (R72). -/
theorem test_decode_cs_length :
    [0xB9000000#32, 0x89000000#32, 0x10000000#32, 0x20000000#32].map
        (fun w => decode ⟨.csLength, w, []⟩) =
      [.ok (.csLen4 0b10#2 0x9000000#28), .ok (.csLen1 0b10#2 0x9000000#28),
        .reject .illegalWord, .reject .illegalWord] := by
  decide

/-- CFG word 0x7FFFFFFF: code 3, bits 28:0 all 1 (95_test_vectors.md section 2). -/
theorem test_decode_cfg :
    decode ⟨.cfg, 0x7FFFFFFF#32, []⟩ = .ok (.cfgDiv 3#3 0x1FFFFFFF#29) := by
  decide

theorem test_decode_data :
    [decode ⟨.dataByte, 0xAB000000#32, []⟩, decode ⟨.dataByte, 0xAB000001#32, []⟩,
        decode ⟨.dataWord, 0xDEADBEEF#32, []⟩] =
      [.ok (.dataByte 0xAB#8), .reject .illegalWord,
        .ok (.dataWord 0xDE#8 0xAD#8 0xBE#8 0xEF#8)] := by
  decide

/-- Table words of the bus rows that no operation label shares. -/
theorem test_table_bus :
    [0x20, 0x24, 0x28, 0x0C, 0x2C, 0x10, 0x30].map (decodeTableWord 8) =
      [some (.wrCfg 0#32), some (.wrCfg2 0#32), some (.wrCs 0#32), some .rdData,
        some (.wrData 0#32), some .rdData2, some (.wrData2 0#32)] := by
  decide

/-- Table words of the operation rows. -/
theorem test_table_ops :
    [0, 1, 2, 3, 4, 5, 6, 7, 8].map (decodeTableWord 8) =
      [some .waitReady, some (.negotiate 0), some (.setup 0), some .deselect, some (.select 0),
        some (.xferWrite []), some (.xferRead 0 []), some (.transfer ⟨0, 0, []⟩),
        some .maxXferSize] := by
  decide

/-- Table words of the word rows, where the row's own word is not another row's. -/
theorem test_table_words :
    [0xC0000000, 0x00000000, 0x40000000, 0x81000000, 0x30000000, 0xAB000000, 0xDEADBEEF].map
        (decodeTableWord 32) =
      [some .csDeselBoth, some .csAssertBoth, some .csSel0, some .csSel1,
        some (.csLen4 0#2 0#28), some (.dataByte 0xAB#8),
        some (.dataWord 0xDE#8 0xAD#8 0xBE#8 0xEF#8)] := by
  decide

/-! ### Register accesses and words (95_test_vectors.md 3.1) -/

/-- A read returns what the device answers, not what was written (D15). -/
theorem test_rdCfg : seen (exec .rdCfg { dev [0x60000000#32] with
      window := ⟨0x11111111#32, 0#32, 0#32, 0#32, 0#32⟩ }) =
    some ([.rd .cfg 0x60000000#32], [⟨.ok, .word 0x60000000#32⟩]) := by
  decide

theorem test_wrCfg : after (fun t => (t.trace, t.window.cfg, t.divide))
      (exec (.wrCfg 0x60000000#32) (dev [])) =
    some ([.wr .cfg 0x60000000#32], 0x60000000#32, 8) := by
  decide

theorem test_rdCfg2 : seen (exec .rdCfg2 (dev [0x9F000000#32])) =
    some ([.rd .cfg2 0x9F000000#32], [⟨.ok, .word 0x9F000000#32⟩]) := by
  decide

theorem test_wrCfg2 : after (fun t => (t.trace, cmdField t.window.cfg2))
      (exec (.wrCfg2 0x9F000000#32) (dev [])) = some ([.wr .cfg2 0x9F000000#32], 0x9F#8) := by
  decide

theorem test_rdCs : seen (exec .rdCs (dev [0x48000000#32])) =
    some ([.rd .cs 0x48000000#32], [⟨.ok, .word 0x48000000#32⟩]) := by
  decide

theorem test_wrCs : after (fun t => (t.lines, lenBytes t.window.cs))
      (exec (.wrCs 0x70000000#32) (dev [])) = some (⟨true, false, false⟩, 4) := by
  decide

/-- Step 10 of 3.1: a DATA read under LEN 0 moves the byte in bits 31:24 in. -/
theorem test_rdData : after (fun t => (t.trace, t.spi)) (exec .rdData
      { dev [0x11000000#32] with window := ⟨0#32, 0#32, 0x40000000#32, 0#32, 0#32⟩ }) =
    some ([.rd .data 0x11000000#32], [⟨false, [0x11#8], ⟨true, false, false⟩, 0x11000000#32⟩]) := by
  decide

/-- Steps 7 and 8 of 3.1: a DATA write under LEN 3 moves four bytes out. -/
theorem test_wrData : after State.spi (exec (.wrData 0x11223344#32)
      { dev [] with window := ⟨0#32, 0#32, 0x70000000#32, 0#32, 0#32⟩ }) =
    some [⟨true, [0x11#8, 0x22#8, 0x33#8, 0x44#8], ⟨true, false, false⟩, 0x11223344#32⟩] := by
  decide

theorem test_rdData2 : seen (exec .rdData2 (dev [0x00000001#32])) =
    some ([.rd .data2 0x00000001#32], [⟨.ok, .word 0x00000001#32⟩]) := by
  decide

theorem test_wrData2 : after (fun t => (t.trace, t.spi)) (exec (.wrData2 0x00000001#32) (dev [])) =
    some ([.wr .data2 0x00000001#32], []) := by
  decide

theorem test_words : [Instr.csDeselBoth, .csAssertBoth, .csSel0, .csSel1,
      .csLen4 0b01#2 0x8000000#28, .csLen1 0b01#2 0x8000000#28, .cfgDiv 3#3 0x1FFFFFFF#29,
      .dataByte 0xAB#8, .dataWord 0xDE#8 0xAD#8 0xBE#8 0xEF#8].map
        (fun i => after State.trace (exec i (dev []))) =
    [some [.wr .cs 0xC0000000#32], some [.wr .cs 0x00000000#32], some [.wr .cs 0x40000000#32],
      some [.wr .cs 0x81000000#32], some [.wr .cs 0x78000000#32], some [.wr .cs 0x48000000#32],
      some [.wr .cfg 0x7FFFFFFF#32], some [.wr .data 0xAB000000#32],
      some [.wr .data 0xDEADBEEF#32]] := by
  decide

/-! ### The operations (95_test_vectors.md 3.2 to 3.7 and section 4) -/

/-- RDY 0, 0, 1: three polls, and only bit 27 is tested (3.2). -/
theorem test_waitReady : seen (exec .waitReady
      (dev [0xF7FFFFFF#32, 0xF7FFFFFF#32, 0xFFFFFFFF#32])) =
    some ([.rd .cs 0xF7FFFFFF#32, .rd .cs 0xF7FFFFFF#32, .rd .cs 0xFFFFFFFF#32],
      [⟨.ok, .none⟩]) := by
  decide

/-- Old value 0x12345678 at 25000000 Hz (3.3). -/
theorem test_negotiate : seen (exec (.negotiate 25000000) (dev [0x12345678#32])) =
    some ([.rd .cfg 0x12345678#32, .wr .cfg 0x72345678#32], [⟨.ok, .none⟩]) := by
  decide

/-- The rows 12499999, 1 and 0 of 3.3. -/
theorem test_negotiate_slow : [12499999, 1, 0].map (fun hz => seen (exec (.negotiate hz) (dev []))) =
    List.replicate 3 (some ([], [⟨.invalidSpeed, .none⟩])) := by
  decide

/-- The rows of 3.4. -/
theorem test_setup :
    [0, 12499999, 12500000, 50000000, 100000000, 100000001, 4294967295].map
        (fun hz => after State.reports (exec (.setup hz) (dev []))) =
      [some [⟨.invalidSpeed, .none⟩], some [⟨.invalidSpeed, .none⟩], some [⟨.ok, .hz 12500000⟩],
        some [⟨.ok, .hz 50000000⟩], some [⟨.ok, .hz 100000000⟩], some [⟨.ok, .hz 100000000⟩],
        some [⟨.ok, .hz 100000000⟩]] := by
  decide

theorem test_deselect : seen (exec .deselect (dev pulseAnswers)) =
    some (pulseTrace, [⟨.ok, .none⟩]) := by
  decide

theorem test_select_1 : seen (exec (.select 1) (dev (pulseAnswers ++ [0x89000000#32]))) =
    some (pulseTrace ++ [.wr .cs 0x81000000#32, .rd .cs 0x89000000#32], [⟨.ok, .none⟩]) := by
  decide

/-- The write-back of unknown bits, LEN already 3 in the value read (3.6). -/
theorem test_xferWrite_unknown_bits :
    seen (exec (.xferWrite [0x5A#8])
      (dev [0x7F123456#32, 0x7F123456#32, 0x7F123456#32, 0x4F123456#32])) =
    some ([.rd .cs 0x7F123456#32, .rd .cs 0x7F123456#32, .wr .cs 0x7F123456#32,
      .rd .cs 0x7F123456#32, .wr .cs 0x4F123456#32, .rd .cs 0x4F123456#32,
      .wr .data 0x5A000000#32], [⟨.ok, .none⟩]) := by
  decide

/-- Five bytes, in both byte orders (W5). -/
theorem test_xferWrite_orders :
    [ByteOrder.big, .little].map (fun order =>
      writesTo .data (xferWrite order [0x01#8, 0x02#8, 0x03#8, 0x04#8, 0x05#8]
        (dev (List.replicate 5 0x48000000#32))).state.trace) =
    [[0x01020304#32, 0x05000000#32], [0x04030201#32, 0x05000000#32]] := by
  decide

/-- Seven bytes: one word, three single bytes (3.6). -/
theorem test_xferRead_7 : after (fun t => (t.reports, t.trace.length))
      (exec (.xferRead 7 (someBytes 7))
        (dev [0x48000000#32, 0x48000000#32, 0x78000000#32, 0x01020304#32, 0x78000000#32,
          0x48000000#32, 0x05000000#32, 0x48000000#32, 0x06000000#32, 0x48000000#32,
          0x07000000#32])) =
    some ([⟨.ok, .bytes 7 [0x01#8, 0x02#8, 0x03#8, 0x04#8, 0x05#8, 0x06#8, 0x07#8]⟩], 13) := by
  decide

/-- Only bits 31:24 of a 1-byte read are used (3.6, D19). -/
theorem test_xferRead_masks : after State.out (exec (.xferRead 1 [0xEE#8])
      (dev [0x48000000#32, 0x48000000#32, 0x78000000#32, 0x48000000#32, 0xAB123456#32])) =
    some [0xAB#8] := by
  decide

/-- P2: the loopback message on slot 1, its 35 accesses, its DATA words and its report. -/
theorem test_transfer_p2 : after
      (fun t => (t.trace.length, writesTo .data t.trace, writesTo .cfg t.trace, t.window.cs,
        t.reports))
      (exec (.transfer ⟨1, 50000000,
          [⟨some [0x01#8, 0x02#8, 0x03#8, 0x04#8, 0x05#8], none, 5, 40000000⟩,
            ⟨none, some (someBytes 5), 5, 30000000⟩]⟩)
        (dev ([0xC8000000#32, 0x1FFFFFFF#32] ++ pulseAnswers ++ List.replicate 3 0x89000000#32 ++
          [0xB9000000#32, 0xB9000000#32, 0x89000000#32] ++ List.replicate 2 0x89000000#32 ++
          [0xB9000000#32, 0x01020304#32, 0xB9000000#32, 0x89000000#32, 0x05000000#32] ++
          pulseAnswers))) =
    some (35, [0x01020304#32, 0x05000000#32], [0x5FFFFFFF#32], 0xC0000000#32,
      [⟨.ok, .message 10 [none, some [0x01#8, 0x02#8, 0x03#8, 0x04#8, 0x05#8]]⟩]) := by
  decide +kernel

/-- P5: the conflicting descriptor ends the message after 18 accesses, with no deselect. -/
theorem test_transfer_p5 : after (fun t => (t.trace.length, t.window.cs, t.reports))
      (exec (.transfer ⟨0, 50000000,
          [⟨some [0x05#8], none, 1, 0⟩, ⟨some (someBytes 2), some (someBytes 2), 2, 0⟩,
            ⟨none, some [0xEE#8], 1, 0⟩]⟩)
        (dev ([0xC8000000#32, 0x00000000#32] ++ pulseAnswers ++ List.replicate 3 0x48000000#32 ++
          [0x78000000#32, 0x48000000#32]))) =
    some (18, 0x48000000#32,
      [⟨.conflictingTransfer, .message 1 [none, some (someBytes 2), some [0xEE#8]]⟩]) := by
  decide

theorem test_maxXferSize : seen (exec .maxXferSize (dev [])) =
    some ([], [⟨.ok, .size 256⟩]) := by
  decide

/-- A table word runs as the very next call right after reset: an entry point as the host's, an internal
operation as the core's. -/
theorem test_withFetchWord :
    seen (step (State.reset.withFetchWord 8 0x8)) = some ([], [⟨.ok, .size 256⟩]) ∧
    seen (step ((dev [0x48000000#32]).withFetchWord 8 0x0)) =
      some ([.rd .cs 0x48000000#32], [⟨.ok, .none⟩]) := by
  decide

/-- R38, R144: WAIT_READY and a CS read are not the host's to call, nor MAX_XFER_SIZE the core's. -/
theorem test_wrongInvoker :
    refusal (step { dev [] with calls := [⟨.host, .op, 0x0#32, []⟩] }) = some .wrongInvoker ∧
    refusal (step { dev [] with calls := [⟨.host, .bus, 0x08#32, []⟩] }) = some .wrongInvoker ∧
    refusal (step { dev [] with calls := [⟨.core, .op, 0x8#32, []⟩] }) = some .wrongInvoker := by
  decide

/-! ### Witnesses: states and operands that meet the hypotheses of the statements -/

/-- A device that answers not ready `n` times and then `w`. -/
def busy (n : Nat) (w : Word) : State := dev (List.replicate n 0#32 ++ [w])

theorem busy_answerAt_lt {n k : Nat} (w : Word) (h : k < n) : (busy n w).answerAt k = 0#32 := by
  simp [busy, dev, State.answerAt, List.getElem?_append, h]

theorem busy_answerAt (n : Nat) (w : Word) : (busy n w).answerAt n = w := by
  simp [busy, dev, State.answerAt]

theorem busy_busyFor (n : Nat) (w : Word) : BusyFor (busy n w) n := fun k hk => by
  rw [busy_answerAt_lt w hk]; rfl

/-- The hypotheses on a device first ready at poll `k + 1`, for every `k`. -/
theorem busy_first (k : Nat) : Accepting (busy k 0x08000000#32) ∧ BusyFor (busy k 0x08000000#32) k ∧
    rdy ((busy k 0x08000000#32).answerAt k) = true :=
  ⟨dev_accepting _, busy_busyFor k _, by rw [busy_answerAt]; rfl⟩

/-- A call that runs. -/
theorem runs {i : Instr} {s : State} (hw : i.illegal = none) (hs : Accepting s) :
    ∃ t, exec i s = .next t := ⟨_, exec_next hw hs⟩

/-- A device that answers `w` to its next `n` reads. -/
def steady (n : Nat) (w : Word) : State := dev (List.replicate n w)

/-- The message of P5: a write, a conflicting descriptor, a read. -/
def messageP5 : Message :=
  ⟨0, 50000000, [⟨some [0x05#8], none, 1, 0⟩, ⟨some (someBytes 2), some (someBytes 2), 2, 0⟩,
    ⟨none, some [0xEE#8], 1, 0⟩]⟩

/-- A message with a write and a read. -/
def messageWR : Message :=
  ⟨1, 50000000, [⟨some [0x01#8, 0x02#8, 0x03#8, 0x04#8, 0x05#8], none, 5, 40000000⟩,
    ⟨none, some (someBytes 5), 5, 30000000⟩]⟩

/-- The message of P4: 10000000 Hz is too slow. -/
def messageP4 : Message := ⟨1, 100000000, [⟨some [0x06#8], none, 1, 10000000⟩]⟩

/-- One legal instruction of every constructor. -/
def oneOfEach : List Instr :=
  [.rdCfg, .wrCfg 1#32, .rdCfg2, .wrCfg2 1#32, .rdCs, .wrCs 1#32, .rdData, .wrData 1#32, .rdData2,
    .wrData2 1#32, .waitReady, .negotiate 12500000, .setup 12500000, .deselect, .select 1,
    .xferWrite [0xAB#8], .xferRead 1 [0xEE#8], .transfer messageWR, .maxXferSize, .csDeselBoth,
    .csAssertBoth, .csSel0, .csSel1, .csLen4 1#2 1#28, .csLen1 1#2 1#28, .cfgDiv 7#3 1#29,
    .dataByte 1#8, .dataWord 1#8 2#8 3#8 4#8]

/-- An accepting state, and a legal instruction of each constructor: each runs. -/
theorem witness_LegalCallsComplete :
    Accepting (dev []) ∧ oneOfEach.length = 28 ∧ ∀ i ∈ oneOfEach, i.wf = true :=
  ⟨dev_accepting [], by decide, by decide⟩

/-- For the statements over every call that runs: each constructor's runs. -/
theorem witness_every_call_runs : ∀ i ∈ oneOfEach, ∃ t, exec i (dev []) = .next t := fun i hi =>
  runs (wf_iff.mp (witness_LegalCallsComplete.2.2 i hi)) (dev_accepting [])

theorem witness_ResourceUnavailableIsAttachsAlone :
    (State.attach false).handle = none ∧ ∃ t, exec .rdCs (dev []) = .next t :=
  ⟨rfl, runs rfl (dev_accepting [])⟩

theorem witness_CallInFlightRefused :
    ({ dev [] with seq := .awaitReady } : State).handle ≠ none ∧
    ({ dev [] with ops := [⟨.waitReady, 2⟩] } : State).ops ≠ [] ∧
    refusal (exec .rdCs { dev [] with seq := .awaitReady }) = some .callInFlight ∧
    refusal (exec .rdCs { dev [] with ops := [⟨.waitReady, 2⟩] }) = some .callInFlight := by
  refine ⟨(dev_accepting []).1, by decide, by decide, by decide⟩

theorem witness_IllegalArgumentsRefused :
    Accepting (dev []) ∧ (Instr.select 2).illegal = some .badSlot ∧ 256 < (someBytes 257).length ∧
    (someBytes 255).length ≠ 256 ∧ (someBytes 3).length ≠ 2 :=
  ⟨dev_accepting [], by decide, by rw [length_someBytes]; decide,
    by rw [length_someBytes]; decide, by rw [length_someBytes]; decide⟩

theorem witness_EncodeInvertsDecode :
    decode ⟨.bus, 0xFFFFFFE0#32, [7]⟩ = .ok (.wrCfg 7#32) ∧
    decode ⟨.op, 0xFFFFFFF4#32, [1]⟩ = .ok (.select 1) ∧
    decode ⟨.csSelect, 0x40000000#32, []⟩ = .ok .csSel0 ∧
    decode ⟨.csLength, 0x30000000#32, []⟩ = .ok (.csLen4 0#2 0#28) ∧
    decode ⟨.cfg, 0#32, []⟩ = .ok (.cfgDiv 0#3 0#29) ∧
    decode ⟨.dataWord, 0#32, []⟩ = .ok (.dataWord 0#8 0#8 0#8 0#8) ∧
    decode ⟨.dataByte, 0#32, []⟩ = .ok (.dataByte 0#8) := by
  decide

theorem witness_IllegalCodesRejected :
    (0x3F#32 &&& 0x3F#32).toNat ∉ [0x00, 0x20, 0x04, 0x24, 0x08, 0x28, 0x0C, 0x2C, 0x10, 0x30] ∧
    9 ≤ (0x9#32 &&& 0xF#32).toNat ∧
    (0x00000001#32).toNat ∉ [0xC0000000, 0x00000000, 0x40000000, 0x81000000] ∧
    (0x10000000#32).extractLsb' 28 2 = 1#2 ∧ (0x20000000#32).extractLsb' 28 2 = 2#2 ∧
    (0x00000001#32).extractLsb' 0 24 ≠ 0#24 := by
  decide

theorem witness_StepRunsTheDecodedCall :
    ({ dev [] with calls := [⟨.host, .op, 0x8#32, []⟩] } : State).calls =
      ⟨.host, .op, 0x8#32, []⟩ :: [] ∧
    decode ⟨.op, 0x8#32, []⟩ = .ok .maxXferSize ∧ Invoker.host = invokerOf .maxXferSize ∧
    ({ dev [] with calls := [⟨.core, .bus, 0x08#32, []⟩] } : State).calls =
      ⟨.core, .bus, 0x08#32, []⟩ :: [] ∧
    decode ⟨.bus, 0x08#32, []⟩ = .ok .rdCs ∧ Invoker.core = invokerOf .rdCs := by
  decide

theorem witness_StepWaitsOrRefuses :
    (dev []).calls = [] ∧
    ({ dev [] with calls := [⟨.host, .bus, 0x14#32, []⟩] } : State).calls =
      ⟨.host, .bus, 0x14#32, []⟩ :: [] ∧
    decode ⟨.bus, 0x14#32, []⟩ = .reject .illegalDescriptor ∧
    ({ dev [] with calls := [⟨.host, .op, 0x0#32, []⟩] } : State).calls =
      ⟨.host, .op, 0x0#32, []⟩ :: [] ∧
    decode ⟨.op, 0x0#32, []⟩ = .ok .waitReady ∧ (∀ hz, Instr.waitReady ≠ .setup hz) ∧
    (∀ m, Instr.waitReady ≠ .transfer m) ∧ Instr.waitReady ≠ .maxXferSize ∧
    ({ dev [] with calls := [⟨.core, .op, 0x8#32, []⟩] } : State).calls =
      ⟨.core, .op, 0x8#32, []⟩ :: [] ∧
    decode ⟨.op, 0x8#32, []⟩ = .ok .maxXferSize :=
  ⟨rfl, rfl, by decide, rfl, by decide, nofun, nofun, nofun, rfl, by decide⟩

/-- A state other than reset that has the invariant, and steps. -/
theorem witness_StepKeepsTheInvariant :
    Inv { dev [0#32] with calls := [⟨.core, .bus, 0x08#32, []⟩] } ∧
    ∃ t, step { dev [0#32] with calls := [⟨.core, .bus, 0x08#32, []⟩] } = .next t :=
  ⟨{ handle := fun h hh => by
       have : h = ⟨Config.regBase, Config.refHz, 0⟩ := (Option.some.inj hh).symm
       rw [this]; exact ⟨rfl, rfl⟩
     idle := ⟨rfl, rfl⟩
     poll := by decide
     index := by decide
     latch := fun r v h => by cases h
     draws := by decide
     moves := by decide
     filled := by decide
     status := by decide
     reports := by decide },
    _, rfl⟩

theorem witness_LegalRunsNeverStop :
    Accepting ({ dev [] with
      calls := [⟨.core, .op, 0x4#32, [1]⟩, ⟨.host, .op, 0x8#32, []⟩] } : State) ∧
    decode ⟨.op, 0x4#32, [1]⟩ = .ok (.select 1) ∧ Invoker.core = invokerOf (.select 1) ∧
    (Instr.select 1).wf = true ∧ decode ⟨.op, 0x8#32, []⟩ = .ok .maxXferSize ∧
    Invoker.host = invokerOf .maxXferSize ∧ Instr.maxXferSize.wf = true :=
  ⟨⟨(dev_accepting []).1, rfl, rfl⟩, by decide, rfl, by decide, by decide, rfl, by decide⟩

theorem witness_WrittenFieldsTakeEffect : ∃ t u v, exec (.wrCfg 0xE0000000#32) (dev []) = .next t ∧
    exec (.wrCs 0xB9000000#32) (dev []) = .next u ∧
    exec (.wrCfg2 0xFF000000#32) (dev []) = .next v :=
  ⟨_, _, _, exec_next rfl (dev_accepting []), exec_next rfl (dev_accepting []),
    exec_next rfl (dev_accepting [])⟩

theorem witness_OnlyTheFiveOffsetsReachARegister :
    (dev []).handle = some ⟨Config.regBase, Config.refHz, 0⟩ ∧ Accepting (dev []) ∧
    Config.regBase + 0x10 = Config.regBase + Reg.data2.offset ∧
    ∀ r : Reg, Config.regBase + 0x14 ≠ Config.regBase + r.offset :=
  ⟨rfl, dev_accepting [], rfl, fun r => by cases r <;> simp [Reg.offset]⟩

/-- First ready at the first poll, and at the last. -/
theorem witness_WaitReadyEndsAtTheFirstReadyPoll :
    (Accepting (busy 0 0x08000000#32) ∧ BusyFor (busy 0 0x08000000#32) 0 ∧
      rdy ((busy 0 0x08000000#32).answerAt 0) = true) ∧
    (Accepting (busy 1999 0x08000000#32) ∧ BusyFor (busy 1999 0x08000000#32) 1999 ∧
      rdy ((busy 1999 0x08000000#32).answerAt 1999) = true) :=
  ⟨busy_first 0, busy_first 1999⟩

/-- Also for the BusyFor clause of TransferAwaitsReadyFirst. -/
theorem witness_WaitReadyTimesOutAfter2000Polls :
    Accepting (busy 2000 0x08000000#32) ∧ BusyFor (busy 2000 0x08000000#32) 2000 :=
  ⟨dev_accepting _, busy_busyFor 2000 _⟩

/-- The boundary rows of 95_test_vectors.md 3.3: each clause of DividerCodeTable at both ends. -/
theorem witness_DividerCodeTable :
    [66666667, 66666666, 40000000, 39999999, 28571429, 28571428, 22222223, 22222222, 18181819,
        18181818, 15384616, 15384615, 13333334, 13333333, 12500000].map
        (fun hz => codeOf (clampRate (ceilDiv Config.refHz hz))) =
      [0#3, 1#3, 1#3, 2#3, 2#3, 3#3, 3#3, 4#3, 4#3, 5#3, 5#3, 6#3, 6#3, 7#3, 7#3] := by
  decide

theorem witness_EffectiveClockIsAtLeastTheRate :
    (∃ t, exec (.negotiate 12500000) (dev []) = .next t) ∧
    ∃ t, exec (.negotiate 40000000) (dev []) = .next t :=
  ⟨runs rfl (dev_accepting []), runs rfl (dev_accepting [])⟩

theorem witness_DeselectPulseWhenReady :
    Accepting (dev pulseAnswers) ∧ readyAt (dev pulseAnswers) 0 pulseItems = true :=
  ⟨dev_accepting _, by decide⟩

theorem witness_SelectWhenReady :
    Accepting (dev (pulseAnswers ++ [0x48000000#32])) ∧
    readyAt (dev (pulseAnswers ++ [0x48000000#32])) 0 (selectItems 0) = true ∧
    readyAt (dev (pulseAnswers ++ [0x89000000#32])) 0 (selectItems 1) = true :=
  ⟨dev_accepting _, by decide, by decide⟩

theorem witness_XferWriteWhenReady :
    (someBytes 5).length ≤ 256 ∧ Accepting (steady 5 0x48000000#32) ∧
    readyAt (steady 5 0x48000000#32) 0
      (xferWriteItems .big (someBytes 5) ((steady 5 0x48000000#32).answerAt 0)) = true ∧
    readyAt (steady 3 0x48000000#32) 0
      (xferWriteItems .big [] ((steady 3 0x48000000#32).answerAt 0)) = true :=
  ⟨by decide, dev_accepting _, by decide, by decide⟩

theorem witness_XferReadWhenReady :
    (someBytes 5).length = 5 ∧ Accepting (steady 7 0x48000000#32) ∧
    readyAt (steady 7 0x48000000#32) 0
      (xferReadItems 5 ((steady 7 0x48000000#32).answerAt 0)) = true ∧
    readyAt (steady 3 0x48000000#32) 0
      (xferReadItems 0 ((steady 3 0x48000000#32).answerAt 0)) = true :=
  ⟨by decide, dev_accepting _, by decide, by decide⟩

/-- For XferReadFillsAPrefix and XferWriteSendsAPrefix: the empty and the longest transfer. -/
theorem witness_prefix_statements :
    (someBytes 0).length = 0 ∧ (someBytes 256).length = 256 ∧ Accepting (dev []) :=
  ⟨rfl, length_someBytes 256, dev_accepting []⟩

/-- A call of the engine that ends with Ok. -/
theorem witness_EngineSwitchesLengthOnceEach :
    ∃ t, exec (.xferWrite [0xAB#8]) (steady 4 0x48000000#32) = .next t ∧
      t.reports = (steady 4 0x48000000#32).reports ++ [⟨.ok, .none⟩] :=
  ⟨_, exec_next rfl (dev_accepting _), by decide⟩

/-- W5: five bytes through the FIFO. -/
theorem witness_LoopbackReproducesTheBytes :
    ∃ t v, xferWrite .big [0x01#8, 0x02#8, 0x03#8, 0x04#8, 0x05#8] (steady 5 0x48000000#32) = .ok t ∧
      xferRead .big 5 (someBytes 5) (dev [0x48000000#32, 0x48000000#32, 0x48000000#32, 0x01020304#32,
        0x48000000#32, 0x48000000#32, 0x05000000#32]) = .ok v ∧
      readsFrom .data (newEvents (dev [0x48000000#32, 0x48000000#32, 0x48000000#32, 0x01020304#32,
        0x48000000#32, 0x48000000#32, 0x05000000#32]) v) =
        writesTo .data (newEvents (steady 5 0x48000000#32) t) :=
  ⟨_, _, rfl, rfl, by decide⟩

/-- The rows of 95_test_vectors.md 3.7 on the message speed. -/
theorem witness_MessageSpeedIsTheLeastSpecified :
    messageSpeed ⟨0, 50000000, [⟨none, some [0#8], 1, 40000000⟩,
      ⟨none, some [0#8], 1, 30000000⟩]⟩ = 30000000 ∧
    messageSpeed ⟨0, 50000000, [⟨none, some [0#8], 1, 0⟩, ⟨none, some [0#8], 1, 0⟩]⟩ = 50000000 ∧
    messageSpeed ⟨0, 50000000, [⟨none, some [0#8], 1, 60000000⟩, ⟨none, some [0#8], 1, 0⟩]⟩ =
      60000000 := by
  decide

theorem witness_TransferSucceedsWhenReady :
    (Instr.transfer messageWR).wf = true ∧ Accepting (steady 40 0x48000000#32) ∧
    12500000 ≤ messageSpeed messageWR ∧ (∀ t ∈ messageWR.xfers, t.tx = none ∨ t.rx = none) ∧
    readyAt (steady 40 0x48000000#32) 0 (messageItems .big messageWR (steady 40 0x48000000#32)) =
      true :=
  ⟨by decide, dev_accepting _, by decide, by decide, by decide +kernel⟩

/-- For TransferAwaitsReadyFirst and TransferRejectsSlowSpeeds, ready at the first and last poll. -/
theorem witness_transfer_waits :
    (Instr.transfer messageP4).wf = true ∧ messageSpeed messageP4 < 12500000 ∧
    Accepting (busy 1999 0x08000000#32) ∧ BusyFor (busy 1999 0x08000000#32) 1999 ∧
    rdy ((busy 1999 0x08000000#32).answerAt 1999) = true ∧
    rdy ((busy 0 0x08000000#32).answerAt 0) = true :=
  ⟨by decide, by decide, (busy_first 1999).1, (busy_first 1999).2.1, (busy_first 1999).2.2,
    (busy_first 0).2.2⟩

/-- P5 enters the conflicting descriptor's state and reports it. -/
theorem witness_ConflictingDescriptorEndsTheMessage :
    ∃ t, exec (.transfer messageP5) (steady 20 0x48000000#32) = .next t ∧
      (∃ a, t.reports = (steady 20 0x48000000#32).reports ++ [⟨.conflictingTransfer, a⟩]) ∧
      messageP5.xfers[1]? = some ⟨some (someBytes 2), some (someBytes 2), 2, 0⟩ ∧
      Phase.transferring 1 ∈ phasesOf (newMarks (steady 20 0x48000000#32) t) :=
  ⟨_, exec_next (by decide) (dev_accepting _),
    ⟨.message 1 [none, some (someBytes 2), some [0xEE#8]], by decide +kernel⟩, rfl,
    by decide +kernel⟩

/-- Both ends of ActualCountsCompletedDescriptors and MessageStatesFollowTheOrder: a message that
reaches the final deselect, with a write and a read that completed, and one that does not;
`witness_message_selected` has a write whose Transferring state is not entered. -/
theorem witness_message_ends :
    ∃ t u, exec (.transfer messageWR) (steady 40 0x48000000#32) = .next t ∧
      Phase.deselected ∈ phasesOf (newMarks (steady 40 0x48000000#32) t) ∧
      exec (.transfer messageP5) (steady 20 0x48000000#32) = .next u ∧
      Phase.deselected ∉ phasesOf (newMarks (steady 20 0x48000000#32) u) :=
  ⟨_, _, exec_next (by decide) (dev_accepting _), by decide +kernel,
    exec_next (by decide) (dev_accepting _), by decide +kernel⟩

/-- For DoneIsReachedExactlyOnce, TransferAccessBound and FrameOfTransfer. -/
theorem witness_transfer_runs : (Instr.transfer messageWR).wf = true ∧ Accepting (dev []) ∧
    ∃ t, exec (.transfer messageWR) (dev []) = .next t :=
  ⟨by decide, dev_accepting [], runs (by decide) (dev_accepting [])⟩

theorem witness_MaxXferSizeIs256 : Accepting (dev []) ∧
    ∃ d ∈ (⟨0, 25000000, [⟨none, none, 257, 0⟩]⟩ : Message).xfers, 256 < d.len :=
  ⟨dev_accepting [], by decide⟩

/-- A wait that times out, for TimedOutComesFromAFailedWait. -/
theorem witness_TimedOutComesFromAFailedWait :
    ∃ t, exec .waitReady (busy 2000 0x08000000#32) = .next t ∧
      t.reports = (busy 2000 0x08000000#32).reports ++ [⟨.timedOut, .none⟩] :=
  ⟨_, exec_next rfl (dev_accepting _), by
    simp only [effect, waitReady_busy (busy_busyFor 2000 _)]; rfl⟩

/-- For FrameOfPollingOperations, FrameOfDataOperations, ChipSelectAccessBounds,
AccessesAreGuardedByWaits and, with `witness_cfg_accesses`, OperationsLeaveOtherRegistersAlone; with
`witness_reading_call_runs`, which is no operation, SequencerFollowsThePseudocode. -/
theorem witness_operations_run :
    ∀ i ∈ [Instr.waitReady, .deselect, .select 0, .xferWrite [0xAB#8], .xferRead 1 [0xEE#8]],
      isOperation i = true ∧ ∃ t, exec i (dev []) = .next t := by
  intro i hi
  have h : isOperation i = true ∧ i.illegal = none := by revert i; decide
  exact ⟨h.1, runs h.2 (dev_accepting [])⟩

/-- For NegotiateProgramsTheDivider and NegotiateRejectsSlowSpeeds: the two sides of the boundary, which
no speed shares, and what each answers (95_test_vectors.md 3.3). -/
theorem witness_negotiate_speeds : Accepting (dev []) ∧ 12500000 ≤ 12500000 ∧ 12499999 < 12500000 ∧
    after State.reports (exec (.negotiate 12500000) (dev [0#32])) = some [⟨.ok, .none⟩] ∧
    after State.reports (exec (.negotiate 12499999) (dev [0#32])) =
      some [⟨.invalidSpeed, .none⟩] :=
  ⟨dev_accepting [], by decide, by decide, by decide, by decide⟩

/-- For SetupValidatesTheMaximum: each clause at its boundary; `test_setup` has their results. -/
theorem witness_SetupValidatesTheMaximum : Accepting (dev []) ∧ 12499999 < 12500000 ∧
    (12500000 ≤ 12500000 ∧ 100000000 ≤ 100000000) ∧ 100000000 < 100000001 :=
  ⟨dev_accepting [], by decide, by decide, by decide⟩

/-- For the statements whose one hypothesis is that the block accepts: RegisterReadsReturnTheAnswer,
RegisterWritesReachTheDevice, WordRowsWriteTheirWords, WaitReadyIsBounded,
DeselectStopsWithinThePulse and, with slots 0 and 1, SelectStopsWithinItsWords. -/
theorem witness_accepting : Accepting (dev []) ∧ Accepting (busy 1 0x08000000#32) ∧ 0 < 2 ∧ 1 < 2 :=
  ⟨dev_accepting [], dev_accepting _, by decide, by decide⟩

/-- For ReadsUseTheAnswersInOrder, DataAccessesMoveBytes and WorkingRegistersCarryNothingIn, beside
`witness_every_call_runs`: a call that reads, and moves bytes. -/
theorem witness_reading_call_runs : ∃ t, exec .rdData (dev [0xAB000000#32]) = .next t ∧
    t.trace = [.rd .data 0xAB000000#32] :=
  ⟨_, exec_next rfl (dev_accepting _), by decide⟩

/-! ### A device that stalls: ready at the next `k` reads, then not for a whole wait -/

/-- The answers of such a device. -/
def stall (k : Nat) : List Word := List.replicate k 0x48000000#32 ++ List.replicate 2000 0#32

theorem stall_succ (k : Nat) : stall (k + 1) = 0x48000000#32 :: stall k := by
  rw [stall, List.replicate_succ]; rfl

theorem stall_zero {k : Nat} (h : k < 2000) : (stall 0)[k]? = some 0#32 := by
  rw [stall, List.replicate_zero, List.nil_append, List.getElem?_replicate, if_pos h]

theorem stall_ready {s : State} {k : Nat} (h : s.answers = stall (k + 1)) (o : OpName) (n : Nat) :
    ∃ u, waitAt o n s = .ok u ∧ u.answers = stall k := by
  refine ⟨_, waitReady_ready (s := atLine o n s) ?_, ?_⟩
  · simp [State.answerAt, h, stall_succ]; rfl
  · simp [State.polled, h, stall_succ]

theorem stall_busy {s : State} (h : s.answers = stall 0) (o : OpName) (n : Nat) :
    ∃ u, waitAt o n s = .raise .timedOut u :=
  ⟨_, waitReady_busy (s := atLine o n s) fun k hk => by
    have hk : k < 2000 := hk
    have : (atLine o n s).answerAt k = 0#32 := by
      simp [State.answerAt, h, stall_zero hk]
    rw [this]; rfl⟩

/-- A CS word whose wait is answered. -/
theorem stall_ok {s : State} {k : Nat} (h : s.answers = stall (k + 1)) (o : OpName) (n m : Nat)
    (v : Word) : ∃ u es, writeCsAndWait o n m v s = .ok u ∧ u.answers = stall k ∧ Ran s u es ∧
      writesTo .cs es = [v] := by
  obtain ⟨es, hc⟩ := writeCsAndWait_sent o n m v s
  obtain ⟨u, hu, hs⟩ := stall_ready (s := regWrite .cs v (atLine o n s)) (by simpa using h) o m
  have hu : writeCsAndWait o n m v s = .ok u := hu
  exact ⟨u, es, hu, hs, by simpa [hu] using hc.ran, hc.all u hu⟩

/-- A CS word whose wait times out. -/
theorem stall_stop {s : State} (h : s.answers = stall 0) (o : OpName) (n m : Nat)
    (v : Word) : ∃ u es, writeCsAndWait o n m v s = .raise .timedOut u ∧ Ran s u es ∧
      writesTo .cs es = [v] := by
  obtain ⟨es, hc⟩ := writeCsAndWait_sent o n m v s
  obtain ⟨u, hu⟩ := stall_busy (s := regWrite .cs v (atLine o n s)) (by simpa using h) o m
  have hu : writeCsAndWait o n m v s = .raise .timedOut u := hu
  obtain ⟨i, h1, h2, hw, -⟩ := hc.count
  obtain rfl : i = 1 := Nat.le_antisymm h2 h1
  exact ⟨u, es, hu, by simpa [hu] using hc.ran, hw⟩

/-- DESELECT stops after its word `k + 1`, and completes where all three waits are answered. -/
theorem stall_deselect (k : Nat) (s : State) (h : s.answers = stall k) (hk : k < 4) :
    ∃ r es, deselect s = r ∧ Ran s r.state es ∧
      if k < 3 then r.status = .timedOut ∧ (writesTo .cs es).length = k + 1
      else r.status = .ok ∧ (writesTo .cs es).length = 3 ∧ r.state.answers = stall 0 := by
  suffices hb : ∀ s : State, s.answers = stall k → ∃ es, Ran s (deselectBody s).state es ∧
      if k < 3 then (deselectBody s).status = .timedOut ∧ (writesTo .cs es).length = k + 1
      else (deselectBody s).status = .ok ∧ (writesTo .cs es).length = 3 ∧
        (deselectBody s).state.answers = stall 0 by
    obtain ⟨es, h1, h2⟩ := hb (enterOp .deselect s) h
    exact ⟨_, es, rfl, ran_within h1, by simpa [deselect, within] using h2⟩
  clear h s
  intro s h
  unfold deselectBody
  cases k with
  | zero =>
    obtain ⟨u, a, e, n, w⟩ := stall_stop h .deselect 1 2 wordDeselBoth
    rw [e]; exact ⟨a, n, rfl, by rw [w]; rfl⟩
  | succ k =>
  obtain ⟨u, a, e, h, n, w⟩ := stall_ok h .deselect 1 2 wordDeselBoth
  rw [e, Res.andThen_ok]
  cases k with
  | zero =>
    obtain ⟨u, b, e, n', w'⟩ := stall_stop h .deselect 3 4 wordAssertBoth
    rw [e]; exact ⟨a ++ b, n.trans n', rfl, by rw [writesTo_append, w, w']; rfl⟩
  | succ k =>
  obtain ⟨u, b, e, h, n', w'⟩ := stall_ok h .deselect 3 4 wordAssertBoth
  rw [e, Res.andThen_ok]
  cases k with
  | zero =>
    obtain ⟨u, c, e, n'', w''⟩ := stall_stop h .deselect 5 6 wordDeselBoth
    rw [e]
    exact ⟨a ++ b ++ c, (n.trans n').trans n'', rfl, by simp [w, w', w'']⟩
  | succ k =>
  obtain ⟨u, c, e, h, n'', w''⟩ := stall_ok h .deselect 5 6 wordDeselBoth
  obtain rfl : k = 0 := by omega
  rw [e, Res.andThen_ok]
  exact ⟨a ++ b ++ c, ((n.trans n').trans n'').line .deselect 7, rfl, by simp [w, w', w''],
    by simpa using h⟩

/-- SELECT stops after its word `k + 1`, for each of its four words. -/
theorem stall_select (slot k : Nat) (s : State) (h : s.answers = stall k) (hk : k < 4) :
    ∃ u es, select slot s = .raise .timedOut u ∧ Ran s u es ∧
      (writesTo .cs es).length = k + 1 := by
  suffices hb : ∀ s : State, s.answers = stall k → ∃ u es, selectBody slot s = .raise .timedOut u ∧
      Ran s u es ∧ (writesTo .cs es).length = k + 1 by
    obtain ⟨u, es, h1, h2, h3⟩ := hb (enterOp .select s) h
    exact ⟨leaveOp .select .timedOut u, es, by simp [select, within, h1],
      ((ran_enterOp .select s).trans h2).then_same (ran_leaveOp _ _ _), h3⟩
  clear h s
  intro s h
  obtain ⟨r, a, e, n, hr⟩ := stall_deselect k (atLine .select 1 s) h hk
  unfold selectBody
  rw [e]
  by_cases h3 : k < 3
  · rw [if_pos h3] at hr
    cases r with
    | ok u => cases hr.1
    | raise x u => cases hr.1; exact ⟨u, a, rfl, n.after_line, hr.2⟩
  · rw [if_neg h3] at hr
    obtain ⟨h1, h2, hs⟩ := hr
    cases r with
    | raise x u =>
      have := Res.raised (e := .timedOut) e (deselect_clean _) (by rw [e]; simp [h1])
      rw [this] at h1; cases h1
    | ok u =>
      obtain ⟨v, b, e', n', w'⟩ := stall_stop (s := atLine .select 2 u) hs .select
        (selectLine slot) 6 (selectWord slot)
      refine ⟨v, a ++ b, by simp [e'], n.after_line.trans n'.after_line, ?_⟩
      rw [writesTo_append, List.length_append, w', h2, List.length_singleton]; omega

/-- Each clause of SelectStopsWithinItsWords on a timeout: it stops after one to four words; the first
three are those of DeselectStopsWithinThePulse. -/
theorem witness_SelectStopsWithinItsWords (slot k : Nat) (hs : slot < 2) (hk : k < 4) :
    ∃ t, exec (.select slot) (dev (stall k)) = .next t ∧
      t.reports = (dev (stall k)).reports ++ [⟨.timedOut, .none⟩] ∧
      (writesTo .cs (newEvents (dev (stall k)) t)).length = k + 1 := by
  obtain ⟨u, es, h1, h2, h3⟩ := stall_select slot k (dev (stall k)) rfl hk
  refine ⟨_, exec_next (by simp [Instr.illegal, illegalSlot, Config.nSlots, hs]) (dev_accepting _), ?_, ?_⟩
  · simp only [effect, h1]; rw [← h2.reports]; rfl
  · have : newEvents (dev (stall k)) (effect (.select slot) (dev (stall k))) = es := by
      simp only [effect, h1]; exact h2.newEvents
    rw [this, h3]

/-- Each clause of DeselectStopsWithinThePulse on a timeout. -/
theorem witness_DeselectStopsWithinThePulse (k : Nat) (hk : k < 3) :
    ∃ t, exec .deselect (dev (stall k)) = .next t ∧
      t.reports = (dev (stall k)).reports ++ [⟨.timedOut, .none⟩] ∧
      (writesTo .cs (newEvents (dev (stall k)) t)).length = k + 1 := by
  obtain ⟨r, es, h1, h2, h3⟩ := stall_deselect k (dev (stall k)) rfl (by omega)
  rw [if_pos hk] at h3
  refine ⟨_, exec_next rfl (dev_accepting _), ?_, ?_⟩
  · simp only [effect, h1, reportRes, report, h3.1, h2.reports]
  · have : newEvents (dev (stall k)) (effect .deselect (dev (stall k))) = es := by
      simp only [effect, h1]; exact h2.newEvents
    rw [this, h3.2]

/-- The lines of TRANSFER, where its selection fails. -/
theorem runMessage_select_fails {order : ByteOrder} {m : Message} {s u1 u2 u3 : State}
    (w1 : waitAt .transfer 3 s = .ok u1)
    (w2 : negotiate (messageSpeed m) (atLine .transfer 7 ((atLine .transfer 6 (atLine .transfer 5
      (enterPhase .prepared (atLine .transfer 4 u1)))).setW { (atLine .transfer 6 (atLine .transfer 5
      (enterPhase .prepared (atLine .transfer 4 u1)))).w with speed := messageSpeed m })) = .ok u2)
    (w3 : select m.slot (atLine .transfer 9 (enterPhase .selected (atLine .transfer 8 u2))) =
      .raise .timedOut u3) :
    runMessage order m s = .raise .timedOut u3 := by
  unfold runMessage
  rw [w1]
  simp only [Res.andThen_ok, setW_w]
  rw [w2, Res.andThen_ok, w3]; rfl

/-- A message to slot 1 that times out in Selected, with any descriptors or none. -/
theorem stall_message (m : Message) (s : State) (k : Nat) (hm : (Instr.transfer m).illegal = none)
    (hv : messageSpeed m = 30000000) (h1s : m.slot = 1) (hk : k < 4) (ha : Accepting s)
    (hs : s.answers = 0x48000000#32 :: 0#32 :: stall k) :
    ∃ t a, exec (.transfer m) s = .next t ∧ t.reports = s.reports ++ [⟨.timedOut, a⟩] ∧
      phasesOf (newMarks s t) = [.awaitReady, .prepared, .selected, .done, .idle] := by
  have h1 := (startMessage_head m s).op (st := []) (R := ioRegs) (E := ioEnds)
    (r := .ok ((atLine .transfer 3 (startMessage m s)).polled 1))
    ((opRan_line (by simp) .transfer 3 _).trans (opRan_polled (by simp) _ 1 _ rfl (by simp) (by simp)))
    (by decide)
  have h2 := (((((h1.line 4).enter .prepared).line 5).line 6).setSpeed (messageSpeed m)).line 7
  have w1 : waitAt .transfer 3 (startMessage m s) =
      .ok ((atLine .transfer 3 (startMessage m s)).polled 1) :=
    waitReady_ready (s := atLine .transfer 3 (startMessage m s)) (by
      have : s.answerAt 0 = 0x48000000#32 := by simp [State.answerAt, hs]
      show rdy (s.answerAt 0) = true
      rw [this]; decide)
  have hans : ((atLine .transfer 3 (startMessage m s)).polled 1).answers =
      0#32 :: stall k := by
    show s.answers.drop 1 = _
    rw [hs]; rfl
  simp only [Res.state_ok] at h2
  generalize (atLine .transfer 3 (startMessage m s)).polled 1 = u1 at h2 w1 hans
  obtain ⟨a2, g2, -⟩ := negotiate_opRan (messageSpeed m) (atLine .transfer 7 ((atLine
    .transfer 6 (atLine .transfer 5 (enterPhase .prepared (atLine .transfer 4 u1)))).setW { (atLine
    .transfer 6 (atLine .transfer 5 (enterPhase .prepared (atLine .transfer 4 u1)))).w with
      speed := messageSpeed m }))
  have h3 := h2.op g2 (by decide)
  obtain ⟨u2, w2, r2⟩ : ∃ u2, negotiate (messageSpeed m) (atLine .transfer 7 ((atLine
    .transfer 6 (atLine .transfer 5 (enterPhase .prepared (atLine .transfer 4 u1)))).setW { (atLine
    .transfer 6 (atLine .transfer 5 (enterPhase .prepared (atLine .transfer 4 u1)))).w with
      speed := messageSpeed m })) = .ok u2 ∧ u2.answers = u1.answers.tail := by
    rw [hv]; exact ⟨_, rfl, rfl⟩
  rw [w2] at h3
  have h4 := (((show HeadRan _ _ u2 _ from h3).line 8).enter .selected).line 9
  obtain ⟨u3, a3, w3, -, -⟩ := stall_select 1 k (atLine .transfer 9 (enterPhase .selected (atLine
    .transfer 8 u2))) (by show u2.answers = _; rw [r2, hans]; rfl) hk
  obtain ⟨a3', g3, -, -⟩ := select_opRan 1 (atLine .transfer 9 (enterPhase .selected (atLine
    .transfer 8 u2)))
  have h5 := (show HeadRan m s u3 _ by have := h4.op g3 (by decide); rwa [w3] at this).staged
  have hrun : runMessage .big m (startMessage m s) = .raise .timedOut u3 :=
    runMessage_select_fails w1 w2 (by rw [h1s]; exact w3)
  have ht : effect (.transfer m) s = leaveOp .transfer .timedOut (finishMessage
      (takeError .timedOut u3)) := by
    show transferCall .big m s = _
    simp only [transferCall, hrun]; rfl
  have h6 := (h5.same (u := takeError .timedOut u3) rfl (recorded_same rfl)).trans
    (staged_finish .timedOut _)
  rw [← ht] at h6
  have hr : u3.reports = s.reports := by
    have := (h4.op g3 (by decide)).ran.reports
    rwa [w3] at this
  refine ⟨_, .message u3.w.actual u3.buffers, exec_next hm ha, ?_, ?_⟩
  · rw [ht, ← hr]; rfl
  · rw [h6.phases]; simp

/-- A message that times out in Selected: the second clause of FrameOfTransfer, and TRANSFER's part of
TimedOutComesFromAFailedWait; and an empty one, for the last clause of MessageStatesFollowTheOrder. -/
theorem witness_message_selected (k : Nat) (hk : k < 4) :
    ∀ m ∈ [messageWR, ⟨1, 30000000, []⟩], ∃ s t a,
      exec (.transfer m) s = .next t ∧ t.reports = s.reports ++ [⟨.timedOut, a⟩] ∧
      phasesOf (newMarks s t) = [.awaitReady, .prepared, .selected, .done, .idle] := by
  intro m hm
  have h : (Instr.transfer m).illegal = none ∧ messageSpeed m = 30000000 ∧ m.slot = 1 := by
    revert m; decide
  exact ⟨_, stall_message m (dev (0x48000000#32 :: 0#32 :: stall k)) k h.1 h.2.1 h.2.2 hk
    (dev_accepting _) rfl⟩

/-- The other clauses of FrameOfTransfer: a message that ends before Selected, and one that a
ConflictingTransfer ends, with the slot's bits read back; `witness_message_ends` has the last. -/
theorem witness_FrameOfTransfer :
    (∃ t, exec (.transfer messageP4) (steady 20 0x48000000#32) = .next t ∧
      Phase.selected ∉ phasesOf (newMarks (steady 20 0x48000000#32) t)) ∧
    ∃ t, exec (.transfer messageP5) (steady 20 0x48000000#32) = .next t ∧
      Phase.transferring 0 ∈ phasesOf (newMarks (steady 20 0x48000000#32) t) ∧
      Phase.deselected ∉ phasesOf (newMarks (steady 20 0x48000000#32) t) ∧
      (accessesIn (.transferring 0) (steady 20 0x48000000#32) t).head? =
        some (.rd .cs 0x48000000#32) ∧
      linesOf 0x48000000#32 = slotLines messageP5.slot ∧ t.lines = slotLines messageP5.slot :=
  ⟨⟨_, exec_next (by decide) (dev_accepting _), by decide +kernel⟩,
    _, exec_next (by decide) (dev_accepting _), by decide +kernel, by decide +kernel,
    by decide +kernel, by decide, by decide +kernel⟩

/-- For ActualCountsCompletedDescriptors: a read stopped after its first word; its destination
keeps what the host left past the bytes received (R118). -/
theorem test_destination_prefix :
    destination .big (dev []) { dev [] with
        trace := [.rd .cs 0#32, .rd .data 0x01020304#32]
        seqLog := [⟨0, .phase (.transferring 1)⟩] } 1 ⟨none, some (someBytes 5), 5, 0⟩ =
      some [0x01#8, 0x02#8, 0x03#8, 0x04#8, 0x5A#8] := by
  decide

/-- One byte in 1-byte mode, four in 4-byte mode, LEN + 1 in between (R22, R93, R94). -/
theorem test_movedBytes :
    movedBytes 0x40000000#32 0xAB123456#32 = [0xAB#8] ∧
    movedBytes 0x70000000#32 0xDEADBEEF#32 = [0xDE#8, 0xAD#8, 0xBE#8, 0xEF#8] ∧
    (movedBytes 0x50000000#32 0#32).length = 2 ∧ (movedBytes 0x60000000#32 0#32).length = 3 := by
  refine ⟨by decide, by decide, rfl, rfl⟩

/-- For AccessesAreGuardedByWaits: the pulse's first word is exempt by its place, at line 1 of DESELECT,
and the same word anywhere else is not. -/
theorem test_guard :
    guardedFrom [⟨0, .line .deselect 1⟩] 0 false [.wr .cs 0xC0000000#32] = true ∧
    guardedFrom [⟨0, .line .deselect 5⟩] 0 false [.wr .cs 0xC0000000#32] = false ∧
    guardedFrom [⟨1, .line .deselect 1⟩] 0 false [.wr .cs 0xC0000000#32] = false ∧
    guardedFrom [] 0 false [.rd .cs 0x08000000#32, .wr .cs 0xC0000000#32] = true ∧
    guardedFrom [] 0 false [.rd .cs 0x00000000#32, .wr .data 0#32] = false := by
  decide

/-- For OperationsLeaveOtherRegistersAlone: NEGOTIATE's CFG accesses, and TRANSFER's in Prepared; 30000000
Hz is code 2, written over bits 28:0 as read (R70, R100). -/
theorem witness_cfg_accesses :
    (∃ t, exec (.negotiate 30000000) (dev [0x1FFFFFFF#32]) = .next t ∧
      .rd .cfg 0x1FFFFFFF#32 ∈ newEvents (dev [0x1FFFFFFF#32]) t) ∧
    ∃ t, exec (.transfer messageWR) (steady 40 0x48000000#32) = .next t ∧
      accessesIn .prepared (steady 40 0x48000000#32) t =
        [.rd .cfg 0x48000000#32, .wr .cfg 0x48000000#32] :=
  ⟨⟨_, exec_next rfl (dev_accepting _), by decide⟩,
    _, exec_next (by decide) (dev_accepting _), by decide +kernel⟩

/-- For ActualCountsCompletedDescriptors: what the write of `messageWR` sent, one word and one byte (R112,
P2). -/
theorem test_write_sent : after (fun t => writesTo .data
      (accessesIn (.transferring 0) (steady 40 0x48000000#32) t))
      (exec (.transfer messageWR) (steady 40 0x48000000#32)) =
    some [0x01020304#32, 0x05000000#32] := by
  decide +kernel

/-- For SequencerFollowsThePseudocode: the record of SETUP begins and ends with SETUP. -/
theorem test_setup_record : after (fun t => (t.seqLog.head?, t.seqLog.getLast?))
      (exec (.setup 10000000) (dev [])) =
    some (some ⟨0, .enter .setup⟩, some ⟨0, .leave .setup .invalidSpeed⟩) := by
  decide

/-- For SequencerFollowsThePseudocode: an operation that raised is the last move of its record; a record
that leaves out the wait of line 2 of DESELECT is no walk, and no record goes on past a line that
returns or raises: WAIT_READY's 4 and 6, NEGOTIATE's 2 and 5, SETUP's 7 (R97, R100, R102). -/
theorem test_walk :
    after (fun t => Walk.follow ⟨[], false, none⟩ t.seqLog) (exec (.negotiate 1) (dev [])) =
      some (some ⟨[], true, some .invalidSpeed⟩) ∧
    Walk.follow ⟨[], false, none⟩ [⟨0, .enter .deselect⟩, ⟨0, .line .deselect 1⟩,
      ⟨1, .line .deselect 2⟩, ⟨1, .line .deselect 3⟩] = none ∧
    (∀ n ≤ 12, Walk.move ⟨[⟨.waitReady, 4⟩], false, none⟩ (.line .waitReady n) = none ∧
      Walk.move ⟨[⟨.waitReady, 6⟩], false, none⟩ (.line .waitReady n) = none ∧
      Walk.move ⟨[⟨.negotiate, 2⟩], false, none⟩ (.line .negotiate n) = none ∧
      Walk.move ⟨[⟨.negotiate, 5⟩], false, none⟩ (.line .negotiate n) = none ∧
      Walk.move ⟨[⟨.setup, 7⟩], false, none⟩ (.line .setup n) = none) := by
  decide

end Sys2Proof.Tests
end

section
namespace Sys2Proof.Machine

/-! ### What any call does on the bus (O15) -/

theorem ran_setupLines (hz : Nat) (s : State) : Ran s (setupLines hz s) [] := by
  have h4 := (((ran_atLine .setup 1 s).line .setup 2).line .setup 3).line .setup 4
  unfold setupLines
  dsimp only
  split
  · exact (h4.line .setup 5).line .setup 6
  · exact h4.line .setup 6

/-- SETUP makes no access (R102). -/
theorem setup_ran (hz : Nat) (s : State) : Ran s (setup hz s).state [] := by
  refine ran_within (body := setupBody hz) ?_
  unfold setupBody
  split <;> exact (ran_setupLines hz _).line .setup _

/-- MAX_XFER_SIZE makes no access (R131). -/
theorem maxXferSize_ran (s : State) : Ran s (maxXferSize s).state [] :=
  ran_within (body := fun s => returnAt .maxXferSize 1 s) (ran_atLine .maxXferSize 1 _)

/-- `t` is left by a call from `s` that made the accesses `es`: a run, and then the one report. -/
def Called (s t : State) (es : List Event) : Prop :=
  ∃ u st a, Ran s u es ∧ Ran (report st a u) t []

/-- A call that reports what its operation left. -/
theorem called_reportRes {s : State} {r : Res} {es : List Event} (h : Ran s r.state es)
    (answer : State → Answer) : Called s (reportRes r answer) es := ⟨_, _, _, h, .refl _⟩

theorem called_readCall (r : Reg) (s : State) : ∃ es, Called s (readCall r s) es :=
  ⟨_, _, _, _, ran_regRead r s, .refl _⟩

theorem called_writeCall (r : Reg) (v : Word) (s : State) : ∃ es, Called s (writeCall r v s) es :=
  ⟨_, _, _, _, ran_regWrite r v s, .refl _⟩

/-- Done and Idle make no access; TRANSFER reports between them (R127). -/
theorem called_transferCall (order : ByteOrder) (m : Message) (s : State) :
    ∃ es, Called s (transferCall order m s) es := by
  obtain ⟨st, e, h⟩ := transfer_ran order m s
  exact ⟨_, _, _, _, h.ran, .of_same rfl rfl rfl rfl rfl
    ⟨_, by simp [transferCall, finishMessage]; rfl⟩ rfl rfl rfl⟩

/-- Every call is a run of accesses and one report (R53, R127). -/
theorem effect_called (i : Instr) (s : State) : ∃ es, Called s (effect i s) es := by
  cases i with
  | rdCfg | rdCfg2 | rdCs | rdData | rdData2 => exact called_readCall _ s
  | wrCfg v | wrCfg2 v | wrCs v | wrData v | wrData2 v => exact called_writeCall _ v s
  | csDeselBoth | csAssertBoth | csSel0 | csSel1 | csLen4 | csLen1 | cfgDiv | dataByte | dataWord =>
    exact called_writeCall _ _ s
  | waitReady =>
    obtain ⟨es, h, -⟩ := waitReady_opRan (R := ioRegs) (E := ioEnds) (by simp) (by simp) (by simp) s
    exact ⟨es, called_reportRes h.ran fun _ => .none⟩
  | negotiate hz =>
    obtain ⟨es, h, -⟩ := negotiate_opRan hz s
    exact ⟨es, called_reportRes h.ran fun _ => .none⟩
  | setup hz => exact ⟨_, called_reportRes (setup_ran hz s) fun _ => setupAnswer hz⟩
  | deselect =>
    obtain ⟨es, h, -⟩ := deselect_opRan s
    exact ⟨es, called_reportRes h.ran fun _ => .none⟩
  | select slot =>
    obtain ⟨es, h, -⟩ := select_opRan slot s
    exact ⟨es, called_reportRes h.ran fun _ => .none⟩
  | xferWrite b =>
    obtain ⟨es, h, -⟩ := xferWrite_opRan Config.hostByteOrder b s
    exact ⟨es, called_reportRes h.ran fun _ => .none⟩
  | xferRead n out =>
    obtain ⟨es, h, -⟩ := xferRead_opRan Config.hostByteOrder n out s
    exact ⟨es, called_reportRes h.ran fun t => .bytes t.filled t.out⟩
  | transfer m => exact called_transferCall _ m s
  | maxXferSize => exact ⟨_, called_reportRes (maxXferSize_ran s) fun _ => .size Config.maxXfer⟩

/-- Settles O15: every call is a run (`effect_called`), whose reads took the answers in order, and a
report, which leaves trace and answers alone. -/
theorem readsUseTheAnswersInOrder : Obligations.ReadsUseTheAnswersInOrder := by
  unfold Obligations.ReadsUseTheAnswersInOrder
  intro i s t h
  obtain ⟨-, -, rfl⟩ := exec_next_iff.mp h
  obtain ⟨es, u, st, a, hu, ht⟩ := effect_called i s
  refine ⟨es, ?_, hu.used, ?_, ?_⟩
  · rw [ht.trace, report_trace, hu.trace, List.append_nil]
  · rw [ht.answers, report_answers, hu.answers]; rfl
  · rw [ht.draws, report_draws, hu.draws]; rfl

end Sys2Proof.Machine
end

section
namespace Sys2Proof.Machine

/-! ### The walk of each operation through its pseudocode (O57)

`PartWalks` says that a part of an operation walks; `OpWalks` that a whole operation does, wherever
it is called. The lines of an operation that call nothing are checked against the pseudocode as a
list (`straight`). -/

/-- The error an operation ends with, if any. -/
def Res.error : Res → Option Status
  | .ok _ => none
  | .raise e _ => some e

/-- At line `m` of `o`, whose move is made or not (`c`), with the error `x`, if any, to propagate, `o`
fails with `e`: the operation that the line called raised it, or the line itself does (R13), or the
line is the one of TRANSFER whose error TRANSFER catches itself (R124). -/
def Fails (o : OpName) (m : Nat) (c : Bool) (x : Option Status) (e : Status) : Prop :=
  (c = true ∧ x = some e) ∨ (x = none ∧ errorAt o m = some e) ∨
    (x = none ∧ o = .transfer ∧ m = 14 ∧ c = false)

/-- A part of operation `o`, called over the frames `fs`, walks from `s` to line `n`, or to a line where
it fails. -/
def PartWalks (o : OpName) (fs : List Frame) (s : State) (b : Bool) (n : Nat) : Res → Prop
  | .ok t => Walks s b t (hasMove o n) none ∧ t.ops = ⟨o, n⟩ :: fs
  | .raise e t => e ≠ .ok ∧
    ∃ m c x, Fails o m c x e ∧ Walks s b t c x ∧ t.ops = ⟨o, m⟩ :: fs

/-- What a call of operation `o` from `s` did: a walk from the beginning of `o` to its end, which leaves
the operations in progress as they were. -/
structure CallWalks (o : OpName) (s : State) (r : Res) : Prop where
  walks : Walks s false r.state true r.error
  ops : r.state.ops = s.ops
  clean : r.clean
  record : ∃ ms, r.state.seqLog =
    s.seqLog ++ (⟨s.trace.length, .enter o⟩ :: ms ++ [⟨r.state.trace.length, .leave o r.status⟩])

/-- The operation `op` walks as `o` wherever the line in hand calls `o`. -/
def OpWalks (o : OpName) (op : State → Res) : Prop :=
  ∀ s : State, (∀ f ∈ s.ops.head?, callAt f.op f.line = some o) → CallWalks o s (op s)

section
variable {o : OpName} {fs : List Frame} {s t : State} {b c : Bool} {k n m : Nat} {r : Res}

theorem PartWalks.after (w : Walks s b t c none) (h : PartWalks o fs t c n r) :
    PartWalks o fs s b n r := by
  cases r with
  | ok u => exact ⟨w.trans h.1, h.2⟩
  | raise e u =>
    obtain ⟨he, m, c, x, hf, hw, ho⟩ := h
    exact ⟨he, m, c, x, hf, w.trans hw, ho⟩

/-- A part that succeeded, and what follows it. -/
theorem PartWalks.goOn (h : PartWalks o fs s b n (.ok t))
    (g : t.ops = ⟨o, n⟩ :: fs → PartWalks o fs t (hasMove o n) m r) : PartWalks o fs s b m r :=
  .after h.1 (g h.2)

theorem PartWalks.andThen {g : State → Res} (h : PartWalks o fs s b n r)
    (hg : ∀ t, t.ops = ⟨o, n⟩ :: fs → PartWalks o fs t (hasMove o n) m (g t)) :
    PartWalks o fs s b m (r.andThen g) := by
  cases r with
  | ok t => exact h.goOn (hg t)
  | raise e t => exact h

theorem PartWalks.log (h : PartWalks o fs s b n r) : ∃ ms, r.state.seqLog = s.seqLog ++ ms := by
  cases r with
  | ok t =>
    obtain ⟨⟨ms, hm, -⟩, -⟩ := h
    exact ⟨ms, hm⟩
  | raise e t =>
    obtain ⟨-, m, c, x, -, ⟨ms, hm, -⟩, -⟩ := h
    exact ⟨ms, hm⟩

/-- A change of the state that the walk does not see. -/
theorem PartWalks.mapState {f : State → State} (h : PartWalks o fs s b n r)
    (hl : ∀ t, (f t).seqLog = t.seqLog) (ho : ∀ t, (f t).ops = t.ops) :
    PartWalks o fs s b n (r.mapState f) := by
  cases r with
  | ok t => exact ⟨h.1.then_same (hl t) (ho t), (ho t).trans h.2⟩
  | raise e t =>
    obtain ⟨he, m, c, x, hf, hw, hm⟩ := h
    exact ⟨he, m, c, x, hf, hw.then_same (hl t) (ho t), (ho t).trans hm⟩

/-! #### Lines that call nothing -/

/-- From line `k` of `o` on the lines `ns` follow each other, and none calls an operation or enters a
message state. -/
def straight (o : OpName) : Nat → List Nat → Bool
  | _, [] => true
  | k, n :: ns => decide (n ∈ linesAfter o k) && !hasMove o n && straight o n ns

theorem follow_straight (ns : List Nat) : ∀ k ms, ms.map Mark.what = ns.map (.line o) →
    straight o k ns = true →
    Walk.follow ⟨⟨o, k⟩ :: fs, hasMove o k, none⟩ ms =
      some ⟨⟨o, ns.getLastD k⟩ :: fs, hasMove o (ns.getLastD k), none⟩ := by
  induction ns with
  | nil =>
    intro k ms hm _
    rw [List.map_eq_nil_iff.mp hm]; rfl
  | cons n ns ih =>
    intro k ms hm hs
    obtain ⟨x, xs, rfl, hx, hxs⟩ := List.map_eq_cons_iff.mp hm
    simp only [straight, Bool.and_eq_true, decide_eq_true_eq, Bool.not_eq_true'] at hs
    obtain ⟨⟨hn, hb⟩, hs⟩ := hs
    rw [List.getLastD_cons, ← ih n xs hxs hs]
    simp [Walk.follow, Walk.move, hx, hn, hb]

/-- The lines `ns` of `o`, come to one after the other. -/
theorem partWalks_lines (ns : List Nat) (h : s.ops = ⟨o, k⟩ :: fs)
    (hl : ∃ ms, t.seqLog = s.seqLog ++ ms ∧ ms.map Mark.what = ns.map (.line o))
    (ho : t.ops = ⟨o, ns.getLastD k⟩ :: s.ops.tail) (hs : straight o k ns = true) :
    PartWalks o fs s (hasMove o k) (ns.getLastD k) (.ok t) := by
  obtain ⟨ms, hm, hw⟩ := hl
  rw [h] at ho
  exact ⟨⟨ms, hm, by rw [h, ho]; exact follow_straight ns k ms hw hs⟩, ho⟩

theorem PartWalks.line (h : PartWalks o fs s b k (.ok t)) (hs : straight o k [n] = true) :
    PartWalks o fs s b n (.ok (atLine o n t)) :=
  h.goOn fun ht => partWalks_lines [n] ht ⟨_, atLine_seqLog t o n, rfl⟩ rfl hs

/-- A line that raises. -/
theorem PartWalks.raiseAt {e : Status} (h : PartWalks o fs s b k (.ok t))
    (hs : straight o k [n] = true) (he : errorAt o n = some e) (hne : e ≠ .ok) :
    PartWalks o fs s b m (raiseAt o n e t) :=
  have hn := h.line hs
  ⟨hne, n, _, none, .inr (.inl ⟨rfl, he⟩), hn.1, hn.2⟩

theorem PartWalks.return (h : PartWalks o fs s b k r) (hs : straight o k [n] = true) :
    PartWalks o fs s b n (r.andThen fun t => returnAt o n t) := by
  cases r with
  | ok t => exact h.line hs
  | raise e t => exact h

/-! #### Lines that call an operation -/

theorem hasMove_of_callAt {p : OpName} (h : callAt o n = some p) : hasMove o n = true := by
  simp [hasMove, h]

/-- The next line, which calls an operation. -/
theorem OpWalks.at {p : OpName} {op : State → Res} (hop : OpWalks p op) (h : s.ops = ⟨o, k⟩ :: fs)
    (hn : n ∈ linesAfter o k) (hc : callAt o n = some p) :
    PartWalks o fs s (hasMove o k) n (op (atLine o n s)) := by
  have ho : (atLine o n s).ops = ⟨o, n⟩ :: fs := by simp [h]
  have g := hop (atLine o n s) (by simp [hc])
  refine .after (walks_line h hn) ?_
  cases hr : op (atLine o n s) with
  | ok t =>
    rw [hr] at g
    exact ⟨by rw [hasMove_of_callAt hc]; exact g.walks, g.ops.trans ho⟩
  | raise e t =>
    rw [hr] at g
    exact ⟨g.clean, n, true, some e, .inl ⟨rfl, rfl⟩, g.walks, g.ops.trans ho⟩

/-- The record of an operation is its beginning, its body's, and its end. -/
theorem within_record {body : State → Res}
    (h : ∃ ms, (body (enterOp o s)).state.seqLog = (enterOp o s).seqLog ++ ms) :
    ∃ ms, (within o body s).state.seqLog = s.seqLog ++ (⟨s.trace.length, .enter o⟩ :: ms ++
      [⟨(within o body s).state.trace.length, .leave o (within o body s).status⟩]) := by
  obtain ⟨ms, h⟩ := h
  exact ⟨ms, by simp [within, h]⟩

end

/-- An operation below TRANSFER whose lines walk from its header to its return. -/
theorem opWalks_within {o : OpName} {body : State → Res} (ht : o ≠ .transfer)
    (h : ∀ fs s, s.ops = ⟨o, 0⟩ :: fs →
      PartWalks o fs s false (returnLine o) (body s)) : OpWalks o (within o body) := by
  intro s hc
  have h := h s.ops (enterOp o s) rfl
  have hl := within_record h.log
  have hops : (within o body s).state.ops = (body (enterOp o s)).state.ops.tail := by simp [within]
  cases hb : body (enterOp o s) with
  | ok t =>
    have hr : within o body s = .ok (leaveOp o .ok t) := by rw [within, hb]; rfl
    have hs : (body (enterOp o s)).state = t := by rw [hb]; rfl
    rw [hb] at h
    refine ⟨?_, by rw [hops, hs, h.2]; rfl, by rw [hr]; trivial, hl⟩
    have := Walks.within_ok (body := body) hc (hs ▸ h.1) (hs ▸ h.2) rfl (by rw [hb]; rfl)
    rwa [hr] at this ⊢
  | raise e t =>
    have hr : within o body s = .raise e (leaveOp o e t) := by rw [within, hb]; rfl
    have hs : (body (enterOp o s)).state = t := by rw [hb]; rfl
    have he : (body (enterOp o s)).status = e := by rw [hb]; rfl
    rw [hb] at h
    obtain ⟨hne, m, c, x, hf, hw, ho⟩ := h
    refine ⟨?_, by rw [hops, hs, ho]; rfl, by rw [hr]; exact hne, hl⟩
    have : Walks s false (within o body s).state true (some e) := by
      rcases hf with ⟨rfl, rfl⟩ | ⟨rfl, hm⟩ | ⟨-, h14, -⟩
      · exact Walks.within_propagate (body := body) hc (hs ▸ hw) (hs ▸ ho) he hne ht
      · exact Walks.within_raise (body := body) hc (hs ▸ hw) (hs ▸ ho) hm he hne ht
      · exact absurd h14 ht
    rwa [hr] at this ⊢

/-! #### The readiness poller -/

theorem pollLoop_log (k : Nat) : ∀ s, ∃ ms, (pollLoop k s).state.seqLog = s.seqLog ++ ms := by
  induction k with
  | zero => exact fun s => ⟨_, rfl⟩
  | succ k ih =>
    intro s
    unfold pollLoop
    dsimp only
    split
    · exact ⟨_, by simp; rfl⟩
    · obtain ⟨ms, hm⟩ := ih (onePoll s)
      exact ⟨_, hm.trans (by simp [onePoll]; rfl)⟩

theorem waitReady_opWalks : OpWalks .waitReady waitReady := by
  intro s hc
  have he : (waitReady s).error = if (waitReady s).status = .ok then none else some .timedOut := by
    rcases waitReady_cases s with ⟨k, -, -, -, he⟩ | ⟨-, he⟩ <;> rw [he] <;> rfl
  obtain ⟨_, -, -, ho⟩ := waitReady_opRan (R := ioRegs) (E := ioEnds) (by simp) (by simp) (by simp)
    s
  obtain ⟨ms, hm⟩ := pollLoop_log Config.pollLimit (pollStart s)
  exact ⟨he ▸ waitReady_walks hc, ho, waitReady_clean s,
    within_record (body := waitReadyBody) ⟨_, hm.trans (by simp [pollStart]; rfl)⟩⟩

section
variable {o : OpName} {fs : List Frame} {s : State} {k n m : Nat}

/-- A CS word written at line `n`, and the wait called at line `m` (R107, R108). -/
theorem writeCsAndWait_walks (v : Word) (h : s.ops = ⟨o, k⟩ :: fs) (hs : straight o k [n] = true)
    (hm : m ∈ linesAfter o n) (hc : callAt o m = some .waitReady) :
    PartWalks o fs s (hasMove o k) m (writeCsAndWait o n m v s) :=
  have hw : PartWalks o fs s (hasMove o k) n (.ok (regWrite .cs v (atLine o n s))) :=
    partWalks_lines [n] h ⟨_, by simp; rfl, rfl⟩ (by simp) hs
  hw.goOn fun h => waitReady_opWalks.at h hm hc

/-- A loop whose head is line `k`: a wait called at line `n`, and the lines `ns`, back to `k`. -/
theorem loop_walks {f : State → State} {loop : Nat → State → Res} (ns : List Nat)
    (hn : n ∈ linesAfter o k) (hc : callAt o n = some .waitReady) (hs : straight o n ns = true)
    (hk : ns.getLastD n = k)
    (hf : ∀ t, ∃ ms, (f t).seqLog = t.seqLog ++ ms ∧ ms.map Mark.what = ns.map (.line o))
    (hops : ∀ t, (f t).ops = ⟨o, k⟩ :: t.ops.tail) (h0 : ∀ s, loop 0 s = .ok s)
    (hl : ∀ j s, loop (j + 1) s = ((waitAt o n s).andThen fun t => .ok (f t)).andThen (loop j)) :
    ∀ j s, s.ops = ⟨o, k⟩ :: fs → PartWalks o fs s (hasMove o k) k (loop j s) := by
  intro j
  induction j with
  | zero =>
    intro s h
    rw [h0]
    exact ⟨.same rfl rfl, h⟩
  | succ j ih =>
    intro s h
    rw [hl]
    refine ((waitReady_opWalks.at h hn hc).andThen fun t ht => ?_).andThen ih
    have := partWalks_lines ns ht (hf t) (by rw [hk]; exact hops t) hs
    rwa [hk] at this

end

/-! #### The chip-select sequencer -/

theorem deselect_opWalks : OpWalks .deselect deselect := by
  refine opWalks_within (by decide) fun fs s h => ?_
  refine (writeCsAndWait_walks (k := 0) _ h (by decide) (by decide) rfl).andThen fun t h => ?_
  refine (writeCsAndWait_walks _ h (by decide) (by decide) rfl).andThen fun t h => ?_
  exact (writeCsAndWait_walks _ h (by decide) (by decide) rfl).return (by decide)

theorem select_opWalks (slot : Nat) : OpWalks .select (select slot) := by
  have hs : straight .select 2 [selectLine slot] = true ∧
      6 ∈ linesAfter .select (selectLine slot) := by
    unfold selectLine
    split <;> decide
  refine opWalks_within (by decide) fun fs s h => ?_
  refine (deselect_opWalks.at (k := 0) h (by decide) rfl).andThen fun t h => ?_
  refine PartWalks.return (k := 6) ?_ (by decide)
  exact (partWalks_lines [2] h ⟨_, atLine_seqLog .., rfl⟩ rfl (by decide)).goOn fun h =>
    writeCsAndWait_walks _ h hs.1 hs.2 rfl

/-! #### The clock configurator -/

theorem programDivider_walks {fs : List Frame} {s : State} (hz : Nat)
    (h : s.ops = ⟨.negotiate, 4⟩ :: fs) :
    PartWalks .negotiate fs s false 12 (programDivider hz s) := by
  by_cases hr : s.w.rate < Config.divMin
  · exact partWalks_lines (t := (programDivider hz s).state) [6, 7, 8, 9, 10, 11, 12] h
      ⟨_, by simp [programDivider, clampLines, hr]; rfl, rfl⟩
      (by simp [programDivider, clampLines, hr]) (by decide)
  · exact partWalks_lines (t := (programDivider hz s).state) [6, 8, 9, 10, 11, 12] h
      ⟨_, by simp [programDivider, clampLines, hr]; rfl, rfl⟩
      (by simp [programDivider, clampLines, hr]) (by decide)

theorem negotiate_opWalks (hz : Nat) : OpWalks .negotiate (negotiate hz) := by
  refine opWalks_within (by decide) fun fs s h => ?_
  have h1 : PartWalks .negotiate fs s false 1 (.ok (atLine .negotiate 1 s)) :=
    partWalks_lines [1] h ⟨_, rfl, rfl⟩ rfl (by decide)
  unfold negotiateBody
  dsimp only
  split
  · exact h1.raiseAt (by decide) rfl (by decide)
  · have h4 := h1.goOn fun h => partWalks_lines (t := atLine .negotiate 4
        ((atLine .negotiate 3 (atLine .negotiate 1 s)).setW
          { (atLine .negotiate 3 (atLine .negotiate 1 s)).w with rate := ceilDiv Config.refHz hz }))
      [3, 4] h ⟨_, by simp; rfl, rfl⟩ rfl (by decide)
    split
    · exact h4.raiseAt (by decide) rfl (by decide)
    · exact h4.goOn (programDivider_walks hz)

theorem setup_opWalks (hz : Nat) : OpWalks .setup (setup hz) := by
  refine opWalks_within (by decide) fun fs s h => ?_
  have h6 : PartWalks .setup fs s false 6 (.ok (setupLines hz s)) := by
    by_cases hc : Config.speedMax < hz
    · exact partWalks_lines [1, 2, 3, 4, 5, 6] h ⟨_, by simp [setupLines, hc]; rfl, rfl⟩
        (by simp [setupLines, hc]) (by decide)
    · exact partWalks_lines [1, 2, 3, 4, 6] h ⟨_, by simp [setupLines, hc]; rfl, rfl⟩
        (by simp [setupLines, hc]) (by decide)
  unfold setupBody
  split
  · exact h6.raiseAt (by decide) rfl (by decide)
  · exact h6.line (by decide)

theorem maxXferSize_opWalks : OpWalks .maxXferSize maxXferSize :=
  opWalks_within (by decide) fun fs s h => partWalks_lines [1] h ⟨_, rfl, rfl⟩ rfl (by decide)

/-! #### The data engine -/

section
variable {o : OpName} {fs : List Frame} {s : State}

theorem startTransfer_walks (hx : o = .xferWrite ∨ o = .xferRead) (h : s.ops = ⟨o, 0⟩ :: fs) :
    PartWalks o fs s false 5 (startTransfer o s) := by
  rw [startTransfer_eq]
  refine PartWalks.goOn (t := tookCs o s) (n := 1) ?_ fun h => ?_
  · rcases hx with rfl | rfl <;>
      exact partWalks_lines [1] h ⟨_, by simp [tookCs]; rfl, rfl⟩ (by simp [tookCs]) (by decide)
  · rcases hx with rfl | rfl <;>
      exact (waitReady_opWalks.at h (by decide) rfl).andThen fun t ht =>
        partWalks_lines [3, 4, 5] ht ⟨_, by simp [putLen4]; rfl, rfl⟩ (by simp [putLen4]) (by decide)

theorem startPhaseB_walks (hx : o = .xferWrite ∨ o = .xferRead) (h : s.ops = ⟨o, 5⟩ :: fs) :
    PartWalks o fs s false 12 (startPhaseB o s) := by
  rw [startPhaseB_eq]
  rcases hx with rfl | rfl <;>
    exact (waitReady_opWalks.at h (by decide) rfl).andThen fun t ht =>
      partWalks_lines [11, 12] ht ⟨_, by simp [putLen1]; rfl, rfl⟩ (by simp [putLen1]) (by decide)

end

theorem xferWrite_opWalks (order : ByteOrder) (b : List Byte) :
    OpWalks .xferWrite (xferWrite order b) := by
  refine opWalks_within (by decide) fun fs s h => ?_
  refine (startTransfer_walks (.inl rfl) h).andThen fun t h => ?_
  refine (loop_walks [7, 8, 9, 5] (by decide) rfl (by decide) rfl
    (fun t => ⟨_, by simp [putWord]; rfl, rfl⟩) (fun t => by simp [putWord]) (fun _ => rfl)
    (writeWords_succ order b) _ t h).andThen fun t h => ?_
  refine (startPhaseB_walks (.inl rfl) h).andThen fun t h => ?_
  exact (loop_walks [14, 15, 12] (by decide) rfl (by decide) rfl
    (fun t => ⟨_, by simp [putByte]; rfl, rfl⟩) (fun t => by simp [putByte]) (fun _ => rfl)
    (writeBytes_succ b) _ t h).return (by decide)

theorem xferRead_opWalks (order : ByteOrder) (n : Nat) (out : List Byte) :
    OpWalks .xferRead (xferRead order n out) := by
  refine opWalks_within (by decide) fun fs s h => ?_
  refine ((startTransfer_walks (.inr rfl) (s := handBuffer out s) h).after
    (.same rfl rfl)).andThen fun t h => ?_
  refine (loop_walks [7, 8, 9, 5] (by decide) rfl (by decide) rfl
    (fun t => ⟨_, by simp [getData]; rfl, rfl⟩) (fun t => by simp [getData]) (fun _ => rfl)
    (readWords_succ order) _ t h).andThen fun t h => ?_
  refine (startPhaseB_walks (.inr rfl) h).andThen fun t h => ?_
  exact (loop_walks [14, 15, 16, 12] (by decide) rfl (by decide) rfl
    (fun t => ⟨_, by simp [getData]; rfl, rfl⟩) (fun t => by simp [getData]) (fun _ => rfl)
    readBytes_succ _ t h).return (by decide)

/-! #### The message -/

section
variable {fs : List Frame} {s t : State} {b : Bool} {k : Nat} {r : Res}

/-- A message state is entered at the next line of TRANSFER. -/
theorem partWalks_enter (p : Phase) (h : s.ops = ⟨.transfer, k⟩ :: fs)
    (hn : phaseLine p ∈ linesAfter .transfer k) :
    PartWalks .transfer fs s (hasMove .transfer k) (phaseLine p)
      (.ok (enterPhase p (atLine .transfer (phaseLine p) s))) := by
  have hm : hasMove .transfer (phaseLine p) = true := by cases p <;> rfl
  have ho : (atLine .transfer (phaseLine p) s).ops = ⟨.transfer, phaseLine p⟩ :: fs := by simp [h]
  exact ⟨by rw [hm]; exact (walks_line h hn).trans (walks_phase ho), ho⟩

/-- The engine's run for a descriptor, called at line 16 or 18, and the lines back to the loop's head
(R121). -/
theorem runEngine_walks (order : ByteOrder) (j : Nat) (d : Descriptor)
    (h : s.ops = ⟨.transfer, 15⟩ :: fs) :
    PartWalks .transfer fs s false 10 ((runEngine order j d s).andThen fun t =>
      .ok (atLine .transfer 10 (countBytes d.len (atLine .transfer 19 t)))) := by
  unfold runEngine
  have back : ∀ n, (n = 16 ∨ n = 18) → ∀ t : State, t.ops = ⟨.transfer, n⟩ :: fs →
      PartWalks .transfer fs t (hasMove .transfer n) 10
        (.ok (atLine .transfer 10 (countBytes d.len (atLine .transfer 19 t)))) := by
    rintro n (rfl | rfl) t ht <;>
      exact partWalks_lines [19, 10] ht ⟨_, by simp [countBytes]; rfl, rfl⟩ rfl (by decide)
  cases d.tx with
  | some b => exact ((xferWrite_opWalks order b).at h (by decide) rfl).andThen (back 16 (.inl rfl))
  | none =>
    exact (((xferRead_opWalks order d.len (d.rx.getD [])).at h (by decide) rfl).mapState
      (f := returnBuffer j) (fun _ => rfl) fun _ => rfl).andThen (back 18 (.inr rfl))

/-- The descriptors, from the head of TRANSFER's loop (R121, R124). -/
theorem runXfers_walks (order : ByteOrder) (ts : List Descriptor) : ∀ (j : Nat) (s : State),
    s.ops = ⟨.transfer, 10⟩ :: fs → PartWalks .transfer fs s false 10 (runXfers order j ts s) := by
  induction ts with
  | nil => exact fun j s h => ⟨.same rfl rfl, h⟩
  | cons d ts ih =>
    intro j s h
    have h11 : PartWalks .transfer fs s false 11 (.ok (enterPhase (.transferring j)
      (atLine .transfer 11 s))) := partWalks_enter (.transferring j) h (show 11 ∈ _ by decide)
    have h13 := (h11.line (n := 12) (by decide)).line (n := 13) (by decide)
    unfold runXfers
    dsimp only
    split
    · have h14 := h13.line (n := 14) (by decide)
      exact ⟨by decide, 14, _, none, .inr (.inr ⟨rfl, rfl, rfl, rfl⟩), h14.1, h14.2⟩
    · rw [← Res.andThen_assoc_ok]
      exact ((h13.line (n := 15) (by decide)).goOn (runEngine_walks order j d)).andThen (ih (j + 1))

/-- AwaitReady to Deselected (R121). -/
theorem runMessage_walks (order : ByteOrder) (m : Message) (h : s.ops = ⟨.transfer, 2⟩ :: fs) :
    PartWalks .transfer fs s false 21 (runMessage order m s) := by
  refine (waitReady_opWalks.at h (by decide) rfl).andThen fun t h => ?_
  have h6 := ((partWalks_enter .prepared h (by decide)).line (n := 5) (by decide)).line (n := 6)
    (by decide)
  refine PartWalks.andThen (n := 7) ?_ fun t h => ?_
  · exact (h6.mapState (f := fun s => s.setW { s.w with speed := messageSpeed m }) (fun _ => rfl)
      fun _ => rfl).goOn fun h => (negotiate_opWalks _).at h (by decide) rfl
  refine ((partWalks_enter .selected h (by decide)).goOn fun h =>
    (select_opWalks m.slot).at h (by decide) rfl).andThen fun t h => ?_
  refine PartWalks.andThen (n := 10) ?_ fun t h => ?_
  · exact (partWalks_lines [10] h ⟨_, rfl, rfl⟩ rfl (by decide)).goOn
      (runXfers_walks order m.xfers 0 _)
  exact (partWalks_enter .deselected h (by decide)).goOn fun h =>
    deselect_opWalks.at h (by decide) rfl

theorem startMessage_walks (m : Message) (h : s.ops = []) :
    PartWalks .transfer [] s false 2 (.ok (startMessage m s)) := by
  have h0 : PartWalks .transfer [] s false 0
      (.ok { enterOp .transfer s with buffers := m.xfers.map Descriptor.rx }) :=
    ⟨(walks_enterOp (by simp [h])).then_same rfl rfl, by simp [h]⟩
  have h2 := (h0.goOn fun h => partWalks_enter .awaitReady h (by decide)).line (n := 2) (by decide)
  exact ⟨h2.1.then_same rfl rfl, h2.2⟩

/-- TRANSFER catches every error, and goes on at line 23 as after a success (R121, R138). -/
theorem PartWalks.toDone (h : PartWalks .transfer fs s b 21 r) :
    Walks s b (atLine .transfer 23 (catchError r)) false none ∧
      (atLine .transfer 23 (catchError r)).ops = ⟨.transfer, 23⟩ :: fs := by
  cases r with
  | ok t => exact ⟨h.1.line h.2 (by decide), by simp [catchError, h.2]⟩
  | raise e t =>
    obtain ⟨-, m, c, x, hf, hw, ho⟩ := h
    have hw : Walks s b (catchError (.raise e t)) c x := hw.then_same rfl rfl
    have ho : (catchError (.raise e t)).ops = ⟨.transfer, m⟩ :: fs := ho
    generalize catchError (.raise e t) = u at hw ho ⊢
    refine ⟨?_, by simp [ho]⟩
    rcases hf with ⟨rfl, rfl⟩ | ⟨-, hm⟩ | ⟨rfl, -, rfl, rfl⟩
    · obtain ⟨ms, hm, hw⟩ := hw
      refine ⟨ms ++ [⟨u.trace.length, .line .transfer 23⟩], by simp [hm], ?_⟩
      rw [Walk.follow_append, hw]
      simp [Walk.follow, Walk.move, ho]
    · cases hm
    · exact hw.line ho (by decide)

/-- Done, the report and Idle (R121, R127). -/
theorem finishMessage_walks (h : (atLine .transfer 23 s).ops = [⟨.transfer, 23⟩]) :
    Walks (atLine .transfer 23 s) false (finishMessage s) true none ∧
      (finishMessage s).ops = [⟨.transfer, 25⟩] := by
  have h23 : PartWalks .transfer [] (atLine .transfer 23 s) false 23
    (.ok (enterPhase .done (atLine .transfer 23 s))) := ⟨walks_phase (p := .done) h, h⟩
  have h24 := (h23.line (n := 24) (by decide)).mapState
    (f := fun s => report s.w.status (.message s.w.actual s.buffers) s) (fun _ => rfl) fun _ => rfl
  exact h24.goOn fun h => partWalks_enter .idle h (by decide)

/-- The message's one report is of W.status, which nothing changes after it (R127). -/
theorem finishMessage_reports (s : State) : (finishMessage s).reports =
    s.reports ++ [⟨(finishMessage s).w.status, .message s.w.actual s.buffers⟩] := rfl

theorem walks_leaveTransfer (st : Status) (h : s.ops = ⟨.transfer, 25⟩ :: fs) :
    Walks s true (leaveOp .transfer st s) true none :=
  ⟨_, leaveOp_seqLog .., by simp [Walk.follow, Walk.move, hasMove, returnLine, h]⟩

/-- TRANSFER, from its beginning to its end (R121). -/
theorem transferCall_walks (order : ByteOrder) (m : Message) (h : s.ops = []) :
    Walks s false (transferCall order m s) true none ∧ (transferCall order m s).ops = [] ∧
      ∃ ms st, (transferCall order m s).seqLog = s.seqLog ++
          (⟨s.trace.length, .enter .transfer⟩ :: ms ++
            [⟨(transferCall order m s).trace.length, .leave .transfer st⟩]) ∧
        ∃ a, (transferCall order m s).reports = s.reports ++ [⟨st, a⟩] := by
  have hs := startMessage_walks m h
  obtain ⟨hw, ho⟩ := (runMessage_walks order m hs.2).toDone
  obtain ⟨hf, hl⟩ := finishMessage_walks ho
  have hu := hw.trans hf
  obtain ⟨_, _, hr⟩ := transfer_ran order m s
  have hrep := finishMessage_reports (catchError (runMessage order m (startMessage m s)))
  rw [hr.ran.reports] at hrep
  obtain ⟨xs, hx⟩ : ∃ xs, (startMessage m s).seqLog =
      s.seqLog ++ ⟨s.trace.length, .enter .transfer⟩ :: xs := ⟨_, by simp [startMessage]; rfl⟩
  unfold transferCall
  dsimp only
  generalize finishMessage (catchError (runMessage order m (startMessage m s))) = u at hrep hl hu ⊢
  obtain ⟨ms, hm, -⟩ := id hu
  exact ⟨(hs.1.trans hu).trans (walks_leaveTransfer _ hl), by simp [hl], xs ++ ms, _,
    by simp [hm, hx], _, hrep⟩

end

/-! #### The record of a call -/

/-- The record from `s` to `t` is the walk of one call of `o`, which began and ended it and whose status
was reported (R13, R32). -/
def RecordFollows (o : OpName) (s t : State) : Prop :=
  t.seqLog = s.seqLog ++ newMarks s t ∧
  ∃ w : Walk, Walk.follow ⟨[], false, none⟩ (newMarks s t) = some w ∧ w.ops = [] ∧
    (∀ e, w.raised = some e → ∃ a, t.reports = s.reports ++ [⟨e, a⟩]) ∧
    ∃ ms st a, newMarks s t = ⟨s.trace.length, .enter o⟩ :: ms ++ [⟨t.trace.length, .leave o st⟩] ∧
      t.reports = s.reports ++ [⟨st, a⟩]

theorem recordFollows {o : OpName} {s t : State} {e : Option Status} {st : Status} {a : Answer}
    (hs : s.ops = []) (hw : Walks s false t true e) (ht : t.ops = [])
    (he : ∀ x, e = some x → x = st) (hrep : t.reports = s.reports ++ [⟨st, a⟩])
    (hrec : ∃ ms, t.seqLog =
      s.seqLog ++ (⟨s.trace.length, .enter o⟩ :: ms ++ [⟨t.trace.length, .leave o st⟩])) :
    RecordFollows o s t := by
  obtain ⟨ms, hm, hf⟩ := hw
  obtain ⟨xs, hx⟩ := hrec
  have hx : ms = _ := List.append_cancel_left (hm.symm.trans hx)
  have hn : newMarks s t = ms := by simp [newMarks, hm]
  rw [hs] at hf
  unfold RecordFollows
  rw [hn]
  exact ⟨hm, _, hf, ht, fun x h => ⟨a, he x h ▸ hrep⟩, xs, st, a, hx, hrep⟩

theorem Called.reports {s : State} {r : Res} {answer : State → Answer} {es : List Event}
    (h : Called s (reportRes r answer) es) : r.state.reports = s.reports := by
  obtain ⟨u, st, a, hu, ht⟩ := h
  have := ht.reports
  rw [report_reports, hu.reports] at this
  exact (List.append_inj' this rfl).1

/-- A call of an operation below TRANSFER. -/
theorem OpWalks.follows {o : OpName} {op : State → Res} (hop : OpWalks o op) {s : State}
    (hs : s.ops = []) {answer : State → Answer} (hc : ∃ es, Called s (reportRes (op s) answer) es) :
    RecordFollows o s (reportRes (op s) answer) := by
  obtain ⟨es, hc⟩ := hc
  have h := hop s (by simp [hs])
  refine recordFollows hs (h.walks.then_same rfl rfl) (h.ops.trans hs) ?_ (a := answer (op s).state)
    (congrArg (· ++ _) hc.reports) h.record
  cases op s with
  | ok t => exact nofun
  | raise e t => exact fun x hx => (Option.some.inj hx).symm

/-- A call that leaves the record of the sequencer as it was. -/
theorem follows_none {s t : State} (h : t.seqLog = s.seqLog) :
    t.seqLog = s.seqLog ++ newMarks s t ∧
    ∃ w : Walk, Walk.follow ⟨[], false, none⟩ (newMarks s t) = some w ∧ w.ops = [] ∧
      (∀ e, w.raised = some e → ∃ a, t.reports = s.reports ++ [⟨e, a⟩]) ∧ newMarks s t = [] := by
  have hn : newMarks s t = [] := by simp [newMarks, h]
  rw [hn]
  exact ⟨by simp [h], _, rfl, rfl, nofun, rfl⟩

/-- Settles O57: each operation walks wherever it is called (`OpWalks`), TRANSFER by
`transferCall_walks`, and a register access records nothing. -/
theorem sequencerFollowsThePseudocode : Obligations.SequencerFollowsThePseudocode := by
  unfold Obligations.SequencerFollowsThePseudocode
  intro i s t h
  obtain ⟨⟨-, -, hs⟩, -, rfl⟩ := exec_next_iff.mp h
  have hc := effect_called i s
  cases i with
  | rdCfg | rdCfg2 | rdCs | rdData | rdData2 => exact follows_none (regRead_seqLog s _)
  | wrCfg v | wrCfg2 v | wrCs v | wrData v | wrData2 v => exact follows_none (regWrite_seqLog s _ v)
  | csDeselBoth | csAssertBoth | csSel0 | csSel1 | csLen4 | csLen1 | cfgDiv | dataByte | dataWord =>
    exact follows_none (regWrite_seqLog s _ _)
  | waitReady => exact waitReady_opWalks.follows hs hc
  | negotiate hz => exact (negotiate_opWalks hz).follows hs hc
  | setup hz => exact (setup_opWalks hz).follows hs hc
  | deselect => exact deselect_opWalks.follows hs hc
  | select slot => exact (select_opWalks slot).follows hs hc
  | xferWrite b => exact (xferWrite_opWalks Config.hostByteOrder b).follows hs hc
  | xferRead n out => exact (xferRead_opWalks Config.hostByteOrder n out).follows hs hc
  | transfer m =>
    obtain ⟨hw, ho, ms, st, hrec, a, hrep⟩ := transferCall_walks Config.hostByteOrder m hs
    exact recordFollows hs hw ho nofun hrep ⟨ms, hrec⟩
  | maxXferSize => exact maxXferSize_opWalks.follows hs hc

end Sys2Proof.Machine
end

section
namespace Sys2Proof.Machine

/-! ### NEGOTIATE (O26) -/

/-- `ceil_div(a, b)` is the least number that is enough (R11). -/
theorem ceilDiv_le_iff {a b : Nat} (hb : 0 < b) (p : Nat) : ceilDiv a b ≤ p ↔ a ≤ p * b := by
  unfold ceilDiv
  rw [Nat.div_le_iff_le_mul_add_pred hb, Nat.mul_comm b p]
  omega

theorem clampRate_eq_max (rate : Nat) : clampRate rate = max rate 2 := by
  unfold clampRate Config.divMin
  split <;> omega

/-- The complement of DIV_MASK holds bits 28:0 (R68). -/
theorem getElem_cfgKeepMask {j : Nat} (h : j < 32) : cfgKeepMask[j] = decide (j < 29) := by
  have hk : cfgKeepMask = (BitVec.allOnes 29).setWidth 32 := by decide
  rw [getElem_congr_coll hk, BitVec.getElem_setWidth, BitVec.getLsbD_allOnes]

/-- The fields of the word NEGOTIATE writes to CFG (R76). -/
theorem cfgWord_fields (old : Word) (code : BitVec 3) :
    (cfgWord old code).extractLsb' 29 3 = code ∧
      (cfgWord old code).extractLsb' 0 29 = old.extractLsb' 0 29 := by
  unfold cfgWord
  constructor <;> ext i hi
  · have h : 29 + i < 32 ∧ i < 32 := by omega
    simp [getElem_cfgKeepMask, h, hi]
  · have h : i < 32 := by omega
    simp [getElem_cfgKeepMask, h, hi]

/-- The clamp changes W.rate alone, but for the position in NEGOTIATE and its record (R100). -/
theorem clampLines_eq (s : State) : ∃ l n, clampLines s = { s with
    seqLog := l, ops := ⟨.negotiate, n⟩ :: s.ops.tail
    w := { s.w with rate := clampRate s.w.rate } } := by
  unfold clampLines clampRate
  by_cases h : s.w.rate < Config.divMin
  · rw [if_pos h]; dsimp only; rw [if_pos (by exact h)]; exact ⟨_, 7, rfl⟩
  · rw [if_neg h]; dsimp only; rw [if_neg (by exact h)]; exact ⟨_, 6, rfl⟩

/-- The lines of NEGOTIATE after its range test succeed, and what they change (R100). -/
theorem programDivider_eq (hz : Nat) (s : State) : ∃ l, programDivider hz s = .ok { s with
    handle := s.handle.map (fun h => { h with lastSpeedHz := hz })
    seqLog := l
    ops := ⟨.negotiate, 12⟩ :: s.ops.tail
    w := { s.w with
      rate := clampRate s.w.rate, code := codeOf (clampRate s.w.rate), cfg := s.answerAt 0 }
    window := s.window.set .cfg (cfgWord (s.answerAt 0) (codeOf (clampRate s.w.rate)))
    answers := s.answers.drop 1
    draws := s.draws + 1
    trace := s.trace ++ [.rd .cfg (s.answerAt 0),
      .wr .cfg (cfgWord (s.answerAt 0) (codeOf (clampRate s.w.rate)))] } := by
  have ha := (ran_clampLines s).answerAt 0
  obtain ⟨l, n, hc⟩ := clampLines_eq s
  rw [hc] at ha
  refine ⟨(programDivider hz s).state.seqLog, congrArg Res.ok ?_⟩
  rw [State.mk.injEq]
  simp [programDivider, hc, ha, answersUsed]

/-- The range test of NEGOTIATE passes every speed from 12500000 Hz on (R100, R103). -/
theorem negotiateBody_in_range {hz : Nat} (h : 12500000 ≤ hz) (s : State) : negotiateBody hz s =
    programDivider hz (atLine .negotiate 4 ((atLine .negotiate 3 (atLine .negotiate 1 s)).setW
      { s.w with rate := ceilDiv Config.refHz hz })) := by
  have hr : ceilDiv Config.refHz hz ≤ Config.divMax :=
    (ceilDiv_le_iff (by omega) _).mpr (by unfold Config.refHz Config.divMax; omega)
  unfold negotiateBody
  dsimp only
  rw [if_neg (by omega), if_neg (by simpa using hr)]
  rfl

/-- NEGOTIATE for a speed in range (R100). -/
theorem negotiate_eq {hz : Nat} (h : 12500000 ≤ hz) (s : State) : ∃ l, negotiate hz s = .ok { s with
    handle := s.handle.map (fun h => { h with lastSpeedHz := hz })
    seqLog := l
    w := { s.w with
      rate := clampRate (ceilDiv Config.refHz hz)
      code := codeOf (clampRate (ceilDiv Config.refHz hz)), cfg := s.answerAt 0 }
    window := s.window.set .cfg
      (cfgWord (s.answerAt 0) (codeOf (clampRate (ceilDiv Config.refHz hz))))
    answers := s.answers.drop 1
    draws := s.draws + 1
    trace := s.trace ++ [.rd .cfg (s.answerAt 0),
      .wr .cfg (cfgWord (s.answerAt 0) (codeOf (clampRate (ceilDiv Config.refHz hz))))] } := by
  obtain ⟨l, hd⟩ := programDivider_eq hz (atLine .negotiate 4
    ((atLine .negotiate 3 (atLine .negotiate 1 (enterOp .negotiate s))).setW
      { s.w with rate := ceilDiv Config.refHz hz }))
  have hb := (negotiateBody_in_range h (enterOp .negotiate s)).trans hd
  exact ⟨_, by rw [negotiate, within, hb]; rfl⟩

/-- Settles O26: by `negotiate_eq`, where `ceil_div` is the least sufficient rate
(`ceilDiv_le_iff`) and the written word has the code and the bits read (`cfgWord_fields`). -/
theorem negotiateProgramsTheDivider : Obligations.NegotiateProgramsTheDivider := by
  unfold Obligations.NegotiateProgramsTheDivider
  intro hz s hs hhz
  obtain ⟨l, hn⟩ := negotiate_eq hhz s
  have hle := ceilDiv_le_iff (a := Config.refHz) (b := hz) (by omega)
  rw [clampRate_eq_max] at hn
  generalize ceilDiv Config.refHz hz = q at hn hle
  have h16 : q ≤ 16 := (hle 16).mpr (by unfold Config.refHz; omega)
  obtain ⟨hc, hl⟩ := cfgWord_fields (s.answerAt 0) (codeOf (max q 2))
  refine ⟨q, cfgWord (s.answerAt 0) (codeOf (max q 2)), ⟨(hle q).mp le_rfl, fun p => (hle p).mpr⟩,
    hc, by omega, hl, _, exec_next rfl hs, ?_⟩
  simp only [effect, hn]
  rfl

end Sys2Proof.Machine
end

section
namespace Sys2Proof.Machine

/-! ### A step that waits or refuses (O11) -/

/-- The three entry points are the host's (R38, R67, R144). -/
theorem invokerOf_eq_host_iff (i : Instr) : invokerOf i = .host ↔
    (∃ hz, i = .setup hz) ∨ (∃ m, i = .transfer m) ∨ i = .maxXferSize := by
  cases i <;> simp [invokerOf]

theorem step_waits {s : State} (h : s.calls = []) : step s = .next s := by
  simp [step, fetchCall, h]

theorem step_illegalEncoding {s : State} {c : Call} {rest : List Call} {e : DecodeError}
    (h : s.calls = c :: rest) (hd : decode c.request = .reject e) :
    step s = .refused (.illegalEncoding e) := by
  simp [step, fetchCall, h, hd]

theorem step_wrongInvoker {s : State} {c : Call} {rest : List Call} {i : Instr}
    (h : s.calls = c :: rest) (hd : decode c.request = .ok i) (hi : c.invoker ≠ invokerOf i) :
    step s = .refused .wrongInvoker := by
  simp [step, fetchCall, h, hd, hi]

/-- Settles O11: by the cases of `step`, and `invokerOf_eq_host_iff` for who may call what. -/
theorem stepWaitsOrRefuses : Obligations.StepWaitsOrRefuses := by
  unfold Obligations.StepWaitsOrRefuses
  refine ⟨fun s => step_waits, fun s c rest e => step_illegalEncoding,
    fun s c rest i hc hd => ⟨?_, ?_⟩, invokerOf_eq_host_iff⟩
  · intro hh hs ht hm
    refine step_wrongInvoker hc hd fun he => ?_
    rcases (invokerOf_eq_host_iff i).mp (he.symm.trans hh) with ⟨hz, hi⟩ | ⟨m, hi⟩ | hi
    · exact hs hz hi
    · exact ht m hi
    · exact hm hi
  · intro hcore hi
    refine step_wrongInvoker hc hd ?_
    rw [hcore, (invokerOf_eq_host_iff i).mpr hi]
    exact nofun

/-! ### The five offsets (O21) -/

/-- Only a 32-bit access at a register's offset reaches it (R43, R45, R50). -/
theorem regAt_eq_some_iff {base addr width : Nat} {r : Reg} :
    regAt base addr width = some r ↔ addr = base + r.offset ∧ width = 4 := by
  have hw : 8 * width ≠ Config.regWidth ↔ width ≠ 4 := by unfold Config.regWidth; omega
  unfold regAt
  by_cases h4 : width = 4
  · rw [if_neg (fun h => hw.mp h h4)]
    constructor
    · intro h
      exact ⟨by simpa using List.find?_some h, h4⟩
    · rintro ⟨rfl, -⟩
      have hf : (fun r' : Reg => base + r.offset == base + r'.offset) =
          fun r' => r.offset == r'.offset := by funext r'; simp
      rw [hf]
      cases r <;> rfl
  · rw [if_pos (hw.mpr h4)]
    simp [h4]

theorem regAt_eq_none {base addr width : Nat}
    (h : (∀ r : Reg, addr ≠ base + r.offset) ∨ width ≠ 4) : regAt base addr width = none := by
  rw [Option.eq_none_iff_forall_ne_some]
  intro r hr
  obtain ⟨ha, hw⟩ := regAt_eq_some_iff.mp hr
  exact h.elim (fun h => h r ha) fun h => h hw

/-- An access of a register through the handle's window (R12). -/
theorem mem_access {s : State} {h : Handle} (hh : s.handle = some h) (r : Reg) (v : Word) :
    memRead (h.base + r.offset) 4 s = some (regRead r s) ∧
      memWrite (h.base + r.offset) 4 v s = some (regWrite r v s) := by
  have hr : regAt h.base (h.base + r.offset) 4 = some r := regAt_eq_some_iff.mpr ⟨rfl, rfl⟩
  simp [memRead, memWrite, hh, hr]

/-- The accesses of the opcode table are RegRead and RegWrite, with one report (R65, R87, R88). -/
theorem exec_readOf {s : State} (hs : Accepting s) (r : Reg) :
    exec (readOf r) s = .next (readCall r s) := by
  cases r <;> exact exec_next rfl hs

theorem exec_writeOf {s : State} (hs : Accepting s) (r : Reg) (v : Word) :
    exec (writeOf v r) s = .next (writeCall r v s) := by
  cases r <;> exact exec_next rfl hs

/-- Settles O21: `regAt_eq_some_iff` says which accesses reach a register, and `exec` runs those
(`exec_readOf`, `exec_writeOf`). -/
theorem onlyTheFiveOffsetsReachARegister : Obligations.OnlyTheFiveOffsetsReachARegister := by
  unfold Obligations.OnlyTheFiveOffsetsReachARegister
  intro s h hh addr width v
  refine ⟨?_, fun hn => ?_, fun hs r => ⟨?_, ?_⟩⟩
  · rintro r rfl rfl
    exact mem_access hh r v
  · simp [memRead, memWrite, hh, regAt_eq_none hn]
  · refine ⟨_, _, (mem_access hh r v).1, (exec_readOf hs r).trans ?_⟩
    rw [← regRead_reports s r]; rfl
  · refine ⟨_, (mem_access hh r v).2, (exec_writeOf hs r v).trans ?_⟩
    rw [← regWrite_reports s r v]; rfl

end Sys2Proof.Machine
end

section
namespace Sys2Proof.Machine

/-! ### A message, stage by stage

TRANSFER is one operation per message state. `message_rule` says once how a claim about a message
follows from claims about its stages. -/

/-- The operation ended in a state with `P`, or raised in a state with `E`. -/
def Res.Ends (P E : State → Prop) : Res → Prop
  | .ok t => P t
  | .raise _ t => E t

theorem Res.Ends.of_state {P : State → Prop} {r : Res} (h : P r.state) : r.Ends P P := by
  cases r <;> exact h

theorem Res.Ends.andThen {P Q E : State → Prop} {r : Res} {f : State → Res} (h : r.Ends P E)
    (hf : ∀ t, P t → (f t).Ends Q E) : (r.andThen f).Ends Q E := by
  cases r with
  | ok t => exact hf t h
  | raise e t => exact h

/-- AwaitReady (R122). -/
def awaitStage (m : Message) (s : State) : Res := waitAt .transfer 3 (startMessage m s)

/-- TRANSFER's lines from the entry of Prepared to the call of NEGOTIATE (R123). -/
def enterPrepared (m : Message) (s : State) : State :=
  let s := atLine .transfer 6 (atLine .transfer 5 (enterPhase .prepared (atLine .transfer 4 s)))
  atLine .transfer 7 (s.setW { s.w with speed := messageSpeed m })

/-- Prepared (R123). -/
def prepareStage (m : Message) (s : State) : Res := negotiate (messageSpeed m) (enterPrepared m s)

/-- TRANSFER's lines from the entry of Selected to the call of SELECT (R121). -/
def enterSelected (s : State) : State :=
  atLine .transfer 9 (enterPhase .selected (atLine .transfer 8 s))

/-- Selected (R121). -/
def selectStage (m : Message) (s : State) : Res := select m.slot (enterSelected s)

/-- TRANSFER's lines from the entry of a descriptor's state to its test (R121, R124). -/
def enterXfer (k : Nat) (s : State) : State :=
  atLine .transfer 13 (atLine .transfer 12 (enterPhase (.transferring k) (atLine .transfer 11 s)))

/-- The Transferring state of descriptor `k` (R121, R124). -/
def xferStage (order : ByteOrder) (k : Nat) (d : Descriptor) (s : State) : Res :=
  if d.tx.isSome && d.rx.isSome then raiseAt .transfer 14 .conflictingTransfer (enterXfer k s)
  else runEngine order k d (atLine .transfer 15 (enterXfer k s))

/-- A completed descriptor is counted, back at the head of the loop (R125). -/
def countXfer (d : Descriptor) (s : State) : State :=
  atLine .transfer 10 (countBytes d.len (atLine .transfer 19 s))

/-- TRANSFER's lines from the entry of Deselected to the call of DESELECT (R126). -/
def enterDeselected (s : State) : State :=
  atLine .transfer 21 (enterPhase .deselected (atLine .transfer 20 s))

/-- Deselected (R126). -/
def deselectStage (s : State) : Res := deselect (enterDeselected s)

theorem runMessage_eq (order : ByteOrder) (m : Message) (s : State) :
    runMessage order m (startMessage m s) =
      (awaitStage m s).andThen fun t => (prepareStage m t).andThen fun t =>
      (selectStage m t).andThen fun t =>
      (runXfers order 0 m.xfers (atLine .transfer 10 t)).andThen deselectStage := rfl

theorem runXfers_cons (order : ByteOrder) (k : Nat) (d : Descriptor) (ds : List Descriptor)
    (s : State) : runXfers order k (d :: ds) s =
      (xferStage order k d s).andThen fun t => runXfers order (k + 1) ds (countXfer d t) := by
  unfold xferStage
  split
  · next h => simp only [runXfers, if_pos h]; rfl
  · next h => simp only [runXfers, if_neg h]; rfl

/-- What holds of each stage of a loop over descriptors holds of the loop. -/
theorem runXfers_rule {P E : State → Prop} {order : ByteOrder} (all : List Descriptor)
    (hx : ∀ k d t, all[k]? = some d → P t → (xferStage order k d t).Ends P E)
    (hc : ∀ d t, P t → P (countXfer d t)) (ds : List Descriptor) :
    ∀ (k : Nat) (s : State), all.drop k = ds → P s → (runXfers order k ds s).Ends P E := by
  induction ds with
  | nil => exact fun _ _ _ h => h
  | cons d ds ih =>
    intro k s hk hs
    have hd : all[k]? = some d := by rw [← List.head?_drop, hk]; rfl
    rw [runXfers_cons]
    exact (hx k d s hd hs).andThen fun t ht =>
      ih (k + 1) _ (by rw [← List.tail_drop, hk]; rfl) (hc d t ht)

/-- A claim `Z` about a message up to Done: `P` holds while its stages succeed, and `E` where one raised
(R121, R138). -/
theorem message_rule {P E Z : State → Prop} {order : ByteOrder} {m : Message} {s : State}
    (h0 : (awaitStage m s).Ends P E) (h1 : ∀ t, P t → (prepareStage m t).Ends P E)
    (h2 : ∀ t, P t → (selectStage m t).Ends P E) (hl : ∀ t, P t → P (atLine .transfer 10 t))
    (h3 : ∀ k d t, m.xfers[k]? = some d → P t → (xferStage order k d t).Ends P E)
    (hc : ∀ d t, P t → P (countXfer d t)) (h4 : ∀ t, P t → (deselectStage t).Ends Z E)
    (hz : ∀ e t, E t → Z (takeError e t)) :
    Z (catchError (runMessage order m (startMessage m s))) := by
  have h : (runMessage order m (startMessage m s)).Ends Z E := by
    rw [runMessage_eq]
    exact h0.andThen fun t ht => (h1 t ht).andThen fun t ht => (h2 t ht).andThen fun t ht =>
      (runXfers_rule m.xfers h3 hc m.xfers 0 _ rfl (hl t ht)).andThen h4
  cases hr : runMessage order m (startMessage m s) with
  | ok t => rw [hr] at h; exact h
  | raise e t => rw [hr] at h; exact hz e t h

/-! ### What a message's stages did beyond `StageFacts`: their registers, and what a write sent -/

/-- The lines of NEGOTIATE's range test (R100). -/
def testRate (hz : Nat) (s : State) : State :=
  let s := atLine .negotiate 3 (atLine .negotiate 1 s)
  atLine .negotiate 4 (s.setW { s.w with rate := ceilDiv Config.refHz hz })

theorem ran_testRate (hz : Nat) (s : State) : Ran s (testRate hz s) [] :=
  (((ran_atLine .negotiate 1 s).line .negotiate 3).then_same (ran_setW _ _)).line .negotiate 4

/-- NEGOTIATE raises where it stands, or programs the divider (R100). -/
theorem negotiateBody_eq (hz : Nat) (s : State) : negotiateBody hz s =
    if hz = 0 then .raise .invalidSpeed (atLine .negotiate 2 (atLine .negotiate 1 s))
    else if Config.divMax < ceilDiv Config.refHz hz then
      .raise .invalidSpeed (atLine .negotiate 5 (testRate hz s))
    else programDivider hz (testRate hz s) := rfl

/-- What NEGOTIATE did: none or both of its accesses, and what it leaves alone (R76, R100). -/
structure Negotiated (hz : Nat) (s t : State) (es : List Event) : Prop where
  ran : Ran s t es
  accesses : es = [] ∨ ∃ v, es =
    [.rd .cfg v, .wr .cfg (cfgWord v (codeOf (clampRate (ceilDiv Config.refHz hz))))]
  handle : t.handle = s.handle ∨ t.handle = s.handle.map fun h => { h with lastSpeedHz := hz }
  poll : t.w.poll = s.w.poll
  index : t.w.i = s.w.i
  out : t.out = s.out
  filled : t.filled = s.filled

theorem negotiate_does (hz : Nat) (s : State) :
    ∃ es, Negotiated hz s (negotiate hz s).state es := by
  have hbody : ∀ u : State, ∃ es, Negotiated hz u (negotiateBody hz u).state es := by
    intro u
    rw [negotiateBody_eq]
    split
    · exact ⟨[], (ran_atLine _ _ _).line _ _, .inl rfl, .inl rfl, rfl, rfl, rfl, rfl⟩
    split
    · exact ⟨[], (ran_testRate hz u).line _ _, .inl rfl, .inl rfl, rfl, rfl, rfl, rfl⟩
    · obtain ⟨l, hd⟩ := programDivider_eq hz (testRate hz u)
      refine ⟨_, (ran_testRate hz u).trans (programDivider_ran hz _), .inr ⟨_, rfl⟩, ?_, ?_, ?_, ?_,
        ?_⟩ <;> rw [hd]
      · exact .inr rfl
      all_goals rfl
  obtain ⟨es, h⟩ := hbody (enterOp .negotiate s)
  exact ⟨es, ran_within (body := negotiateBody hz) h.ran, h.accesses,
    by simpa [negotiate, within] using h.handle, by simpa [negotiate, within] using h.poll,
    by simpa [negotiate, within] using h.index, by simpa [negotiate, within] using h.out,
    by simpa [negotiate, within] using h.filled⟩

/-- The registers of a stage: in Prepared none or both accesses of NEGOTIATE for the message's speed,
elsewhere CS and DATA alone (R17, R100, R121). -/
def StageRegs (m : Message) (x : Phase × List Event) : Prop :=
  (x.1 = .prepared → x.2 = [] ∨ ∃ v, x.2 = [.rd .cfg v,
    .wr .cfg (cfgWord v (codeOf (clampRate (ceilDiv Config.refHz (messageSpeed m)))))]) ∧
  (x.1 ≠ .prepared → ∀ e ∈ x.2, e.reg ∈ ioRegs)

/-- What the stage of a write sent: a first part of its DATA words, all of them where it ended with
success (`full`) (R112, R118). -/
def StageSent (order : ByteOrder) (m : Message) (full : Prop) (x : Phase × List Event) : Prop :=
  ∀ k d b, x.1 = .transferring k → m.xfers[k]? = some d → d.tx = some b → d.rx = none →
    writesTo .data x.2 <+: phaseAWords order b ++ phaseBWords b ∧
    (full → writesTo .data x.2 = phaseAWords order b ++ phaseBWords b)

/-- The stage `x` of a message: it ran from `s` and ended in `r`. -/
structure StageRan (order : ByteOrder) (m : Message) (s : State) (r : Res)
    (x : Phase × List Event) : Prop where
  staged : Staged s r.state [x]
  regs : StageRegs m x
  sent : StageSent order m (r.status = .ok) x

/-- An operation that a message calls in the state it entered last. -/
theorem Staged.op {R : List Reg} {E : List Status} {s t : State} {p : Phase} {r : Res}
    {es : List Event} (h : Staged s t [(p, [])]) (g : OpRan R E t r es) :
    Staged s r.state [(p, es)] := h.goOn (st := []) (a := []) g.ran.trace g.recorded

/-- A stage that is one operation on CS and DATA. -/
theorem stageRan_io {order : ByteOrder} {m : Message} {s t : State} {p : Phase} {r : Res}
    {es : List Event} (h : Staged s t [(p, [])]) (g : OpRan ioRegs ioEnds t r es)
    (hp : p ≠ .prepared) (hx : ∀ k, p ≠ .transferring k) : StageRan order m s r (p, es) :=
  ⟨h.op g, ⟨fun h => absurd h hp, fun _ => g.regs⟩, fun k _ _ h => absurd h (hx k)⟩

theorem awaitStage_ran (order : ByteOrder) (m : Message) (s : State) :
    ∃ x, StageRan order m s (awaitStage m s) x := by
  obtain ⟨_, h, -⟩ := waitAt_opRan (R := ioRegs) (E := ioEnds) (by simp) (by simp) (by simp)
    .transfer 3 (startMessage m s)
  exact ⟨_, stageRan_io (startMessage_head m s).staged h nofun nofun⟩

theorem staged_enterPrepared (m : Message) (s : State) :
    Staged s (enterPrepared m s) [(.prepared, [])] :=
  ⟨by simp [enterPrepared], ⟨_, by simp [enterPrepared]; rfl, rfl, fun _ => rfl⟩⟩

theorem prepareStage_ran (order : ByteOrder) (m : Message) (s : State) :
    ∃ x, StageRan order m s (prepareStage m s) x := by
  obtain ⟨es, h, -⟩ := negotiate_opRan (messageSpeed m) (enterPrepared m s)
  obtain ⟨es', g⟩ := negotiate_does (messageSpeed m) (enterPrepared m s)
  obtain rfl := g.ran.unique h.ran
  exact ⟨_, (staged_enterPrepared m s).op h, ⟨fun _ => g.accesses, fun h => absurd rfl h⟩, nofun⟩

theorem staged_enterSelected (s : State) : Staged s (enterSelected s) [(.selected, [])] :=
  ⟨by simp [enterSelected], ⟨_, by simp [enterSelected]; rfl, rfl, fun _ => rfl⟩⟩

theorem selectStage_ran (order : ByteOrder) (m : Message) (s : State) :
    ∃ x, StageRan order m s (selectStage m s) x := by
  obtain ⟨_, h, -⟩ := select_opRan m.slot (enterSelected s)
  exact ⟨_, stageRan_io (staged_enterSelected s) h nofun nofun⟩

theorem staged_enterDeselected (s : State) : Staged s (enterDeselected s) [(.deselected, [])] :=
  ⟨by simp [enterDeselected], ⟨_, by simp [enterDeselected]; rfl, rfl, fun _ => rfl⟩⟩

theorem deselectStage_ran (order : ByteOrder) (m : Message) (s : State) :
    ∃ x, StageRan order m s (deselectStage s) x := by
  obtain ⟨_, h, -⟩ := deselect_opRan (enterDeselected s)
  exact ⟨_, stageRan_io (staged_enterDeselected s) h nofun nofun⟩

theorem staged_enterXferLines (k : Nat) (s : State) :
    Staged s (enterXfer k s) [(.transferring k, [])] :=
  ⟨by simp [enterXfer], ⟨_, by simp [enterXfer]; rfl, rfl, fun _ => rfl⟩⟩

theorem recorded_atLine (o : OpName) (n : Nat) (s : State) : Recorded s (atLine o n s) [] :=
  recorded_free (atLine_seqLog s o n) rfl (by simp)

/-- What the engine's run for a write sends (R112). -/
theorem runEngine_sends {order : ByteOrder} {k : Nat} {d : Descriptor} {b : List Byte} {s : State}
    {es : List Event} (hd : d.tx = some b) (h : Ran s (runEngine order k d s).state es) :
    writesTo .data es <+: phaseAWords order b ++ phaseBWords b ∧
    ((runEngine order k d s).status = .ok →
      writesTo .data es = phaseAWords order b ++ phaseBWords b) := by
  obtain ⟨es', g⟩ := xferWrite_sends order b (atLine .transfer 16 s)
  have he : runEngine order k d s = xferWrite order b (atLine .transfer 16 s) := by
    simp [runEngine, hd]
  rw [he] at h ⊢
  obtain rfl := h.unique g.moved.op.ran.after_line
  exact ⟨g.data, fun hok => (g.all hok).1⟩

theorem xferStage_ran {order : ByteOrder} {m : Message} {k : Nat} {d : Descriptor} {s : State}
    (hk : m.xfers[k]? = some d) : ∃ x, StageRan order m s (xferStage order k d s) x := by
  have hs := staged_enterXferLines k s
  unfold xferStage
  split
  · next hc =>
    refine ⟨_, hs.same (atLine_trace ..) (recorded_atLine ..), ⟨nofun, by simp⟩, ?_⟩
    intro k' d' b hk' hd' ht hr
    cases hk'; cases hk.symm.trans hd'
    simp [hr] at hc
  · obtain ⟨es, h⟩ := runEngine_ran order k d (atLine .transfer 15 (enterXfer k s))
    refine ⟨_, (hs.same (atLine_trace ..) (recorded_atLine ..)).goOn (st := []) (a := [])
      h.ran.trace h.recorded, ⟨nofun, fun _ => h.regs⟩, ?_⟩
    intro k' d' b hk' hd' ht _
    cases hk'; cases hk.symm.trans hd'
    exact runEngine_sends ht h.ran

/-- The stages of a message up to Done: all but the last ended with success. -/
def MessageStages (order : ByteOrder) (m : Message) (s u : State)
    (st : List (Phase × List Event)) (x : Phase × List Event) : Prop :=
  Staged s u (st ++ [x]) ∧ (∀ y ∈ st ++ [x], StageRegs m y) ∧
  (∀ y ∈ st, StageSent order m True y) ∧ StageSent order m False x

/-- The stages of a message while they succeed. -/
def StagesSoFar (order : ByteOrder) (m : Message) (s u : State) : Prop :=
  ∃ st, Staged s u st ∧ ∀ y ∈ st, StageRegs m y ∧ StageSent order m True y

theorem StageSent.mono {order : ByteOrder} {m : Message} {p q : Prop} {x : Phase × List Event}
    (h : StageSent order m p x) (hq : q → p) : StageSent order m q x :=
  fun k d b h1 h2 h3 h4 => ⟨(h k d b h1 h2 h3 h4).1, fun hp => (h k d b h1 h2 h3 h4).2 (hq hp)⟩

/-- One more stage. -/
theorem StageRan.goesOn {order : ByteOrder} {m : Message} {s t : State} {r : Res}
    (g : ∃ x, StageRan order m t r x) (h : StagesSoFar order m s t) :
    r.Ends (StagesSoFar order m s) (fun u => ∃ st x, MessageStages order m s u st x) := by
  obtain ⟨st, hst, hf⟩ := h
  obtain ⟨x, hx⟩ := g
  have hs := hst.trans hx.staged
  cases r with
  | ok u =>
    refine ⟨_, hs, fun y hy => ?_⟩
    rcases List.mem_append.mp hy with hy | hy
    · exact hf y hy
    · rw [List.mem_singleton.mp hy]
      exact ⟨hx.regs, hx.sent.mono fun _ => rfl⟩
  | raise e u =>
    refine ⟨st, x, hs, fun y hy => ?_, fun y hy => (hf y hy).2, hx.sent.mono nofun⟩
    rcases List.mem_append.mp hy with hy | hy
    · exact (hf y hy).1
    · rw [List.mem_singleton.mp hy]; exact hx.regs

theorem StagesSoFar.same {order : ByteOrder} {m : Message} {s t u : State}
    (h : StagesSoFar order m s t) (ht : u.trace = t.trace) (hr : Recorded t u []) :
    StagesSoFar order m s u := by
  obtain ⟨st, hst, hf⟩ := h
  exact ⟨st, hst.same ht hr, hf⟩

/-- Every message goes through its stages, for any device. -/
theorem transfer_stages (order : ByteOrder) (m : Message) (s : State) :
    ∃ st x, MessageStages order m s (catchError (runMessage order m (startMessage m s))) st x := by
  have h0 : StagesSoFar order m s s := ⟨[], .none rfl (recorded_same rfl), by simp⟩
  refine message_rule (P := StagesSoFar order m s)
    (E := fun u => ∃ st x, MessageStages order m s u st x)
    (Z := fun u => ∃ st x, MessageStages order m s u st x) (StageRan.goesOn (awaitStage_ran ..) h0)
    (fun t => StageRan.goesOn (prepareStage_ran ..)) (fun t => StageRan.goesOn (selectStage_ran ..))
    (fun t h => h.same (atLine_trace ..) (recorded_atLine ..))
    (fun k d t hd => StageRan.goesOn (xferStage_ran hd))
    (fun d t h => h.same rfl (recorded_free (ms := [⟨t.trace.length, .line .transfer 19⟩,
      ⟨t.trace.length, .line .transfer 10⟩]) (by simp [countXfer, countBytes]) rfl (by simp)))
    (fun t h => ?_) (fun e t h => ?_)
  · obtain ⟨st, hst, hf⟩ := h
    obtain ⟨x, hx⟩ := deselectStage_ran order m t
    refine Res.Ends.of_state ⟨st, x, hst.trans hx.staged, fun y hy => ?_, fun y hy => (hf y hy).2,
      hx.sent.mono nofun⟩
    rcases List.mem_append.mp hy with hy | hy
    · exact (hf y hy).1
    · rw [List.mem_singleton.mp hy]; exact hx.regs
  · obtain ⟨st, x, hs, hf⟩ := h
    exact ⟨st, x, hs.same rfl (recorded_same rfl), hf⟩

end Sys2Proof.Machine
end

section
namespace Sys2Proof.Machine

/-! ### The states of a message (O49, O51, O20) -/

/-- A message state that a run did not enter saw no access. -/
theorem Staged.accessesIn_of_not_mem {s t : State} {st : List (Phase × List Event)}
    (h : Staged s t st) {p : Phase} (hp : p ∉ phasesOf (newMarks s t)) : Machine.accessesIn p s t = [] := by
  rw [h.phases] at hp
  rw [h.accessesIn]
  cases hl : st.lookup p with
  | none => rfl
  | some es => exact absurd (List.mem_map_of_mem (f := Prod.fst) (mem_of_lookup hl)) hp

/-- The accesses of a message state are none, or those of its stage. -/
theorem Staged.accessesIn_cases {s t : State} {st : List (Phase × List Event)} (h : Staged s t st)
    (p : Phase) : Machine.accessesIn p s t = [] ∨ (p, Machine.accessesIn p s t) ∈ st := by
  rw [h.accessesIn]
  cases hl : st.lookup p with
  | none => exact .inl rfl
  | some es => exact .inr (mem_of_lookup hl)

theorem mem_phases_transferring {e : MessageEnd} {n k : Nat} :
    Phase.transferring k ∈ e.phases n ↔ match e with
      | .xfers x => k < x.entered n
      | .deselect | .success => k < n
      | _ => False := by
  cases e <;> simp [MessageEnd.phases, phaseOrder]

theorem deselected_mem_phases {e : MessageEnd} {n : Nat} :
    Phase.deselected ∈ e.phases n ↔ e = .deselect ∨ e = .success := by
  cases e <;> simp [MessageEnd.phases, phaseOrder]

/-- Of a message that did not come to Deselected, all entered descriptors but the last completed. -/
theorem entered_iff_le_done {e : MessageEnd} {n : Nat} (hd : Phase.deselected ∉ e.phases n)
    (ha : e ≠ .xfers .all) (k : Nat) : Phase.transferring k ∈ e.phases n ↔
      k ≤ e.done n ∧ Phase.transferring (e.done n) ∈ e.phases n := by
  cases e with
  | awaitReady | speed | select => simp [mem_phases_transferring]
  | deselect | success => simp [deselected_mem_phases] at hd
  | xfers x =>
    cases x with
    | all => exact absurd rfl ha
    | timedOut j | conflict j =>
      simp [mem_phases_transferring, MessageEnd.done, XfersEnd.entered, XfersEnd.done]

/-- The entered states are the first of R121's order. -/
theorem MessageEnd.phases_prefix {e : MessageEnd} {n : Nat}
    (h : ∀ x, e = .xfers x → x.done n < n) : e.phases n <+: phaseOrder n := by
  cases e with
  | awaitReady | speed | select => exact ⟨_, rfl⟩
  | deselect | success => exact List.prefix_rfl
  | xfers x =>
    have hx : x.entered n ≤ n := by
      have := h x rfl
      cases x with
      | all => exact Nat.le_refl n
      | timedOut j | conflict j => exact this
    exact ((List.prefix_append_right_inj _).mpr (prefix_map_range _ hx)).trans
      (List.prefix_append _ _)

/-- Each error ends a message where R140 puts its check. -/
theorem MessageEnd.invalidSpeed_iff {e : MessageEnd} {n : Nat} (ha : e ≠ .xfers .all) :
    e.status = .invalidSpeed ↔ e.phases n = [.awaitReady, .prepared] := by
  cases e with
  | xfers x => cases x <;> simp [MessageEnd.status, XfersEnd.status, MessageEnd.phases]
  | _ => simp [MessageEnd.status, MessageEnd.phases, phaseOrder]

theorem MessageEnd.conflict_last {e : MessageEnd} {n : Nat} (h : e.status = .conflictingTransfer) :
    ∃ k, (e.phases n).getLast? = some (.transferring k) := by
  cases e with
  | xfers x =>
    cases x with
    | conflict j =>
      refine ⟨j, ?_⟩
      rw [MessageEnd.phases, XfersEnd.entered, List.range_succ, List.map_append,
        ← List.append_assoc]
      exact List.getLast?_concat
    | all | timedOut j => cases h
  | _ => cases h

theorem MessageEnd.timedOut_of_phases {e : MessageEnd} {n : Nat} (ha : e ≠ .xfers .all)
    (h : e.phases n = [.awaitReady] ∨ e.phases n = [.awaitReady, .prepared, .selected]) :
    e.status = .timedOut := by
  cases e with
  | awaitReady | select => rfl
  | xfers x => cases x <;> simp_all [MessageEnd.phases, XfersEnd.entered, List.range_succ]
  | _ => simp [MessageEnd.phases, phaseOrder] at h

theorem MessageEnd.phases_of_ok {e : MessageEnd} {n : Nat} (ha : e ≠ .xfers .all)
    (h : e.status = .ok) : e.phases n = phaseOrder n := by
  cases e with
  | success => rfl
  | xfers x =>
    cases x with
    | all => exact absurd rfl ha
    | timedOut j | conflict j => cases h
  | _ => cases h

/-- The record of a message's states. -/
theorem MessageRan.phases {m : Message} {order : ByteOrder} {s t u : State}
    {st : List (Phase × List Event)} {e : MessageEnd} (hm : MessageRan order m s u st e)
    (hst : Staged s t (st ++ [(.done, []), (.idle, [])])) :
    phasesOf (newMarks s t) = e.phases m.xfers.length ++ [.done, .idle] := by
  rw [hst.phases, List.map_append, hm.names]; rfl

/-- Settles O51: the states of a message are those of its end (`MessageRan.phases`), of which each
status has its own. -/
theorem messageStatesFollowTheOrder : Obligations.MessageStatesFollowTheOrder := by
  unfold Obligations.MessageStatesFollowTheOrder
  intro m s t h
  obtain ⟨st, e, u, hm, -, hst, -, hrep⟩ := transfer_cases h
  refine ⟨_, e.status, _, hm.phases hst, ?_, MessageEnd.phases_prefix hm.before, hrep,
    MessageEnd.phases_of_ok hm.notAll, MessageEnd.invalidSpeed_iff hm.notAll,
    MessageEnd.conflict_last, MessageEnd.timedOut_of_phases hm.notAll⟩
  cases e <;> simp [MessageEnd.phases, phaseOrder]

/-- A message's states, of those before Done. -/
theorem MessageRan.mem_phases {m : Message} {order : ByteOrder} {s t u : State}
    {st : List (Phase × List Event)} {e : MessageEnd} (hm : MessageRan order m s u st e)
    (hst : Staged s t (st ++ [(.done, []), (.idle, [])])) {p : Phase} (h1 : p ≠ .done)
    (h2 : p ≠ .idle) : p ∈ phasesOf (newMarks s t) ↔ p ∈ e.phases m.xfers.length := by
  rw [hm.phases hst]; simp [h1, h2]

/-- The accesses of a message state before Done. -/
theorem accessesIn_message {s t : State} {st : List (Phase × List Event)} (p : Phase)
    (hst : Staged s t (st ++ [(.done, []), (.idle, [])])) (h1 : p ≠ .done) (h2 : p ≠ .idle) :
    accessesIn p s t = (st.lookup p).getD [] := by
  rw [hst.accessesIn, List.lookup_append]
  simp [List.lookup, beq_eq_false_iff_ne.mpr h1, beq_eq_false_iff_ne.mpr h2]

theorem accessesIn_transferring {s t : State} {st : List (Phase × List Event)} (k : Nat)
    (hst : Staged s t (st ++ [(.done, []), (.idle, [])])) :
    accessesIn (.transferring k) s t = (st.lookup (.transferring k)).getD [] :=
  accessesIn_message _ hst Phase.noConfusion Phase.noConfusion

/-- The destinations of a message, by its record and by its stages (R41, R118). -/
theorem destinations_eq {order : ByteOrder} {m : Message} {s t : State}
    {st : List (Phase × List Event)} (hst : Staged s t (st ++ [(.done, []), (.idle, [])])) :
    destinations order m s t = messageBuffers order m st := by
  unfold destinations messageBuffers
  congr 1; funext k d
  rw [← accessesIn_transferring k hst]
  rfl

/-- A completed descriptor's state was entered, and was not the last. -/
theorem MessageEnd.entered_of_lt_done {e : MessageEnd} {n k : Nat} (ha : e ≠ .xfers .all)
    (h : k < e.done n) :
    Phase.transferring k ∈ e.phases n ∧ (e.phases n).getLast? ≠ some (.transferring k) := by
  cases e with
  | awaitReady | speed | select => exact absurd h (Nat.not_lt_zero k)
  | deselect | success =>
    refine ⟨mem_phases_transferring.mpr h, ?_⟩
    rw [MessageEnd.phases, phaseOrder, List.getLast?_concat]
    exact nofun
  | xfers x =>
    cases x with
    | all => exact absurd rfl ha
    | timedOut j | conflict j =>
      have hk : k < j := h
      refine ⟨mem_phases_transferring.mpr (Nat.lt_succ_of_lt hk), ?_⟩
      rw [MessageEnd.phases, XfersEnd.entered, List.range_succ, List.map_append, ← List.append_assoc,
        List.map_singleton, List.getLast?_concat]
      simp; omega

/-- A state that a message entered has its stage. -/
theorem MessageRan.lookup {order : ByteOrder} {m : Message} {s u : State}
    {st : List (Phase × List Event)} {e : MessageEnd} (hm : MessageRan order m s u st e) {p : Phase}
    (hp : p ∈ e.phases m.xfers.length) : ∃ es, st.lookup p = some es := by
  rw [← hm.names] at hp
  obtain ⟨⟨q, es⟩, hx, rfl⟩ := List.mem_map.mp hp
  exact ⟨es, lookup_of_mem (hm.names ▸ e.phases_nodup _) hx⟩

/-- A descriptor received no more bytes than it has, and all of them where it completed (R118). -/
theorem MessageRan.received {order : ByteOrder} {m : Message} {s t u : State}
    {st : List (Phase × List Event)} {e : MessageEnd} (hm : MessageRan order m s u st e)
    (hst : Staged s t (st ++ [(.done, []), (.idle, [])])) {k : Nat} {d : Descriptor}
    (hd : m.xfers[k]? = some d) : (bytesReceived order s t k d.len).length ≤ d.len ∧
      (k < e.done m.xfers.length → d.tx = none →
        (bytesReceived order s t k d.len).length = d.len) := by
  unfold bytesReceived
  rw [accessesIn_transferring k hst]
  cases hl : st.lookup (.transferring k) with
  | none =>
    refine ⟨by simp [readsFrom], fun hk _ => ?_⟩
    obtain ⟨es, hes⟩ := hm.lookup (MessageEnd.entered_of_lt_done hm.notAll hk).1
    rw [hl] at hes; cases hes
  | some es =>
    have := hm.facts _ (mem_of_lookup hl) d hd
    exact ⟨this.1.le, this.2⟩

/-- The facts about a message's stages, at the end of its call. -/
theorem transfer_sent {m : Message} {s t : State} (h : exec (.transfer m) s = .next t) :
    ∃ xs x, Staged s t (xs ++ [x] ++ [(.done, []), (.idle, [])]) ∧
      (∀ y ∈ xs ++ [x], StageRegs m y) ∧ (∀ y ∈ xs, StageSent Config.hostByteOrder m True y) ∧
      StageSent Config.hostByteOrder m False x := by
  obtain ⟨-, -, rfl⟩ := exec_next_iff.mp h
  obtain ⟨xs, x, hst, hf⟩ := transfer_stages Config.hostByteOrder m s
  exact ⟨xs, x, hst.trans (staged_finish _ _), hf⟩

/-- The stages found by another walk through the message have the same names. -/
theorem MessageRan.names_eq {order : ByteOrder} {m : Message} {s t u : State}
    {st xs : List (Phase × List Event)} {e : MessageEnd} (hm : MessageRan order m s u st e)
    (hst : Staged s t (st ++ [(.done, []), (.idle, [])]))
    (hxs : Staged s t (xs ++ [(.done, []), (.idle, [])])) :
    xs.map Prod.fst = e.phases m.xfers.length := by
  have := hxs.phases.symm.trans (hm.phases hst)
  rw [List.map_append] at this
  exact List.append_cancel_right this

/-- What each write of a message sent: a first part of its DATA words, all where it completed
(R112, R118). -/
theorem transfer_writes {m : Message} {s t u : State} {st : List (Phase × List Event)}
    {e : MessageEnd} (h : exec (.transfer m) s = .next t)
    (hm : MessageRan Config.hostByteOrder m s u st e)
    (hst : Staged s t (st ++ [(.done, []), (.idle, [])])) {k : Nat} {d : Descriptor} {b : List Byte}
    (hd : m.xfers[k]? = some d) (ht : d.tx = some b) (hr : d.rx = none) :
    writesTo .data (accessesIn (.transferring k) s t) <+:
        phaseAWords Config.hostByteOrder b ++ phaseBWords b ∧
      (k < e.done m.xfers.length → writesTo .data (accessesIn (.transferring k) s t) =
        phaseAWords Config.hostByteOrder b ++ phaseBWords b) := by
  obtain ⟨xs, x, hxs, -, hfull, hlast⟩ := transfer_sent h
  have hn := hm.names_eq hst hxs
  by_cases hk : Phase.transferring k ∈ e.phases m.xfers.length
  · obtain ⟨⟨p, es⟩, hx, rfl⟩ := List.mem_map.mp (hn ▸ hk)
    have ha : accessesIn (.transferring k) s t = es := by
      rw [accessesIn_transferring k hxs, lookup_of_mem (hn ▸ e.phases_nodup _) hx]; rfl
    rw [ha]
    rcases List.mem_append.mp hx with hx | hx
    · have := hfull _ hx k d b rfl hd ht hr
      exact ⟨this.1, fun _ => this.2 trivial⟩
    · rw [List.mem_singleton] at hx
      subst hx
      refine ⟨(hlast k d b rfl hd ht hr).1,
        fun hk => absurd ?_ (MessageEnd.entered_of_lt_done hm.notAll hk).2⟩
      rw [← hn]; simp
  · have hx : Phase.transferring k ∉ phasesOf (newMarks s t) :=
      mt (hm.mem_phases hst Phase.noConfusion Phase.noConfusion).mp hk
    rw [hst.accessesIn_of_not_mem hx]
    exact ⟨List.nil_prefix, fun h => absurd (MessageEnd.entered_of_lt_done hm.notAll h).1 hk⟩

/-- Settles O49: by `transfer_cases` for the count and the destinations, and `transfer_writes` for what
each write sent. -/
theorem actualCountsCompletedDescriptors : Obligations.ActualCountsCompletedDescriptors := by
  unfold Obligations.ActualCountsCompletedDescriptors
  intro m s t h
  obtain ⟨st, e, u, hm, -, hst, hbuf, hrep⟩ := transfer_cases h
  have hmem : ∀ p, p ≠ .done → p ≠ .idle →
      (p ∈ phasesOf (newMarks s t) ↔ p ∈ e.phases m.xfers.length) := fun p => hm.mem_phases hst
  have hx : ∀ k, Phase.transferring k ∈ phasesOf (newMarks s t) ↔
    Phase.transferring k ∈ e.phases m.xfers.length := fun k => hmem _ nofun nofun
  have hdes : Phase.deselected ∈ phasesOf (newMarks s t) ↔
    Phase.deselected ∈ e.phases m.xfers.length := hmem _ nofun nofun
  refine ⟨e.status, e.done m.xfers.length, ?_, ?_, ?_, ?_, fun k d hk hd => (hm.received hst hd).2 hk,
    fun k d hd => ⟨(hm.received hst hd).1, fun hk => ?_, fun b ht hr => ?_⟩⟩
  · rw [hrep, hbuf, ← destinations_eq hst]; rfl
  · intro hd
    rcases deselected_mem_phases.mp (hdes.mp hd) with rfl | rfl <;> rfl
  · intro hd k
    rw [hx, hx]
    exact entered_iff_le_done (mt hdes.mpr hd) hm.notAll k
  · intro h0
    by_contra hne
    exact h0 ((hx 0).mpr (MessageEnd.entered_of_lt_done hm.notAll (Nat.pos_of_ne_zero hne)).1)
  · rw [bytesReceived, hst.accessesIn_of_not_mem hk]
    exact bytesOfWords_nil _ _
  · have := transfer_writes h hm hst hd ht hr
    exact ⟨this.1, this.2, fun hk => by rw [hst.accessesIn_of_not_mem hk]; rfl⟩

/-- The accesses of a call that reports what its operation left. -/
theorem newEvents_reportRes {s : State} {r : Res} {es : List Event} (h : Ran s r.state es)
    (answer : State → Answer) : newEvents s (reportRes r answer) = es := h.newEvents

theorem OpRan.io_reg {s : State} {r : Res} {es : List Event} (h : OpRan ioRegs ioEnds s r es)
    {answer : State → Answer} {e : Event} (he : e ∈ newEvents s (reportRes r answer)) :
    e.reg ∈ ioRegs := by
  rw [newEvents_reportRes h.ran answer] at he
  exact h.regs e he

/-- CS and DATA are none of the other three registers (R17). -/
theorem apart_of_mem_ioRegs {r : Reg} {p : Prop} (h : r ∈ ioRegs) :
    r ≠ .cfg2 ∧ r ≠ .data2 ∧ (r = .cfg → p) := by
  cases r <;> simp_all

/-- TRANSFER's accesses to CFG lie in Prepared, and are the two of NEGOTIATE (R17, R100, R121). -/
theorem transfer_regs {m : Message} {s t : State} (h : exec (.transfer m) s = .next t) {e : Event}
    (he : e ∈ newEvents s t) : e.reg ≠ .cfg2 ∧ e.reg ≠ .data2 ∧
      (e.reg = .cfg → e ∈ accessesIn .prepared s t ∧
        (∀ p ≠ Phase.prepared, e ∉ accessesIn p s t) ∧
        ∃ v, accessesIn .prepared s t = [.rd .cfg v,
          .wr .cfg (cfgWord v (codeOf (clampRate (ceilDiv Config.refHz (messageSpeed m)))))]) := by
  obtain ⟨st, e', u, hm, -, hst, -, -⟩ := transfer_cases h
  obtain ⟨xs, x, hxs, hregs, -⟩ := transfer_sent h
  have hn := hm.names_eq hst hxs
  have hregs : ∀ y ∈ xs ++ [x] ++ [(.done, []), (.idle, [])], StageRegs m y := by
    intro y hy
    rcases List.mem_append.mp hy with hy | hy
    · exact hregs y hy
    · simp only [List.mem_cons, List.not_mem_nil, or_false] at hy
      rcases hy with rfl | rfl <;> exact ⟨nofun, by simp⟩
  rw [hxs.newEvents] at he
  obtain ⟨⟨p, es⟩, hy, hes⟩ := mem_stageEvents he
  by_cases hp : p = .prepared
  · subst hp
    have ha : accessesIn .prepared s t = es := by
      have hx : (Phase.prepared, es) ∈ xs ++ [x] := by
        rcases List.mem_append.mp hy with hy | hy
        · exact hy
        · simp at hy
      rw [accessesIn_message .prepared hxs nofun nofun, lookup_of_mem (hn ▸ e'.phases_nodup _) hx]; rfl
    rcases (hregs _ hy).1 rfl with h0 | ⟨v, hv⟩
    · rw [show es = [] from h0] at hes; cases hes
    · have hv : es = _ := hv
      have hcfg : e.reg = .cfg := by
        subst hv
        simp only [List.mem_cons, List.not_mem_nil, or_false] at hes
        rcases hes with rfl | rfl <;> rfl
      refine ⟨by simp [hcfg], by simp [hcfg], fun _ => ⟨ha ▸ hes, fun p hp hep => ?_, v, ha ▸ hv⟩⟩
      rcases hxs.accessesIn_cases p with h0 | h0
      · rw [h0] at hep; cases hep
      · exact (apart_of_mem_ioRegs (p := False) ((hregs _ h0).2 hp e hep)).2.2 hcfg
  · exact apart_of_mem_ioRegs ((hregs _ hy).2 hp e hes)

/-- Settles O20: each operation below TRANSFER has its registers (`OpRan`), and TRANSFER those of its
states (`transfer_regs`). -/
theorem operationsLeaveOtherRegistersAlone : Obligations.OperationsLeaveOtherRegistersAlone := by
  unfold Obligations.OperationsLeaveOtherRegistersAlone
  intro i s t hi h e he
  obtain ⟨-, -, ht⟩ := exec_next_iff.mp h
  cases i with
  | transfer m =>
    obtain ⟨h1, h2, h3⟩ := transfer_regs h he
    exact ⟨h1, h2, fun hc => .inr ⟨m, rfl, h3 hc⟩⟩
  | negotiate hz =>
    subst ht
    obtain ⟨es, hr, -⟩ := negotiate_opRan hz s
    rw [effect, newEvents_reportRes hr.ran] at he
    have hc : e.reg = .cfg := by simpa using hr.regs e he
    exact ⟨by simp [hc], by simp [hc], fun _ => .inl ⟨hz, rfl⟩⟩
  | setup hz =>
    subst ht
    rw [effect, newEvents_reportRes (setup_ran hz s)] at he
    cases he
  | maxXferSize =>
    subst ht
    rw [effect, newEvents_reportRes (maxXferSize_ran s)] at he
    cases he
  | waitReady =>
    subst ht
    obtain ⟨_, hr, -⟩ := waitReady_opRan (R := ioRegs) (E := ioEnds) (by simp) (by simp) (by simp) s
    exact apart_of_mem_ioRegs (hr.io_reg he)
  | deselect =>
    subst ht
    obtain ⟨_, hr, -⟩ := deselect_opRan s
    exact apart_of_mem_ioRegs (hr.io_reg he)
  | select slot =>
    subst ht
    obtain ⟨_, hr, -⟩ := select_opRan slot s
    exact apart_of_mem_ioRegs (hr.io_reg he)
  | xferWrite b =>
    subst ht
    obtain ⟨_, hr, -⟩ := xferWrite_opRan Config.hostByteOrder b s
    exact apart_of_mem_ioRegs (hr.io_reg he)
  | xferRead n out =>
    subst ht
    obtain ⟨_, hr, -⟩ := xferRead_opRan Config.hostByteOrder n out s
    exact apart_of_mem_ioRegs (hr.io_reg he)
  | _ => cases hi

end Sys2Proof.Machine
end

section
namespace Sys2Proof.Machine

/-! ### Calls, accepted and refused (O1, O3, O4, O10, O19) -/

/-- Settles O1: the reset values, as `State.attach` gives them. -/
theorem attachCreatesTheHandle : Obligations.AttachCreatesTheHandle := by
  unfold Obligations.AttachCreatesTheHandle
  exact ⟨rfl, rfl, rfl, rfl, rfl, rfl, rfl⟩

/-- Settles O3: `acceptCall` tests this before it looks at the arguments. -/
theorem callInFlightRefused : Obligations.CallInFlightRefused := by
  unfold Obligations.CallInFlightRefused
  intro i s hh hf
  rw [exec_eq]
  exact acceptCall_inFlight hh hf

theorem illegalSlot_of_le {slot : Nat} (h : 2 ≤ slot) : illegalSlot slot = some .badSlot := by
  have : ¬slot < Config.nSlots := by unfold Config.nSlots; omega
  simp [illegalSlot, this]

theorem illegalLength_tooLong {n : Nat} {tx rx : Option (List Byte)} (h : 256 < n) :
    illegalLength n tx rx = some .tooLong := by
  have : Config.maxXfer < n := h
  simp [illegalLength, this]

theorem illegalLength_bufferSize {n : Nat} {tx rx : Option (List Byte)} (hn : n ≤ 256)
    (h : bufferFits n tx = false ∨ bufferFits n rx = false) :
    illegalLength n tx rx = some .bufferSize := by
  have : ¬Config.maxXfer < n := Nat.not_lt.mpr hn
  rcases h with h | h <;> simp [illegalLength, this, h]

theorem bufferFits_eq_false {n : Nat} {b : List Byte} (h : b.length ≠ n) :
    bufferFits n (some b) = false := by simp [bufferFits, h]

theorem illegalLength_ne_none {n : Nat} {tx rx : Option (List Byte)}
    (h : 256 < n ∨ bufferFits n tx = false ∨ bufferFits n rx = false) :
    illegalLength n tx rx ≠ none := by
  by_cases hn : 256 < n
  · simp [illegalLength_tooLong hn]
  · simp [illegalLength_bufferSize (Nat.not_lt.mp hn) (h.resolve_left hn)]

/-- What makes a descriptor illegal (R39 duties 3 to 5, R113). -/
theorem Descriptor.illegal_ne_none {d : Descriptor} (h : 256 < d.len ∨ (d.tx = none ∧ d.rx = none) ∨
    (∃ b, d.tx = some b ∧ b.length ≠ d.len) ∨ ∃ b, d.rx = some b ∧ b.length ≠ d.len) :
    d.illegal ≠ none := by
  unfold Descriptor.illegal
  split
  · exact nofun
  · next hb =>
    refine illegalLength_ne_none ?_
    rcases h with h | ⟨ht, hr⟩ | ⟨b, ht, hl⟩ | ⟨b, hr, hl⟩
    · exact .inl h
    · simp [ht, hr] at hb
    · exact .inr (.inl (ht ▸ bufferFits_eq_false hl))
    · exact .inr (.inr (hr ▸ bufferFits_eq_false hl))

/-- Settles O4: `acceptCall_illegal` for the refusal, and for the reasons a lemma on each check. -/
theorem illegalArgumentsRefused : Obligations.IllegalArgumentsRefused := by
  unfold Obligations.IllegalArgumentsRefused
  refine ⟨fun i s e hs hi => ?_, fun slot => illegalSlot_of_le, fun b => illegalLength_tooLong,
    fun n out => illegalLength_tooLong,
    fun n out hn hl => illegalLength_bufferSize hn (.inr (bufferFits_eq_false hl)),
    fun m hm => ?_, fun m d hd h => ?_⟩
  · rw [exec_eq, hi]
    exact acceptCall_illegal hs
  · simp [Instr.illegal, Message.illegal, illegalSlot_of_le hm]
  · rw [Bool.eq_false_iff, ne_eq, wf_iff]
    exact fun hm => Descriptor.illegal_ne_none h (message_legal hm d hd)

/-- Settles O10: by the cases of `step`. -/
theorem stepRunsTheDecodedCall : Obligations.StepRunsTheDecodedCall := by
  unfold Obligations.StepRunsTheDecodedCall
  intro s c rest i hc hd hi
  simp [step, fetchCall, hc, hd, hi]

/-- The device latches the word a call writes, and each field is read from the latch (R88, R92). -/
theorem exec_writeOf_window {r : Reg} {v : Word} {s t : State}
    (h : exec (writeOf v r) s = .next t) : t.window.get r = v := by
  obtain ⟨hs, -, -⟩ := exec_next_iff.mp h
  cases (exec_writeOf hs r v).symm.trans h
  simp [writeCall]

/-- Settles O19: each field is read from the word just latched (`exec_writeOf_window`). -/
theorem writtenFieldsTakeEffect : Obligations.WrittenFieldsTakeEffect := by
  unfold Obligations.WrittenFieldsTakeEffect
  intro v s t
  refine ⟨fun h => ?_, fun h => ?_, fun h => ?_⟩
  · have hw : t.window.cfg = v := exec_writeOf_window (r := .cfg) h
    rw [State.divide, hw]; rfl
  · have hw : t.window.cs = v := exec_writeOf_window (r := .cs) h
    rw [State.lines, hw]
    simp [linesOf, csb0, csb1, dps, lenBytes, lenField, iowField]
  · have hw : t.window.cfg2 = v := exec_writeOf_window (r := .cfg2) h
    rw [hw]; exact ⟨rfl, rfl, rfl, rfl⟩

/-! ### What every call leaves in place, and legal runs (O14) -/

theorem setupLines_eq (hz : Nat) (s : State) : ∃ l n, setupLines hz s =
    { s with seqLog := l, ops := ⟨.setup, n⟩ :: s.ops.tail } := by
  unfold setupLines
  dsimp only
  split <;> exact ⟨_, _, rfl⟩

/-- SETUP changes the record of the sequencer alone (R102). -/
theorem setup_state (hz : Nat) (s : State) : ∃ l, (setup hz s).state = { s with seqLog := l } := by
  obtain ⟨l, n, h⟩ := setupLines_eq hz (enterOp .setup s)
  have hb : ∃ l n, (setupBody hz (enterOp .setup s)).state =
      { s with seqLog := l, ops := ⟨.setup, n⟩ :: s.ops } := by
    unfold setupBody
    split <;> rw [h] <;> exact ⟨_, _, rfl⟩
  obtain ⟨l, n, hb⟩ := hb
  exact ⟨_, by rw [setup, within, Res.state_mapState, hb]; rfl⟩

/-- MAX_XFER_SIZE changes the record of the sequencer alone (R131). -/
theorem maxXferSize_state (s : State) : ∃ l, (maxXferSize s).state = { s with seqLog := l } :=
  ⟨_, rfl⟩

/-- An operation called between calls leaves the block idle. -/
theorem reportRes_idle {s : State} {r : Res} (hseq : r.state.seq = s.seq) (hops : r.state.ops = s.ops)
    (h : s.seq = .idle ∧ s.ops = []) (answer : State → Answer) :
    (reportRes r answer).seq = .idle ∧ (reportRes r answer).ops = [] :=
  ⟨hseq.trans h.1, hops.trans h.2⟩

/-- Every call leaves the sequencer Idle again (R98, R127). -/
theorem effect_idle (i : Instr) {s : State} (h : s.seq = .idle ∧ s.ops = []) :
    (effect i s).seq = .idle ∧ (effect i s).ops = [] := by
  cases i with
  | rdCfg | rdCfg2 | rdCs | rdData | rdData2 => simpa [effect, readCall] using h
  | wrCfg v | wrCfg2 v | wrCs v | wrData v | wrData2 v => simpa [effect, writeCall] using h
  | csDeselBoth | csAssertBoth | csSel0 | csSel1 | csLen4 | csLen1 | cfgDiv | dataByte | dataWord =>
    simpa [effect, writeCall] using h
  | waitReady =>
    obtain ⟨_, g, -, ho⟩ := waitReady_opRan (R := ioRegs) (E := ioEnds) (by simp) (by simp) (by simp) s
    exact reportRes_idle g.seq ho h _
  | negotiate hz =>
    obtain ⟨_, g, ho⟩ := negotiate_opRan hz s
    exact reportRes_idle g.seq ho h _
  | setup hz =>
    obtain ⟨l, g⟩ := setup_state hz s
    exact reportRes_idle (by rw [g]) (by rw [g]) h _
  | deselect =>
    obtain ⟨_, g, -, ho⟩ := deselect_opRan s
    exact reportRes_idle g.seq ho h _
  | select slot =>
    obtain ⟨_, g, -, ho⟩ := select_opRan slot s
    exact reportRes_idle g.seq ho h _
  | xferWrite b =>
    obtain ⟨_, g, ho⟩ := xferWrite_opRan Config.hostByteOrder b s
    exact reportRes_idle g.seq ho h _
  | xferRead n out =>
    obtain ⟨_, g, ho⟩ := xferRead_opRan Config.hostByteOrder n out s
    exact reportRes_idle g.seq ho h _
  | transfer m =>
    obtain ⟨_, _, g⟩ := transfer_ran Config.hostByteOrder m s
    exact ⟨rfl, by simpa [effect, transferCall, finishMessage, g.ops] using h.2⟩
  | maxXferSize =>
    obtain ⟨l, g⟩ := maxXferSize_state s
    exact reportRes_idle (by rw [g]) (by rw [g]) h _

theorem Called.calls {s t : State} {es : List Event} (h : Called s t es) : t.calls = s.calls := by
  obtain ⟨u, st, a, hu, ht⟩ := h
  rw [ht.calls, report_calls, hu.calls]

theorem Called.handle {s t : State} {es : List Event} (h : Called s t es) :
    t.handle.map (fun h => (h.base, h.refHz)) = s.handle.map fun h => (h.base, h.refHz) := by
  obtain ⟨u, st, a, hu, ht⟩ := h
  rw [ht.handle, report_handle, hu.handle]

theorem effect_accepting (i : Instr) {s : State} (h : Accepting s) : Accepting (effect i s) := by
  obtain ⟨hh, hi⟩ := h
  obtain ⟨es, hc⟩ := effect_called i s
  refine ⟨fun hn => hh ?_, effect_idle i hi⟩
  have := hc.handle
  rw [hn] at this
  simpa using this.symm

/-- A step with a legal call first, or none, completes in an accepting state, and drops that call. -/
theorem step_legal {s : State} (hs : Accepting s)
    (hc : ∀ c ∈ s.calls, ∃ i, decode c.request = .ok i ∧ c.invoker = invokerOf i ∧ i.wf = true) :
    ∃ t, step s = .next t ∧ Accepting t ∧ t.calls = s.calls.tail := by
  cases hl : s.calls with
  | nil => exact ⟨s, step_waits hl, hs, hl⟩
  | cons c rest =>
    obtain ⟨i, hd, hi, hw⟩ := hc c (hl ▸ List.mem_cons_self ..)
    obtain ⟨es, he⟩ := effect_called i { s with calls := rest }
    exact ⟨_, step_next_iff.mpr (.inr ⟨c, rest, i, hl, hd, hi, hs, wf_iff.mp hw, rfl⟩),
      effect_accepting (s := { s with calls := rest }) i hs, he.calls⟩

/-- Settles O14: by induction over the steps, each by `step_legal`. -/
theorem legalRunsNeverStop : Obligations.LegalRunsNeverStop := by
  unfold Obligations.LegalRunsNeverStop
  intro n
  induction n with
  | zero => exact fun s hs _ => ⟨s, rfl, hs⟩
  | succ n ih =>
    intro s hs hc
    obtain ⟨t, ht, hta, htc⟩ := step_legal hs hc
    obtain ⟨u, hu, hua⟩ := ih t hta fun c hm => hc c (List.mem_of_mem_tail (htc ▸ hm))
    refine ⟨u, ?_, hua⟩
    have hst : Sys2Proof.core.step s = .next t := ht
    simp only [Host.Core.run, hst]
    exact hu

/-! ### The bytes a DATA access moves (O16) -/

/-- The device moves the bytes of a call's DATA accesses, and reports move none (R27, R51). -/
theorem Called.moves {s t : State} {es : List Event} (h : Called s t es) :
    newEvents s t = es ∧ t.spi = s.spi ++ movesOf s.window.cs es := by
  obtain ⟨u, st, a, hu, ht⟩ := h
  constructor
  · simp [newEvents, ht.trace, hu.trace]
  · rw [ht.spi, report_spi, hu.spi]; simp [movesOf]

theorem length_movedBytes (cs w : Word) : (movedBytes cs w).length = lenBytes cs := by
  unfold movedBytes lenBytes
  split
  · next h => rw [h]; rfl
  · split
    · next h => rw [h]; rfl
    · simp

/-- Settles O16: every call is a run (`effect_called`), and a run's moves are those of its accesses. -/
theorem dataAccessesMoveBytes : Obligations.DataAccessesMoveBytes := by
  unfold Obligations.DataAccessesMoveBytes
  refine ⟨fun i s t h => ?_, fun cs w => ⟨length_movedBytes cs w, fun h => ?_, fun h => ?_⟩⟩
  · obtain ⟨-, -, rfl⟩ := exec_next_iff.mp h
    obtain ⟨es, hc⟩ := effect_called i s
    obtain ⟨hn, hm⟩ := hc.moves
    rw [hn, hm]
  · have h : lenField cs = 0#2 := h
    rw [movedBytes, if_pos h]; rfl
  · have h : lenField cs = 3#2 := h
    rw [movedBytes, if_neg (by rw [h]; decide), if_pos h]; rfl

end Sys2Proof.Machine
end

section
namespace Sys2Proof.Machine

/-! ### What the operations keep of the counters and the destination (O12, O13) -/

/-- The wait's counter is in its range, and the engine's has room for `c` more bytes (R29). -/
structure Room (c : Nat) (s : State) : Prop where
  poll : s.w.poll ≤ Config.pollLimit
  index : s.w.i + c ≤ Config.maxXfer

theorem Room.mono {c d : Nat} {s : State} (h : Room c s) (hd : d ≤ c) : Room d s :=
  ⟨h.poll, Nat.le_trans (Nat.add_le_add_left hd _) h.index⟩

/-- What a readiness wait and the chip-select sequencer keep: all but W.poll, CS, and the records. -/
structure PollKept (s t : State) : Prop where
  handle : t.handle = s.handle
  w : t.w = { s.w with poll := t.w.poll }
  poll : s.w.poll ≤ Config.pollLimit → t.w.poll ≤ Config.pollLimit
  out : t.out = s.out
  filled : t.filled = s.filled

theorem PollKept.trans {s t u : State} (h : PollKept s t) (g : PollKept t u) : PollKept s u where
  handle := g.handle.trans h.handle
  w := by have := g.w; rw [h.w] at this; exact this
  poll := g.poll ∘ h.poll
  out := g.out.trans h.out
  filled := g.filled.trans h.filled

theorem PollKept.andThen {s : State} {r : Res} {f : State → Res} (h : PollKept s r.state)
    (hf : ∀ t, PollKept t (f t).state) : PollKept s (r.andThen f).state := by
  cases r with
  | ok t => exact PollKept.trans h (hf t)
  | raise e t => exact h

/-- A change of the fields that `PollKept` leaves out. -/
theorem PollKept.of_same {s t : State} (h1 : t.handle = s.handle) (h2 : t.w = s.w)
    (h3 : t.out = s.out) (h4 : t.filled = s.filled) : PollKept s t :=
  ⟨h1, by rw [h2], by rw [h2]; exact id, h3, h4⟩

theorem PollKept.after_line {s t : State} {o : OpName} {n : Nat} (h : PollKept (atLine o n s) t) :
    PollKept s t := ⟨h.handle, h.w, h.poll, h.out, h.filled⟩

theorem PollKept.return {s : State} {r : Res} (h : PollKept s r.state) (o : OpName) (n : Nat) :
    PollKept s (r.andThen fun t => returnAt o n t).state :=
  h.andThen fun _ => .of_same rfl rfl rfl rfl

theorem PollKept.within {o : OpName} {body : State → Res} {s : State}
    (h : PollKept (enterOp o s) (body (enterOp o s)).state) :
    PollKept s (within o body s).state := by
  rw [Machine.within, Res.state_mapState]
  exact ⟨h.handle, h.w, h.poll, h.out, h.filled⟩

theorem polled_pollKept (s : State) {k : Nat} (hk : k ≤ Config.pollLimit) :
    PollKept s (s.polled k) := ⟨rfl, rfl, fun _ => hk, rfl, rfl⟩

theorem waitReady_pollKept (s : State) : PollKept s (waitReady s).state := by
  rcases waitReady_cases s with ⟨k, hk, -, -, he⟩ | ⟨-, he⟩ <;> rw [he]
  · exact polled_pollKept s hk
  · exact polled_pollKept s (Nat.le_refl _)

theorem waitAt_pollKept (o : OpName) (n : Nat) (s : State) : PollKept s (waitAt o n s).state :=
  (waitReady_pollKept (atLine o n s)).after_line

theorem writeCsAndWait_pollKept (o : OpName) (n m : Nat) (v : Word) (s : State) :
    PollKept s (writeCsAndWait o n m v s).state := by
  have h : PollKept s (regWrite .cs v (atLine o n s)) :=
    .of_same (by simp) (by simp) (by simp) (by simp)
  exact h.trans (waitAt_pollKept o m _)

theorem deselect_pollKept (s : State) : PollKept s (deselect s).state := by
  refine PollKept.within (body := deselectBody) ?_
  refine (writeCsAndWait_pollKept ..).andThen fun _ => ?_
  refine (writeCsAndWait_pollKept ..).andThen fun _ => ?_
  exact (writeCsAndWait_pollKept ..).return _ _

theorem select_pollKept (slot : Nat) (s : State) : PollKept s (select slot s).state := by
  refine PollKept.within (body := selectBody slot) ?_
  refine (deselect_pollKept _).after_line.andThen fun _ => ?_
  exact (writeCsAndWait_pollKept ..).after_line.return _ _

theorem PollKept.room {s t : State} (h : PollKept s t) {c : Nat} (hs : Room c s) : Room c t :=
  ⟨h.poll hs.poll, by rw [h.w]; exact hs.index⟩

/-! #### The engine's counter -/

theorem wait_room (o : OpName) (n : Nat) {s : State} {c : Nat} (h : Room c s) :
    (waitAt o n s).Ends (Room c) (Room 0) := by
  have := (waitAt_pollKept o n s).room h
  cases hw : waitAt o n s with
  | ok t => rw [hw] at this; exact this
  | raise e t => rw [hw] at this; exact this.mono (Nat.zero_le _)

/-- A loop of waits, each followed by an access that uses up `m` bytes of the room. -/
theorem loop_room {o : OpName} {n m c : Nat} {step : State → State} {loop : Nat → State → Res}
    (hi : ∀ t, (step t).w.i = t.w.i + m) (hp : ∀ t, (step t).w.poll = t.w.poll)
    (h0 : ∀ s, loop 0 s = .ok s)
    (hs : ∀ k s, loop (k + 1) s =
      ((waitAt o n s).andThen fun t => .ok (step t)).andThen (loop k)) :
    ∀ k s, Room (m * k + c) s → (loop k s).Ends (Room c) (Room 0) := by
  intro k
  induction k with
  | zero => intro s h; rw [h0]; simpa [Res.Ends] using h
  | succ k ih =>
    intro s h
    rw [hs, Res.andThen_assoc_ok]
    refine (wait_room o n h).andThen fun t ht => ih _ ⟨by rw [hp]; exact ht.poll, ?_⟩
    have := ht.index
    rw [hi]
    rw [Nat.mul_succ] at this
    omega

theorem startTransfer_room (o : OpName) {c : Nat} (hc : c ≤ Config.maxXfer) {s : State}
    (h : Room 0 s) : (startTransfer o s).Ends (Room c) (Room 0) := by
  have ht : Room 0 (tookCs o s) := ⟨by simpa [tookCs] using h.poll, by simpa [tookCs] using h.index⟩
  rw [startTransfer_eq]
  exact (wait_room o 2 ht).andThen fun t ht =>
    ⟨by simpa [putLen4] using ht.poll, by simpa [putLen4] using hc⟩

theorem startPhaseB_room (o : OpName) {c : Nat} {s : State} (h : Room c s) :
    (startPhaseB o s).Ends (Room c) (Room 0) := by
  rw [startPhaseB_eq]
  exact (wait_room o 10 h).andThen fun t ht => ⟨ht.poll, ht.index⟩

theorem within_room {o : OpName} {body : State → Res} {s : State}
    (h : (body (enterOp o s)).Ends (Room 0) (Room 0)) : Room 0 (within o body s).state := by
  rw [within, Res.state_mapState]
  cases hb : body (enterOp o s) <;> rw [hb] at h <;> exact ⟨h.poll, h.index⟩

theorem xferWrite_room (order : ByteOrder) {b : List Byte} (hb : b.length ≤ Config.maxXfer)
    {s : State} (h : Room 0 s) : Room 0 (xferWrite order b s).state := by
  refine within_room (body := xferWriteBody order b) ?_
  have h0 : Room 0 (enterOp .xferWrite s) := ⟨h.poll, h.index⟩
  refine (startTransfer_room .xferWrite hb h0).andThen fun t ht => ?_
  refine (loop_room (m := 4) (c := b.length % 4) (by simp [putWord]) (by simp [putWord]) (fun _ => rfl)
    (writeWords_succ order b) _ t (by rwa [Nat.div_add_mod])).andThen fun t ht => ?_
  refine (startPhaseB_room .xferWrite ht).andThen fun t ht => ?_
  exact (loop_room (c := 0) (m := 1) (by simp [putByte]) (by simp [putByte]) (fun _ => rfl)
    (writeBytes_succ b) _ t (by simpa using ht)).andThen fun t ht => ⟨ht.poll, ht.index⟩

theorem xferRead_room (order : ByteOrder) {n : Nat} (hn : n ≤ Config.maxXfer) (out : List Byte)
    {s : State} (h : Room 0 s) : Room 0 (xferRead order n out s).state := by
  refine within_room (body := xferReadBody order n out) ?_
  have h0 : Room 0 (handBuffer out (enterOp .xferRead s)) := ⟨h.poll, h.index⟩
  refine (startTransfer_room .xferRead hn h0).andThen fun t ht => ?_
  refine (loop_room (m := 4) (c := n % 4) (by simp [getData, length_unpack32]) (by simp [getData])
    (fun _ => rfl)
    (readWords_succ order) _ t (by rwa [Nat.div_add_mod])).andThen fun t ht => ?_
  refine (startPhaseB_room .xferRead ht).andThen fun t ht => ?_
  exact (loop_room (c := 0) (m := 1) (by simp [getData]) (by simp [getData]) (fun _ => rfl)
    readBytes_succ _ t (by simpa using ht)).andThen fun t ht => ⟨ht.poll, ht.index⟩

/-! #### The counters and the destination in hand -/

/-- The working counters are in their ranges (R29), and the destination in hand holds what the engine
wrote (R118). -/
structure Fits (s : State) : Prop where
  room : Room 0 s
  filled : s.filled ≤ s.out.length

theorem Fits.of_same {s t : State} (h : Fits s) (hw : t.w.poll = s.w.poll ∧ t.w.i = s.w.i)
    (ho : t.out = s.out) (hf : t.filled = s.filled) : Fits t :=
  ⟨⟨by rw [hw.1]; exact h.room.poll, by rw [hw.2]; exact h.room.index⟩, by
    rw [ho, hf]; exact h.filled⟩

theorem PollKept.fits {s t : State} (g : PollKept s t) (h : Fits s) : Fits t :=
  ⟨g.room h.room, by rw [g.out, g.filled]; exact h.filled⟩

theorem negotiate_fits (hz : Nat) {s : State} (h : Fits s) : Fits (negotiate hz s).state := by
  obtain ⟨es, g⟩ := negotiate_does hz s
  exact h.of_same ⟨g.poll, g.index⟩ g.out g.filled

theorem xferWrite_fits (order : ByteOrder) {b : List Byte} (hb : b.length ≤ Config.maxXfer)
    {s : State} (h : Fits s) : Fits (xferWrite order b s).state := by
  obtain ⟨es, g⟩ := xferWrite_sends order b s
  exact ⟨xferWrite_room order hb h.room, by rw [g.out.1, g.out.2]; exact h.filled⟩

theorem xferRead_fits (order : ByteOrder) {n : Nat} {out : List Byte} (hn : n ≤ Config.maxXfer)
    (ho : out.length = n) {s : State} (h : Fits s) : Fits (xferRead order n out s).state := by
  obtain ⟨es, g⟩ := xferRead_fills order n out s
  exact ⟨xferRead_room order hn out h.room, by rw [g.out, length_putBytes, ho]; exact g.le⟩

/-- A legal length is in range, and both buffers have it (R39 duties 3 and 5). -/
theorem illegalLength_none {n : Nat} {tx rx : Option (List Byte)} (h : illegalLength n tx rx = none) :
    n ≤ Config.maxXfer ∧ (∀ b, tx = some b → b.length = n) ∧ ∀ b, rx = some b → b.length = n := by
  by_contra hne
  refine illegalLength_ne_none ?_ h
  by_cases hn : n ≤ Config.maxXfer
  · by_contra hb
    simp only [not_or, Bool.not_eq_false] at hb
    refine hne ⟨hn, fun b ht => ?_, fun b hr => ?_⟩
    · simpa [ht, bufferFits] using hb.2.1
    · simpa [hr, bufferFits] using hb.2.2
  · exact .inl (Nat.not_le.mp hn)

theorem runEngine_fits {order : ByteOrder} {k : Nat} {d : Descriptor} (hd : d.illegal = none)
    {s : State} (h : Fits s) : Fits (runEngine order k d s).state := by
  have hl : illegalLength d.len d.tx d.rx = none := by
    unfold Descriptor.illegal at hd
    split at hd
    · cases hd
    · exact hd
  obtain ⟨hn, ht, hr⟩ := illegalLength_none hl
  unfold runEngine
  cases htx : d.tx with
  | some b =>
    exact xferWrite_fits order (ht b htx ▸ hn) (h.of_same ⟨rfl, rfl⟩ rfl rfl)
  | none =>
    obtain ⟨out, ho, hlen⟩ := illegal_none_read hd htx
    simp only [Res.state_mapState, ho, Option.getD_some]
    exact (xferRead_fits order (s := atLine .transfer 18 s) hn hlen
      (h.of_same ⟨rfl, rfl⟩ rfl rfl)).of_same ⟨rfl, rfl⟩ rfl rfl

/-- TRANSFER keeps the counters in range, for a legal message. -/
theorem message_fits (order : ByteOrder) {m : Message} (hm : m.illegal = none) {s : State}
    (h : Fits s) : Fits (catchError (runMessage order m (startMessage m s))) := by
  have same : ∀ {t u : State}, Fits t → u.w.poll = t.w.poll ∧ u.w.i = t.w.i → u.out = t.out →
    u.filled = t.filled → Fits u := fun h => h.of_same
  refine message_rule (P := Fits) (E := Fits) (.of_state ?_) (fun t ht => .of_state ?_)
    (fun t ht => .of_state ?_) (fun t ht => same ht ⟨rfl, rfl⟩ rfl rfl) (fun k d t hd ht => ?_)
    (fun d t ht => same ht ⟨rfl, rfl⟩ rfl rfl) (fun t ht => .of_state ?_)
    (fun e t ht => same ht ⟨rfl, rfl⟩ rfl rfl)
  · exact (waitAt_pollKept ..).fits (same h ⟨rfl, rfl⟩ rfl rfl)
  · exact negotiate_fits _ (same ht ⟨rfl, rfl⟩ rfl rfl)
  · exact (select_pollKept ..).fits (same ht ⟨rfl, rfl⟩ rfl rfl)
  · have hd := message_legal hm d (List.mem_of_getElem? hd)
    unfold xferStage
    split
    · exact same ht ⟨rfl, rfl⟩ rfl rfl
    · exact .of_state (runEngine_fits hd (same ht ⟨rfl, rfl⟩ rfl rfl))
  · exact (deselect_pollKept _).fits (same ht ⟨rfl, rfl⟩ rfl rfl)

/-! #### The invariant -/

/-- What a call from `s` that leaves `t` keeps of the invariant beside what `Called` says. -/
structure Settled (s t : State) : Prop where
  fits : Fits s → Fits t
  status : s.w.status ≠ .resourceUnavailable → t.w.status ≠ .resourceUnavailable
  reports : ∃ rep, t.reports = s.reports ++ [rep] ∧ rep.status ≠ .resourceUnavailable

/-- An operation that reports its end. -/
theorem settled_op {R : List Reg} {E : List Status} {s : State} {r : Res} {es : List Event}
    (h : OpRan R E s r es) (hE : .resourceUnavailable ∉ E) (hf : Fits s → Fits r.state)
    (answer : State → Answer) : Settled s (reportRes r answer) where
  fits hs := (hf hs).of_same ⟨rfl, rfl⟩ rfl rfl
  status hs := h.message.2.2 ▸ hs
  reports := ⟨_, by rw [reportRes, report_reports, h.ran.reports], fun hst => hE (hst ▸ h.status)⟩

/-- An operation that changed the record of the sequencer alone. -/
theorem settled_same {s : State} {r : Res} {l : List Mark} (h : r.state = { s with seqLog := l })
    (hr : r.status ≠ .resourceUnavailable) (answer : State → Answer) :
    Settled s (reportRes r answer) where
  fits hs := by rw [reportRes, h]; exact hs.of_same ⟨rfl, rfl⟩ rfl rfl
  status hs := by rw [reportRes, h]; exact hs
  reports := ⟨_, by rw [reportRes, h]; rfl, hr⟩

theorem settled_readCall (r : Reg) (s : State) : Settled s (readCall r s) where
  fits hs := hs.of_same (by simp [readCall]) (by simp [readCall]) (by simp [readCall])
  status hs := by simpa [readCall] using hs
  reports := ⟨_, by simp [readCall]; rfl, by simp⟩

theorem settled_writeCall (r : Reg) (v : Word) (s : State) : Settled s (writeCall r v s) where
  fits hs := hs.of_same (by simp [writeCall]) (by simp [writeCall]) (by simp [writeCall])
  status hs := by simpa [writeCall] using hs
  reports := ⟨_, by simp [writeCall]; rfl, by simp⟩

theorem setup_status (hz : Nat) (s : State) : (setup hz s).status ≠ .resourceUnavailable := by
  unfold setup within setupBody
  split <;> simp

theorem MessageEnd.status_ne (e : MessageEnd) : e.status ≠ .resourceUnavailable := by
  cases e with
  | xfers x => cases x <;> exact nofun
  | _ => exact nofun

theorem settled_transferCall {m : Message} (hm : m.illegal = none) (s : State) :
    Settled s (transferCall Config.hostByteOrder m s) := by
  obtain ⟨st, e, g⟩ := transfer_ran Config.hostByteOrder m s
  have hf := message_fits Config.hostByteOrder hm (s := s)
  unfold transferCall
  generalize catchError (runMessage Config.hostByteOrder m (startMessage m s)) = u at g hf ⊢
  exact {
    fits hs := (hf hs).of_same ⟨rfl, rfl⟩ rfl rfl
    status _ := g.status.symm ▸ e.status_ne
    reports := ⟨_, by rw [← g.ran.reports]; rfl, g.status.symm ▸ e.status_ne⟩ }

/-- Every legal call keeps the counters, the status and the reports. -/
theorem effect_settled {i : Instr} (hi : i.illegal = none) (s : State) : Settled s (effect i s) := by
  cases i with
  | rdCfg | rdCfg2 | rdCs | rdData | rdData2 => exact settled_readCall _ s
  | wrCfg v | wrCfg2 v | wrCs v | wrData v | wrData2 v => exact settled_writeCall _ v s
  | csDeselBoth | csAssertBoth | csSel0 | csSel1 | csLen4 | csLen1 | cfgDiv | dataByte | dataWord =>
    exact settled_writeCall _ _ s
  | waitReady =>
    obtain ⟨_, g, -⟩ := waitReady_opRan (R := ioRegs) (E := ioEnds) (by simp) (by simp) (by simp) s
    exact settled_op g (by simp) (waitReady_pollKept s).fits fun _ => .none
  | negotiate hz =>
    obtain ⟨_, g, -⟩ := negotiate_opRan hz s
    exact settled_op g (by simp) (negotiate_fits hz) fun _ => .none
  | setup hz =>
    obtain ⟨l, g⟩ := setup_state hz s
    exact settled_same g (setup_status hz s) fun _ => setupAnswer hz
  | deselect =>
    obtain ⟨_, g, -⟩ := deselect_opRan s
    exact settled_op g (by simp) (deselect_pollKept s).fits fun _ => .none
  | select slot =>
    obtain ⟨_, g, -⟩ := select_opRan slot s
    exact settled_op g (by simp) (select_pollKept slot s).fits fun _ => .none
  | xferWrite b =>
    obtain ⟨_, g, -⟩ := xferWrite_opRan Config.hostByteOrder b s
    exact settled_op g (by simp) (xferWrite_fits _ (illegalLength_none hi).1) fun _ => .none
  | xferRead n out =>
    obtain ⟨_, g, -⟩ := xferRead_opRan Config.hostByteOrder n out s
    obtain ⟨hn, -, ho⟩ := illegalLength_none hi
    exact settled_op g (by simp) (xferRead_fits _ hn (ho out rfl)) fun t => .bytes t.filled t.out
  | transfer m => exact settled_transferCall hi s
  | maxXferSize =>
    obtain ⟨l, g⟩ := maxXferSize_state s
    exact settled_same g (by simp [maxXferSize, within]) fun _ => .size Config.maxXfer

/-- What a call did to the trace and to the device (R35, R53). -/
theorem Called.device {s t : State} {es : List Event} (h : Called s t es) :
    t.trace = s.trace ++ es ∧ t.draws = s.draws + (answersUsed es).length ∧
      ∀ r, t.window.get r = (lastWrite r es).getD (s.window.get r) := by
  obtain ⟨u, st, a, hu, ht⟩ := h
  refine ⟨?_, ?_, fun r => ?_⟩
  · rw [ht.trace, report_trace, hu.trace, List.append_nil]
  · rw [ht.draws, report_draws, hu.draws]; rfl
  · rw [ht.latch, report_window, hu.latch]; rfl

theorem handle_constants {h g : Option Handle} (hk : g.map (fun h => (h.base, h.refHz)) =
    h.map fun h => (h.base, h.refHz))
    (hc : ∀ x, h = some x → x.base = Config.regBase ∧ x.refHz = Config.refHz) :
    ∀ x, g = some x → x.base = Config.regBase ∧ x.refHz = Config.refHz := by
  rintro x rfl
  cases h with
  | none => simp at hk
  | some y =>
    obtain ⟨h1, h2⟩ : x.base = y.base ∧ x.refHz = y.refHz := by simpa using hk
    rw [h1, h2]
    exact hc y rfl

/-- Every legal call keeps the invariant. -/
theorem effect_inv {i : Instr} (hi : i.illegal = none) {s : State} (h : Inv s) :
    Inv (effect i s) := by
  obtain ⟨es, hc⟩ := effect_called i s
  obtain ⟨htr, hdr, hla⟩ := hc.device
  have g := effect_settled hi s
  have hf := g.fits ⟨⟨h.poll, h.index⟩, h.filled⟩
  obtain ⟨rep, hrep, hst⟩ := g.reports
  exact {
    handle := handle_constants hc.handle h.handle
    idle := effect_idle i h.idle
    poll := hf.room.poll
    index := hf.room.index
    latch := by
      intro r v hv
      rw [htr, lastWrite_append] at hv
      rw [hla]
      cases hl : lastWrite r es with
      | some w => rw [hl] at hv; simpa using hv
      | none => rw [hl] at hv; exact h.latch r v (by simpa using hv)
    draws := by rw [htr, hdr, List.countP_append, h.draws, countP_isRead es]
    moves := by
      rw [hc.moves.2, htr, List.length_append, List.countP_append, h.moves, length_movesOf]
    filled := hf.filled
    status := g.status h.status
    reports := by
      rw [hrep]
      intro r hr
      rcases List.mem_append.mp hr with hr | hr
      · exact h.reports r hr
      · rw [List.mem_singleton.mp hr]; exact hst }

/-- Settles O12: a step waits, or is a legal call (`effect_inv`), which the queue of calls is no part
of. -/
theorem stepKeepsTheInvariant : Obligations.StepKeepsTheInvariant := by
  unfold Obligations.StepKeepsTheInvariant
  intro s t h hs
  rcases step_next_iff.mp hs with ⟨-, rfl⟩ | ⟨c, rest, i, -, -, -, -, hi, rfl⟩
  · exact h
  · exact effect_inv hi ⟨h.handle, h.idle, h.poll, h.index, h.latch, h.draws, h.moves, h.filled,
      h.status, h.reports⟩

/-- Settles O13: at reset the records are empty and the counters are 0. -/
theorem resetMeetsTheInvariant : Obligations.ResetMeetsTheInvariant := by
  unfold Obligations.ResetMeetsTheInvariant
  exact {
    handle := by rintro x ⟨⟩; exact ⟨rfl, rfl⟩
    idle := ⟨rfl, rfl⟩
    poll := Nat.zero_le _
    index := Nat.zero_le _
    latch := nofun
    draws := rfl
    moves := rfl
    filled := Nat.le_refl _
    status := nofun
    reports := nofun }

end Sys2Proof.Machine
end

section
namespace Sys2Proof.Machine

/-! ### The working registers carry nothing in (O55)

Two runs whose states differ in the working registers alone stay so. `Alike K` says that they do and
that what `K` shows of the registers is the same; `Carries` and `Same` that a change or an operation
takes such states to such states. A register read after it was written is shown by `K` in between. -/

section
variable {α β γ δ : Type}

/-- The states differ in the working registers alone, and there not in what `K` shows. -/
def Alike (K : Work → α) (s t : State) : Prop := ∃ w, t = { s with w := w } ∧ K w = K s.w

/-- The ends are of one kind, in states alike: to `K` after a success, and to `L` after an error. -/
inductive Res.Alike (K : Work → α) (L : Work → β) : Res → Res → Prop
  | ok {s t : State} (h : Machine.Alike K s t) : Res.Alike K L (.ok s) (.ok t)
  | raise {s t : State} (e : Status) (h : Machine.Alike L s t) :
    Res.Alike K L (.raise e s) (.raise e t)

/-- The change takes states alike to `K` to states alike to `L`. -/
def Carries (K : Work → α) (L : Work → β) (f : State → State) : Prop :=
  ∀ s t, Alike K s t → Alike L (f s) (f t)

/-- The operation takes states alike to `K` to ends alike to `L` and, after an error, to `M`. -/
def Same (K : Work → α) (L : Work → β) (M : Work → γ) (f : State → Res) : Prop :=
  ∀ s t, Alike K s t → (f s).Alike L M (f t)

variable {K : Work → α} {L : Work → β} {M : Work → γ} {N : Work → δ}

/-- Nothing is shown. -/
abbrev hidden (_ : Work) : Unit := ()

theorem Alike.hide {s t : State} (h : Alike K s t) : Alike hidden s t :=
  let ⟨w, h, _⟩ := h; ⟨w, h, rfl⟩

theorem Carries.intro {f : State → State}
    (h : ∀ s w, K w = K s.w → ∃ w', f { s with w := w } = { f s with w := w' } ∧ L w' = L (f s).w) :
    Carries K L f := by
  rintro s _ ⟨w, rfl, hk⟩
  exact h s w hk

/-- A change that neither reads nor writes the working registers. -/
theorem Carries.of_blind {f : State → State}
    (h : ∀ s w, f { s with w := w } = { f s with w := w }) (hw : ∀ s, (f s).w = s.w) :
    Carries K K f :=
  .intro fun s w hk => ⟨w, h s w, by rw [hw, hk]⟩

theorem Carries.then {f g : State → State} (hf : Carries K L f) (hg : Carries L M g) :
    Carries K M (fun s => g (f s)) := fun s t h => hg _ _ (hf s t h)

theorem carries_atLine (o : OpName) (n : Nat) : Carries K K (atLine o n) :=
  .of_blind (fun _ _ => rfl) fun _ => rfl

theorem carries_enterOp (o : OpName) : Carries K K (enterOp o) :=
  .of_blind (fun _ _ => rfl) fun _ => rfl

theorem carries_leaveOp (o : OpName) (st : Status) : Carries K K (leaveOp o st) :=
  .of_blind (fun _ _ => rfl) fun _ => rfl

theorem carries_enterPhase (p : Phase) : Carries K K (enterPhase p) :=
  .of_blind (fun _ _ => rfl) fun _ => rfl

theorem regWrite_withW (r : Reg) (v : Word) (s : State) (w : Work) :
    regWrite r v { s with w := w } = { regWrite r v s with w := w } := by cases r <;> rfl

theorem regRead_withW (r : Reg) (s : State) (w : Work) :
    (regRead r { s with w := w }).2 = { (regRead r s).2 with w := w } := by cases r <;> rfl

theorem carries_regWrite (r : Reg) (v : Word) : Carries K K (regWrite r v) :=
  .of_blind (regWrite_withW r v) fun s => regWrite_w s r v

section
variable {r r' : Res}

theorem Res.Alike.hide (h : r.Alike K L r') : r.Alike K hidden r' := by
  cases h with
  | ok h => exact .ok h
  | raise e h => exact .raise e h.hide

theorem Res.Alike.forget (h : r.Alike K L r') : r.Alike hidden hidden r' := by
  cases h with
  | ok h => exact .ok h.hide
  | raise e h => exact .raise e h.hide

theorem Res.Alike.shows (h : r.Alike hidden hidden r') (hk : K r'.state.w = K r.state.w) :
    r.Alike K K r' := by
  cases h with
  | ok h =>
    obtain ⟨w, rfl, -⟩ := h
    exact .ok ⟨w, rfl, hk⟩
  | raise e h =>
    obtain ⟨w, rfl, -⟩ := h
    exact .raise e ⟨w, rfl, hk⟩

theorem Res.Alike.andThen {f : State → Res} (h : r.Alike K M r') (hf : Same K L M f) :
    (r.andThen f).Alike L M (r'.andThen f) := by
  cases h with
  | ok h => exact hf _ _ h
  | raise e h => exact .raise e h

theorem Res.Alike.mapState {f : State → State} (h : r.Alike K L r') (h1 : Carries K K f)
    (h2 : Carries L L f) : (r.mapState f).Alike K L (r'.mapState f) := by
  cases h with
  | ok h => exact .ok (h1 _ _ h)
  | raise e h => exact .raise e (h2 _ _ h)

theorem Res.Alike.left (o : OpName) (h : r.Alike K L r') : (r.left o).Alike K L (r'.left o) := by
  cases h with
  | ok h => exact .ok (carries_leaveOp o .ok _ _ h)
  | raise e h => exact .raise e (carries_leaveOp o e _ _ h)

end

theorem Same.hide {f : State → Res} (h : Same K L M f) : Same K L hidden f :=
  fun s t hst => (h s t hst).hide

theorem Same.forget {f : State → Res} (h : Same K L M f) : Same K hidden hidden f :=
  fun s t hst => (h s t hst).forget

theorem Same.andThen {f g : State → Res} (hf : Same K L N f) (hg : Same L M N g) :
    Same K M N (fun s => (f s).andThen g) := fun s t h => (hf s t h).andThen hg

/-- An operation after a change. -/
theorem Same.after {f : State → State} {g : State → Res} (hg : Same L M N g) (hf : Carries K L f) :
    Same K M N (fun s => g (f s)) := fun s t h => hg _ _ (hf s t h)

/-- A change, as the end of an operation. -/
theorem Carries.ok {f : State → State} (hf : Carries K L f) : Same K L N (fun s => .ok (f s)) :=
  fun s t h => .ok (hf s t h)

theorem Carries.raise {f : State → State} (e : Status) (hf : Carries K N f) :
    Same K L N (fun s => .raise e (f s)) := fun s t h => .raise e (hf s t h)

theorem Same.return {f : State → Res} (hf : Same K L N f) (o : OpName) (n : Nat) :
    Same K L N (fun s => (f s).andThen fun t => returnAt o n t) :=
  hf.andThen (carries_atLine o n).ok

theorem Same.mapState {f : State → Res} {g : State → State} (hf : Same K L N f)
    (h1 : Carries L L g) (h2 : Carries N N g) : Same K L N (fun s => (f s).mapState g) :=
  fun s t h => (hf s t h).mapState h1 h2

theorem Same.within {o : OpName} {body : State → Res} (h : Same K L N body) :
    Same K L N (within o body) := fun s t hst => (h _ _ (carries_enterOp o s t hst)).left o

/-- A readiness wait reads no working register, and writes W.poll alone (R97). -/
theorem same_waitReady (hK : ∀ w w' k, K w = K w' → K { w with poll := k } = K { w' with poll := k }) :
    Same K K K waitReady := by
  rintro s _ ⟨w, rfl, hk⟩
  rcases waitReady_cases s with ⟨k, hl, hb, hr, he⟩ | ⟨hb, he⟩
  · rw [he, waitReady_first (s := { s with w := w }) hl hb hr]
    exact .ok ⟨_, rfl, hK _ _ _ hk⟩
  · rw [he, waitReady_busy (s := { s with w := w }) hb]
    exact .raise _ ⟨_, rfl, hK _ _ _ hk⟩

theorem same_waitAt (hK : ∀ w w' k, K w = K w' → K { w with poll := k } = K { w' with poll := k })
    (o : OpName) (n : Nat) : Same K K K (waitAt o n) :=
  (same_waitReady hK).after (carries_atLine o n)

/-! #### The chip-select sequencer and the clock configurator -/

theorem same_writeCsAndWait (o : OpName) (n m : Nat) (v : Word) :
    Same hidden hidden hidden (writeCsAndWait o n m v) :=
  (same_waitAt (fun _ _ _ _ => rfl) o m).after ((carries_atLine o n).then (carries_regWrite .cs v))

theorem same_deselect : Same hidden hidden hidden deselect :=
  Same.within <| (same_writeCsAndWait _ _ _ _).andThen <| (same_writeCsAndWait _ _ _ _).andThen <|
    (same_writeCsAndWait _ _ _ _).return _ _

theorem same_select (slot : Nat) : Same hidden hidden hidden (select slot) :=
  Same.within <| (same_deselect.after (carries_atLine _ _)).andThen <|
    ((same_writeCsAndWait _ _ _ _).after (carries_atLine _ _)).return _ _

theorem clampLines_if (s : State) : clampLines s = if s.w.rate < Config.divMin then
    (atLine .negotiate 7 (atLine .negotiate 6 s)).setW { s.w with rate := Config.divMin }
    else atLine .negotiate 6 s := rfl

theorem carries_clampLines : Carries Work.rate Work.rate clampLines := by
  refine .intro fun s w hk => ?_
  rw [clampLines_if, clampLines_if]
  by_cases h : s.w.rate < Config.divMin
  · rw [if_pos h, if_pos (show w.rate < _ from hk ▸ h)]
    exact ⟨_, rfl, rfl⟩
  · rw [if_neg h, if_neg (show ¬w.rate < _ from hk ▸ h)]
    exact ⟨_, rfl, hk⟩

/-- NEGOTIATE writes W.rate, W.code and W.cfg before it reads them (R100). -/
theorem same_programDivider (hz : Nat) : Same Work.rate hidden hidden (programDivider hz) := by
  intro s t h
  obtain ⟨w, ht, hk⟩ := carries_clampLines s t h
  unfold programDivider
  rw [ht]
  generalize clampLines s = c at hk
  obtain ⟨poll, rate, code, cfg, cs, i, word, speed, actual, status⟩ := w
  have hk : rate = c.w.rate := hk
  subst hk
  exact .ok ⟨_, rfl, rfl⟩

theorem same_negotiate (hz : Nat) : Same hidden hidden hidden (negotiate hz) := by
  refine Same.within (body := negotiateBody hz) ?_
  rintro s _ ⟨w, rfl, -⟩
  rw [negotiateBody_eq, negotiateBody_eq]
  split
  · exact .raise _ ⟨_, rfl, rfl⟩
  split
  · exact .raise _ ⟨_, rfl, rfl⟩
  · exact same_programDivider hz _ _ ⟨_, rfl, rfl⟩

/-! #### The data engine -/

/-- What the engine reads back of the working registers. -/
abbrev engineRegs (w : Work) : Nat × Word := (w.i, w.cs)

theorem engineRegs_eq {w w' : Work} (h : engineRegs w = engineRegs w') : w.i = w'.i ∧ w.cs = w'.cs :=
  Prod.mk.injEq .. ▸ h

theorem same_engineWait (o : OpName) (n : Nat) : Same engineRegs engineRegs hidden (waitAt o n) :=
  (same_waitAt (K := engineRegs) (fun _ _ _ h => h) o n).hide

theorem same_startTransfer (o : OpName) : Same hidden engineRegs hidden (startTransfer o) := by
  have h1 : Carries hidden Work.cs (tookCs o) := .intro fun s w _ => ⟨_, rfl, rfl⟩
  have h2 : Carries Work.cs engineRegs (putLen4 o) := .intro fun s w hk => by
    obtain ⟨poll, rate, code, cfg, cs, i, word, speed, actual, status⟩ := w
    have hk : cs = s.w.cs := hk
    subst hk
    exact ⟨_, rfl, rfl⟩
  exact ((same_waitAt (K := Work.cs) (fun _ _ _ h => h) o 2).hide.after h1).andThen h2.ok

theorem same_startPhaseB (o : OpName) : Same engineRegs engineRegs hidden (startPhaseB o) := by
  refine (same_engineWait o 10).andThen (Carries.ok (f := putLen1 o) (.intro fun s w hk => ?_))
  obtain ⟨hi, hc⟩ := engineRegs_eq hk
  obtain ⟨poll, rate, code, cfg, cs, i, word, speed, actual, status⟩ := w
  subst hi hc
  exact ⟨_, rfl, rfl⟩

/-- A loop of the engine's waits and accesses. -/
theorem same_loop {o : OpName} {n : Nat} {step : State → State} {loop : Nat → State → Res}
    (hstep : Carries engineRegs engineRegs step) (h0 : ∀ s, loop 0 s = .ok s)
    (hs : ∀ k s, loop (k + 1) s =
      ((waitAt o n s).andThen fun t => .ok (step t)).andThen (loop k)) :
    ∀ k, Same engineRegs engineRegs hidden (loop k) := by
  intro k
  induction k with
  | zero => intro s t h; rw [h0, h0]; exact .ok h
  | succ k ih =>
    intro s t h
    rw [hs, hs]
    exact (((same_engineWait o n).andThen hstep.ok).andThen ih) s t h

theorem carries_putWord (order : ByteOrder) (b : List Byte) :
    Carries engineRegs engineRegs (putWord order b) := .intro fun s w hk => by
  obtain ⟨hi, hc⟩ := engineRegs_eq hk
  obtain ⟨poll, rate, code, cfg, cs, i, word, speed, actual, status⟩ := w
  subst hi hc
  exact ⟨_, rfl, rfl⟩

theorem carries_putByte (b : List Byte) : Carries engineRegs engineRegs (putByte b) :=
  .intro fun s w hk => by
    obtain ⟨hi, hc⟩ := engineRegs_eq hk
    obtain ⟨poll, rate, code, cfg, cs, i, word, speed, actual, status⟩ := w
    subst hi hc
    exact ⟨_, rfl, rfl⟩

theorem carries_getData (n m : Nat) (bytes : Word → List Byte) :
    Carries engineRegs engineRegs (getData n m bytes) := .intro fun s w hk => by
  obtain ⟨hi, hc⟩ := engineRegs_eq hk
  obtain ⟨poll, rate, code, cfg, cs, i, word, speed, actual, status⟩ := w
  subst hi hc
  exact ⟨_, rfl, rfl⟩

theorem same_xferWrite (order : ByteOrder) (b : List Byte) :
    Same hidden hidden hidden (xferWrite order b) := by
  have h : Same hidden engineRegs hidden (xferWriteBody order b) :=
    (same_startTransfer .xferWrite).andThen <|
    (same_loop (carries_putWord order b) (fun _ => rfl) (writeWords_succ order b) _).andThen <|
    (same_startPhaseB .xferWrite).andThen <|
    (same_loop (carries_putByte b) (fun _ => rfl) (writeBytes_succ b) _).return _ _
  exact h.within.forget

theorem same_xferRead (order : ByteOrder) (n : Nat) (out : List Byte) :
    Same hidden hidden hidden (xferRead order n out) := by
  have h0 : Carries hidden hidden (handBuffer out) := .of_blind (fun _ _ => rfl) fun _ => rfl
  have h : Same hidden engineRegs hidden (xferReadBody order n out) :=
    ((same_startTransfer .xferRead).after h0).andThen <|
    (same_loop (carries_getData 7 5 _) (fun _ => rfl) (readWords_succ order) _).andThen <|
    (same_startPhaseB .xferRead).andThen <|
    (same_loop (carries_getData 14 12 _) (fun _ => rfl) readBytes_succ _).return _ _
  exact h.within.forget

/-! #### The message -/

/-- What TRANSFER reports of the working registers. -/
abbrev messageRegs (w : Work) : Status × Nat := (w.status, w.actual)

theorem messageRegs_eq {w w' : Work} (h : messageRegs w = messageRegs w') :
    w.status = w'.status ∧ w.actual = w'.actual := Prod.mk.injEq .. ▸ h

/-- An operation that TRANSFER calls leaves W.status and W.actual as they were. -/
theorem Same.inMessage {f : State → Res} (h : Same hidden hidden hidden f)
    (hm : ∀ s, messageRegs (f s).state.w = messageRegs s.w) :
    Same messageRegs messageRegs messageRegs f := by
  rintro s _ ⟨w, rfl, hk⟩
  exact (h s { s with w := w } ⟨w, rfl, rfl⟩).shows ((hm { s with w := w }).trans (hk.trans (hm s).symm))

theorem OpRan.messageRegs {R : List Reg} {E : List Status} {s : State} {r : Res} {es : List Event}
    (h : OpRan R E s r es) : Machine.messageRegs r.state.w = Machine.messageRegs s.w := by
  rw [Machine.messageRegs, h.message.2.1, h.message.2.2]

theorem carries_startMessage (m : Message) : Carries hidden messageRegs (startMessage m) :=
  .intro fun _ _ _ => ⟨_, rfl, rfl⟩

theorem same_awaitStage (m : Message) : Same hidden messageRegs messageRegs (awaitStage m) :=
  (same_waitAt (K := messageRegs) (fun _ _ _ h => h) .transfer 3).after (carries_startMessage m)

theorem same_prepareStage (m : Message) :
    Same messageRegs messageRegs messageRegs (prepareStage m) := by
  have h0 : Carries messageRegs messageRegs (enterPrepared m) := .intro fun s w hk => ⟨_, rfl, hk⟩
  refine ((same_negotiate (messageSpeed m)).inMessage fun s => ?_).after h0
  obtain ⟨_, h, -⟩ := negotiate_opRan (messageSpeed m) s
  exact h.messageRegs

theorem same_selectStage (m : Message) :
    Same messageRegs messageRegs messageRegs (selectStage m) := by
  have h0 : Carries messageRegs messageRegs enterSelected :=
    ((carries_atLine .transfer 8).then (carries_enterPhase .selected)).then (carries_atLine .transfer 9)
  refine ((same_select m.slot).inMessage fun s => ?_).after h0
  obtain ⟨_, h, -⟩ := select_opRan m.slot s
  exact h.messageRegs

theorem same_deselectStage : Same messageRegs messageRegs messageRegs deselectStage := by
  have h0 : Carries messageRegs messageRegs enterDeselected :=
    ((carries_atLine .transfer 20).then (carries_enterPhase .deselected)).then
      (carries_atLine .transfer 21)
  refine (same_deselect.inMessage fun s => ?_).after h0
  obtain ⟨_, h, -⟩ := deselect_opRan s
  exact h.messageRegs

theorem same_runEngine (order : ByteOrder) (k : Nat) (d : Descriptor) :
    Same messageRegs messageRegs messageRegs (runEngine order k d) := by
  refine Same.inMessage ?_ fun s => ?_
  · have hb : Carries hidden hidden (returnBuffer k) := .of_blind (fun _ _ => rfl) fun _ => rfl
    unfold runEngine
    cases d.tx with
    | some b => exact (same_xferWrite order b).after (carries_atLine .transfer 16)
    | none =>
      exact ((same_xferRead order d.len _).after (carries_atLine .transfer 18)).mapState hb hb
  · obtain ⟨_, h⟩ := runEngine_ran order k d s
    rw [messageRegs, h.message.2.1, h.message.2.2]

theorem same_xferStage (order : ByteOrder) (k : Nat) (d : Descriptor) :
    Same messageRegs messageRegs messageRegs (xferStage order k d) := by
  have h0 : Carries messageRegs messageRegs (enterXfer k) :=
    (((carries_atLine .transfer 11).then (carries_enterPhase (.transferring k))).then
      (carries_atLine .transfer 12)).then (carries_atLine .transfer 13)
  unfold xferStage
  split
  · exact (h0.then (carries_atLine .transfer 14)).raise .conflictingTransfer
  · exact (same_runEngine order k d).after (h0.then (carries_atLine .transfer 15))

theorem carries_countXfer (d : Descriptor) : Carries messageRegs messageRegs (countXfer d) :=
  .intro fun s w hk => by
    obtain ⟨hs, ha⟩ := messageRegs_eq hk
    exact ⟨_, rfl, by simp [countXfer, countBytes, messageRegs, hs, ha]⟩

theorem same_runXfers (order : ByteOrder) (ds : List Descriptor) :
    ∀ k, Same messageRegs messageRegs messageRegs (runXfers order k ds) := by
  induction ds with
  | nil => exact fun _ _ _ h => .ok h
  | cons d ds ih =>
    intro k s t h
    rw [runXfers_cons, runXfers_cons]
    exact ((same_xferStage order k d).andThen ((ih (k + 1)).after (carries_countXfer d))) s t h

theorem runMessage_alike (order : ByteOrder) (m : Message) {s t : State} (h : Alike hidden s t) :
    (runMessage order m (startMessage m s)).Alike messageRegs messageRegs
      (runMessage order m (startMessage m t)) := by
  rw [runMessage_eq, runMessage_eq]
  exact ((same_awaitStage m).andThen <| (same_prepareStage m).andThen <|
    (same_selectStage m).andThen <|
    ((same_runXfers order m.xfers 0).after (carries_atLine .transfer 10)).andThen
      same_deselectStage) s t h

theorem Res.Alike.catchError {r r' : Res} (h : r.Alike messageRegs messageRegs r') :
    Machine.Alike messageRegs (catchError r) (Machine.catchError r') := by
  cases h with
  | ok h => exact h
  | raise e h =>
    obtain ⟨w, rfl, hk⟩ := h
    exact ⟨_, rfl, congrArg (e, ·) (messageRegs_eq hk).2⟩

/-- Done reports what `messageRegs` shows (R127). -/
theorem carries_finishMessage : Carries messageRegs messageRegs finishMessage := .intro fun s w hk => by
  obtain ⟨hs, ha⟩ := messageRegs_eq hk
  obtain ⟨poll, rate, code, cfg, cs, i, word, speed, actual, status⟩ := w
  subst hs ha
  exact ⟨_, rfl, rfl⟩

theorem carries_transferCall (order : ByteOrder) (m : Message) :
    Carries hidden hidden (transferCall order m) := by
  intro s t h
  have hf := carries_finishMessage _ _ (runMessage_alike order m h).catchError
  have ⟨w, hw, hk⟩ := hf
  have hstat : (finishMessage (catchError (runMessage order m (startMessage m t)))).w.status =
      (finishMessage (catchError (runMessage order m (startMessage m s)))).w.status := by
    rw [hw]; exact (messageRegs_eq hk).1
  unfold transferCall
  dsimp only
  rw [hstat]
  exact (carries_leaveOp .transfer _ _ _ hf).hide

/-! #### Every call -/

theorem Res.Alike.report {r r' : Res} (h : r.Alike hidden hidden r') {answer : State → Answer}
    (ha : ∀ s w, answer { s with w := w } = answer s) :
    Machine.Alike hidden (reportRes r answer) (reportRes r' answer) := by
  cases h with
  | ok h | raise e h =>
    obtain ⟨w, rfl, -⟩ := h
    refine ⟨w, ?_, rfl⟩
    rw [reportRes, reportRes]
    simp only [Res.state_ok, Res.state_raise, ha]
    rfl

theorem carries_reportRes {f : State → Res} (h : Same hidden hidden hidden f)
    (answer : State → Answer) (ha : ∀ s w, answer { s with w := w } = answer s) :
    Carries hidden hidden (fun s => reportRes (f s) answer) := fun s t hst => (h s t hst).report ha

theorem carries_readCall (r : Reg) : Carries hidden hidden (readCall r) :=
  .intro fun s w _ => ⟨w, by rw [readCall, regRead_withW]; rfl, rfl⟩

theorem carries_writeCall (r : Reg) (v : Word) : Carries hidden hidden (writeCall r v) :=
  .intro fun s w _ => ⟨w, by rw [writeCall, regWrite_withW]; rfl, rfl⟩

theorem same_setup (hz : Nat) : Same hidden hidden hidden (setup hz) := by
  have h : Carries hidden hidden (setupLines hz) := .of_blind
    (fun s w => by unfold setupLines; dsimp only; split <;> rfl)
    (fun s => by unfold setupLines; dsimp only; split <;> rfl)
  refine Same.within (body := setupBody hz) ?_
  unfold setupBody
  split
  · exact (h.then (carries_atLine .setup 7)).raise .invalidSpeed
  · exact (h.then (carries_atLine .setup 8)).ok

theorem same_maxXferSize : Same hidden hidden hidden maxXferSize :=
  Same.within (body := fun s => returnAt .maxXferSize 1 s) (carries_atLine .maxXferSize 1).ok

/-- Every call leaves what it would leave with other contents of the working registers, but for the
working registers. -/
theorem carries_effect (i : Instr) : Carries hidden hidden (effect i) := by
  cases i with
  | rdCfg | rdCfg2 | rdCs | rdData | rdData2 => exact carries_readCall _
  | wrCfg v | wrCfg2 v | wrCs v | wrData v | wrData2 v => exact carries_writeCall _ v
  | csDeselBoth | csAssertBoth | csSel0 | csSel1 | csLen4 | csLen1 | cfgDiv | dataByte | dataWord =>
    exact carries_writeCall _ _
  | waitReady =>
    exact carries_reportRes (same_waitReady fun _ _ _ _ => rfl) (fun _ => .none) fun _ _ => rfl
  | negotiate hz => exact carries_reportRes (same_negotiate hz) (fun _ => .none) fun _ _ => rfl
  | setup hz => exact carries_reportRes (same_setup hz) (fun _ => setupAnswer hz) fun _ _ => rfl
  | deselect => exact carries_reportRes same_deselect (fun _ => .none) fun _ _ => rfl
  | select slot => exact carries_reportRes (same_select slot) (fun _ => .none) fun _ _ => rfl
  | xferWrite b => exact carries_reportRes (same_xferWrite _ b) (fun _ => .none) fun _ _ => rfl
  | xferRead n out =>
    exact carries_reportRes (same_xferRead _ n out) (fun t => .bytes t.filled t.out) fun _ _ => rfl
  | transfer m => exact carries_transferCall _ m
  | maxXferSize =>
    exact carries_reportRes same_maxXferSize (fun _ => .size Config.maxXfer) fun _ _ => rfl

/-- Settles O55: no call reads a working register that it has not written (`carries_effect`). -/
theorem workingRegistersCarryNothingIn : Obligations.WorkingRegistersCarryNothingIn := by
  unfold Obligations.WorkingRegistersCarryNothingIn
  intro i s t w h
  obtain ⟨hs, hi, rfl⟩ := exec_next_iff.mp h
  refine ⟨_, exec_next_iff.mpr ⟨hs, hi, rfl⟩, ?_⟩
  obtain ⟨w', hw, -⟩ := carries_effect i s { s with w := w } ⟨w, rfl, rfl⟩
  rw [hw]

end

end Sys2Proof.Machine
end

section
namespace Sys2Proof.Machine

/-! ### The readiness wait of a message (O46) -/

/-- The state in which a message waits. -/
def awaiting (m : Message) (s : State) : State := atLine .transfer 3 (startMessage m s)

/-- A message on a device that stays busy ends with its wait (R122). -/
theorem message_busy (order : ByteOrder) (m : Message) {s : State}
    (h : BusyFor s Config.pollLimit) : catchError (runMessage order m (startMessage m s)) =
      takeError .timedOut ((awaiting m s).polled Config.pollLimit) := by
  have hw : awaitStage m s = .raise .timedOut ((awaiting m s).polled Config.pollLimit) :=
    waitReady_busy (s := awaiting m s) h
  rw [runMessage_eq, hw]; rfl

theorem awaiting_staged (m : Message) (s : State) : Staged s (awaiting m s) [(.awaitReady, [])] :=
  (startMessage_head m s).staged.same (atLine_trace ..) (recorded_atLine _ 3 _)

/-- The stage of a failed wait of `k` polls. -/
theorem polled_staged (m : Message) (s : State) (k : Nat) :
    Staged s (takeError .timedOut ((awaiting m s).polled k)) [(.awaitReady, polls s k)] :=
  Staged.same ((awaiting_staged m s).goOn (st := []) (a := []) (ran_polled (awaiting m s) k).trace
    (recorded_polled (awaiting m s) k)) rfl (recorded_same rfl)

/-- What a message leaves that ended in AwaitReady, in `u` before Done. -/
theorem finish_awaiting {m : Message} {s u : State} {es : List Event}
    (hu : Staged s u [(.awaitReady, es)]) (hw : u.w.status = .timedOut ∧ u.w.actual = 0)
    (hb : u.buffers = m.xfers.map Descriptor.rx) (hr : u.reports = s.reports)
    (hk : u.window = s.window ∧ u.handle = s.handle) :
    newEvents s (leaveOp .transfer .timedOut (finishMessage u)) = es ∧
      (leaveOp .transfer .timedOut (finishMessage u)).reports =
        s.reports ++ [⟨.timedOut, .message 0 (m.xfers.map Descriptor.rx)⟩] ∧
      (leaveOp .transfer .timedOut (finishMessage u)).window = s.window ∧
      (leaveOp .transfer .timedOut (finishMessage u)).handle = s.handle ∧
      phasesOf (newMarks s (leaveOp .transfer .timedOut (finishMessage u))) =
        [.awaitReady, .done, .idle] := by
  have ht := hu.trans (staged_finish .timedOut _)
  refine ⟨by rw [ht.newEvents]; simp, ?_, hk.1, hk.2, by rw [ht.phases]; rfl⟩
  rw [← hr, ← hw.1, ← hw.2, ← hb]
  rfl

/-- A stage only adds to the trace. -/
theorem StageRan.trace_prefix {order : ByteOrder} {m : Message} {t : State} {r : Res}
    {tr : List Event} (h : ∃ x, StageRan order m t r x) (ht : tr <+: t.trace) :
    r.Ends (fun u => tr <+: u.trace) (fun u => tr <+: u.trace) := by
  obtain ⟨x, hx⟩ := h
  refine .of_state (P := fun u => tr <+: u.trace) ?_
  rw [hx.staged.trace]
  exact ht.trans (List.prefix_append _ _)

/-- A message whose wait succeeded at poll `k + 1` began with those reads (R122). -/
theorem message_ready (order : ByteOrder) (m : Message) {s : State} {k : Nat}
    (hk : k < Config.pollLimit) (hb : BusyFor s k) (hr : rdy (s.answerAt k) = true) :
    s.trace ++ polls s (k + 1) <+:
      (catchError (runMessage order m (startMessage m s))).trace := by
  have hw : awaitStage m s = .ok ((awaiting m s).polled (k + 1)) :=
    waitReady_first (s := awaiting m s) hk hb hr
  refine message_rule (P := fun u => _ <+: u.trace) (E := fun u => _ <+: u.trace)
    (Z := fun u => _ <+: u.trace) ?_ (fun t => StageRan.trace_prefix (prepareStage_ran order m t))
    (fun t => StageRan.trace_prefix (selectStage_ran order m t)) (fun t h => h)
    (fun k d t hd => StageRan.trace_prefix (xferStage_ran hd)) (fun d t h => h)
    (fun t => StageRan.trace_prefix (deselectStage_ran order m t)) (fun e t h => h)
  rw [hw]
  exact List.prefix_rfl

/-- Settles O46: by the two ends of the first wait, `message_busy` and `message_ready`. -/
theorem transferAwaitsReadyFirst : Obligations.TransferAwaitsReadyFirst := by
  unfold Obligations.TransferAwaitsReadyFirst
  intro m s hw hs
  have he := exec_next (wf_iff.mp hw) hs
  refine ⟨fun hb => ⟨_, he, ?_⟩, fun k hk hb hr => ?_⟩
  · have hu := message_busy Config.hostByteOrder m (s := s) hb
    have ht : effect (.transfer m) s = leaveOp .transfer .timedOut (finishMessage
        (takeError .timedOut ((awaiting m s).polled Config.pollLimit))) := by
      rw [effect, transferCall, hu]; rfl
    rw [ht]
    exact finish_awaiting (polled_staged m s Config.pollLimit) ⟨rfl, rfl⟩ rfl rfl ⟨rfl, rfl⟩
  · obtain ⟨rest, hrest⟩ := message_ready Config.hostByteOrder m hk hb hr
    refine ⟨_, rest, he, ?_⟩
    have ht : (effect (.transfer m) s).trace = s.trace ++ polls s (k + 1) ++ rest := hrest.symm
    rw [newEvents, ht, List.append_assoc, List.drop_left]
    rfl

end Sys2Proof.Machine
end

section
namespace Sys2Proof.Machine

/-! ### The frame of TRANSFER (O60) -/

/-- The handle is as it was, or has recorded the speed `hz` (R31, R100). -/
def HandleKept (hz : Nat) (s t : State) : Prop :=
  t.handle = s.handle ∨ t.handle = s.handle.map fun h => { h with lastSpeedHz := hz }

theorem HandleKept.trans {hz : Nat} {s t u : State} (h : HandleKept hz s t)
    (g : HandleKept hz t u) : HandleKept hz s u := by
  unfold HandleKept at *
  rcases g with g | g
  · rwa [g]
  · rw [g]
    refine .inr ?_
    rcases h with h | h <;> rw [h]
    rw [Option.map_map]; rfl

theorem HandleKept.of_eq {hz : Nat} {s t u : State} (h : HandleKept hz s t)
    (g : u.handle = t.handle) : HandleKept hz s u := h.trans (.inl g)

theorem runEngine_handle (order : ByteOrder) (k : Nat) (d : Descriptor) (s : State) :
    (runEngine order k d s).state.handle = s.handle := by
  unfold runEngine
  cases d.tx with
  | some b =>
    obtain ⟨_, h⟩ := xferWrite_sends order b (atLine .transfer 16 s)
    exact h.moved.handle
  | none =>
    obtain ⟨_, h⟩ := xferRead_fills order d.len (d.rx.getD []) (atLine .transfer 18 s)
    simpa using h.moved.handle

/-- A message changes the handle only by its speed. -/
theorem message_handle (order : ByteOrder) (m : Message) (s : State) :
    HandleKept (messageSpeed m) s (catchError (runMessage order m (startMessage m s))) := by
  refine message_rule (P := HandleKept (messageSpeed m) s) (E := HandleKept (messageSpeed m) s)
    (.of_state ?_) (fun t ht => .of_state ?_) (fun t ht => .of_state ?_) (fun t ht => ht.of_eq rfl)
    (fun k d t hd ht => ?_) (fun d t ht => ht.of_eq rfl) (fun t ht => .of_state ?_)
    (fun e t ht => ht.of_eq rfl)
  · exact .inl (waitAt_pollKept .transfer 3 (startMessage m s)).handle
  · obtain ⟨_, h⟩ := negotiate_does (messageSpeed m) (enterPrepared m t)
    exact ht.trans h.handle
  · exact ht.of_eq (select_pollKept m.slot (enterSelected t)).handle
  · unfold xferStage
    split
    · exact ht.of_eq rfl
    · exact .of_state (ht.of_eq (runEngine_handle order k d _))
  · exact ht.of_eq (deselect_pollKept (enterDeselected t)).handle

/-! #### The CS latch, by the stages -/

theorem writesTo_stageEvents {r : Reg} {st : List (Phase × List Event)}
    (h : ∀ x ∈ st, writesTo r x.2 = []) : writesTo r (stageEvents st) = [] := by
  induction st with
  | nil => rfl
  | cons x st ih =>
    obtain ⟨p, es⟩ := x
    rw [stageEvents_cons, writesTo_append, h _ (List.mem_cons_self ..),
      ih fun y hy => h y (List.mem_cons_of_mem _ hy)]
    rfl

theorem csAfter_of_no_write {cs : Word} {es : List Event} (h : writesTo .cs es = []) :
    csAfter cs es = cs := by simp [csAfter, h]

theorem csAfter_of_write {cs cs' : Word} {es : List Event} (h : writesTo .cs es ≠ []) :
    csAfter cs es = csAfter cs' es := by
  simp [csAfter, List.getLast?_eq_some_getLast h]

theorem csAfter_mem (cs : Word) (es : List Event) :
    csAfter cs es = cs ∨ csAfter cs es ∈ writesTo .cs es := by
  unfold csAfter
  cases h : (writesTo .cs es).getLast? with
  | none => exact .inl rfl
  | some v => exact .inr (List.mem_of_getLast? h)

theorem mem_writesTo_stageEvents {r : Reg} {v : Word} {st : List (Phase × List Event)}
    (h : v ∈ writesTo r (stageEvents st)) : ∃ x ∈ st, v ∈ writesTo r x.2 := by
  induction st with
  | nil => cases h
  | cons x st ih =>
    obtain ⟨p, es⟩ := x
    rw [stageEvents_cons, writesTo_append] at h
    rcases List.mem_append.mp h with h | h
    · exact ⟨_, List.mem_cons_self .., h⟩
    · obtain ⟨y, hy, hv⟩ := ih h
      exact ⟨y, List.mem_cons_of_mem _ hy, hv⟩

/-- The lines after the first `n` words of a selection (R107 to R109, R157). -/
theorem selectWords_lines {slot n : Nat} (hs : slot < 2) (h1 : 1 ≤ n) (h4 : n ≤ 4) {cs : Word}
    {es : List Event} (hw : writesTo .cs es = (selectWords slot).take n) :
    linesOf (csAfter cs es) = if n = 4 then slotLines slot else pulseLines n := by
  have hne : writesTo .cs es ≠ [] := by
    rw [hw]; simp; omega
  rw [csAfter_of_write (cs' := 0#32) hne, csAfter, hw]
  interval_cases n <;> interval_cases slot <;> decide

/-- The lines after the first `n` words of a pulse (R107, R157). -/
theorem deselectWords_lines {n : Nat} (h1 : 1 ≤ n) (h3 : n ≤ 3) {cs : Word} {es : List Event}
    (hw : writesTo .cs es = deselectWords.take n) : linesOf (csAfter cs es) = pulseLines n := by
  have hne : writesTo .cs es ≠ [] := by
    rw [hw]; simp; omega
  rw [csAfter_of_write (cs' := 0#32) hne, csAfter, hw]
  interval_cases n <;> decide

/-- The word of a slot leaves LEN at LEN1 (R72, R74). -/
theorem lenField_selectWord (slot : Nat) : lenField (selectWord slot) = 0#2 := by
  unfold selectWord
  split <;> decide

/-- A message that came to Selected: its stages from there on, and none before wrote CS. -/
theorem MessageRan.split_selected {order : ByteOrder} {m : Message} {s u : State}
    {st : List (Phase × List Event)} {e : MessageEnd} (hm : MessageRan order m s u st e)
    (hs : Phase.selected ∈ e.phases m.xfers.length) :
    ∃ es rest, (Phase.selected, es) ∈ st ∧
      e.phases m.xfers.length = [.awaitReady, .prepared, .selected] ++ rest.map Prod.fst ∧
      (∀ x ∈ rest, x ∈ st) ∧ u.window.cs = csAfter (csAfter s.window.cs es) (stageEvents rest) := by
  obtain ⟨ps, hps⟩ : ∃ ps, e.phases m.xfers.length = [.awaitReady, .prepared, .selected] ++ ps := by
    cases e with
    | awaitReady | speed => simp [MessageEnd.phases] at hs
    | select | xfers x => exact ⟨_, rfl⟩
    | deselect | success => exact ⟨_, List.append_assoc ..⟩
  have hn := hm.names.trans hps
  obtain ⟨hd, rest, rfl, hhd, hrest⟩ := List.map_eq_append_iff.mp hn
  obtain ⟨⟨p1, a1⟩, hd1, rfl, h1, hhd⟩ := List.map_eq_cons_iff.mp hhd
  obtain ⟨⟨p2, a2⟩, hd2, rfl, h2, hhd⟩ := List.map_eq_cons_iff.mp hhd
  obtain ⟨⟨p3, es⟩, hd3, rfl, h3, hhd⟩ := List.map_eq_cons_iff.mp hhd
  obtain rfl := List.map_eq_nil_iff.mp hhd
  have h1 : p1 = .awaitReady := h1
  have h2 : p2 = .prepared := h2
  have h3 : p3 = .selected := h3
  subst h1 h2 h3
  have w1 : writesTo .cs a1 = [] := hm.facts (.awaitReady, a1) (by simp)
  have w2 : writesTo .cs a2 = [] := hm.facts (.prepared, a2) (by simp)
  refine ⟨es, rest, by simp, hps.trans (by rw [hrest]), fun x hx => by simp [hx], ?_⟩
  rw [hm.ran.cs, stageEvents_append, csAfter_append]
  congr 1
  simp only [stageEvents_cons, stageEvents_nil, List.append_nil, csAfter_append]
  rw [csAfter_of_no_write w1, csAfter_of_no_write w2]

/-- Before Selected a message leaves CS alone (R126). -/
theorem MessageRan.cs_before_selected {order : ByteOrder} {m : Message} {s u : State}
    {st : List (Phase × List Event)} {e : MessageEnd} (hm : MessageRan order m s u st e)
    (hs : Phase.selected ∉ e.phases m.xfers.length) : u.window.cs = s.window.cs := by
  have he : ∀ x ∈ st, writesTo .cs x.2 = [] := by
    rintro ⟨p, es⟩ hx
    have hp : p ∈ e.phases m.xfers.length := hm.names ▸ List.mem_map_of_mem (f := Prod.fst) hx
    have hf := hm.facts _ hx
    cases e with
    | awaitReady =>
      obtain rfl : p = .awaitReady := by simpa [MessageEnd.phases] using hp
      exact hf
    | speed =>
      rcases (by simpa [MessageEnd.phases] using hp : p = .awaitReady ∨ p = .prepared) with rfl | rfl
      · exact hf
      · exact hf
    | select | xfers | deselect | success => simp [MessageEnd.phases, phaseOrder] at hs
  rw [hm.ran.cs, csAfter_of_no_write (writesTo_stageEvents he)]

/-- In Selected the lines are those of the last word written there (R107, R108, R157). -/
theorem MessageRan.lines_selected {order : ByteOrder} {m : Message} {s u : State}
    {st : List (Phase × List Event)} (hm : MessageRan order m s u st .select) (hslot : m.slot < 2) :
    ∃ es n, (Phase.selected, es) ∈ st ∧ n = (writesTo .cs es).length ∧ 1 ≤ n ∧ n ≤ 4 ∧
      u.lines = if n = 4 then slotLines m.slot else pulseLines n := by
  obtain ⟨es, rest, hes, hp, -, hcs⟩ := hm.split_selected (by simp [MessageEnd.phases])
  obtain ⟨n, h1, h4, hw, -⟩ := hm.facts _ hes
  have hrest : rest = [] := by
    have : rest.map Prod.fst = [] := List.append_cancel_left (as := [.awaitReady, .prepared, .selected])
      hp.symm
    simpa using this
  have hw : writesTo .cs es = (selectWords m.slot).take n := hw
  refine ⟨es, n, hes, ?_, h1, h4, ?_⟩
  · rw [hw, List.length_take]
    exact (Nat.min_eq_left h4).symm
  · rw [State.lines, hcs, hrest, stageEvents_nil, csAfter_of_no_write rfl]
    exact selectWords_lines hslot h1 h4 hw

/-- In a Transferring state CS holds the slot's word, or a word that an engine run wrote back (R75,
R157). -/
theorem MessageRan.cs_transferring {order : ByteOrder} {m : Message} {s u : State}
    {st : List (Phase × List Event)} {x : XfersEnd} (hm : MessageRan order m s u st (.xfers x)) :
    u.window.cs = selectWord m.slot ∨ ∃ k es d, (Phase.transferring k, es) ∈ st ∧
      Engaged order d es ∧ u.window.cs ∈ writesTo .cs es := by
  obtain ⟨es, rest, hes, hp, hrest, hcs⟩ := hm.split_selected (by simp [MessageEnd.phases])
  obtain ⟨n, -, -, hw, h4⟩ := hm.facts _ hes
  have hw : writesTo .cs es = (selectWords m.slot).take n := hw
  have hsel : csAfter s.window.cs es = selectWord m.slot := by
    rw [csAfter, hw, h4 nofun]; rfl
  rw [hsel] at hcs
  rcases csAfter_mem (selectWord m.slot) (stageEvents rest) with h | h
  · exact .inl (hcs.trans h)
  · rw [← hcs] at h
    obtain ⟨⟨p, es'⟩, hx, hv⟩ := mem_writesTo_stageEvents h
    have hnames : rest.map Prod.fst = (List.range (x.entered m.xfers.length)).map Phase.transferring :=
      (List.append_cancel_left (as := [.awaitReady, .prepared, .selected]) hp).symm
    have hpm := List.mem_map_of_mem (f := Prod.fst) hx
    rw [hnames] at hpm
    obtain ⟨k, hk, rfl⟩ := List.mem_map.mp hpm
    have hkn : k < m.xfers.length := by
      have hk := List.mem_range.mp hk
      have hb := hm.before x rfl
      cases x with
      | all => exact hk
      | timedOut j | conflict j => exact Nat.lt_of_lt_of_le hk hb
    have hf := hm.facts _ (hrest _ hx) _ (List.getElem?_eq_getElem hkn)
    exact .inr ⟨k, es', _, hrest _ hx, hf.1, hv⟩

/-- In Deselected the lines are those of the last word written there (R107, R157). -/
theorem MessageRan.lines_deselected {order : ByteOrder} {m : Message} {s u : State}
    {st : List (Phase × List Event)} {e : MessageEnd} (hm : MessageRan order m s u st e)
    (hd : Phase.deselected ∈ e.phases m.xfers.length) :
    ∃ es n, (Phase.deselected, es) ∈ st ∧ n = (writesTo .cs es).length ∧ 1 ≤ n ∧ n ≤ 3 ∧
      u.lines = pulseLines n := by
  have hp : e.phases m.xfers.length = phaseOrder m.xfers.length := by
    rcases deselected_mem_phases.mp hd with rfl | rfl <;> rfl
  have hn := hm.names.trans hp
  obtain ⟨st', last, rfl, -, hl⟩ := List.map_eq_append_iff.mp hn
  obtain ⟨⟨p, es⟩, tl, rfl, h1, htl⟩ := List.map_eq_cons_iff.mp hl
  obtain rfl := List.map_eq_nil_iff.mp htl
  have h1 : p = .deselected := h1
  subst h1
  obtain ⟨n, h1, h3, hw, -⟩ := hm.facts (.deselected, es) (by simp)
  have hw : writesTo .cs es = deselectWords.take n := hw
  refine ⟨es, n, by simp, ?_, h1, h3, ?_⟩
  · rw [hw, List.length_take]
    exact (Nat.min_eq_left h3).symm
  · rw [State.lines, hm.ran.cs, stageEvents_append, csAfter_append]
    simpa using deselectWords_lines h1 h3 hw

/-- A message's accesses do not reach CFG2 and DATA2 (R17). -/
theorem MessageRan.window_kept {order : ByteOrder} {m : Message} {s u : State}
    {st : List (Phase × List Event)} {e : MessageEnd} (hm : MessageRan order m s u st e) {r : Reg}
    (hr : r ∉ [Reg.cfg, .cs, .data]) : u.window.get r = s.window.get r := by
  have hl : ∀ es : List Event, (∀ x ∈ es, x.reg ≠ r) → lastWrite r es = none := by
    intro es
    induction es with
    | nil => exact fun _ => rfl
    | cons e es ih =>
      intro h
      have h2 := ih fun x hx => h x (List.mem_cons_of_mem _ hx)
      have h1 := h e (List.mem_cons_self ..)
      cases e with
      | rd r' v => exact h2
      | wr r' v => simp only [lastWrite, h2]; exact if_neg h1
  rw [hm.ran.latch, hl _ fun x hx hxr => hr (hxr ▸ hm.regs x hx)]
  rfl

/-- The accesses of a stage, by the record. -/
theorem MessageRan.accessesIn_eq {order : ByteOrder} {m : Message} {s t u : State}
    {st : List (Phase × List Event)} {e : MessageEnd} (hm : MessageRan order m s u st e)
    (hst : Staged s t (st ++ [(.done, []), (.idle, [])])) {p : Phase} {es : List Event}
    (h : (p, es) ∈ st) (h1 : p ≠ .done) (h2 : p ≠ .idle) : accessesIn p s t = es := by
  rw [accessesIn_message p hst h1 h2, lookup_of_mem (hm.names ▸ e.phases_nodup _) h]; rfl

/-- A message that came to its descriptors, and not to Deselected, ended in one of their states. -/
theorem MessageEnd.ended_in_xfers {e : MessageEnd} {n : Nat}
    (h0 : Phase.transferring 0 ∈ e.phases n) (hd : Phase.deselected ∉ e.phases n) :
    ∃ x, e = .xfers x := by
  cases e with
  | xfers x => exact ⟨x, rfl⟩
  | deselect | success => exact absurd (deselected_mem_phases.mpr (by simp)) hd
  | _ => simp [mem_phases_transferring] at h0

/-- A message that came to Selected and no further ended there. -/
theorem MessageEnd.ended_in_selected {e : MessageEnd} {n : Nat} (ha : e ≠ .xfers .all)
    (hs : Phase.selected ∈ e.phases n) (h0 : Phase.transferring 0 ∉ e.phases n)
    (hd : Phase.deselected ∉ e.phases n) : e = .select := by
  cases e with
  | select => rfl
  | awaitReady | speed => simp [MessageEnd.phases] at hs
  | deselect | success => exact absurd (deselected_mem_phases.mpr (by simp)) hd
  | xfers x =>
    cases x with
    | all => exact absurd rfl ha
    | timedOut j | conflict j => exact absurd (mem_phases_transferring.mpr (Nat.succ_pos j)) h0

theorem transfer_slot {m : Message} (h : m.illegal = none) : m.slot < 2 := by
  by_contra hs
  simp [Message.illegal, illegalSlot_of_le (Nat.not_lt.mp hs)] at h

theorem linesOf_selectWord {slot : Nat} (h : slot < 2) :
    linesOf (selectWord slot) = slotLines slot := by
  interval_cases slot <;> decide

/-- In a Transferring state LEN is LEN4 or LEN1, and the slot's line is asserted where each engine run
read back the slot's bits (R75, R157). -/
theorem MessageRan.lines_transferring {order : ByteOrder} {m : Message} {s t u : State}
    {st : List (Phase × List Event)} {x : XfersEnd} (hm : MessageRan order m s u st (.xfers x))
    (hst : Staged s t (st ++ [(.done, []), (.idle, [])])) (hslot : m.slot < 2) :
    (lenField u.window.cs = 3#2 ∨ lenField u.window.cs = 0#2) ∧
      ((∀ k v, (accessesIn (.transferring k) s t).head? = some (.rd .cs v) →
        linesOf v = slotLines m.slot) → u.lines = slotLines m.slot) := by
  unfold State.lines
  rcases hm.cs_transferring with h | ⟨k, es, d, hk, he, hw⟩
  · rw [h]
    exact ⟨.inr (lenField_selectWord _), fun _ => linesOf_selectWord hslot⟩
  · obtain ⟨hlen, a, hhead, hlines⟩ := he.wrote hw
    refine ⟨hlen, fun hr => ?_⟩
    have ha : accessesIn (.transferring k) s t = es :=
      hm.accessesIn_eq hst hk Phase.noConfusion Phase.noConfusion
    rw [hlines]
    exact hr k a (ha ▸ hhead)

/-- Settles O60: the handle by `message_handle`, the lines by the stage the message ended in. -/
theorem frameOfTransfer : Obligations.FrameOfTransfer := by
  unfold Obligations.FrameOfTransfer
  intro m s t h
  obtain ⟨hacc, hleg, ht⟩ := exec_next_iff.mp h
  have hslot := transfer_slot hleg
  obtain ⟨st, e, u, hm, hu, hst, hbuf, -⟩ := transfer_cases h
  have hwin : t.window = u.window := by rw [hu]; rfl
  have hlines : t.lines = u.lines := by rw [State.lines, hwin]; rfl
  have hsel : Phase.selected ∈ phasesOf (newMarks s t) ↔
    Phase.selected ∈ e.phases m.xfers.length := hm.mem_phases hst nofun nofun
  have hx0 : Phase.transferring 0 ∈ phasesOf (newMarks s t) ↔
    Phase.transferring 0 ∈ e.phases m.xfers.length := hm.mem_phases hst nofun nofun
  have hdes : Phase.deselected ∈ phasesOf (newMarks s t) ↔
    Phase.deselected ∈ e.phases m.xfers.length := hm.mem_phases hst nofun nofun
  rw [hsel, hx0, hdes, hwin, hlines]
  obtain ⟨hseq, hops⟩ := effect_idle (.transfer m) hacc.2
  obtain ⟨_, hcalled⟩ := effect_called (.transfer m) s
  rw [← ht] at hseq hops hcalled
  refine ⟨?_, hseq.trans hacc.2.1.symm, hops.trans hacc.2.2.symm, hcalled.calls,
    hm.window_kept (r := .cfg2) (by simp), hm.window_kept (r := .data2) (by simp), ?_, ?_, ?_, ?_, ?_⟩
  · have hh := message_handle Config.hostByteOrder m s
    rw [ht, effect, transferCall]
    exact hh
  · rw [hbuf, messageBuffers, List.length_mapIdx]
  · intro hs
    have hcs := hm.cs_before_selected hs
    exact ⟨hcs, by rw [State.lines, hcs]; rfl⟩
  · intro hs h0 hd
    obtain rfl := MessageEnd.ended_in_selected hm.notAll hs h0 hd
    obtain ⟨es, n, hes, hn, h1, h4, hl⟩ := hm.lines_selected hslot
    exact ⟨n, by rw [hm.accessesIn_eq hst hes nofun nofun, hn], h1, h4, hl⟩
  · intro h0 hd
    obtain ⟨x, rfl⟩ := MessageEnd.ended_in_xfers h0 hd
    exact hm.lines_transferring hst hslot
  · intro hd
    obtain ⟨es, n, hes, hn, h1, h3, hl⟩ := hm.lines_deselected hd
    exact ⟨n, by rw [hm.accessesIn_eq hst hes nofun nofun, hn], h1, h3, hl⟩

end Sys2Proof.Machine
end

section
namespace Sys2Proof.Machine

/-! ### What a read leaves in its destination (O39) -/

/-- A read call that keeps the host's duties on its length and destination is legal (R39, R113). -/
theorem xferRead_legal {n : Nat} {out : List Byte} (hn : n ≤ 256) (ho : out.length = n) :
    (Instr.xferRead n out).illegal = none := by
  have hmax : ¬ Config.maxXfer < n := Nat.not_lt.mpr hn
  simp [Instr.illegal, illegalLength, bufferFits, hmax, ho]

/-- A destination that what was received fits in: the bytes received, then what the host left (R118). -/
theorem ReadFilled.out_eq {order : ByteOrder} {n : Nat} {out : List Byte} {s : State} {r : Res}
    {es : List Event} (h : ReadFilled order n out s r es) (ho : out.length = n) :
    r.state.out = bytesOfWords order n (readsFrom .data es) ++ out.drop r.state.filled := by
  have hfits : (bytesOfWords order n (readsFrom .data es)).length ≤ out.length := by
    rw [h.length, ho]; exact h.le
  rw [h.out, putBytes_zero hfits, h.length]

/-- Settles O39: a legal read leaves what `xferRead_fills` says, and its report changes neither the
destination nor the trace. -/
theorem xferReadFillsAPrefix : Obligations.XferReadFillsAPrefix := by
  unfold Obligations.XferReadFillsAPrefix
  intro n out s hn ho hs
  obtain ⟨es, h⟩ := xferRead_fills Config.hostByteOrder n out s
  have hran : Ran s (xferRead Config.hostByteOrder n out s).state es := h.moved.op.ran
  refine ⟨_, (xferRead Config.hostByteOrder n out s).status,
    exec_next (xferRead_legal hn ho) hs, ?_⟩
  have hes : newEvents s (effect (.xferRead n out) s) = es := hran.newEvents
  rw [hes]
  refine ⟨?_, ?_, h.le, fun hok => (h.all hok).1, h.out_eq ho, h.length⟩
  · rw [← hran.reports]; rfl
  · simpa using h.moved.op.status

/-! ### The register reads and writes (O17, O18) -/

/-- A read access leaves `didRead` (R53, R87, R93). -/
theorem readCall_eq_didRead (r : Reg) (s : State) : readCall r s = s.didRead r := by
  have hspi := (ran_regRead r s).spi
  simp only [readCall, report, State.didRead, State.mk.injEq]
  simpa [List.drop_one] using hspi

/-- A write access leaves `wrote` (R54, R88, R94). -/
theorem writeCall_eq_wrote (r : Reg) (v : Word) (s : State) : writeCall r v s = s.wrote r v := by
  have hspi := (ran_regWrite r v s).spi
  simp only [writeCall, report, State.wrote, State.mk.injEq]
  simpa using hspi

/-- Settles O17: the call is one read access (`exec_readOf`), and a pending answer is the value. -/
theorem registerReadsReturnTheAnswer : Obligations.RegisterReadsReturnTheAnswer := by
  unfold Obligations.RegisterReadsReturnTheAnswer
  refine ⟨fun r s hs => ?_, fun v s => rfl⟩
  rw [exec_readOf hs, readCall_eq_didRead]

/-- Settles O18: the call is one write access (`exec_writeOf`), which sets its register's latch alone. -/
theorem registerWritesReachTheDevice : Obligations.RegisterWritesReachTheDevice := by
  unfold Obligations.RegisterWritesReachTheDevice
  refine ⟨fun r v s hs => ?_, fun r r' v s => ⟨?_, fun hne => ?_⟩⟩
  · rw [exec_writeOf hs, writeCall_eq_wrote]
  · exact Window.get_set_same s.window r v
  · exact Window.get_set_other s.window r r' v hne

end Sys2Proof.Machine
end

section
namespace Sys2Proof.Machine

/-! ### The words, field by field (O22, O42) -/

/-- The fields of a CS word built from them (R71). -/
theorem csWord_fields (hi len : BitVec 2) (lo : BitVec 28) :
    (csWord hi len lo).extractLsb' 30 2 = hi ∧ (csWord hi len lo).extractLsb' 28 2 = len ∧
      (csWord hi len lo).extractLsb' 0 28 = lo := by
  unfold csWord
  refine ⟨?_, ?_, BitVec.extractLsb'_append_eq_right⟩
  · rw [BitVec.extractLsb'_append_eq_of_le (by omega)]
    exact BitVec.extractLsb'_append_eq_left
  · rw [BitVec.extractLsb'_append_eq_of_le (by omega)]
    exact BitVec.extractLsb'_append_eq_right

/-- A CS word is built from its fields (R71). -/
theorem csWord_of_fields (w : Word) :
    csWord (w.extractLsb' 30 2) (lenField w) (w.extractLsb' 0 28) = w := by
  unfold csWord lenField
  rw [BitVec.extractLsb'_append_extractLsb'_eq_extractLsb' (by omega),
    BitVec.extractLsb'_append_extractLsb'_eq_extractLsb' (by omega)]
  exact BitVec.extractLsb'_eq_self

/-- The fields of a CFG word built from them (R68). -/
theorem cfgFieldsWord_fields (code : BitVec 3) (rest : BitVec 29) :
    divField (cfgFieldsWord code rest) = code ∧ cfgLow (cfgFieldsWord code rest) = rest :=
  ⟨BitVec.extractLsb'_append_eq_left, BitVec.extractLsb'_append_eq_right⟩

/-- A CFG word is built from its fields (R68). -/
theorem cfgFieldsWord_of_fields (w : Word) : cfgFieldsWord (divField w) (cfgLow w) = w := by
  unfold cfgFieldsWord divField cfgLow
  rw [BitVec.extractLsb'_append_extractLsb'_eq_extractLsb' (by omega)]
  exact BitVec.extractLsb'_eq_self

/-- The big order puts the first byte into the highest lane (R77, R115). -/
theorem pack32_big_eq_append (b0 b1 b2 b3 : Byte) :
    pack32 .big b0 b1 b2 b3 = b0 ++ b1 ++ b2 ++ b3 := by
  refine BitVec.eq_of_getLsbD_eq fun i hi => ?_
  rw [BitVec.getLsbD_append, BitVec.getLsbD_append, BitVec.getLsbD_append]
  simp only [pack32, zext32, BitVec.getLsbD_or, BitVec.getLsbD_shiftLeft, BitVec.getLsbD_setWidth]
  grind

/-- The little order is the big one of the bytes in reverse (R77, R115). -/
theorem pack32_little (b0 b1 b2 b3 : Byte) :
    pack32 .little b0 b1 b2 b3 = pack32 .big b3 b2 b1 b0 := rfl

/-- The lanes of a word packed in the big order (R77). -/
theorem pack32_big_lanes (b0 b1 b2 b3 : Byte) :
    lane (pack32 .big b0 b1 b2 b3) 3 = b0 ∧ lane (pack32 .big b0 b1 b2 b3) 2 = b1 ∧
      lane (pack32 .big b0 b1 b2 b3) 1 = b2 ∧ lane (pack32 .big b0 b1 b2 b3) 0 = b3 := by
  rw [pack32_big_eq_append]
  unfold lane
  refine ⟨?_, ?_, ?_, BitVec.extractLsb'_append_eq_right⟩
  · rw [BitVec.extractLsb'_append_eq_of_le (by omega), BitVec.extractLsb'_append_eq_of_le (by omega)]
    exact BitVec.extractLsb'_append_eq_left
  · rw [BitVec.extractLsb'_append_eq_of_le (by omega), BitVec.extractLsb'_append_eq_of_le (by omega)]
    exact BitVec.extractLsb'_append_eq_right
  · rw [BitVec.extractLsb'_append_eq_of_le (by omega)]
    exact BitVec.extractLsb'_append_eq_right

/-- A word is packed from its lanes (R77). -/
theorem pack32_big_of_lanes (w : Word) :
    pack32 .big (lane w 3) (lane w 2) (lane w 1) (lane w 0) = w := by
  rw [pack32_big_eq_append]
  unfold lane
  rw [BitVec.extractLsb'_append_extractLsb'_eq_extractLsb' (by omega),
    BitVec.extractLsb'_append_extractLsb'_eq_extractLsb' (by omega),
    BitVec.extractLsb'_append_extractLsb'_eq_extractLsb' (by omega)]
  exact BitVec.extractLsb'_eq_self

theorem byteWord_eq_append (b : Byte) : byteWord b = b ++ 0#24 := by
  refine BitVec.eq_of_getLsbD_eq fun i hi => ?_
  rw [BitVec.getLsbD_append]
  simp only [byteWord, zext32, BitVec.getLsbD_shiftLeft, BitVec.getLsbD_setWidth, BitVec.getLsbD_zero]
  grind

/-- The word of a 1-byte write: the byte in bits 31:24, 0 below (R78, R114). -/
theorem byteWord_fields (b : Byte) :
    lane (byteWord b) 3 = b ∧ (byteWord b).extractLsb' 0 24 = 0#24 := by
  rw [byteWord_eq_append]
  exact ⟨BitVec.extractLsb'_append_eq_left, BitVec.extractLsb'_append_eq_right⟩

/-- A word with bits 23:0 zero is the 1-byte write of its highest lane (R78). -/
theorem byteWord_of_low_zero {w : Word} (h : w.extractLsb' 0 24 = 0#24) :
    byteWord (lane w 3) = w := by
  rw [byteWord_eq_append, ← h]
  unfold lane
  rw [BitVec.extractLsb'_append_extractLsb'_eq_extractLsb' (by omega)]
  exact BitVec.extractLsb'_eq_self

/-- The mask test of bits 23:0 (R78). -/
theorem low_mask_eq_zero_iff (w : Word) :
    w &&& 0x00FFFFFF#32 = 0#32 ↔ w.extractLsb' 0 24 = 0#24 := by
  have hm : (w &&& 0x00FFFFFF#32).toNat = w.toNat % 2 ^ 24 :=
    (BitVec.toNat_and w _).trans (Nat.and_two_pow_sub_one_eq_mod w.toNat 24)
  rw [BitVec.toNat_eq, hm, BitVec.toNat_eq, BitVec.extractLsb'_toNat]
  rfl

/-- The 1-byte read takes bits 31:24 alone (R78, R114). -/
theorem wordByte_eq_lane (w : Word) : wordByte w = lane w 3 := by
  have hmask : wordByte w = (w >>> 24).setWidth 8 &&& BitVec.allOnes 8 := BitVec.setWidth_and
  rw [hmask, BitVec.and_allOnes]
  ext i hi
  simp [lane]

/-- Settles O42: each path reads the lanes its packing wrote (`pack32_big_lanes`, `byteWord_fields`). -/
theorem bytePackingIsExact : Obligations.BytePackingIsExact := by
  unfold Obligations.BytePackingIsExact
  refine ⟨fun order b0 b1 b2 b3 => ?_, fun b0 b1 b2 b3 => ⟨?_, ?_⟩, byteWord_fields, wordByte_eq_lane⟩
  · cases order with
    | big =>
      obtain ⟨h3, h2, h1, h0⟩ := pack32_big_lanes b0 b1 b2 b3
      rw [unpack32, h3, h2, h1, h0]
    | little =>
      obtain ⟨h3, h2, h1, h0⟩ := pack32_big_lanes b3 b2 b1 b0
      rw [unpack32, pack32_little, h3, h2, h1, h0]
  · exact (pack32_big_lanes b0 b1 b2 b3).1
  · exact (pack32_big_lanes b3 b2 b1 b0).1

/-- A call whose effect is one write access leaves `wrote` (R54, R88). -/
theorem exec_eq_wrote {i : Instr} {s : State} {r : Reg} {v : Word} (hs : Accepting s)
    (hi : i.illegal = none) (he : effect i s = writeCall r v s) : exec i s = .next (s.wrote r v) := by
  rw [exec_next hi hs, he, writeCall_eq_wrote]

/-- Settles O22: each row is one write (`exec_eq_wrote`) of a word built from the row's fields. -/
theorem wordRowsWriteTheirWords : Obligations.WordRowsWriteTheirWords := by
  unfold Obligations.WordRowsWriteTheirWords
  intro s hs
  exact ⟨exec_eq_wrote hs rfl rfl, exec_eq_wrote hs rfl rfl, exec_eq_wrote hs rfl rfl,
    exec_eq_wrote hs rfl rfl,
    fun hi lo => ⟨_, exec_eq_wrote hs rfl rfl, csWord_fields hi 3#2 lo⟩,
    fun hi lo => ⟨_, exec_eq_wrote hs rfl rfl, csWord_fields hi 0#2 lo⟩,
    fun code rest => ⟨_, exec_eq_wrote hs rfl rfl, cfgFieldsWord_fields code rest⟩,
    fun b => ⟨_, exec_eq_wrote hs rfl rfl, byteWord_fields b⟩,
    fun b0 b1 b2 b3 => ⟨_, exec_eq_wrote hs rfl rfl, pack32_big_lanes b0 b1 b2 b3⟩⟩

end Sys2Proof.Machine
end

section
namespace Sys2Proof.Machine

/-! ### Reading operands (O7, O8)

Each reader succeeds exactly on the operands its writer puts. -/

theorem takeBytes_eq_some_iff {k : Nat} {ns : List Nat} {bs : List Byte} {rest : List Nat} :
    takeBytes k ns = some (bs, rest) ↔ bs.length = k ∧ ns = bs.map BitVec.toNat ++ rest := by
  induction k generalizing ns bs with
  | zero => cases bs <;> simp [takeBytes]
  | succ k ih =>
    constructor
    · intro h
      cases ns with
      | nil => cases h
      | cons n ns =>
        simp only [takeBytes] at h
        split at h
        · next hn =>
          split at h
          · next cs rest' ht =>
            cases h
            obtain ⟨hl, rfl⟩ := ih.mp ht
            exact ⟨congrArg Nat.succ hl, by simp [Nat.mod_eq_of_lt hn]⟩
          · cases h
        · cases h
    · rintro ⟨hl, rfl⟩
      cases bs with
      | nil => cases hl
      | cons b bs =>
        have ht : takeBytes k (bs.map BitVec.toNat ++ rest) = some (bs, rest) :=
          ih.mpr ⟨Nat.succ.inj hl, rfl⟩
        simp [takeBytes, ht, b.isLt]

theorem takeSeq_eq_some_iff {ns : List Nat} {bs : List Byte} {rest : List Nat} :
    takeSeq ns = some (bs, rest) ↔ ns = putSeq bs ++ rest := by
  cases ns with
  | nil => simp [takeSeq, putSeq]
  | cons k ns =>
    rw [takeSeq, takeBytes_eq_some_iff, putSeq, List.cons_append, List.cons.injEq, eq_comm (a := k)]

theorem takeBuffer_eq_some_iff {ns : List Nat} {b : Option (List Byte)} {rest : List Nat} :
    takeBuffer ns = some (b, rest) ↔ ns = putBuffer b ++ rest := by
  constructor
  · intro h
    unfold takeBuffer at h
    split at h
    · cases h
    · cases h; rfl
    · split at h
      · next hs =>
        cases h
        rw [takeSeq_eq_some_iff.mp hs]; rfl
      · cases h
    · cases h
  · rintro rfl
    cases b with
    | none => rfl
    | some bs =>
      have hs : takeSeq (putSeq bs ++ rest) = some (bs, rest) := takeSeq_eq_some_iff.mpr rfl
      simp [putBuffer, takeBuffer, hs]

theorem takeDescriptor_eq_some_iff {ns : List Nat} {t : Descriptor} {rest : List Nat} :
    takeDescriptor ns = some (t, rest) ↔ ns = putDescriptor t ++ rest := by
  constructor
  · intro h
    unfold takeDescriptor at h
    split at h
    · split at h
      · next htx =>
        split at h
        · next hrx =>
          cases h
          rw [takeBuffer_eq_some_iff.mp htx, takeBuffer_eq_some_iff.mp hrx]
          simp [putDescriptor]
        · cases h
      · cases h
    · cases h
  · rintro rfl
    have htx : takeBuffer (putBuffer t.tx ++ (putBuffer t.rx ++ rest)) =
      some (t.tx, putBuffer t.rx ++ rest) := takeBuffer_eq_some_iff.mpr rfl
    have hrx : takeBuffer (putBuffer t.rx ++ rest) = some (t.rx, rest) :=
      takeBuffer_eq_some_iff.mpr rfl
    simp [putDescriptor, takeDescriptor, htx, hrx]

theorem takeDescriptors_eq_some_iff {k : Nat} {ns : List Nat} {ts : List Descriptor}
    {rest : List Nat} : takeDescriptors k ns = some (ts, rest) ↔
      ts.length = k ∧ ns = ts.flatMap putDescriptor ++ rest := by
  induction k generalizing ns ts with
  | zero => cases ts <;> simp [takeDescriptors]
  | succ k ih =>
    constructor
    · intro h
      simp only [takeDescriptors] at h
      split at h
      · next ht =>
        split at h
        · next hts =>
          cases h
          obtain ⟨hl, rfl⟩ := ih.mp hts
          rw [takeDescriptor_eq_some_iff.mp ht]
          exact ⟨congrArg Nat.succ hl, by simp⟩
        · cases h
      · cases h
    · rintro ⟨hl, rfl⟩
      cases ts with
      | nil => cases hl
      | cons t ts =>
        have ht : takeDescriptor (putDescriptor t ++ (ts.flatMap putDescriptor ++ rest)) =
          some (t, ts.flatMap putDescriptor ++ rest) := takeDescriptor_eq_some_iff.mpr rfl
        have hts : takeDescriptors k (ts.flatMap putDescriptor ++ rest) = some (ts, rest) :=
          ih.mpr ⟨Nat.succ.inj hl, rfl⟩
        simp [takeDescriptors, ht, hts]

theorem readNone_eq_some_iff {i j : Instr} {ns : List Nat} :
    readNone i ns = some j ↔ ns = [] ∧ j = i := by
  cases ns <;> simp [readNone, eq_comm]

theorem readWord_eq_some_iff {f : Word → Instr} {ns : List Nat} {j : Instr} :
    readWord f ns = some j ↔ ∃ w : Word, ns = [w.toNat] ∧ j = f w := by
  constructor
  · intro h
    unfold readWord at h
    split at h
    · split at h
      · next n hn =>
        cases h
        exact ⟨BitVec.ofNat 32 n, by rw [BitVec.toNat_ofNat, Nat.mod_eq_of_lt hn], rfl⟩
      · cases h
    · cases h
  · rintro ⟨w, rfl, rfl⟩
    simp [readWord, w.isLt]

theorem readNat_eq_some_iff {f : Nat → Instr} {ns : List Nat} {j : Instr} :
    readNat f ns = some j ↔ ∃ n, ns = [n] ∧ j = f n := by
  constructor
  · intro h
    unfold readNat at h
    split at h
    · cases h; exact ⟨_, rfl, rfl⟩
    · cases h
  · rintro ⟨n, rfl, rfl⟩
    rfl

theorem readXferWrite_eq_some_iff {ns : List Nat} {j : Instr} :
    readXferWrite ns = some j ↔ ∃ bs, ns = putSeq bs ∧ j = .xferWrite bs := by
  constructor
  · intro h
    unfold readXferWrite at h
    split at h
    · next bs hs =>
      cases h
      exact ⟨bs, by simpa using takeSeq_eq_some_iff.mp hs, rfl⟩
    · cases h
  · rintro ⟨bs, rfl, rfl⟩
    have hs : takeSeq (putSeq bs) = some (bs, []) := takeSeq_eq_some_iff.mpr (by simp)
    simp [readXferWrite, hs]

theorem readXferRead_eq_some_iff {ns : List Nat} {j : Instr} :
    readXferRead ns = some j ↔ ∃ n out, ns = n :: putSeq out ∧ j = .xferRead n out := by
  constructor
  · intro h
    unfold readXferRead at h
    split at h
    · cases h
    · next n ns =>
      split at h
      · next out hs =>
        cases h
        exact ⟨n, out, by simpa using takeSeq_eq_some_iff.mp hs, rfl⟩
      · cases h
  · rintro ⟨n, out, rfl, rfl⟩
    have hs : takeSeq (putSeq out) = some (out, []) := takeSeq_eq_some_iff.mpr (by simp)
    simp [readXferRead, hs]

theorem readTransfer_eq_some_iff {ns : List Nat} {j : Instr} :
    readTransfer ns = some j ↔ ∃ m, ns = putMessage m ∧ j = .transfer m := by
  constructor
  · intro h
    unfold readTransfer at h
    split at h
    · next slot ceiling k ns =>
      split at h
      · next ts hs =>
        cases h
        obtain ⟨rfl, hns⟩ := takeDescriptors_eq_some_iff.mp hs
        exact ⟨⟨slot, ceiling, ts⟩, by simp [putMessage, hns], rfl⟩
      · cases h
    · cases h
  · rintro ⟨m, rfl, rfl⟩
    have hs : takeDescriptors m.xfers.length (m.xfers.flatMap putDescriptor) = some (m.xfers, []) :=
      takeDescriptors_eq_some_iff.mpr ⟨rfl, by simp⟩
    simp [putMessage, readTransfer, hs]

theorem ofOperands_eq_ok_iff {o : Option Instr} {i : Instr} :
    Decoded.ofOperands o = .ok i ↔ o = some i := by
  cases o <;> simp [Decoded.ofOperands]

/-! ### Decoding and encoding (O6, O7, O8, O9) -/

/-- Settles O6: each word of the tables, computed. -/
theorem specWordsDecode : Obligations.SpecWordsDecode := by
  unfold Obligations.SpecWordsDecode
  decide

/-- Settles O7: by the rows of the encoding, the operands by their readers and the words by their fields. -/
theorem decodeInvertsEncode : Obligations.DecodeInvertsEncode := by
  unfold Obligations.DecodeInvertsEncode
  intro i
  cases i with
  | rdCfg | rdCfg2 | rdCs | rdData | rdData2 => rfl
  | waitReady | deselect | maxXferSize => rfl
  | csDeselBoth | csAssertBoth | csSel0 | csSel1 => rfl
  | wrCfg w | wrCfg2 w | wrCs w | wrData w | wrData2 w =>
    simp [encode, decode, decodeBus, ofOperands_eq_ok_iff, readWord_eq_some_iff]
  | negotiate n | setup n | select n =>
    simp [encode, decode, decodeOp, ofOperands_eq_ok_iff, readNat_eq_some_iff]
  | xferWrite bs =>
    simp [encode, decode, decodeOp, ofOperands_eq_ok_iff, readXferWrite_eq_some_iff]
  | xferRead n out =>
    simp [encode, decode, decodeOp, ofOperands_eq_ok_iff, readXferRead_eq_some_iff]
  | transfer m =>
    simp [encode, decode, decodeOp, ofOperands_eq_ok_iff, readTransfer_eq_some_iff]
  | csLen4 hi lo =>
    obtain ⟨hhi, hlen, hlo⟩ := csWord_fields hi 3#2 lo
    simp [encode, decode, decodeCsLength, lenField, hhi, hlen, hlo, readNone, Decoded.ofOperands]
  | csLen1 hi lo =>
    obtain ⟨hhi, hlen, hlo⟩ := csWord_fields hi 0#2 lo
    simp [encode, decode, decodeCsLength, lenField, hhi, hlen, hlo, readNone, Decoded.ofOperands]
  | cfgDiv code rest =>
    obtain ⟨hcode, hrest⟩ := cfgFieldsWord_fields code rest
    simp [encode, decode, decodeCfg, hcode, hrest, readNone, Decoded.ofOperands]
  | dataByte b =>
    obtain ⟨hb, hlow⟩ := byteWord_fields b
    simp [encode, decode, decodeDataByte, (low_mask_eq_zero_iff _).mpr hlow, hb, readNone,
      Decoded.ofOperands]
  | dataWord b0 b1 b2 b3 =>
    obtain ⟨h3, h2, h1, h0⟩ := pack32_big_lanes b0 b1 b2 b3
    simp [encode, decode, decodeDataWord, h3, h2, h1, h0, readNone, Decoded.ofOperands]

/-- A row of the encoding tables: with the code `c` of format `f`, whatever the operand reader answers
is encoded by that code and the operands read (R65, R67, R74 to R78). -/
def Row (f : Format) (c : Word) (read : List Nat → Option Instr) : Prop :=
  ∀ ns j, read ns = some j → encode j = ⟨f, c, ns⟩

theorem row_none {f : Format} {c : Word} {i : Instr} (h : encode i = ⟨f, c, []⟩) :
    Row f c (readNone i) := by
  intro ns j hj
  obtain ⟨rfl, rfl⟩ := readNone_eq_some_iff.mp hj
  exact h

theorem row_word {f : Format} {c : Word} {k : Word → Instr} (h : ∀ w, encode (k w) = ⟨f, c, [w.toNat]⟩) :
    Row f c (readWord k) := by
  intro ns j hj
  obtain ⟨w, rfl, rfl⟩ := readWord_eq_some_iff.mp hj
  exact h w

theorem row_nat {f : Format} {c : Word} {k : Nat → Instr} (h : ∀ n, encode (k n) = ⟨f, c, [n]⟩) :
    Row f c (readNat k) := by
  intro ns j hj
  obtain ⟨n, rfl, rfl⟩ := readNat_eq_some_iff.mp hj
  exact h n

theorem row_xferWrite : Row .op 0x5#32 readXferWrite := by
  intro ns j hj
  obtain ⟨bs, rfl, rfl⟩ := readXferWrite_eq_some_iff.mp hj
  rfl

theorem row_xferRead : Row .op 0x6#32 readXferRead := by
  intro ns j hj
  obtain ⟨n, out, rfl, rfl⟩ := readXferRead_eq_some_iff.mp hj
  rfl

theorem row_transfer : Row .op 0x7#32 readTransfer := by
  intro ns j hj
  obtain ⟨m, rfl, rfl⟩ := readTransfer_eq_some_iff.mp hj
  rfl

/-- A request decoded by a row is the encoding of what it decodes to. -/
theorem Row.decoded {f : Format} {c : Word} {read : List Nat → Option Instr} {ns : List Nat} {j : Instr}
    (hr : Row f c read) (h : Decoded.ofOperands (read ns) = .ok j) : encode j = ⟨f, c, ns⟩ :=
  hr ns j (ofOperands_eq_ok_iff.mp h)

/-- A code found by its value. -/
theorem decoded_by_value {f : Format} {c : Word} {n : Nat} {read : List Nat → Option Instr}
    {ns : List Nat} {j : Instr} (hc : c.toNat = n) (h : Decoded.ofOperands (read ns) = .ok j)
    (hr : Row f (BitVec.ofNat 32 n) read) : encode j = ⟨f, c, ns⟩ := by
  rw [← hc, BitVec.ofNat_toNat, BitVec.setWidth_eq] at hr
  exact hr.decoded h

theorem encode_of_decodeBus {c : Word} {ns : List Nat} {i : Instr} (h : decodeBus c ns = .ok i) :
    encode i = ⟨.bus, c &&& 0x3F#32, ns⟩ := by
  unfold decodeBus at h
  split at h
  · next hm => exact decoded_by_value hm h (row_none rfl)
  · next hm => exact decoded_by_value hm h (row_word fun _ => rfl)
  · next hm => exact decoded_by_value hm h (row_none rfl)
  · next hm => exact decoded_by_value hm h (row_word fun _ => rfl)
  · next hm => exact decoded_by_value hm h (row_none rfl)
  · next hm => exact decoded_by_value hm h (row_word fun _ => rfl)
  · next hm => exact decoded_by_value hm h (row_none rfl)
  · next hm => exact decoded_by_value hm h (row_word fun _ => rfl)
  · next hm => exact decoded_by_value hm h (row_none rfl)
  · next hm => exact decoded_by_value hm h (row_word fun _ => rfl)
  · cases h

theorem encode_of_decodeOp {c : Word} {ns : List Nat} {i : Instr} (h : decodeOp c ns = .ok i) :
    encode i = ⟨.op, c &&& 0xF#32, ns⟩ := by
  unfold decodeOp at h
  split at h
  · next hm => exact decoded_by_value hm h (row_none rfl)
  · next hm => exact decoded_by_value hm h (row_nat fun _ => rfl)
  · next hm => exact decoded_by_value hm h (row_nat fun _ => rfl)
  · next hm => exact decoded_by_value hm h (row_none rfl)
  · next hm => exact decoded_by_value hm h (row_nat fun _ => rfl)
  · next hm => exact decoded_by_value hm h row_xferWrite
  · next hm => exact decoded_by_value hm h row_xferRead
  · next hm => exact decoded_by_value hm h row_transfer
  · next hm => exact decoded_by_value hm h (row_none rfl)
  · cases h

theorem encode_of_decodeCsSelect {c : Word} {ns : List Nat} {i : Instr}
    (h : decodeCsSelect c ns = .ok i) : encode i = ⟨.csSelect, c, ns⟩ := by
  unfold decodeCsSelect at h
  split at h
  · next hm => exact decoded_by_value hm h (row_none rfl)
  · next hm => exact decoded_by_value hm h (row_none rfl)
  · next hm => exact decoded_by_value hm h (row_none rfl)
  · next hm => exact decoded_by_value hm h (row_none rfl)
  · cases h

theorem encode_of_decodeCsLength {c : Word} {ns : List Nat} {i : Instr}
    (h : decodeCsLength c ns = .ok i) : encode i = ⟨.csLength, c, ns⟩ := by
  have hc := csWord_of_fields c
  unfold decodeCsLength at h
  split at h
  · next hm =>
    have hlen : lenField c = 3#2 := BitVec.eq_of_toNat_eq hm
    rw [hlen] at hc
    exact (row_none (by rw [encode, hc])).decoded h
  · next hm =>
    have hlen : lenField c = 0#2 := BitVec.eq_of_toNat_eq hm
    rw [hlen] at hc
    exact (row_none (by rw [encode, hc])).decoded h
  · cases h

theorem encode_of_decodeCfg {c : Word} {ns : List Nat} {i : Instr} (h : decodeCfg c ns = .ok i) :
    encode i = ⟨.cfg, c, ns⟩ :=
  (row_none (by rw [encode, cfgFieldsWord_of_fields])).decoded h

theorem encode_of_decodeDataWord {c : Word} {ns : List Nat} {i : Instr}
    (h : decodeDataWord c ns = .ok i) : encode i = ⟨.dataWord, c, ns⟩ :=
  (row_none (by rw [encode, pack32_big_of_lanes])).decoded h

theorem encode_of_decodeDataByte {c : Word} {ns : List Nat} {i : Instr}
    (h : decodeDataByte c ns = .ok i) : encode i = ⟨.dataByte, c, ns⟩ := by
  unfold decodeDataByte at h
  split at h
  · next hm =>
    have hc : byteWord (lane c 3) = c := byteWord_of_low_zero ((low_mask_eq_zero_iff c).mp hm)
    exact (row_none (by rw [encode, hc])).decoded h
  · cases h

/-- No bit of a register word is masked away (R84). -/
theorem and_full_mask (c : Word) : c &&& 0xFFFFFFFF#32 = c := BitVec.and_allOnes

/-- Settles O8: format by format, by the row the request decoded by. -/
theorem encodeInvertsDecode : Obligations.EncodeInvertsDecode := by
  unfold Obligations.EncodeInvertsDecode
  rintro ⟨f, c, ns⟩ i h
  cases f with
  | bus => exact encode_of_decodeBus h
  | op => exact encode_of_decodeOp h
  | csSelect => rw [codeMask, and_full_mask]; exact encode_of_decodeCsSelect h
  | csLength => rw [codeMask, and_full_mask]; exact encode_of_decodeCsLength h
  | cfg => rw [codeMask, and_full_mask]; exact encode_of_decodeCfg h
  | dataWord => rw [codeMask, and_full_mask]; exact encode_of_decodeDataWord h
  | dataByte => rw [codeMask, and_full_mask]; exact encode_of_decodeDataByte h

/-- Settles O9: outside its rows each decoder rejects. -/
theorem illegalCodesRejected : Obligations.IllegalCodesRejected := by
  unfold Obligations.IllegalCodesRejected
  intro c ns
  refine ⟨fun h => ?_, fun h => ?_, fun h => ?_, fun h => ?_, fun h => ?_⟩
  · show decodeBus c ns = _
    unfold decodeBus
    split
    case h_11 => rfl
    all_goals next hm => simp [hm] at h
  · show decodeOp c ns = _
    unfold decodeOp
    split
    case h_10 => rfl
    all_goals next hm => omega
  · show decodeCsSelect c ns = _
    unfold decodeCsSelect
    split
    case h_5 => rfl
    all_goals next hm => simp [hm] at h
  · show decodeCsLength c ns = _
    unfold decodeCsLength lenField
    rcases h with h | h <;> rw [h] <;> rfl
  · show decodeDataByte c ns = _
    unfold decodeDataByte
    exact if_neg fun hm => h ((low_mask_eq_zero_iff c).mp hm)

end Sys2Proof.Machine
end

section
namespace Sys2Proof.Machine

/-! ### The divider's code and the divide (O28, O29) -/

/-- A speed whose least sufficient rate is `2c + 2` or `2c + 3`, or less for `c = 0`, has the code `c`
(R70, R104). -/
theorem codeOf_speed {hz : Nat} (c : Nat) (hpos : 0 < hz) (hup : Config.refHz ≤ (2 * c + 3) * hz)
    (hlow : c = 0 ∨ (2 * c + 1) * hz < Config.refHz) :
    codeOf (clampRate (ceilDiv Config.refHz hz)) = BitVec.ofNat 3 c := by
  have hle : ceilDiv Config.refHz hz ≤ 2 * c + 3 := (ceilDiv_le_iff hpos _).mpr hup
  have hge : c = 0 ∨ 2 * c + 1 < ceilDiv Config.refHz hz :=
    hlow.imp_right fun h => Nat.lt_of_not_le fun hn => Nat.not_le.mpr h ((ceilDiv_le_iff hpos _).mp hn)
  rw [clampRate_eq_max, codeOf]
  congr 1
  omega

/-- Settles O28: each row of the table is a pair of rates (`codeOf_speed`). -/
theorem dividerCodeTable : Obligations.DividerCodeTable := by
  unfold Obligations.DividerCodeTable
  have href : Config.refHz = 200000000 := rfl
  intro hz
  refine ⟨fun h => ?_, fun h h' => ?_, fun h h' => ?_, fun h h' => ?_, fun h h' => ?_, fun h h' => ?_,
    fun h h' => ?_, fun h h' => ?_⟩
  · exact codeOf_speed 0 (by omega) (by omega) (.inl rfl)
  · exact codeOf_speed 1 (by omega) (by omega) (.inr (by omega))
  · exact codeOf_speed 2 (by omega) (by omega) (.inr (by omega))
  · exact codeOf_speed 3 (by omega) (by omega) (.inr (by omega))
  · exact codeOf_speed 4 (by omega) (by omega) (.inr (by omega))
  · exact codeOf_speed 5 (by omega) (by omega) (.inr (by omega))
  · exact codeOf_speed 6 (by omega) (by omega) (.inr (by omega))
  · exact codeOf_speed 7 (by omega) (by omega) (.inr (by omega))

/-- The divide of a rate's code is the clamped rate rounded down to an even number (R70, R101). -/
theorem divideOf_codeOf_clampRate {rate : Nat} (h : rate ≤ 16) :
    divideOf (codeOf (clampRate rate)) = 2 * (clampRate rate / 2) := by
  rw [clampRate_eq_max, divideOf, codeOf, BitVec.toNat_ofNat]
  omega

/-- The rate and the divide that NEGOTIATE leaves (R100, R101). -/
theorem negotiate_divide {hz : Nat} {s t : State} (hhz : 12500000 ≤ hz)
    (h : exec (.negotiate hz) s = .next t) :
    t.w.rate = clampRate (ceilDiv Config.refHz hz) ∧ t.divide = 2 * (t.w.rate / 2) := by
  obtain ⟨-, -, rfl⟩ := exec_next_iff.mp h
  obtain ⟨l, hn⟩ := negotiate_eq hhz s
  have h16 : ceilDiv Config.refHz hz ≤ 16 :=
    (ceilDiv_le_iff (by omega) _).mpr (by unfold Config.refHz; omega)
  have hcode : divField (cfgWord (s.answerAt 0) (codeOf (clampRate (ceilDiv Config.refHz hz)))) =
    codeOf (clampRate (ceilDiv Config.refHz hz)) := (cfgWord_fields _ _).1
  have hrate : (effect (.negotiate hz) s).w.rate = clampRate (ceilDiv Config.refHz hz) := by
    rw [effect, hn]; rfl
  have hcfg : (effect (.negotiate hz) s).window.cfg =
      cfgWord (s.answerAt 0) (codeOf (clampRate (ceilDiv Config.refHz hz))) := by
    rw [effect, hn]; rfl
  exact ⟨hrate, by rw [State.divide, hcfg, hcode, hrate, divideOf_codeOf_clampRate h16]⟩

/-- Settles O29: the divide is the even number at or just below the rate (`negotiate_divide`), which is 2
or more; for 40000000 Hz the rate is 5. -/
theorem effectiveClockIsAtLeastTheRate : Obligations.EffectiveClockIsAtLeastTheRate := by
  unfold Obligations.EffectiveClockIsAtLeastTheRate
  constructor
  · intro hz s t hhz h
    obtain ⟨hrate, hdiv⟩ := negotiate_divide hhz h
    rw [clampRate_eq_max] at hrate
    have hle : t.divide ≤ t.w.rate := by omega
    exact ⟨by omega, hle, by omega, Nat.div_le_div_left hle (by omega)⟩
  · intro s t h
    obtain ⟨hrate, hdiv⟩ := negotiate_divide (by decide) h
    have h5 : clampRate (ceilDiv Config.refHz 40000000) = 5 := by decide
    rw [hdiv, hrate, h5]

end Sys2Proof.Machine
end

section
namespace Sys2Proof.Machine

/-! ### The data engine's accesses (O37, O38, O41) -/

theorem length_eventsOf (s : State) (is : List Item) : ∀ k, (eventsOf s k is).length = is.length := by
  induction is with
  | nil => exact fun _ => rfl
  | cons i is ih => intro k; cases i <;> simp [eventsOf, ih]

theorem length_xferWriteItems (order : ByteOrder) (b : List Byte) (r : Word) :
    (xferWriteItems order b r).length = 5 + 2 * (b.length / 4 + b.length % 4) := by
  have hpair : ∀ vs : List Word, (vs.flatMap fun v => [Item.wait, .wr .data v]).length = 2 * vs.length :=
    length_flatMap_const fun _ => rfl
  simp only [xferWriteItems, List.length_append, hpair, phaseAWords, phaseBWords, List.length_map,
    List.length_range, List.length_cons, List.length_nil]
  omega

theorem length_xferReadItems (n : Nat) (r : Word) :
    (xferReadItems n r).length = 5 + 2 * (n / 4 + n % 4) := by
  have hpair : ∀ js : List Nat, (js.flatMap fun _ => [Item.wait, .rd .data]).length = 2 * js.length :=
    length_flatMap_const fun _ => rfl
  simp only [xferReadItems, List.length_append, hpair, List.length_range, List.length_cons,
    List.length_nil]
  omega

/-- Both CS words written leave the device in LEN1 (R75, R119). -/
theorem Ran.cs_of_switched {s t : State} {es : List Event} {v4 v1 : Word} (h : Ran s t es)
    (hcs : writesTo .cs es <+: [v4, v1]) (hl : (writesTo .cs es).length = 2) : t.window.cs = v1 := by
  rw [h.cs, csAfter, hcs.eq_of_length hl]
  rfl

/-- An operation that reports its status (R41). -/
theorem reportRes_reports {s : State} {r : Res} {es : List Event} (h : Ran s r.state es)
    (answer : State → Answer) :
    (reportRes r answer).reports = s.reports ++ [⟨r.status, answer r.state⟩] := by
  rw [← h.reports]; rfl

theorem status_of_reportRes {s : State} {r : Res} {es : List Event} (h : Ran s r.state es)
    {answer : State → Answer} {st : Status} {a : Answer}
    (hr : (reportRes r answer).reports = s.reports ++ [⟨st, a⟩]) : r.status = st := by
  rw [reportRes_reports h] at hr
  simpa using congrArg (fun l => l.getLast?.map Report.status) hr

/-- A write call that keeps the host's duty on its length is legal (R39). -/
theorem xferWrite_legal {b : List Byte} (hb : b.length ≤ 256) : (Instr.xferWrite b).illegal = none := by
  have hmax : ¬ Config.maxXfer < b.length := Nat.not_lt.mpr hb
  simp [Instr.illegal, illegalLength, bufferFits, hmax]

/-- Settles O37: the accesses are those of a ready device (`xferWrite_goes`), and what the engine leaves
is what it leaves on any device (`xferWrite_sends`). -/
theorem xferWriteWhenReady : Obligations.XferWriteWhenReady := by
  unfold Obligations.XferWriteWhenReady
  intro b s hb hs hready
  obtain ⟨t, ht, hran, -⟩ := xferWrite_goes hready
  have hany := xferWrite_sends .big b s
  rw [ht] at hany
  obtain ⟨es, hsent⟩ := hany
  obtain ⟨-, hcount, hi⟩ := hsent.all rfl
  have heff : effect (.xferWrite b) s = reportRes (.ok t) fun _ => .none := by
    rw [effect, Config.hostByteOrder, ht]
  refine ⟨_, exec_next (xferWrite_legal hb) hs, ?_⟩
  rw [heff, newEvents_reportRes hran, length_eventsOf, length_xferWriteItems]
  exact ⟨reportRes_reports hran _, hran.trace, rfl,
    hsent.moved.op.ran.cs_of_switched hsent.cs hcount, hi⟩

/-- Settles O38: the accesses are those of a ready device (`xferRead_goes`), the destination is what they
received (`xferRead_ready_out`), and the latch of CS is what a read leaves on any device
(`xferRead_fills`). -/
theorem xferReadWhenReady : Obligations.XferReadWhenReady := by
  unfold Obligations.XferReadWhenReady
  intro n out s hn ho hs hready
  obtain ⟨t, ht, hran, -⟩ := xferRead_goes (order := .big) (out := out) hready
  obtain ⟨hout, hfilled, hi⟩ := xferRead_ready_out ho ht hran
  have hany := xferRead_fills .big n out s
  rw [ht] at hany
  obtain ⟨es, hfill⟩ := hany
  obtain ⟨-, hcount, -⟩ := hfill.all rfl
  have heff : effect (.xferRead n out) s = reportRes (.ok t) fun t => .bytes t.filled t.out := by
    rw [effect, Config.hostByteOrder, ht]
  refine ⟨_, exec_next (xferRead_legal hn ho) hs, ?_⟩
  rw [heff, newEvents_reportRes hran, length_eventsOf, length_xferReadItems, ← hout]
  refine ⟨?_, hran.trace, rfl, hfill.moved.op.ran.cs_of_switched hfill.cs hcount, hi⟩
  rw [reportRes_reports hran, Res.state_ok, hfilled]
  rfl

/-- Settles O41: what either operation writes to CS on any device (`xferWrite_sends`, `xferRead_fills`). -/
theorem engineSwitchesLengthOnceEach : Obligations.EngineSwitchesLengthOnceEach := by
  unfold Obligations.EngineSwitchesLengthOnceEach
  intro i s t hi h
  obtain ⟨-, -, rfl⟩ := exec_next_iff.mp h
  rcases hi with ⟨b, rfl⟩ | ⟨n, out, rfl⟩
  · obtain ⟨es, hsent⟩ := xferWrite_sends Config.hostByteOrder b s
    have hran := hsent.moved.op.ran
    rw [effect, newEvents_reportRes hran]
    refine ⟨hsent.cs, fun ⟨_, hok⟩ => ?_⟩
    obtain ⟨-, hcount, -⟩ := hsent.all (status_of_reportRes hran hok)
    exact hcount
  · obtain ⟨es, hfill⟩ := xferRead_fills Config.hostByteOrder n out s
    have hran := hfill.moved.op.ran
    rw [effect, newEvents_reportRes hran]
    refine ⟨hfill.cs, fun ⟨_, hok⟩ => ?_⟩
    obtain ⟨-, hcount, -⟩ := hfill.all (status_of_reportRes hran hok)
    exact hcount

end Sys2Proof.Machine
end

section
namespace Sys2Proof.Machine

/-! ### The readiness poller (O23, O24, O25) -/

/-- Settles O23: the wait ends at its first ready poll (`waitReady_first`). -/
theorem waitReadyEndsAtTheFirstReadyPoll : Obligations.WaitReadyEndsAtTheFirstReadyPoll := by
  unfold Obligations.WaitReadyEndsAtTheFirstReadyPoll
  intro s k hs hk hbusy hready
  rw [exec_next rfl hs, effect, waitReady_first hk hbusy hready]
  rfl

/-- Settles O24: no poll sees the device ready (`waitReady_busy`). -/
theorem waitReadyTimesOutAfter2000Polls : Obligations.WaitReadyTimesOutAfter2000Polls := by
  unfold Obligations.WaitReadyTimesOutAfter2000Polls
  intro s hs hbusy
  rw [exec_next rfl hs, effect, waitReady_busy hbusy]
  rfl

/-- WAIT_READY makes 1 to POLL_LIMIT polls, on any device (R97, R98). -/
theorem waitReady_polls (s : State) : ∃ k, 1 ≤ k ∧ k ≤ Config.pollLimit ∧
    (waitReady s).state = s.polled k ∧
    ((waitReady s).status = .ok ∨ (waitReady s).status = .timedOut) := by
  rcases waitReady_cases s with ⟨k, hk, -, -, he⟩ | ⟨-, he⟩ <;> rw [he]
  · exact ⟨k + 1, Nat.le_add_left 1 k, hk, rfl, .inl rfl⟩
  · exact ⟨Config.pollLimit, by decide, Nat.le_refl _, rfl, .inr rfl⟩

theorem length_polls (s : State) (k : Nat) : (polls s k).length = k := by simp [polls]

/-- Settles O25: the accesses are the polls (`waitReady_polls`). -/
theorem waitReadyIsBounded : Obligations.WaitReadyIsBounded := by
  unfold Obligations.WaitReadyIsBounded
  intro s hs
  obtain ⟨k, hpos, hle, hstate, hstatus⟩ := waitReady_polls s
  have hran : Ran s (waitReady s).state (polls s k) := hstate ▸ ran_polled s k
  refine ⟨_, exec_next rfl hs, ?_⟩
  rw [effect, newEvents_reportRes hran, length_polls, reportRes_reports hran]
  exact ⟨hpos, hle, fun _ => mem_polls, hstatus.imp (fun h => by rw [h]) (fun h => by rw [h])⟩

end Sys2Proof.Machine
end

section
namespace Sys2Proof.Machine

/-! ### What the polling operations leave unchanged (O58) -/

/-- The state with all that WAIT_READY, DESELECT and SELECT may change blanked out (R97, R107, R108):
two states with one frame differ in nothing else. -/
def pollFrame (s : State) : State :=
  { s with
    ops := [], seqLog := [], answers := [], draws := 0, trace := [], reports := []
    w := { s.w with poll := 0 }
    window := { s.window with cs := 0#32 } }

@[simp] theorem pollFrame_atLine (o : OpName) (n : Nat) (s : State) :
    pollFrame (atLine o n s) = pollFrame s := rfl

@[simp] theorem pollFrame_enterOp (o : OpName) (s : State) :
    pollFrame (enterOp o s) = pollFrame s := rfl

@[simp] theorem pollFrame_leaveOp (o : OpName) (st : Status) (s : State) :
    pollFrame (leaveOp o st s) = pollFrame s := rfl

@[simp] theorem pollFrame_writeCs (v : Word) (s : State) :
    pollFrame (regWrite .cs v s) = pollFrame s := rfl

@[simp] theorem pollFrame_polled (s : State) (k : Nat) : pollFrame (s.polled k) = pollFrame s := rfl

theorem pollFrame_reportRes (r : Res) (answer : State → Answer) :
    pollFrame (reportRes r answer) = pollFrame r.state := rfl

theorem pollFrame_within (o : OpName) (body : State → Res) (s : State) :
    pollFrame (within o body s).state = pollFrame (body (enterOp o s)).state := by
  rw [within, Res.state_mapState, pollFrame_leaveOp]

/-- What follows an operation keeps the frame that the operation left. -/
theorem pollFrame_andThen {r : Res} {f : State → Res}
    (hf : ∀ t, pollFrame (f t).state = pollFrame t) :
    pollFrame (r.andThen f).state = pollFrame r.state := by
  cases r with
  | ok t => exact hf t
  | raise e t => rfl

theorem pollFrame_waitReady (s : State) : pollFrame (waitReady s).state = pollFrame s := by
  obtain ⟨k, -, -, hstate, -⟩ := waitReady_polls s
  rw [hstate, pollFrame_polled]

theorem pollFrame_writeCsAndWait (o : OpName) (n m : Nat) (v : Word) (s : State) :
    pollFrame (writeCsAndWait o n m v s).state = pollFrame s := by
  simp [writeCsAndWait, waitAt, pollFrame_waitReady]

theorem pollFrame_deselect (s : State) : pollFrame (deselect s).state = pollFrame s := by
  rw [deselect, pollFrame_within, deselectBody, pollFrame_andThen, pollFrame_writeCsAndWait,
    pollFrame_enterOp]
  intro t
  rw [pollFrame_andThen, pollFrame_writeCsAndWait]
  intro t
  rw [pollFrame_andThen fun _ => rfl, pollFrame_writeCsAndWait]

theorem pollFrame_select (slot : Nat) (s : State) :
    pollFrame (select slot s).state = pollFrame s := by
  rw [select, pollFrame_within, selectBody, pollFrame_andThen, pollFrame_deselect,
    pollFrame_atLine, pollFrame_enterOp]
  intro t
  rw [pollFrame_andThen fun _ => rfl, pollFrame_writeCsAndWait, pollFrame_atLine]

/-- The fields that one frame fixes. -/
theorem kept_of_pollFrame {s t : State} (h : pollFrame t = pollFrame s) :
    t.handle = s.handle ∧ t.seq = s.seq ∧ t.w = { s.w with poll := t.w.poll } ∧
    t.window = { s.window with cs := t.window.cs } ∧ t.spi = s.spi ∧ t.out = s.out ∧
    t.filled = s.filled ∧ t.buffers = s.buffers ∧ t.calls = s.calls := by
  have field {α : Type} (f : State → α) : f (pollFrame t) = f (pollFrame s) := congrArg f h
  exact ⟨field State.handle, field State.seq, field fun u => { u.w with poll := t.w.poll },
    field fun u => { u.window with cs := t.window.cs }, field State.spi, field State.out,
    field State.filled, field State.buffers, field State.calls⟩

/-- What WAIT_READY, DESELECT and SELECT keep as calls: the frame, and the operations in progress. -/
theorem polling_keeps {i : Instr} (hi : i = .waitReady ∨ i = .deselect ∨ ∃ slot, i = .select slot)
    (s : State) : pollFrame (effect i s) = pollFrame s ∧ (effect i s).ops = s.ops := by
  rcases hi with rfl | rfl | ⟨slot, rfl⟩
  · obtain ⟨_, -, -, hops⟩ := waitReady_opRan (R := ioRegs) (E := ioEnds) (by simp) (by simp)
      (by simp) s
    exact ⟨(pollFrame_reportRes _ _).trans (pollFrame_waitReady s), hops⟩
  · obtain ⟨_, -, -, hops⟩ := deselect_opRan s
    exact ⟨(pollFrame_reportRes _ _).trans (pollFrame_deselect s), hops⟩
  · obtain ⟨_, -, -, hops⟩ := select_opRan slot s
    exact ⟨(pollFrame_reportRes _ _).trans (pollFrame_select slot s), hops⟩

/-- WAIT_READY writes no register (R97). -/
theorem effect_waitReady_window (s : State) : (effect .waitReady s).window = s.window := by
  obtain ⟨k, -, -, hstate, -⟩ := waitReady_polls s
  rw [effect, reportRes, report_window, hstate]
  rfl

/-- Settles O58: the three operations keep the frame (`polling_keeps`), whose fields
`kept_of_pollFrame` names. -/
theorem frameOfPollingOperations : Obligations.FrameOfPollingOperations := by
  unfold Obligations.FrameOfPollingOperations
  intro i s t hi h
  obtain ⟨-, -, rfl⟩ := exec_next_iff.mp h
  obtain ⟨hframe, hops⟩ := polling_keeps hi s
  obtain ⟨hhandle, hseq, hrest⟩ := kept_of_pollFrame hframe
  obtain ⟨hw, hwindow, hspi, hout, hfilled, hbuffers, hcalls⟩ := hrest
  exact ⟨hhandle, hseq, hops, hw, hwindow, hspi, hout, hfilled, hbuffers, hcalls,
    fun hwait => hwait ▸ effect_waitReady_window s⟩

end Sys2Proof.Machine
end

section
namespace Sys2Proof.Machine

/-! ### Every call completes, guarded by its waits (O5, O54, O56) -/

theorem Called.reported {s t : State} {es : List Event} (h : Called s t es) :
    ∃ rep, t.reports = s.reports ++ [rep] := by
  obtain ⟨u, st, a, hu, ht⟩ := h
  exact ⟨⟨st, a⟩, by rw [ht.reports, report_reports, hu.reports]⟩

/-- Settles O5: a legal call that is accepted runs (`exec_next`), reports once and keeps the calls and
the handle (`effect_called`), and is Idle again (`effect_accepting`). -/
theorem legalCallsComplete : Obligations.LegalCallsComplete := by
  unfold Obligations.LegalCallsComplete
  intro i s hw hs
  obtain ⟨es, hc⟩ := effect_called i s
  obtain ⟨rep, hrep⟩ := hc.reported
  exact ⟨effect i s, rep, exec_next (wf_iff.mp hw) hs, hrep, effect_accepting i hs, hc.calls,
    hc.handle⟩

/-! #### The operations below TRANSFER, as calls -/

/-- A part of an operation that succeeded, and then an error that is no timeout (R13). -/
theorem OpRan.raises {R : List Reg} {E : List Status} {s t : State} {es : List Event} {e : Status}
    (h : OpRan R E s (.ok t) es) (hE : e ∈ E) (he : e ≠ .timedOut) :
    OpRan R E s (.raise e t) es :=
  { h with status := hE, failed := fun hf => absurd hf he }

theorem setupLines_opRan (hz : Nat) (s : State) :
    OpRan [] [.ok, .invalidSpeed] s (.ok (setupLines hz s)) [] := by
  have h4 := (((opRan_line (R := []) (E := [.ok, .invalidSpeed]) (by simp) .setup 1 s).line
    .setup 2).line .setup 3).line .setup 4
  unfold setupLines
  dsimp only
  split
  · exact (h4.line .setup 5).line .setup 6
  · exact h4.line .setup 6

/-- SETUP: no access, and Ok or InvalidSpeed (R102, R135). -/
theorem setup_opRan (hz : Nat) (s : State) : OpRan [] [.ok, .invalidSpeed] s (setup hz s) [] := by
  refine OpRan.within (body := setupBody hz) ?_
  unfold setupBody
  split
  · exact ((setupLines_opRan hz _).line .setup 7).raises (by simp) (by simp)
  · exact (setupLines_opRan hz _).line .setup 8

/-- MAX_XFER_SIZE: no access, and Ok (R131). -/
theorem maxXferSize_opRan (s : State) : OpRan [] [.ok] s (maxXferSize s) [] :=
  OpRan.within (body := fun s => returnAt .maxXferSize 1 s) (opRan_line (by simp) .maxXferSize 1 _)

/-- The five operations that wait reach CS and DATA only, and end in Ok or TimedOut (R97, R134). -/
theorem effect_waiting {i : Instr} (hi : i = .waitReady ∨ i = .deselect ∨ (∃ slot, i = .select slot) ∨
    (∃ b, i = .xferWrite b) ∨ ∃ n out, i = .xferRead n out) (s : State) :
    ∃ r answer es, effect i s = reportRes r answer ∧ OpRan ioRegs ioEnds s r es := by
  rcases hi with rfl | rfl | ⟨slot, rfl⟩ | ⟨b, rfl⟩ | ⟨n, out, rfl⟩
  · obtain ⟨es, h, -⟩ := waitReady_opRan (R := ioRegs) (E := ioEnds) (by simp) (by simp) (by simp) s
    exact ⟨_, fun _ => .none, es, rfl, h⟩
  · obtain ⟨es, h, -⟩ := deselect_opRan s
    exact ⟨_, fun _ => .none, es, rfl, h⟩
  · obtain ⟨es, h, -⟩ := select_opRan slot s
    exact ⟨_, fun _ => .none, es, rfl, h⟩
  · obtain ⟨es, h, -⟩ := xferWrite_opRan Config.hostByteOrder b s
    exact ⟨_, fun _ => .none, es, rfl, h⟩
  · obtain ⟨es, h, -⟩ := xferRead_opRan Config.hostByteOrder n out s
    exact ⟨_, fun t => .bytes t.filled t.out, es, rfl, h⟩

/-- A call is a message, the report of an operation below TRANSFER, or a single register access, which
reports Ok. -/
theorem effect_cases (i : Instr) (s : State) :
    (∃ m, i = .transfer m) ∨
    (∃ R E r answer es, effect i s = reportRes r answer ∧ OpRan R E s r es) ∨
    (isOperation i = false ∧ ∃ a, (effect i s).reports = s.reports ++ [⟨.ok, a⟩]) := by
  have hwaiting := effect_waiting (i := i) (s := s)
  cases i with
  | transfer m => exact .inl ⟨m, rfl⟩
  | waitReady | deselect | select | xferWrite | xferRead =>
    exact .inr (.inl ⟨_, _, hwaiting (by simp)⟩)
  | negotiate hz =>
    obtain ⟨es, h, -⟩ := negotiate_opRan hz s
    exact .inr (.inl ⟨_, _, _, fun _ => .none, es, rfl, h⟩)
  | setup hz => exact .inr (.inl ⟨_, _, _, fun _ => setupAnswer hz, _, rfl, setup_opRan hz s⟩)
  | maxXferSize => exact .inr (.inl ⟨_, _, _, fun _ => .size Config.maxXfer, _, rfl, maxXferSize_opRan s⟩)
  | rdCfg | rdCfg2 | rdCs | rdData | rdData2 =>
    exact .inr (.inr ⟨rfl, _, congrArg State.reports (readCall_eq_didRead _ s)⟩)
  | wrCfg v | wrCfg2 v | wrCs v | wrData v | wrData2 v =>
    exact .inr (.inr ⟨rfl, _, congrArg State.reports (writeCall_eq_wrote _ v s)⟩)
  | csDeselBoth | csAssertBoth | csSel0 | csSel1 | csLen4 | csLen1 | cfgDiv | dataByte | dataWord =>
    exact .inr (.inr ⟨rfl, _, congrArg State.reports (writeCall_eq_wrote _ _ s)⟩)

/-! #### Guards and failed waits -/

/-- The accesses of an operation's call are guarded: its report adds neither an access nor a move of
the sequencer (R153). -/
theorem OpRan.guarded {R : List Reg} {E : List Status} {s : State} {r : Res} {es : List Event}
    (h : OpRan R E s r es) (answer : State → Answer) (b : Bool) :
    guardedFrom (newMarks s (reportRes r answer)) s.trace.length b
      (newEvents s (reportRes r answer)) = true := by
  obtain ⟨ms, hlog, -, hguard⟩ := h.recorded
  have hms : newMarks s (reportRes r answer) = ms := by
    rw [newMarks, reportRes, report_seqLog, hlog, List.drop_left]
  rw [hms, newEvents_reportRes h.ran]
  exact hguard b

/-- Settles O54: an operation below TRANSFER by the guards of its parts (`OpRan.guarded`), TRANSFER by
those of its stages (`Staged.guarded`). -/
theorem accessesAreGuardedByWaits : Obligations.AccessesAreGuardedByWaits := by
  unfold Obligations.AccessesAreGuardedByWaits
  intro i s t hi h
  obtain ⟨-, -, rfl⟩ := exec_next_iff.mp h
  rcases effect_cases i s with ⟨m, rfl⟩ | ⟨_, _, r, answer, es, heff, hop⟩ | ⟨hno, -⟩
  · obtain ⟨_, _, _, -, -, hstaged, -, -⟩ := transfer_cases h
    exact hstaged.guarded false
  · rw [heff]
    exact hop.guarded answer false
  · rw [hi] at hno
    cases hno

/-- An operation whose call reports TimedOut made a failed wait last (R134, R138). -/
theorem OpRan.failed_of_report {R : List Reg} {E : List Status} {s : State} {r : Res}
    {es : List Event} (h : OpRan R E s r es) {answer : State → Answer} {a : Answer}
    (hr : (reportRes r answer).reports = s.reports ++ [⟨.timedOut, a⟩]) :
    FailedWait (newEvents s (reportRes r answer)) := by
  rw [newEvents_reportRes h.ran answer]
  exact h.failed (status_of_reportRes h.ran hr)

/-- A message that reports TimedOut made a failed wait last: Done and Idle make no access (R127,
R138). -/
theorem transfer_failed_of_report {m : Message} {s t : State} {a : Answer}
    (h : exec (.transfer m) s = .next t) (hr : t.reports = s.reports ++ [⟨.timedOut, a⟩]) :
    FailedWait (newEvents s t) := by
  obtain ⟨st, e, u, hmessage, -, hstaged, -, hreports⟩ := transfer_cases h
  have hstatus : e.status = .timedOut := by
    rw [hreports, List.append_cancel_left_eq] at hr
    simpa using congrArg (List.map Report.status) hr
  rw [hstaged.newEvents, stageEvents_append]
  simpa using hmessage.failed hstatus

/-- Settles O56: the five operations by their ends (`effect_waiting`), and any call that reports TimedOut
by `OpRan.failed_of_report` and `transfer_failed_of_report`; a register access reports Ok. -/
theorem timedOutComesFromAFailedWait : Obligations.TimedOutComesFromAFailedWait := by
  unfold Obligations.TimedOutComesFromAFailedWait
  refine ⟨fun i s t hi h => ?_, fun i s t a h hr => ?_⟩
  · obtain ⟨-, -, rfl⟩ := exec_next_iff.mp h
    obtain ⟨r, answer, es, heff, hop⟩ := effect_waiting hi s
    exact ⟨r.status, answer r.state, by rw [heff, reportRes_reports hop.ran], by
      simpa using hop.status⟩
  · show FailedWait (newEvents s t)
    obtain ⟨-, -, rfl⟩ := exec_next_iff.mp h
    rcases effect_cases i s with ⟨m, rfl⟩ | ⟨_, _, r, answer, es, heff, hop⟩ | ⟨-, a', hok⟩
    · exact transfer_failed_of_report h hr
    · rw [heff] at hr ⊢
      exact hop.failed_of_report hr
    · rw [hok, List.append_cancel_left_eq] at hr
      cases hr

end Sys2Proof.Machine
end

section
namespace Sys2Proof.Machine

/-! ### Speeds out of range, and SETUP (O27, O30, O31) -/

/-- Every speed but 0 below 12500000 Hz needs a divide above DIV_MAX (R100, R103). -/
theorem divMax_lt_ceilDiv {hz : Nat} (h0 : hz ≠ 0) (h : hz < 12500000) :
    Config.divMax < ceilDiv Config.refHz hz := by
  rw [← Nat.not_le, ceilDiv_le_iff (by omega)]
  unfold Config.refHz Config.divMax
  omega

/-- NEGOTIATE for a speed below the range: at most W.rate is written (R100, R135). -/
theorem negotiateBody_slow {hz : Nat} (h : hz < 12500000) (s : State) : ∃ l n q,
    negotiateBody hz s = .raise .invalidSpeed { s with
      seqLog := l, ops := ⟨.negotiate, n⟩ :: s.ops.tail, w := { s.w with rate := q } } := by
  rw [negotiateBody_eq]
  by_cases h0 : hz = 0
  · rw [if_pos h0]
    exact ⟨_, 2, s.w.rate, rfl⟩
  · rw [if_neg h0, if_pos (divMax_lt_ceilDiv h0 h)]
    exact ⟨_, 5, ceilDiv Config.refHz hz, rfl⟩

theorem negotiate_slow {hz : Nat} (h : hz < 12500000) (s : State) : ∃ l q,
    negotiate hz s =
      .raise .invalidSpeed { s with seqLog := l, w := { s.w with rate := q } } := by
  obtain ⟨l, n, q, hb⟩ := negotiateBody_slow h (enterOp .negotiate s)
  exact ⟨_, q, by rw [negotiate, within, hb]; rfl⟩

/-- Settles O27: NEGOTIATE raises at its range test, with at most W.rate written
(`negotiate_slow`). -/
theorem negotiateRejectsSlowSpeeds : Obligations.NegotiateRejectsSlowSpeeds := by
  unfold Obligations.NegotiateRejectsSlowSpeeds
  intro hz s hs hhz
  obtain ⟨l, q, hn⟩ := negotiate_slow hhz s
  refine ⟨_, exec_next rfl hs, ?_⟩
  rw [effect, hn]
  rfl

/-- Settles O30: the constants, computed. -/
theorem speedRangeDividesExactly : Obligations.SpeedRangeDividesExactly := by
  unfold Obligations.SpeedRangeDividesExactly
  decide

/-- SETUP's clamp is a minimum with SPEED_MAX (R102, R103). -/
theorem setupClamp_eq_min (hz : Nat) : setupClamp hz = min hz 100000000 := by
  have hmax : Config.speedMax = 100000000 := rfl
  unfold setupClamp
  split <;> omega

/-- SETUP rejects exactly the speeds below 12500000 Hz (R102, R103). -/
theorem setupClamp_lt_speedMin_iff (hz : Nat) :
    setupClamp hz < Config.speedMin ↔ hz < 12500000 := by
  have hmin : Config.speedMin = 12500000 := rfl
  rw [setupClamp_eq_min]
  omega

/-- How SETUP ends, by the requested speed (R102, R106). -/
theorem setup_status_eq (hz : Nat) (s : State) :
    (setup hz s).status = if hz < 12500000 then .invalidSpeed else .ok := by
  simp only [setup, within, Res.status_mapState, setupBody, setupClamp_lt_speedMin_iff]
  split <;> rfl

/-- What SETUP gives back, by the requested speed (R102). -/
theorem setupAnswer_eq (hz : Nat) :
    setupAnswer hz = if hz < 12500000 then .none else .hz (min hz 100000000) := by
  simp only [setupAnswer, setupClamp_lt_speedMin_iff]
  rw [setupClamp_eq_min]

/-- Settles O31: SETUP changes the record alone (`setup_state`), and reports by the requested speed
(`setup_status_eq`, `setupAnswer_eq`). -/
theorem setupValidatesTheMaximum : Obligations.SetupValidatesTheMaximum := by
  unfold Obligations.SetupValidatesTheMaximum
  intro hz s hs
  obtain ⟨l, hstate⟩ := setup_state hz s
  refine ⟨_, exec_next rfl hs, ?_⟩
  rw [effect, reportRes, hstate, setup_status_eq, setupAnswer_eq]
  refine ⟨rfl, fun h => ?_, fun h hle => ?_, fun h => ?_⟩
  · simp [h]
  · simp [Nat.not_lt.mpr h, hle]
  · have hmin : ¬ hz < 12500000 := by omega
    simp [hmin, h.le]

end Sys2Proof.Machine
end

section
namespace Sys2Proof.Machine

/-! ### The chip-select sequencer (O32 to O36) -/

theorem select_legal {slot : Nat} (h : slot < 2) : (Instr.select slot).illegal = none := by
  have hslots : slot < Config.nSlots := h
  simp [Instr.illegal, illegalSlot, hslots]

/-! #### On a device ready at each wait -/

theorem SelKept.lines {v : Word} {s t : State} (h : SelKept v s t) : t.lines = linesOf v := by
  have hcs : t.window.cs = v := congrArg (fun u : State => u.window.cs) h.same
  rw [State.lines, hcs]

/-- What a call of the sequencer leaves, where its operation succeeded by the accesses of `is` and wrote
`v` last. -/
theorem SelKept.reported {v : Word} {s t : State} {is : List Item} (h : SelKept v s t)
    (hops : t.ops = s.ops) (hran : Ran s t (eventsOf s 0 is)) :
    { report .ok .none t with seqLog := s.seqLog } =
      { s with
        w := { s.w with poll := 1 }
        window := { s.window with cs := v }
        answers := s.answers.drop (readCount is)
        draws := s.draws + readCount is
        trace := s.trace ++ eventsOf s 0 is
        reports := s.reports ++ [⟨.ok, .none⟩] } := by
  have hanswers := hran.answers
  have hdraws := hran.draws
  rw [length_answersUsed_eventsOf] at hanswers hdraws
  have hsame := h.same
  simp only [State.mk.injEq] at hsame
  simp only [report, hops, hanswers, hdraws, hran.trace, hsame]

/-- Settles O32: DESELECT on a ready device (`deselect_goes`), and its report. -/
theorem deselectPulseWhenReady : Obligations.DeselectPulseWhenReady := by
  unfold Obligations.DeselectPulseWhenReady
  intro s hs hready
  obtain ⟨t, ht, hran, hkept, hops⟩ := deselect_goes hready
  have heff : effect .deselect s = report .ok .none t := by rw [effect, ht]; rfl
  refine ⟨_, exec_next rfl hs, ?_, ?_⟩ <;> rw [heff]
  · exact hkept.reported hops hran
  · exact hkept.lines.trans (by decide)

/-- Settles O33: SELECT on a ready device (`select_goes`), and its report. -/
theorem selectWhenReady : Obligations.SelectWhenReady := by
  unfold Obligations.SelectWhenReady
  intro slot s hslot hs hready
  obtain ⟨t, ht, hran, hkept, hops⟩ := select_goes hready
  have heff : effect (.select slot) s = report .ok .none t := by rw [effect, ht]; rfl
  refine ⟨_, exec_next (select_legal hslot) hs, ?_, ?_⟩ <;> rw [heff]
  · exact hkept.reported hops hran
  · exact hkept.lines.trans (linesOf_selectWord hslot)

/-! #### On any device: the words written, and the lines they leave -/

theorem Res.eq_ok_of_clean {r : Res} (hc : r.clean) (h : r.status = .ok) : r = .ok r.state := by
  cases r with
  | ok t => rfl
  | raise e t => exact absurd h hc

/-- What a call shows of an operation that sends the words `ws`: how many it wrote, the lines by the CS
word last written, and whether it reported Ok, with all of them, or TimedOut (R134, R157). -/
theorem CsSent.called {ws : List Word} {s : State} {r : Res} {es : List Event}
    (h : CsSent ws s r es) (hc : r.clean) (hs : r.status ∈ ioEnds) :
    ∃ n, 1 ≤ n ∧ n ≤ ws.length ∧
      writesTo .cs (newEvents s (reportRes r fun _ => .none)) = ws.take n ∧
      (reportRes r fun _ => .none).lines =
        linesOf (csAfter s.window.cs (newEvents s (reportRes r fun _ => .none))) ∧
      ((reportRes r fun _ => .none).reports = s.reports ++ [⟨.ok, .none⟩] ∧ n = ws.length ∨
        (reportRes r fun _ => .none).reports = s.reports ++ [⟨.timedOut, .none⟩]) := by
  obtain ⟨n, hpos, hle, hwords, hall⟩ := h.count
  rw [newEvents_reportRes h.ran, reportRes_reports h.ran]
  refine ⟨n, hpos, hle, hwords, congrArg linesOf h.ran.cs, ?_⟩
  rcases List.mem_pair.mp hs with hok | hto
  · exact .inl ⟨by rw [hok], hall _ (Res.eq_ok_of_clean hc hok)⟩
  · exact .inr (by rw [hto])

/-- Settles O34: the words DESELECT sends (`deselect_sent`), and the lines after them
(`deselectWords_lines`). -/
theorem deselectStopsWithinThePulse : Obligations.DeselectStopsWithinThePulse := by
  unfold Obligations.DeselectStopsWithinThePulse
  intro s hs
  obtain ⟨_, hsent⟩ := deselect_sent s
  obtain ⟨_, hop, -⟩ := deselect_opRan s
  obtain ⟨n, hpos, hle, hwords, hlast, hends⟩ := hsent.called (deselect_clean s) hop.status
  have hlines := hlast.trans (deselectWords_lines hpos hle hwords)
  refine ⟨_, exec_next rfl hs, ?_⟩
  rw [effect]
  rcases hends with ⟨hok, rfl⟩ | hto
  · exact .inl ⟨hok, hwords, hlines⟩
  · refine .inr ⟨hto, ?_⟩
    obtain rfl | rfl | rfl : n = 1 ∨ n = 2 ∨ n = 3 := by
      have hle : n ≤ 3 := hle
      omega
    · exact .inl ⟨hwords, hlines⟩
    · exact .inr (.inl ⟨hwords, hlines⟩)
    · exact .inr (.inr ⟨hwords, hlines⟩)

/-- Settles O35: the words SELECT sends (`select_sent`), and the lines after them
(`selectWords_lines`). -/
theorem selectStopsWithinItsWords : Obligations.SelectStopsWithinItsWords := by
  unfold Obligations.SelectStopsWithinItsWords
  intro slot s hslot hs
  obtain ⟨_, hsent⟩ := select_sent slot s
  obtain ⟨_, hop, -⟩ := select_opRan slot s
  obtain ⟨n, hpos, hle, hwords, hlast, hends⟩ := hsent.called (select_clean slot s) hop.status
  have hlines := hlast.trans (selectWords_lines hslot hpos hle hwords)
  have hcount := (congrArg List.length hwords).trans (List.length_take_of_le hle)
  refine ⟨_, exec_next (select_legal hslot) hs, ?_, ?_⟩ <;> rw [effect]
  · rw [hwords]
    exact List.take_prefix n (selectWords slot)
  rcases hends with ⟨hok, rfl⟩ | hto
  · exact .inl ⟨hok, hcount, hlines⟩
  · refine .inr ⟨hto, ?_⟩
    obtain rfl | rfl | rfl | rfl : n = 1 ∨ n = 2 ∨ n = 3 ∨ n = 4 := by
      have hle : n ≤ 4 := hle
      omega
    · exact .inl ⟨hcount, hlines⟩
    · exact .inr (.inl ⟨hcount, hlines⟩)
    · exact .inr (.inr (.inl ⟨hcount, hlines⟩))
    · exact .inr (.inr (.inr ⟨hcount, hlines⟩))

/-! #### The number of accesses -/

/-- The operation ended in `r` from `s` with at most `most` accesses, and at least `least` where it
succeeded (R130). -/
def Takes (least most : Nat) (s : State) (r : Res) : Prop :=
  ∃ es, Ran s r.state es ∧ es.length ≤ most ∧ ∀ t, r = .ok t → least ≤ es.length

section
variable {a b c d : Nat} {s t : State} {r : Res}

theorem Takes.andThen {f : State → Res} (h : Takes a b s r) (hf : ∀ t, r = .ok t → Takes c d t (f t)) :
    Takes (a + c) (b + d) s (r.andThen f) := by
  obtain ⟨x, hx, hxle, hxge⟩ := h
  cases r with
  | raise e u => exact ⟨x, hx, Nat.le_add_right_of_le hxle, nofun⟩
  | ok u =>
    obtain ⟨y, hy, hyle, hyge⟩ := hf u rfl
    refine ⟨x ++ y, Ran.trans hx hy, ?_, fun v hv => ?_⟩ <;> rw [List.length_append]
    · exact Nat.add_le_add hxle hyle
    · exact Nat.add_le_add (hxge u rfl) (hyge v hv)

/-- Accesses that raise nothing, and then an operation. -/
theorem Takes.after {es : List Event} (g : Takes a b t r) (h : Ran s t es) :
    Takes (es.length + a) (es.length + b) s r := by
  have hfirst : Takes es.length es.length s (.ok t) :=
    ⟨es, h, Nat.le_refl _, fun _ _ => Nat.le_refl _⟩
  exact hfirst.andThen (f := fun _ => r) fun u hu => by cases hu; exact g

theorem takes_return (o : OpName) (n : Nat) (s : State) : Takes 0 0 s (returnAt o n s) :=
  ⟨[], ran_atLine o n s, Nat.le_refl _, fun _ _ => Nat.le_refl _⟩

theorem Takes.within {o : OpName} {body : State → Res}
    (h : Takes a b (enterOp o s) (body (enterOp o s))) : Takes a b s (within o body s) := by
  obtain ⟨es, hran, hle, hge⟩ := h
  refine ⟨es, ran_within hran, hle, fun t ht => ?_⟩
  rw [within_eq] at ht
  cases hb : body (enterOp o s) with
  | ok u => exact hge u hb
  | raise e u => rw [hb] at ht; cases ht

end

/-- A readiness wait makes 1 to POLL_LIMIT accesses (R97, R98). -/
theorem waitReady_takes (s : State) : Takes 1 2000 s (waitReady s) := by
  obtain ⟨k, hpos, hle, hstate, -⟩ := waitReady_polls s
  refine ⟨polls s k, hstate ▸ ran_polled s k, ?_, fun _ _ => ?_⟩ <;> rw [length_polls]
  · exact hle
  · exact hpos

theorem writeCsAndWait_takes (o : OpName) (n m : Nat) (v : Word) (s : State) :
    Takes 2 2001 s (writeCsAndWait o n m v s) :=
  (waitReady_takes _).after (es := [.wr .cs v]) ((ran_regWrite .cs v _).after_line.line o m)

/-- DESELECT writes three words, each with its wait (R107 corner case 4). -/
theorem deselect_takes (s : State) : Takes 6 6003 s (deselect s) :=
  Takes.within (body := deselectBody) <|
    (writeCsAndWait_takes ..).andThen fun _ _ =>
    (writeCsAndWait_takes ..).andThen fun _ _ =>
    (writeCsAndWait_takes ..).andThen fun _ _ => takes_return ..

/-- SELECT makes the pulse, and writes one word more (R108 corner case 4). -/
theorem select_takes (slot : Nat) (s : State) : Takes 8 8004 s (select slot s) :=
  Takes.within (body := selectBody slot) <|
    ((deselect_takes _).after (ran_atLine .select 1 _)).andThen fun _ _ =>
    ((writeCsAndWait_takes ..).after (ran_atLine .select 2 _)).andThen fun _ _ => takes_return ..

/-- The bounds of an operation are those of its call, by what it reports. -/
theorem Takes.called {least most : Nat} {s : State} {r : Res} (h : Takes least most s r)
    (hc : r.clean) (answer : State → Answer) :
    (newEvents s (reportRes r answer)).length ≤ most ∧
      ((reportRes r answer).reports = s.reports ++ [⟨.ok, answer r.state⟩] →
        least ≤ (newEvents s (reportRes r answer)).length) := by
  obtain ⟨es, hran, hle, hge⟩ := h
  rw [newEvents_reportRes hran]
  exact ⟨hle, fun hok => hge _ (Res.eq_ok_of_clean hc (status_of_reportRes hran hok))⟩

/-- Settles O36: the accesses of the two operations (`deselect_takes`, `select_takes`), as calls. -/
theorem chipSelectAccessBounds : Obligations.ChipSelectAccessBounds := by
  unfold Obligations.ChipSelectAccessBounds
  refine fun s t => ⟨fun h => ?_, fun slot h => ?_⟩ <;> obtain ⟨-, -, rfl⟩ := exec_next_iff.mp h
  · exact (deselect_takes s).called (deselect_clean s) _
  · exact (select_takes slot s).called (select_clean slot s) _

end Sys2Proof.Machine
end

section
namespace Sys2Proof.Machine

/-! ### What a write sends, and the loopback (O40, O43) -/

/-- Settles O40: what XFER_WRITE sends on any device (`xferWrite_sends`), as a call. -/
theorem xferWriteSendsAPrefix : Obligations.XferWriteSendsAPrefix := by
  unfold Obligations.XferWriteSendsAPrefix
  intro b s hb hs
  obtain ⟨es, hsent⟩ := xferWrite_sends Config.hostByteOrder b s
  have hran := hsent.moved.op.ran
  refine ⟨_, (xferWrite Config.hostByteOrder b s).status, exec_next (xferWrite_legal hb) hs, ?_⟩
  rw [effect, newEvents_reportRes hran, reportRes_reports hran]
  exact ⟨rfl, List.mem_pair.mp hsent.moved.op.status, hsent.data, fun hok => (hsent.all hok).1⟩

theorem unpack32_pack32 (order : ByteOrder) (b0 b1 b2 b3 : Byte) :
    unpack32 order (pack32 order b0 b1 b2 b3) = [b0, b1, b2, b3] := by
  obtain ⟨hword, -⟩ := bytePackingIsExact
  exact hword order b0 b1 b2 b3

theorem wordByte_byteWord (b : Byte) : wordByte (byteWord b) = b :=
  (wordByte_eq_lane _).trans (byteWord_fields b).1

/-- A sequence read in `q` blocks of four. -/
theorem flatMap_range_blocks {α : Type} (f : Nat → α) (q : Nat) :
    ((List.range q).flatMap fun j => [f (4 * j), f (4 * j + 1), f (4 * j + 2), f (4 * j + 3)]) =
      (List.range (4 * q)).map f := by
  induction q with
  | zero => rfl
  | succ q ih =>
    rw [List.range_succ, List.flatMap_append, ih, Nat.mul_succ, List.range_add, List.map_append]
    rfl

/-- A byte sequence is its bytes by index. -/
theorem map_byteAt_range (b : List Byte) : (List.range b.length).map (byteAt b) = b := by
  refine List.ext_getElem (by simp) fun i _ hi => ?_
  simp [byteAt, hi]

/-- The bytes that the words of Phase A carry (R115, R116). -/
theorem unpack32_phaseAWords (order : ByteOrder) (b : List Byte) :
    (phaseAWords order b).flatMap (unpack32 order) =
      (List.range (4 * (b.length / 4))).map (byteAt b) := by
  simp only [phaseAWords, List.flatMap_map, unpack32_pack32, flatMap_range_blocks]

/-- The bytes that the words of Phase B carry (R114, R116). -/
theorem wordByte_phaseBWords (b : List Byte) :
    (phaseBWords b).map wordByte =
      (List.range (b.length % 4)).map fun j => byteAt b (4 * (b.length / 4) + j) := by
  simp only [phaseBWords, List.map_map, Function.comp_def, wordByte_byteWord]

/-- The DATA words of a write carry its bytes (R112 to R116). -/
theorem bytesOfWords_sent (order : ByteOrder) (b : List Byte) :
    bytesOfWords order b.length (phaseAWords order b ++ phaseBWords b) = b := by
  have hA : (phaseAWords order b).length = b.length / 4 := by simp [phaseAWords]
  calc bytesOfWords order b.length (phaseAWords order b ++ phaseBWords b)
    _ = (phaseAWords order b).flatMap (unpack32 order) ++ (phaseBWords b).map wordByte := by
      rw [bytesOfWords, ← hA, List.take_left, List.drop_left]
    _ = (List.range (4 * (b.length / 4) + b.length % 4)).map (byteAt b) := by
      rw [unpack32_phaseAWords, wordByte_phaseBWords, List.range_add, List.map_append, List.map_map]
      rfl
    _ = b := by rw [Nat.div_add_mod, map_byteAt_range]

/-- Settles O43: the write sent all its words (`xferWrite_sends`), the read filled its destination with
what it received (`ReadFilled.out_eq`), and those words carry the bytes written (`bytesOfWords_sent`). -/
theorem loopbackReproducesTheBytes : Obligations.LoopbackReproducesTheBytes := by
  unfold Obligations.LoopbackReproducesTheBytes
  intro order b out s t u v _ ho hwrite hread hloop
  obtain ⟨es, hsent⟩ := xferWrite_sends order b s
  obtain ⟨fs, hfill⟩ := xferRead_fills order b.length out u
  rw [hwrite] at hsent
  rw [hread] at hfill
  obtain ⟨hwords, -⟩ := hsent.all rfl
  obtain ⟨hfilled, -⟩ := hfill.all rfl
  have hout : v.out = _ := hfill.out_eq ho
  have hsame : readsFrom .data fs = phaseAWords order b ++ phaseBWords b := by
    rw [← hwords, ← hfill.moved.op.ran.newEvents, ← hsent.moved.op.ran.newEvents]
    exact hloop
  rw [hout, hsame, bytesOfWords_sent, hfilled, ← ho, List.drop_length, List.append_nil]

/-! ### What the data engine leaves unchanged (O59) -/

theorem lastWrite_eq_getLast? (r : Reg) (es : List Event) :
    lastWrite r es = (writesTo r es).getLast? := by
  induction es with
  | nil => rfl
  | cons e es ih =>
    cases e with
    | rd r' v => exact ih
    | wr r' v =>
      rw [lastWrite, writesTo, ih]
      by_cases hr : r' = r
      · rw [if_pos hr, if_pos hr, List.getLast?_cons]
        cases (writesTo r es).getLast? <;> rfl
      · rw [if_neg hr, if_neg hr]
        cases (writesTo r es).getLast? <;> rfl

theorem writesTo_eq_nil_of_reg_ne {r : Reg} {es : List Event} (h : ∀ e ∈ es, e.reg ≠ r) :
    writesTo r es = [] := by
  induction es with
  | nil => rfl
  | cons e es ih =>
    obtain ⟨he, hes⟩ := List.forall_mem_cons.mp h
    cases e with
    | rd r' v => exact ih hes
    | wr r' v => exact (if_neg he).trans (ih hes)

/-- A latch that is not written stays (R54). -/
theorem Ran.latch_of_no_write {s t : State} {es : List Event} (h : Ran s t es) {r : Reg}
    (hw : writesTo r es = []) : t.window.get r = s.window.get r := by
  rw [h.latch, lastWrite_eq_getLast?, hw]
  rfl

/-- The poller, the chip-select sequencer and the engine reach the latches of CS and DATA alone (R97,
R107, R112, R113). -/
theorem OpRan.window_io {E : List Status} {s : State} {r : Res} {es : List Event}
    (h : OpRan ioRegs E s r es) : r.state.window =
      { s.window with cs := r.state.window.cs, data := r.state.window.data } := by
  have hkept {reg : Reg} (hreg : reg ∉ ioRegs) : r.state.window.get reg = s.window.get reg :=
    h.ran.latch_of_no_write <| writesTo_eq_nil_of_reg_ne fun e he heq => hreg (heq ▸ h.regs e he)
  rw [Window.mk.injEq]
  exact ⟨hkept (reg := .cfg) (by decide), hkept (reg := .cfg2) (by decide), rfl, rfl,
    hkept (reg := .data2) (by decide)⟩

/-- What both directions of the engine leave unchanged, the operations in progress apart (R112, R113). -/
theorem Moved.frame {s : State} {r : Res} {es : List Event} (h : Moved s r es) :
    r.state.handle = s.handle ∧ r.state.seq = s.seq ∧ r.state.buffers = s.buffers ∧
    r.state.calls = s.calls ∧
    r.state.w = { s.w with
      poll := r.state.w.poll, cs := r.state.w.cs, i := r.state.w.i, word := r.state.w.word } ∧
    r.state.window = { s.window with cs := r.state.window.cs, data := r.state.window.data } :=
  ⟨h.handle, h.op.seq, h.op.buffers, h.op.ran.calls, h.w, h.op.window_io⟩

/-- A read leaves its destination's length, and what lies beyond the bytes received (R118). -/
theorem ReadFilled.out_frame {order : ByteOrder} {n : Nat} {out : List Byte} {s : State} {r : Res}
    {es : List Event} (h : ReadFilled order n out s r es) (ho : out.length = n) :
    r.state.out.length = n ∧ r.state.out.drop r.state.filled = out.drop r.state.filled := by
  refine ⟨by rw [h.out, length_putBytes, ho], ?_⟩
  rw [h.out_eq ho, ← h.length, List.drop_left]

/-- Settles O59: the frame of both directions (`Moved.frame`); a write keeps the destination in hand
(`xferWrite_sends`), and a read, which writes no DATA word, the rest of its own (`ReadFilled.out_frame`). -/
theorem frameOfDataOperations : Obligations.FrameOfDataOperations := by
  unfold Obligations.FrameOfDataOperations
  intro i s t hi h
  obtain ⟨-, hlegal, rfl⟩ := exec_next_iff.mp h
  rcases hi with ⟨b, rfl⟩ | ⟨n, out, rfl⟩
  · obtain ⟨es, hsent⟩ := xferWrite_sends Config.hostByteOrder b s
    obtain ⟨-, -, hops⟩ := xferWrite_opRan Config.hostByteOrder b s
    obtain ⟨hhandle, hseq, hbuffers, hcalls, hw, hwindow⟩ := hsent.moved.frame
    exact ⟨hhandle, hseq, hops, hbuffers, hcalls, hw, hwindow, fun _ => hsent.out, nofun⟩
  · obtain ⟨es, hfill⟩ := xferRead_fills Config.hostByteOrder n out s
    obtain ⟨-, -, hops⟩ := xferRead_opRan Config.hostByteOrder n out s
    obtain ⟨hhandle, hseq, hbuffers, hcalls, hw, hwindow⟩ := hfill.moved.frame
    obtain ⟨-, -, hlen⟩ := illegalLength_none hlegal
    refine ⟨hhandle, hseq, hops, hbuffers, hcalls, hw, hwindow, nofun, fun n' out' heq => ?_⟩
    cases heq
    exact ⟨hfill.moved.op.ran.latch_of_no_write hfill.wrote, hfill.out_frame (hlen out rfl)⟩

end Sys2Proof.Machine
end

section
namespace Sys2Proof.Machine

/-! ### A message on a ready device (O45) -/

/-- Sequencing, where the second part's accesses are told by the answers left after the first. -/
theorem Goes.andThen_answers {s : State} {r : Res} {a b : List Item} {P Q : State → Prop}
    {g : State → Res} (h : readyAt s 0 (a ++ b) = true) (h1 : readyAt s 0 a = true → Goes s r a P)
    (h2 : ∀ t, (∀ k, t.answerAt k = s.answerAt (readCount a + k)) → P t →
      readyAt t 0 b = true → Goes t (g t) b Q) :
    Goes s (r.andThen g) (a ++ b) Q := by
  refine Goes.andThen (P := fun t => (∀ k, t.answerAt k = s.answerAt (readCount a + k)) ∧ P t) h
    (fun hr => ?_) fun t ⟨hans, hP⟩ => h2 t hans hP
  obtain ⟨t, ht, hran, hP⟩ := h1 hr
  exact ⟨t, ht, hran, Goes.answerAt hran, hP⟩

/-- The state an operation ended in, with how it ended: what else is known of that end can be added. -/
theorem Goes.and_eq {s : State} {r : Res} {is : List Item} {P : State → Prop} (h : Goes s r is P) :
    Goes s r is fun t => P t ∧ r = .ok t := by
  obtain ⟨t, ht, hran, hP⟩ := h
  exact ⟨t, ht, hran, hP, ht⟩

/-- A message under way: its handle and destinations so far, and no error taken. -/
structure Underway (hnd : Option Handle) (bufs : List (Option (List Byte))) (t : State) : Prop where
  handle : t.handle = hnd
  buffers : t.buffers = bufs
  status : t.w.status = .ok

section
variable {order : ByteOrder} {m : Message} {s : State} {hnd : Option Handle}
  {bufs : List (Option (List Byte))}

theorem SelKept.underway {v : Word} {t : State} (hk : SelKept v s t) (hs : Underway hnd bufs s) :
    Underway hnd bufs t where
  handle := (congrArg State.handle hk.same).trans hs.handle
  buffers := (congrArg State.buffers hk.same).trans hs.buffers
  status := (congrArg (fun u : State => u.w.status) hk.same).trans hs.status

theorem SelKept.cs {v : Word} {t : State} (hk : SelKept v s t) : t.window.cs = v :=
  congrArg (fun u : State => u.window.cs) hk.same

/-- AwaitReady on a ready device (R122). -/
theorem awaitStage_goes (hr : readyAt s 0 [.wait] = true) :
    Goes s (awaitStage m s) [.wait] (Underway s.handle (m.xfers.map Descriptor.rx)) := by
  have hstart : Ran s (startMessage m s) [] := (startMessage_head m s).ran
  rw [← hstart.readyAt] at hr
  refine Goes.after hstart ((wait_goes hr).mono ?_)
  rintro _ rfl
  exact ⟨rfl, rfl, rfl⟩

theorem ran_enterPrepared (m : Message) (s : State) : Ran s (enterPrepared m s) [] :=
  (((((ran_atLine .transfer 4 s).then_same (ran_enterPhase .prepared _)).line .transfer 5).line
    .transfer 6).then_same (ran_setW _ _)).line .transfer 7

/-- Prepared, for a speed in range (R100, R123). -/
theorem prepareStage_goes (hz : 12500000 ≤ messageSpeed m) (hs : Underway hnd bufs s) :
    Goes s (prepareStage m s) (negotiateItems (messageSpeed m) (s.answerAt 0))
      (Underway (hnd.map fun x => { x with lastSpeedHz := messageSpeed m }) bufs) := by
  obtain ⟨es, hop, -⟩ := negotiate_opRan (messageSpeed m) (enterPrepared m s)
  have hgo := (negotiate_goes hz (enterPrepared m s)).and_eq
  refine Goes.after (ran_enterPrepared m s) (hgo.mono fun t ⟨hh, ht⟩ => ?_)
  rw [ht] at hop
  obtain ⟨-, -, hstatus⟩ := hop.message
  exact ⟨by rw [hh, ← hs.handle]; rfl, hop.buffers.trans hs.buffers, hstatus.trans hs.status⟩

theorem ran_enterSelected (s : State) : Ran s (enterSelected s) [] :=
  ((ran_atLine .transfer 8 s).then_same (ran_enterPhase .selected _)).line .transfer 9

/-- Selected on a ready device (R121). -/
theorem selectStage_goes (hs : Underway hnd bufs s)
    (hr : readyAt s 0 (selectItems m.slot) = true) :
    Goes s (selectStage m s) (selectItems m.slot) (Underway hnd bufs) := by
  rw [← (ran_enterSelected s).readyAt] at hr
  exact Goes.after (ran_enterSelected s) ((select_goes hr).mono fun t ⟨hkept, _⟩ =>
    hkept.underway ⟨hs.handle, hs.buffers, hs.status⟩)

theorem runXfers_handle (order : ByteOrder) (ds : List Descriptor) (k : Nat) (s : State) :
    (runXfers order k ds s).state.handle = s.handle := by
  induction ds generalizing k s with
  | nil => rfl
  | cons d ds ih =>
    rw [runXfers_cons]
    have hx : (xferStage order k d s).state.handle = s.handle := by
      unfold xferStage
      split
      · rfl
      · exact runEngine_handle order k d _
    cases hr : xferStage order k d s with
    | raise e t => rw [hr] at hx; exact hx
    | ok t => rw [hr] at hx; exact (ih _ _).trans hx

/-- The Transferring states on a ready device (R121, R125, R41). -/
theorem xfersStage_goes (hlegal : m.illegal = none) (hone : ∀ d ∈ m.xfers, d.tx = none ∨ d.rx = none)
    (hs : Underway hnd (m.xfers.map Descriptor.rx) s)
    (hr : readyAt s 0 (xfersItems order s 0 m.xfers) = true) :
    Goes s (runXfers order 0 m.xfers s) (xfersItems order s 0 m.xfers)
      (Underway hnd (buffersAfter order s 0 m.xfers)) := by
  obtain ⟨st, e, hran⟩ := runXfers_ran order m.xfers 0 s
  have hhandle := runXfers_handle order m.xfers 0 s
  have hgo := (runXfers_goes (order := order) m.xfers [] s (message_legal hlegal) hone hs.buffers hr).and_eq
  refine hgo.mono fun t ⟨hb, ht⟩ => ?_
  change runXfers order 0 m.xfers s = .ok t at ht
  rw [ht] at hran hhandle
  obtain ⟨-, hstatus⟩ := hran.kept
  exact ⟨hhandle.trans hs.handle, hb, hstatus.trans hs.status⟩

theorem ran_enterDeselected (s : State) : Ran s (enterDeselected s) [] :=
  ((ran_atLine .transfer 20 s).then_same (ran_enterPhase .deselected _)).line .transfer 21

/-- Deselected on a ready device: CS_DESEL_BOTH is latched last (R107, R126). -/
theorem deselectStage_goes (hs : Underway hnd bufs s) (hr : readyAt s 0 pulseItems = true) :
    Goes s (deselectStage s) pulseItems fun t => Underway hnd bufs t ∧ t.window.cs = 0xC0000000#32 := by
  rw [← (ran_enterDeselected s).readyAt] at hr
  exact Goes.after (ran_enterDeselected s) ((deselect_goes hr).mono fun t ⟨hkept, _⟩ =>
    ⟨hkept.underway ⟨hs.handle, hs.buffers, hs.status⟩, hkept.cs⟩)

/-- AwaitReady, Prepared and Selected (R121). -/
def headStages (m : Message) (s : State) : Res :=
  (awaitStage m s).andThen fun t => (prepareStage m t).andThen (selectStage m)

/-- A message up to its first descriptor, on a ready device (R121). -/
theorem headStages_goes (hz : 12500000 ≤ messageSpeed m)
    (hr : readyAt s 0 (headItems m s) = true) :
    Goes s (headStages m s) (headItems m s)
      (Underway (s.handle.map fun x => { x with lastSpeedHz := messageSpeed m })
        (m.xfers.map Descriptor.rx)) := by
  unfold headItems at hr ⊢
  rw [List.append_assoc] at hr ⊢
  refine Goes.andThen_answers hr awaitStage_goes fun t hans ht hr => ?_
  have h1 : s.answerAt 1 = t.answerAt 0 := (hans 0).symm
  rw [h1] at hr ⊢
  exact Goes.andThen hr (fun _ => prepareStage_goes hz ht) fun u hu => selectStage_goes hu

theorem runMessage_eq_head (order : ByteOrder) (m : Message) (s : State) :
    runMessage order m (startMessage m s) = (headStages m s).andThen fun t =>
      (runXfers order 0 m.xfers (atLine .transfer 10 t)).andThen deselectStage := by
  rw [runMessage_eq, headStages, Res.andThen_assoc]
  simp only [Res.andThen_assoc]

/-- A whole message on a ready device (R121). -/
theorem runMessage_goes (hlegal : m.illegal = none) (hz : 12500000 ≤ messageSpeed m)
    (hone : ∀ d ∈ m.xfers, d.tx = none ∨ d.rx = none)
    (hr : readyAt s 0 (messageItems order m s) = true) :
    Goes s (runMessage order m (startMessage m s)) (messageItems order m s) fun t =>
      Underway (s.handle.map fun x => { x with lastSpeedHz := messageSpeed m })
        (buffersAfter order s 6 m.xfers) t ∧ t.window.cs = 0xC0000000#32 := by
  rw [runMessage_eq_head]
  unfold messageItems at hr ⊢
  rw [List.append_assoc] at hr ⊢
  refine Goes.andThen_answers hr (headStages_goes hz) fun t hans ht hr => ?_
  have hline := ran_atLine .transfer 10 t
  rw [← hline.readyAt] at hr
  refine Goes.after hline ?_
  have hu : Underway _ _ (atLine .transfer 10 t) := ⟨ht.handle, ht.buffers, ht.status⟩
  have hsix : ∀ k, (atLine .transfer 10 t).answerAt k = s.answerAt (6 + k) := hans
  generalize atLine .transfer 10 t = u at hr hu hsix ⊢
  have hitems : xfersItems order s 6 m.xfers = xfersItems order u 0 m.xfers :=
    (xfersItems_shift hsix m.xfers 0).symm
  have hbufs : buffersAfter order s 6 m.xfers = buffersAfter order u 0 m.xfers :=
    (buffersAfter_shift hsix m.xfers 0).symm
  rw [hitems] at hr ⊢
  rw [hbufs]
  exact Goes.andThen hr (xfersStage_goes hlegal hone hu) fun v hv => deselectStage_goes hv

end

/-- The state a message leaves just before Done (R121, R138). -/
def beforeDone (m : Message) (s : State) : State :=
  catchError (runMessage Config.hostByteOrder m (startMessage m s))

theorem effect_transfer (m : Message) (s : State) : effect (.transfer m) s =
    leaveOp .transfer (beforeDone m s).w.status (finishMessage (beforeDone m s)) := rfl

/-- What Done, Idle and the report leave as it was (R127). -/
theorem effect_transfer_kept (m : Message) (s : State) :
    (effect (.transfer m) s).w = (beforeDone m s).w ∧
    (effect (.transfer m) s).buffers = (beforeDone m s).buffers ∧
    (effect (.transfer m) s).window = (beforeDone m s).window ∧
    (effect (.transfer m) s).handle = (beforeDone m s).handle ∧
    (effect (.transfer m) s).trace = (beforeDone m s).trace := by
  rw [effect_transfer]
  generalize beforeDone m s = u
  exact ⟨rfl, rfl, rfl, rfl, rfl⟩

/-- A message reports once, with W.status and W.actual (R127). -/
theorem effect_transfer_reports (m : Message) (s : State) : (effect (.transfer m) s).reports =
    s.reports ++ [⟨(beforeDone m s).w.status,
      .message (beforeDone m s).w.actual (beforeDone m s).buffers⟩] := by
  obtain ⟨st, e, hm⟩ := transfer_ran Config.hostByteOrder m s
  rw [← hm.ran.reports]
  rfl

/-- The end of a message gives its status, its count and its states (R121, R125, R140). -/
theorem beforeDone_end (m : Message) (s : State) : ∃ e : MessageEnd, e ≠ .xfers .all ∧
    (beforeDone m s).w.status = e.status ∧
    (beforeDone m s).w.actual = bytesOfFirst (e.done m.xfers.length) m ∧
    phasesOf (newMarks s (effect (.transfer m) s)) = e.phases m.xfers.length ++ [.done, .idle] := by
  obtain ⟨st, e, hm⟩ := transfer_ran Config.hostByteOrder m s
  exact ⟨e, hm.notAll, hm.status, hm.actual, hm.phases (hm.staged.trans (staged_finish _ _))⟩

/-- A message that ended with Ok completed every descriptor (R125). -/
theorem MessageEnd.done_of_ok {e : MessageEnd} (ha : e ≠ .xfers .all) (h : e.status = .ok) (n : Nat) :
    e.done n = n := by
  cases e with
  | success => rfl
  | xfers x =>
    cases x with
    | all => exact absurd rfl ha
    | timedOut j | conflict j => cases h
  | _ => cases h

/-- Settles O45: the accesses, destinations, speed and lines by `runMessage_goes`; the count and the
states are those of the end that has status Ok (`beforeDone_end`). -/
theorem transferSucceedsWhenReady : Obligations.TransferSucceedsWhenReady := by
  unfold Obligations.TransferSucceedsWhenReady
  intro m s hw hs hz hone hr
  have hlegal : m.illegal = none := wf_iff.mp hw
  obtain ⟨v, hv, hran, hunder, hcs⟩ := runMessage_goes hlegal hz hone hr
  have hdone : beforeDone m s = v := by rw [beforeDone, Config.hostByteOrder, hv]; rfl
  obtain ⟨e, hnotAll, hstatus, hactual, hphases⟩ := beforeDone_end m s
  obtain ⟨-, -, hwindow, hhandle, htrace⟩ := effect_transfer_kept m s
  have hreports := effect_transfer_reports m s
  rw [hdone] at hstatus hactual hwindow hhandle htrace hreports
  have hok : e.status = .ok := hstatus.symm.trans hunder.status
  refine ⟨_, exec_next hlegal hs, ?_, htrace.trans hran.trace, ?_, hhandle.trans hunder.handle, ?_⟩
  · rw [hreports, hunder.status, hunder.buffers, hactual, MessageEnd.done_of_ok hnotAll hok,
      bytesOfFirst, List.take_length]
  · rw [State.lines, hwindow, hcs]
    decide
  · rw [hphases, MessageEnd.phases_of_ok hnotAll hok]

end Sys2Proof.Machine
end

section
namespace Sys2Proof.Machine

/-! ### A conflicting descriptor (O48) -/

/-- What a call below TRANSFER reports (R132, R134, R135). -/
theorem effect_status {i : Instr} (hi : ∀ m, i ≠ .transfer m) (s : State) : ∃ st a,
    (effect i s).reports = s.reports ++ [⟨st, a⟩] ∧ st ∈ [Status.ok, .timedOut, .invalidSpeed] := by
  have hread (r : Reg) : (readCall r s).reports = s.reports ++ [⟨.ok, .word (s.answerAt 0)⟩] :=
    congrArg State.reports (readCall_eq_didRead r s)
  have hwrite (r : Reg) (v : Word) : (writeCall r v s).reports = s.reports ++ [⟨.ok, .none⟩] :=
    congrArg State.reports (writeCall_eq_wrote r v s)
  have hop {R : List Reg} {E : List Status} {r : Res} {es : List Event} (answer : State → Answer)
      (h : OpRan R E s r es) (hE : E ⊆ [Status.ok, .timedOut, .invalidSpeed]) : ∃ st a,
      (reportRes r answer).reports = s.reports ++ [⟨st, a⟩] ∧
        st ∈ [Status.ok, .timedOut, .invalidSpeed] :=
    ⟨_, _, reportRes_reports h.ran answer, hE h.status⟩
  have hwaiting := effect_waiting (i := i) (s := s)
  cases i with
  | transfer m => exact absurd rfl (hi m)
  | rdCfg | rdCfg2 | rdCs | rdData | rdData2 => exact ⟨_, _, hread _, by simp⟩
  | wrCfg v | wrCfg2 v | wrCs v | wrData v | wrData2 v => exact ⟨_, _, hwrite _ v, by simp⟩
  | csDeselBoth | csAssertBoth | csSel0 | csSel1 | csLen4 | csLen1 | cfgDiv | dataByte | dataWord =>
    exact ⟨_, _, hwrite _ _, by simp⟩
  | waitReady | deselect | select | xferWrite | xferRead =>
    obtain ⟨r, answer, es, heff, h⟩ := hwaiting (by simp)
    rw [heff]
    exact hop answer h (by simp)
  | negotiate hz =>
    obtain ⟨es, h, -⟩ := negotiate_opRan hz s
    exact hop (fun _ => .none) h (by simp)
  | setup hz => exact hop (fun _ => setupAnswer hz) (setup_opRan hz s) (by simp)
  | maxXferSize => exact hop (fun _ => .size Config.maxXfer) (maxXferSize_opRan s) (by simp)

/-- A report shows its status. -/
theorem status_eq_of_reports {s t : State} {x y : Report} (hx : t.reports = s.reports ++ [x])
    (hy : t.reports = s.reports ++ [y]) : x.status = y.status := by
  have := List.append_cancel_left (hx.symm.trans hy)
  rw [List.singleton_inj.mp this]

theorem MessageEnd.eq_conflict {e : MessageEnd} (h : e.status = .conflictingTransfer) :
    ∃ j, e = .xfers (.conflict j) := by
  cases e with
  | xfers x =>
    cases x with
    | conflict j => exact ⟨j, rfl⟩
    | all | timedOut j => cases h
  | _ => cases h

/-- A state's entry stands in the record (R32). -/
theorem mem_of_mem_entriesOf {n : Nat} {p : Phase} {ms : List Mark} (h : (n, p) ∈ entriesOf ms) :
    ⟨n, .phase p⟩ ∈ ms := by
  induction ms with
  | nil => cases h
  | cons m ms ih =>
    obtain ⟨c, q | o | o | o⟩ := m
    case phase =>
      rcases List.mem_cons.mp h with h | h
      · cases h
        exact List.mem_cons_self ..
      · exact List.mem_cons_of_mem _ (ih h)
    all_goals exact List.mem_cons_of_mem _ (ih h)

/-- A stage's entry stands in the record, after the accesses of the stages before it. -/
theorem Staged.mem_newMarks {s t : State} {a b : List (Phase × List Event)} {p : Phase}
    {es : List Event} (h : Staged s t (a ++ (p, es) :: b)) :
    ⟨s.trace.length + (stageEvents a).length, .phase p⟩ ∈ newMarks s t := by
  obtain ⟨ms, hlog, hentries, -⟩ := h.log
  rw [newMarks, hlog, List.drop_left]
  refine mem_of_mem_entriesOf ?_
  rw [hentries, entriesAt_append]
  exact List.mem_append_right _ (List.mem_cons_self ..)

/-- A descriptor that asks for both directions (R124). -/
theorem asksBoth_iff {d : Descriptor} :
    (d.tx.isSome && d.rx.isSome) = true ↔ d.tx ≠ none ∧ d.rx ≠ none := by
  simp [Option.isSome_iff_ne_none]

/-- The Transferring states a message entered, by its end. -/
theorem MessageRan.transferring_mem {m : Message} {order : ByteOrder} {s t u : State}
    {st : List (Phase × List Event)} {e : MessageEnd} (hm : MessageRan order m s u st e)
    (hst : Staged s t (st ++ [(.done, []), (.idle, [])])) (k : Nat) :
    Phase.transferring k ∈ phasesOf (newMarks s t) ↔
      Phase.transferring k ∈ e.phases m.xfers.length := hm.mem_phases hst nofun nofun

/-- Settles O48: below TRANSFER by `effect_status`; in TRANSFER the status is that of one end, whose
stages stop at the entry of the conflicting descriptor's state (`MessageRan.conflict`,
`MessageRan.conflicting`). -/
theorem conflictingDescriptorEndsTheMessage : Obligations.ConflictingDescriptorEndsTheMessage := by
  unfold Obligations.ConflictingDescriptorEndsTheMessage
  refine ⟨fun i s t a h hr => ?_, fun m s t a h hr => ?_, fun m s t j d h hd htx hrx hj => ?_⟩
  · by_contra hi
    obtain ⟨-, -, rfl⟩ := exec_next_iff.mp h
    obtain ⟨st, b, hst, hmem⟩ := effect_status (fun m hm => hi ⟨m, hm⟩) s
    rw [show st = .conflictingTransfer from status_eq_of_reports hst hr] at hmem
    simp at hmem
  · obtain ⟨st, e, u, hm, -, hst, -, hrep⟩ := transfer_cases h
    obtain ⟨j, rfl⟩ := MessageEnd.eq_conflict (status_eq_of_reports hrep hr)
    obtain ⟨⟨d, hd, hboth⟩, -⟩ := hm.conflicting j rfl
    obtain ⟨htx, hrx⟩ := asksBoth_iff.mp hboth
    refine ⟨j, d, hd, htx, hrx, (hm.transferring_mem hst j).mpr ?_⟩
    exact mem_phases_transferring.mpr (Nat.lt_succ_self j)
  · obtain ⟨st, e, u, hm, -, hst, -, hrep⟩ := transfer_cases h
    obtain rfl := hm.conflict j d hd ((hm.transferring_mem hst j).mp hj) (asksBoth_iff.mpr ⟨htx, hrx⟩)
    obtain ⟨-, st', rfl⟩ := hm.conflicting j rfl
    refine ⟨hrep, ?_, fun j' hj' => ?_, ?_⟩
    · rw [List.append_assoc] at hst
      have hlen : t.trace.length = s.trace.length + (stageEvents st').length := by
        simp [hst.trace]
      exact hlen ▸ hst.mem_newMarks
    · rw [hm.transferring_mem hst, mem_phases_transferring]
      exact Nat.not_lt.mpr hj'
    · rw [hm.mem_phases hst (p := .deselected) nofun nofun, deselected_mem_phases]
      exact nofun

end Sys2Proof.Machine
end

section
namespace Sys2Proof.Machine

/-! ### The message speed, slow speeds, Done, and MAX_XFER_SIZE (O44, O47, O50, O53) -/

/-- The speeds that a message's descriptors specify (R123). -/
def specifiedSpeeds (m : Message) : List Nat := (m.xfers.map Descriptor.speedHz).filter (· ≠ 0)

theorem mem_specifiedSpeeds {m : Message} {hz : Nat} :
    hz ∈ specifiedSpeeds m ↔ ∃ d ∈ m.xfers, d.speedHz ≠ 0 ∧ d.speedHz = hz := by
  simp only [specifiedSpeeds, List.mem_filter, List.mem_map, decide_eq_true_eq]
  constructor
  · rintro ⟨⟨d, hd, rfl⟩, h0⟩
    exact ⟨d, hd, h0, rfl⟩
  · rintro ⟨d, hd, h0, rfl⟩
    exact ⟨⟨d, hd, rfl⟩, h0⟩

theorem messageSpeed_eq_min? (m : Message) :
    messageSpeed m = (specifiedSpeeds m).min?.getD m.ceilingHz := by
  unfold messageSpeed specifiedSpeeds
  cases (m.xfers.map Descriptor.speedHz).filter (· ≠ 0) with
  | nil => rfl
  | cons f fs => rw [List.min?_cons', Option.getD_some]

/-- Settles O44: the message speed is the least element of the specified speeds, where there is one
(`messageSpeed_eq_min?`). -/
theorem messageSpeedIsTheLeastSpecified : Obligations.MessageSpeedIsTheLeastSpecified := by
  unfold Obligations.MessageSpeedIsTheLeastSpecified
  refine fun m => ⟨fun hnone => ?_, fun ⟨d, hd, h0⟩ => ?_⟩
  · have hnil : specifiedSpeeds m = [] := List.eq_nil_iff_forall_not_mem.mpr fun hz hmem => by
      obtain ⟨d, hd, h0, -⟩ := mem_specifiedSpeeds.mp hmem
      exact h0 (hnone d hd)
    rw [messageSpeed_eq_min?, hnil]
    rfl
  · have hmem := mem_specifiedSpeeds.mpr ⟨d, hd, h0, rfl⟩
    cases hmin : (specifiedSpeeds m).min? with
    | none => simp [List.min?_eq_none_iff.mp hmin] at hmem
    | some hz =>
      obtain ⟨hin, hle⟩ := List.min?_eq_some_iff.mp hmin
      rw [messageSpeed_eq_min?, hmin]
      exact ⟨mem_specifiedSpeeds.mp hin, fun t ht ht0 =>
        hle _ (mem_specifiedSpeeds.mpr ⟨t, ht, ht0, rfl⟩)⟩

/-- The state in which a message calls NEGOTIATE, after a wait of `k` polls: only its reads were made
(R122, R123). -/
theorem enterPrepared_polled (m : Message) (s : State) (k : Nat) :
    let u := enterPrepared m ((awaiting m s).polled k)
    u.w.actual = 0 ∧ u.buffers = m.xfers.map Descriptor.rx ∧ u.window = s.window ∧
      u.handle = s.handle ∧ u.trace = s.trace ++ polls s k := by
  have hentered (t : State) : (enterPrepared m t).w.actual = t.w.actual ∧
      (enterPrepared m t).buffers = t.buffers ∧ (enterPrepared m t).window = t.window ∧
      (enterPrepared m t).handle = t.handle ∧ (enterPrepared m t).trace = t.trace :=
    ⟨rfl, rfl, rfl, rfl, rfl⟩
  exact hentered ((awaiting m s).polled k)

/-- A message too slow for the divider, once its wait succeeded at poll `k + 1`: NEGOTIATE raises in
Prepared, and the message takes the error with nothing counted and only the wait's reads made (R123,
R135). -/
theorem beforeDone_slow {m : Message} {s : State} {k : Nat} (hz : messageSpeed m < 12500000)
    (hk : k < Config.pollLimit) (hb : BusyFor s k) (hr : rdy (s.answerAt k) = true) :
    (beforeDone m s).w.status = .invalidSpeed ∧ (beforeDone m s).w.actual = 0 ∧
    (beforeDone m s).buffers = m.xfers.map Descriptor.rx ∧ (beforeDone m s).window = s.window ∧
    (beforeDone m s).handle = s.handle ∧ (beforeDone m s).trace = s.trace ++ polls s (k + 1) := by
  have hwait : awaitStage m s = .ok ((awaiting m s).polled (k + 1)) :=
    waitReady_first (s := awaiting m s) hk hb hr
  have hentered := enterPrepared_polled m s (k + 1)
  rw [beforeDone, runMessage_eq, hwait, Res.andThen_ok, prepareStage]
  generalize enterPrepared m ((awaiting m s).polled (k + 1)) = u at hentered
  obtain ⟨l, q, hslow⟩ := negotiate_slow hz u
  rw [hslow]
  exact ⟨rfl, hentered⟩

/-- Settles O47: what the message leaves before Done is that of `beforeDone_slow`, and the states entered
are those of the end with status InvalidSpeed. -/
theorem transferRejectsSlowSpeeds : Obligations.TransferRejectsSlowSpeeds := by
  unfold Obligations.TransferRejectsSlowSpeeds
  intro m s k hw hs hz hk hb hr
  obtain ⟨hstatus, hactual, hbuffers, hwin, hhan, hpolls⟩ := beforeDone_slow hz hk hb hr
  obtain ⟨e, hnotAll, hend, -, hphases⟩ := beforeDone_end m s
  obtain ⟨-, -, hwindow, hhandle, htrace⟩ := effect_transfer_kept m s
  have hslow : e.status = .invalidSpeed := hend.symm.trans hstatus
  refine ⟨_, exec_next (wf_iff.mp hw) hs, ?_, ?_, hwindow.trans hwin, hhandle.trans hhan, ?_⟩
  · rw [newEvents, htrace, hpolls, List.drop_left]
    rfl
  · rw [effect_transfer_reports, hstatus, hactual, hbuffers]
  · rw [hphases, (MessageEnd.invalidSpeed_iff hnotAll).mp hslow]
    rfl

theorem MessageEnd.done_not_mem (e : MessageEnd) (n : Nat) : Phase.done ∉ e.phases n := by
  cases e <;> simp [MessageEnd.phases, phaseOrder]

/-- Settles O50: the report is the one of Done (`effect_transfer_reports`), and Done stands in the record
after the states of the message's end, of which it is none. -/
theorem doneIsReachedExactlyOnce : Obligations.DoneIsReachedExactlyOnce := by
  unfold Obligations.DoneIsReachedExactlyOnce
  intro m s hw hs
  obtain ⟨hw', hbuffers, -⟩ := effect_transfer_kept m s
  obtain ⟨e, -, -, -, hphases⟩ := beforeDone_end m s
  refine ⟨_, exec_next (wf_iff.mp hw) hs, ?_, ?_, effect_accepting _ hs⟩
  · rw [hw', hbuffers]
    exact effect_transfer_reports m s
  · rw [hphases, List.count_append, List.count_eq_zero.mpr (e.done_not_mem _)]
    rfl

/-- Settles O53: MAX_XFER_SIZE changes the record alone, and a message that runs has no descriptor
above MAX_XFER (`message_legal`, `Descriptor.illegal_ne_none`). -/
theorem maxXferSizeIs256 : Obligations.MaxXferSizeIs256 := by
  unfold Obligations.MaxXferSizeIs256
  refine ⟨fun s hs => ⟨_, exec_next rfl hs, rfl⟩, rfl, fun m s t ⟨d, hd, hlong⟩ h => ?_⟩
  obtain ⟨-, hlegal, -⟩ := exec_next_iff.mp h
  exact Descriptor.illegal_ne_none (.inl hlong) (message_legal hlegal d hd)

end Sys2Proof.Machine
end

section
namespace Sys2Proof.Machine

/-! ### The accesses of a message (O52)

Upper bounds only: each is a `Takes` with nothing asked from below. -/

section
variable {a b : Nat} {o : OpName} {n : Nat} {s t : State} {r : Res}

theorem Takes.mono {c d : Nat} (h : Takes a b s r) (hc : c ≤ a) (hd : b ≤ d) : Takes c d s r := by
  obtain ⟨es, hran, hle, hge⟩ := h
  exact ⟨es, hran, hle.trans hd, fun t ht => hc.trans (hge t ht)⟩

/-- A change that makes no access, and then an operation. -/
theorem Takes.free (g : Takes a b t r) (h : Ran s t []) : Takes a b s r := by
  simpa using g.after h

theorem Takes.mapState {f : State → State} (h : Takes a b s r) (hf : ∀ t, Ran t (f t) []) :
    Takes a b s (r.mapState f) := by
  obtain ⟨es, hran, hle, hge⟩ := h
  refine ⟨es, by rw [Res.state_mapState]; exact hran.then_same (hf _), hle, fun t ht => ?_⟩
  cases r with
  | ok u => exact hge u rfl
  | raise e u => cases ht

/-- An end without an access. -/
theorem takes_none (h : Ran s r.state []) : Takes 0 b s r :=
  ⟨[], h, Nat.zero_le _, fun _ _ => Nat.zero_le _⟩

/-- A readiness wait, called at a line, makes at most POLL_LIMIT accesses (R98). -/
theorem waitAt_takes (o : OpName) (n : Nat) (s : State) : Takes 0 2000 s (waitAt o n s) :=
  ((waitReady_takes _).free (ran_atLine o n s)).mono (Nat.zero_le _) (Nat.le_refl _)

/-- A readiness wait and the access after it. -/
theorem unit_takes {f : State → State} {e : State → Event} (hran : ∀ t, Ran t (f t) [e t])
    (s : State) : Takes 0 2001 s ((waitAt o n s).andThen fun t => .ok (f t)) :=
  (waitAt_takes o n s).andThen (c := 0) (d := 1) fun t _ =>
    ⟨_, hran t, Nat.le_refl _, fun _ _ => Nat.zero_le _⟩

/-- A loop of waits, each followed by one access. -/
theorem loop_takes {step : State → State} {e : State → Event} {loop : Nat → State → Res}
    (hran : ∀ t, Ran t (step t) [e t]) (h0 : ∀ s, loop 0 s = .ok s)
    (hs : ∀ k s, loop (k + 1) s = ((waitAt o n s).andThen fun t => .ok (step t)).andThen (loop k))
    (k : Nat) (s : State) : Takes 0 (k * 2001) s (loop k s) := by
  induction k generalizing s with
  | zero => rw [h0]; exact takes_none (.refl s)
  | succ k ih =>
    rw [hs]
    exact ((unit_takes hran s).andThen fun t _ => ih t).mono (Nat.le_refl _) (by omega)

end

/-! #### The data engine -/

/-- The bound on the accesses of one engine run of `n` bytes (R130): the CS read, and a wait and an
access for each of the two length switches, each word of Phase A and each byte of Phase B. -/
def engineBound (n : Nat) : Nat := 1 + (2 + n / 4 + n % 4) * 2001

theorem startTransfer_takes (o : OpName) (s : State) : Takes 0 2002 s (startTransfer o s) :=
  ((unit_takes (ran_putLen4 o) (tookCs o s)).after (ran_tookCs o s)).mono (Nat.zero_le _)
    (Nat.le_refl _)

theorem startPhaseB_takes (o : OpName) (s : State) : Takes 0 2001 s (startPhaseB o s) :=
  unit_takes (ran_putLen1 o) s

theorem writeWords_takes (order : ByteOrder) (b : List Byte) (k : Nat) (s : State) :
    Takes 0 (k * 2001) s (writeWords order b k s) :=
  loop_takes (ran_putWord order b) (fun _ => rfl) (writeWords_succ order b) k s

theorem writeBytes_takes (b : List Byte) (k : Nat) (s : State) :
    Takes 0 (k * 2001) s (writeBytes b k s) :=
  loop_takes (ran_putByte b) (fun _ => rfl) (writeBytes_succ b) k s

theorem readWords_takes (order : ByteOrder) (k : Nat) (s : State) :
    Takes 0 (k * 2001) s (readWords order k s) :=
  loop_takes (ran_getData 7 5 (unpack32 order)) (fun _ => rfl) (readWords_succ order) k s

theorem readBytes_takes (k : Nat) (s : State) : Takes 0 (k * 2001) s (readBytes k s) :=
  loop_takes (ran_getData 14 12 fun w => [wordByte w]) (fun _ => rfl) readBytes_succ k s

theorem xferWrite_takes (order : ByteOrder) (b : List Byte) (s : State) :
    Takes 0 (engineBound b.length) s (xferWrite order b s) := by
  have hbody (s : State) := (startTransfer_takes .xferWrite s).andThen fun t _ =>
    (writeWords_takes order b (b.length / 4) t).andThen fun t _ =>
    (startPhaseB_takes .xferWrite t).andThen fun t _ =>
    (writeBytes_takes b (b.length % 4) t).andThen fun t _ => takes_return .xferWrite 16 t
  exact Takes.within (body := xferWriteBody order b) <|
    (hbody _).mono (Nat.le_refl _) (by unfold engineBound; omega)

theorem xferRead_takes (order : ByteOrder) (n : Nat) (out : List Byte) (s : State) :
    Takes 0 (engineBound n) s (xferRead order n out s) := by
  have hbody (s : State) := (startTransfer_takes .xferRead s).andThen fun t _ =>
    (readWords_takes order (n / 4) t).andThen fun t _ =>
    (startPhaseB_takes .xferRead t).andThen fun t _ =>
    (readBytes_takes (n % 4) t).andThen fun t _ => takes_return .xferRead 17 t
  exact Takes.within (body := xferReadBody order n out) <|
    ((hbody _).mono (Nat.le_refl _) (by unfold engineBound; omega)).free (ran_handBuffer out _)

/-! #### The message -/

/-- The bytes a legal descriptor sends are as many as it says (R39 duty 5). -/
theorem length_of_legal_write {d : Descriptor} {b : List Byte} (hd : d.illegal = none)
    (ht : d.tx = some b) : b.length = d.len := by
  by_contra hne
  exact Descriptor.illegal_ne_none (.inr (.inr (.inl ⟨b, ht, hne⟩))) hd

theorem runEngine_takes {order : ByteOrder} {k : Nat} {d : Descriptor} (hd : d.illegal = none)
    (s : State) : Takes 0 (engineBound d.len) s (runEngine order k d s) := by
  unfold runEngine
  cases ht : d.tx with
  | some b =>
    rw [← length_of_legal_write hd ht]
    exact (xferWrite_takes order b _).free (ran_atLine .transfer 16 s)
  | none =>
    exact ((xferRead_takes order d.len _ _).mapState (ran_returnBuffer k)).free
      (ran_atLine .transfer 18 s)

theorem ran_enterXfer (k : Nat) (s : State) : Ran s (enterXfer k s) [] :=
  (((ran_atLine .transfer 11 s).then_same (ran_enterPhase (.transferring k) _)).line .transfer
    12).line .transfer 13

theorem xferStage_takes {order : ByteOrder} {k : Nat} {d : Descriptor} (hd : d.illegal = none)
    (s : State) : Takes 0 (engineBound d.len) s (xferStage order k d s) := by
  unfold xferStage
  split
  · exact takes_none ((ran_enterXfer k s).line .transfer 14)
  · exact (runEngine_takes hd _).free ((ran_enterXfer k s).line .transfer 15)

theorem ran_countXfer (d : Descriptor) (s : State) : Ran s (countXfer d s) [] :=
  ((ran_atLine .transfer 19 s).then_same (ran_setW _ _)).line .transfer 10

theorem runXfers_takes {order : ByteOrder} {ds : List Descriptor} (hds : ∀ d ∈ ds, d.illegal = none)
    (k : Nat) (s : State) :
    Takes 0 (ds.map fun d => engineBound d.len).sum s (runXfers order k ds s) := by
  induction ds generalizing k s with
  | nil => exact takes_none (.refl s)
  | cons d ds ih =>
    obtain ⟨hd, hds⟩ := List.forall_mem_cons.mp hds
    rw [runXfers_cons, List.map_cons, List.sum_cons]
    exact (xferStage_takes hd s).andThen fun t _ => (ih hds (k + 1) _).free (ran_countXfer d t)

/-- NEGOTIATE makes two accesses, or none (R100, R130). -/
theorem negotiate_takes (hz : Nat) (s : State) : Takes 0 2 s (negotiate hz s) := by
  obtain ⟨es, hdoes⟩ := negotiate_does hz s
  refine ⟨es, hdoes.ran, ?_, fun _ _ => Nat.zero_le _⟩
  rcases hdoes.accesses with rfl | ⟨v, rfl⟩
  · exact Nat.zero_le _
  · exact Nat.le_refl _

/-- The bound on a message's accesses, stage by stage (R130). -/
theorem runMessage_takes {order : ByteOrder} {m : Message} (hm : m.illegal = none) (s : State) :
    Takes 0 (2000 + (2 + (8004 + ((m.xfers.map fun d => engineBound d.len).sum + 6003)))) s
      (runMessage order m (startMessage m s)) := by
  rw [runMessage_eq]
  have hselect (t : State) : Takes 0 8004 t (selectStage m t) :=
    ((select_takes m.slot _).free (ran_enterSelected t)).mono (Nat.zero_le _) (Nat.le_refl _)
  have hdeselect (t : State) : Takes 0 6003 t (deselectStage t) :=
    ((deselect_takes _).free (ran_enterDeselected t)).mono (Nat.zero_le _) (Nat.le_refl _)
  exact ((waitAt_takes .transfer 3 _).free (startMessage_head m s).ran).andThen fun t _ =>
    ((negotiate_takes (messageSpeed m) _).free (ran_enterPrepared m t)).andThen fun t _ =>
    (hselect t).andThen fun t _ =>
    ((runXfers_takes (message_legal hm) 0 _).free (ran_atLine .transfer 10 t)).andThen fun t _ =>
    hdeselect t

theorem catchError_trace (r : Res) : (catchError r).trace = r.state.trace := by
  cases r <;> rfl

/-- Settles O52: the accesses are those up to Done, bounded stage by stage (`runMessage_takes`). -/
theorem transferAccessBound : Obligations.TransferAccessBound := by
  unfold Obligations.TransferAccessBound
  intro m s hw hs
  refine ⟨_, exec_next (wf_iff.mp hw) hs, ?_⟩
  obtain ⟨es, hran, hle, -⟩ := runMessage_takes (order := Config.hostByteOrder) (wf_iff.mp hw) s
  obtain ⟨-, -, -, -, htrace⟩ := effect_transfer_kept m s
  rw [newEvents, htrace, beforeDone, catchError_trace, hran.trace, List.drop_left]
  refine hle.trans ?_
  show _ ≤ 2000 + 2 + 4 * 2001 + (m.xfers.map fun d => engineBound d.len).sum + 3 * 2001
  omega

end Sys2Proof.Machine
end

section
namespace Sys2Proof.Machine

/-! ### ResourceUnavailable (O2) -/

/-- Settles O2: without a handle `acceptCall` refuses before anything runs, and a call that runs makes
one report, whose status is one of its operation's (`effect_settled`). -/
theorem resourceUnavailableIsAttachsAlone : Obligations.ResourceUnavailableIsAttachsAlone := by
  unfold Obligations.ResourceUnavailableIsAttachsAlone
  refine ⟨rfl, rfl, fun i s hs => ?_, fun i s t h => ?_⟩
  · rw [exec_eq]
    exact acceptCall_noHandle hs
  · obtain ⟨-, hi, rfl⟩ := exec_next_iff.mp h
    exact (effect_settled hi s).reports

end Sys2Proof.Machine
end
